-- ==== Sys2Proof/Word.lean ====
section
/-! DEFINITION. Word.lean: the plain word types of the FL-640 model and the type of a sparse table. -/

namespace Sys2Proof

/-- One byte. -/
abbrev Byte := BitVec 8

/-- A 32-bit register or scalar (R108, R477). -/
abbrev Word := BitVec 32

/-- A 64-bit address or count. -/
abbrev Dword := BitVec 64

/-- A sparse table: (index, value) pairs in rising index order, an unlisted index reading as a default that the reader names. -/
abbrev Tab (α : Type) := List (Nat × α)

end Sys2Proof
end

