-- ==== Sys2Proof/Syntax.lean ====
section
/-! DEFINITION. Syntax.lean: the commands of the FL-640, one constructor of Instr per row of spec/opcode_table.json, and the
plain data their operands are made of. An operand carries what the party outside the step supplies: the instruction fields of an
Aethod instruction (R126), the slip and the blocks the device reads from host memory (R343), the word of a register write, the
physical upset an element meets (R49, R58, R80, R93), or the fact of the bitstream that a decoder reads (R200). -/

namespace Sys2Proof

/-- The fields of an Aethod instruction word below its opcode (R126, Table 5.1). -/
structure Fields where
  mod : BitVec 8
  rd : BitVec 5
  ra : BitVec 5
  rb : BitVec 5
  rc : BitVec 5
  ad : BitVec 4
  aa : BitVec 4
  ab : BitVec 4
  pm : BitVec 3
  xf : BitVec 13
  imm : BitVec 64
  deriving DecidableEq, Repr

/-- A physical upset that an Aethod instruction meets while it runs. -/
inductive Upset where
  /-- the residue network of this column of an engine is upset: it reports a fault that the sums do not have, and none under RSDCHK
  (R49, R86, R153) -/
  | residue (engine : Nat) (half : Nat) (column : Nat)
  /-- a block sum comes out wrong by `err`: vector, column (row under MMAT) and block of an array instruction (R49) -/
  | blockSum (engine : Nat) (vector : Nat) (column : Nat) (block : Nat) (err : Int)
  /-- a scale product comes out wrong: in its significand by `sig`, in the first exponent sum by `exp` (R49) -/
  | scaleProduct (engine : Nat) (vector : Nat) (column : Nat) (block : Nat) (sig : Int) (exp : Int)
  /-- the loader counts disagree at the n-th block of the stream (R39, SKEW_COUNT) -/
  | skewCount (n : Nat)
  /-- a carrel, vector-register, staging or DRAM read of the instruction is uncorrectable (R93, Table 12.2) -/
  | uncorrectable
  /-- an uncorrectable instruction-cache fill from DRAM (Table 12.2, row instruction cache miss) -/
  | fetchUncorrectable
  /-- a single-bit error was corrected (R80, R93) -/
  | corrected
  /-- a stored bit of a weight operand flips: (engine, column, reduction element, bit of its code) (R65) -/
  | weight (engine : Nat) (column : Nat) (element : Nat) (bit : Nat)
  /-- an instruction-cache line with an uncorrectable error is invalidated and refetched (R96) -/
  | refetched
  /-- a double-bit error in accumulator entry (engine, entry, column) (R80) -/
  | accumulator (engine : Nat) (entry : Nat) (column : Nat)
  deriving DecidableEq, Repr

/-- An instruction as a core's sequencer has fetched it: its fields, and the upsets it meets, which for an instruction that reads registers alone
are those of its fetch (R96). -/
structure Fetched where
  fields : Fields
  upsets : List Upset := []
  deriving DecidableEq, Repr

/-- A fetched word of NOP, or one whose opcode Table 5.6 does not list (R128). -/
structure Unlisted where
  op : Byte
  fields : Fields
  upsets : List Upset := []
  deriving DecidableEq, Repr

/-- An end of a halo channel that times out: its direction, and whether the partner issued in the same arbitration and lost it (R98). -/
structure HaloEnd where
  recv : Bool
  race : Bool
  deriving DecidableEq, Repr

/-- A carrel copy that ends: its logical core, whether the old core cannot be read at all, and the lines, of 64 bytes (log entry 99), that read
uncorrectable (R89). -/
structure CopyEnd where
  core : Nat
  unreadable : Bool := false
  lost : List Nat := []
  deriving DecidableEq, Repr

/-- The outcome of a read the device makes of host memory (R347). -/
inductive HostRead where
  | data (bytes : List Byte)
  | timeout
  | failed
  deriving DecidableEq, Repr

/-- A slip as the device takes it (R343, Table 13.6), with the block that ADDR names and a second block that the first one names
(a context image, an authorisation, a board record). `rsv` says that a reserved byte of the slip is non-zero, `endWins` that the end of the
clip a CANCEL names meets the slip at the clip's arbiter and wins (R263). -/
structure SlipIn where
  ring : Nat
  tag : Word
  target : Word
  addr : Dword
  len : Word
  args : BitVec 192
  rsv : Bool
  block : HostRead
  extra : HostRead
  endWins : Bool := false
  deriving DecidableEq, Repr

/-- The opcode and tag of a slip entry: one whose OPCODE no row of Table 13.5 lists, or one whose block the device could not read. `unread`: the
read of the entry itself failed, other than by its timeout, and the receipt has OPCODE and TAG 0 (R347). -/
structure RawSlip where
  opcode : Byte
  tag : Word
  unread : Bool := false
  deriving DecidableEq, Repr

/-- Configuration-space fields of a function as the host has them: MSI-X Enable, Function Mask, Interrupt Disable, and of PF0 the
enabled VFs and the exponent of BAR2's size (R332, R335, R353 to R356). -/
structure PciCfg where
  msixEnable : Bool
  fnMask : Bool
  intxDisable : Bool
  numVfs : Nat
  bar2Size : Nat
  deriving DecidableEq, Repr

/-- An embedding (R253): FP16 elements, or where block headers stand before them A8 codes, one a byte. -/
structure Emb where
  headers : List Word := []
  elems : List (BitVec 16) := []
  deriving DecidableEq, Repr

/-- A detection of the post-processing unit as the tracker reads it (Table 9.4, R243); the n-th one of a frame is its n-th kept box. -/
structure Det where
  x0 : Word
  y0 : Word
  x1 : Word
  y1 : Word
  score : Word
  cls : Nat
  emb : Emb
  deriving DecidableEq, Repr

/-- A kept box at the Grist batcher: its corners in the source layer's coordinates, and whether a source read of it is uncorrectable (R238,
R240). -/
structure Crop where
  x0 : Word
  y0 : Word
  x1 : Word
  y1 : Word
  lost : Bool
  deriving DecidableEq, Repr

/-- The profile that a sequence header claims, as far as Table 7.1 tells profiles apart. -/
inductive Profile where
  | main
  | main10
  | mainStill
  | constrainedBaseline
  | high
  | baseline
  | other
  deriving DecidableEq, Repr

/-- A sequence header as the decoder parses it (R183): its claims, and its output window (R178). -/
structure SeqHdr where
  /-- 0 HEVC, 1 AVC, 2 AV1, 3 JPEG -/
  codec : Nat
  profile : Profile
  /-- 0 monochrome, 1 4:2:0, 2 4:2:2, 3 4:4:4 -/
  chroma : Nat
  depth : Nat
  width : Nat
  height : Nat
  /-- max_num_ref_frames, or sps_max_dec_pic_buffering_minus1 of the highest sub-layer -/
  refs : Nat
  /-- the reorder depth that the header states; AVC may leave it out (R190) -/
  stated : Option Nat
  /-- ten times the level number -/
  level : Nat
  /-- AVC frame_mbs_only_flag -/
  framesOnly : Bool
  /-- AV1 large-scale tile decoding is signalled -/
  largeScale : Bool
  /-- AV1 operating_point_idc of operating point 0 -/
  opIdc : Nat
  winX : Nat
  winY : Nat
  winW : Nat
  winH : Nat
  deriving DecidableEq, Repr

/-- Why no region of an access unit can be decoded, as its headers show (Table 7.6). -/
inductive Unreadable where
  | parameterSet
  | firstHeader
  | rejectedSyntax
  deriving DecidableEq, Repr

/-- What the headers of an access unit say when it is placed on a media core (R180, R183, R184, R190, R195). -/
structure AuHead where
  failure : Option Unreadable := none
  /-- a sequence may start with its picture: IRAP, IDR, key frame or JPEG (R184) -/
  randomAccess : Bool := false
  /-- its picture is used for reference -/
  reference : Bool := false
  /-- AV1 show_existing_frame: the slot it shows -/
  shows : Option Nat := none
  deriving DecidableEq, Repr

/-- Damage that the parser finds in the data of a coding unit (Table 7.5). -/
inductive Damage where
  /-- a value, code, decoder state or size out of its range -/
  | syntaxError
  /-- a slice or tile address that repeats or goes backwards -/
  | address
  deriving DecidableEq, Repr

/-- A coding tree unit, macroblock, superblock or restart interval of a picture, in decode order (R185, R191, R194): the luma samples it
covers, the bytes of the access unit that carry it (none where no data for it is there), and whether decoding can resume at it. -/
structure CodeUnit where
  x : Nat
  y : Nat
  w : Nat
  h : Nat
  data : Option (Nat × Nat)
  entry : Bool
  damage : Option Damage := none
  deriving DecidableEq, Repr

/-- A rectangle of luma samples of a reference that motion compensation reads, the filter's reach included, for coding unit `unit`. A
reference goes by its slot in AV1 and by its presentation time otherwise (R193). -/
structure RefRead where
  unit : Nat
  ref : Nat
  x : Nat
  y : Nat
  w : Nat
  h : Nat
  deriving DecidableEq, Repr

/-- Inter-coded luma samples of one coding block: the references and vectors that predict them, in sixteenths of a luma sample, and whether
the block carries a residual (R201, R202). -/
structure Area where
  samples : Nat
  moves : List (Nat × Int × Int)
  residual : Bool
  deriving DecidableEq, Repr

/-- What coded syntax says of one 64 x 64 block of a picture (R196, R200 to R202). -/
structure BlockFact where
  /-- some sample is intra-coded -/
  intra : Bool := false
  reads : List RefRead := []
  /-- blocks of the same picture that intra prediction reads -/
  intraReads : List Nat := []
  areas : List Area := []
  /-- an in-loop filter alters the block's interior -/
  loopFiltered : Bool := false
  deriving DecidableEq, Repr

/-- What the decoder finds in the coded data of a picture (R191 to R202). -/
structure PicFact where
  /-- an AV1 frame that is not shown: another picture of the access unit follows -/
  hidden : Bool := false
  /-- RASL or leading picture (R193) -/
  leading : Bool := false
  /-- the references it needs: name, and presentation time by which a missing one is replaced (R193) -/
  named : List (Nat × Nat) := []
  /-- RefPicList0[0] or LAST_FRAME (R192) -/
  first : Option Nat := none
  /-- PTS of the references kept after this picture, and of those marked long-term, itself included -/
  keeps : List Nat := []
  longTerm : List Nat := []
  /-- AV1 slots that this picture refreshes -/
  slots : List Nat := []
  units : List CodeUnit := []
  blocks : List BlockFact := []
  /-- AV1 global motion parameters of its references that are not the identity: six parameters in units of 1/65,536 (R202) -/
  warps : List (Nat × List Int) := []
  /-- coded samples of all planes and coded bits (R179) -/
  samples : Nat := 0
  bits : Nat := 0
  /-- single-bit errors corrected in the core's memories (R390) -/
  corrected : Nat := 0
  deriving DecidableEq, Repr

/-- The last key of a coded picture's free decisions, that of a JPEG file (log entry 115), and the single-bit errors corrected in the encoder core's
memories (R390). -/
structure CodeEnd where
  file : Nat
  corrected : Nat := 0
  deriving DecidableEq, Repr

/-- How a core answers the steward's poll (R396). -/
inductive PollReply where
  | answered (noIssueCycles : Nat)
  | silent (stewardCycles : Nat)
  deriving DecidableEq, Repr

/-- Which job firmware starts (R103, R251). -/
inductive JobPick where
  | queued (job : Nat)
  | adapt (stream : Nat) (prog : Nat)
  deriving DecidableEq, Repr

/-- A unit under in-service test (R451). -/
inductive TestUnit where
  | core (phys : Nat)
  | media (n : Nat)
  deriving DecidableEq, Repr

/-- The outcome of an in-service test (R451): a repair has its repair record entry. -/
inductive TestOutcome where
  | pass
  | repaired (entry : BitVec 128)
  | retired
  deriving DecidableEq, Repr

/-- A shared unit with slots (R286). -/
inductive SharedUnit where
  | post (cluster : Nat)
  | cellar
  deriving DecidableEq, Repr

/-- The owner of Cellar buffers (R322, Table 12.4). -/
inductive Owner where
  | stream (id : Nat)
  | residency (cluster : Nat) (slot : Nat) (prog : Nat)
  | partition (p : Nat)
  deriving DecidableEq, Repr

/-- What a memory controller meets (R309 to R314). -/
inductive DramError where
  | clean
  /-- `aged`: earlier corrected reads of the device that now lie more than 24 hours back (R310) -/
  | corrected (rank : Nat) (device : Nat) (aged : Nat)
  | uncorrectable
  deriving DecidableEq, Repr

/-- A command or write alert of a channel (R312, R313). -/
inductive DramAlert where
  | writeCrc (line : Nat)
  | parity
  deriving DecidableEq, Repr

/-- A fabric packet: the fields of the header of Table 14.2 as they arrive, the reserved bytes 7 and 13 and the two CRCs among them, and
the payload, whose length is LEN (R362). -/
structure Packet where
  dst : BitVec 16
  src : BitVec 16
  ctrl : Byte
  type : Byte
  ttl : Byte
  rsv7 : Byte
  txid : BitVec 16
  win : Byte
  rsv13 : Byte
  rlen : BitVec 16
  offset : Dword
  pcrc : Word
  hcrc : Word
  payload : List Byte
  deriving DecidableEq, Repr

/-- A register write the host makes (R334): function, BAR0 offset, size in bytes, value, and whether byte enables cover whole words. -/
structure RegWrite where
  fn : Nat
  offset : Nat
  size : Nat
  value : Dword
  whole : Bool
  deriving DecidableEq, Repr

/-- A unit that fails the boot quick check (R444). -/
inductive FailedUnit where
  | core (phys : Nat)
  | media (n : Nat)
  | lanes (die : Nat)
  deriving DecidableEq, Repr

/-- What the security island and the memory controllers find during boot (R443, R444, R458, R306). -/
structure BootFacts where
  variantHigh : Bool
  bootSrc : Nat
  fuseError : Bool
  /-- the firmware image and the board record that a programmer outside the device has put into flash since, if any (R454) -/
  flash : Option (List Byte)
  board : Option (List Byte)
  /-- the record in force, and the one in the other slot, fail their tag or serial (R449) -/
  recordBad : Bool := false
  otherBad : Bool := false
  /-- trained channels: (channel, capacity GiB, ranks) -/
  trained : List (Nat × Nat × Nat)
  rdimm : Bool
  rate : Nat
  retired : List FailedUnit
  deriving DecidableEq, Repr

/-- The supply rails of Table 17.1. -/
inductive SampleRail where
  | cd0 | cd1 | sram | bd | aon | si | ddr | serdes | io
  deriving DecidableEq, Repr

/-- The commands: one constructor per row of spec/opcode_table.json, in the table's order. `c` is a logical core, `f` the
instruction's fields and `u` the upsets it meets; `x` is a slip. -/
inductive Instr where
  /-- `op`: the opcode of the word the sequencer meets, 0x00 for NOP; an opcode that Table 5.6 does not list ends in ILLEGAL (R128) -/
  | nop (c : Nat) (w : Unlisted)
  /-- `u`: what the proofs of a partition 0 part meet (R409) -/
  | endPart (c : Nat) (f : Fields) (u : List Upset)
  | br (c : Nat) (w : Fetched)
  | brc (c : Nat) (w : Fetched)
  | jl (c : Nat) (w : Fetched)
  | jr (c : Nat) (w : Fetched)
  | add (c : Nat) (w : Fetched)
  | sub (c : Nat) (w : Fetched)
  | mul (c : Nat) (w : Fetched)
  | div (c : Nat) (w : Fetched)
  | rem (c : Nat) (w : Fetched)
  | and (c : Nat) (w : Fetched)
  | or (c : Nat) (w : Fetched)
  | xor (c : Nat) (w : Fetched)
  | shl (c : Nat) (w : Fetched)
  | shr (c : Nat) (w : Fetched)
  | sra (c : Nat) (w : Fetched)
  | slt (c : Nat) (w : Fetched)
  | minmax (c : Nat) (w : Fetched)
  | fop (c : Nat) (w : Fetched)
  | ldi (c : Nat) (w : Fetched)
  | ldst (c : Nat) (f : Fields) (u : List Upset)
  | dld (c : Nat) (f : Fields) (u : List Upset)
  | dset (c : Nat) (w : Fetched)
  | dcpy (c : Nat) (w : Fetched)
  | dadv (c : Nat) (w : Fetched)
  | tld (c : Nat) (f : Fields) (u : List Upset)
  | tst (c : Nat) (f : Fields) (u : List Upset)
  | tcp (c : Nat) (f : Fields) (u : List Upset)
  | hxch (c : Nat) (w : Fetched)
  /-- sender, port -/
  | haloTransferDone (c : Nat) (port : Nat) (u : List Upset)
  | haloTimeout (c : Nat) (port : Nat) (w : HaloEnd)
  | wld (c : Nat) (f : Fields) (u : List Upset)
  | mma (c : Nat) (f : Fields) (u : List Upset)
  | mmat (c : Nat) (f : Fields) (u : List Upset)
  | aclr (c : Nat) (w : Fetched)
  | adrn (c : Nat) (f : Fields) (u : List Upset)
  | vadd (c : Nat) (f : Fields) (u : List Upset)
  | vsub (c : Nat) (f : Fields) (u : List Upset)
  | vmul (c : Nat) (f : Fields) (u : List Upset)
  | vfma (c : Nat) (f : Fields) (u : List Upset)
  | vmin (c : Nat) (f : Fields) (u : List Upset)
  | vmax (c : Nat) (f : Fields) (u : List Upset)
  | vcmp (c : Nat) (f : Fields) (u : List Upset)
  | vlog (c : Nat) (f : Fields) (u : List Upset)
  | vcvt (c : Nat) (f : Fields) (u : List Upset)
  | vred (c : Nat) (f : Fields) (u : List Upset)
  | vld (c : Nat) (f : Fields) (u : List Upset)
  | vst (c : Nat) (f : Fields) (u : List Upset)
  | vsel (c : Nat) (f : Fields) (u : List Upset)
  | vbc (c : Nat) (f : Fields) (u : List Upset)
  | plog (c : Nat) (f : Fields) (u : List Upset)
  | pfirst (c : Nat) (f : Fields) (u : List Upset)
  | vcurve (c : Nat) (f : Fields) (u : List Upset)
  | vlut (c : Nat) (f : Fields) (u : List Upset)
  | vext (c : Nat) (f : Fields) (u : List Upset)
  | qnt (c : Nat) (f : Fields) (u : List Upset)
  | dqn (c : Nat) (f : Fields) (u : List Upset)
  | stat (c : Nat) (w : Fetched)
  | ppc (c : Nat) (f : Fields) (u : List Upset)
  | semw (c : Nat) (w : Fetched)
  | semwTimeout (c : Nat)
  | sems (c : Nat) (w : Fetched)
  | fence (c : Nat) (w : Fetched)
  | take (c : Nat) (w : Fetched)
  | claim (c : Nat) (w : Fetched)
  | commit (c : Nat) (f : Fields) (u : List Upset)
  | proof (c : Nat) (f : Fields) (u : List Upset)
  | rsdchk (c : Nat) (f : Fields) (u : List Upset)
  | jobStart (pick : JobPick) (cores : List Nat)
  | steal (c : Nat)
  | preempt (job : Nat)
  | preemptSaveDone (c : Nat)
  | holdLimitExpiry (c : Nat)
  | partResume (c : Nat)
  | eviction (cluster : Nat) (part : Nat)
  | evictionDone (cluster : Nat)
  | contextReplaceSwap (ctx : Nat)
  | coreMove (c : Nat)
  | carrelCopyDone (x : CopyEnd)
  | inServiceTestStart (unit : TestUnit)
  | inServiceTestEnd (unit : TestUnit) (outcome : TestOutcome)
  | trackerStep (stream : Nat) (entry : Nat) (dets : List Det) (lost : Bool)
  | batchCropArrival (cluster : Nat) (ctx : Nat) (prog : Nat) (stream : Nat) (frame : Nat) (crops : List Crop)
  | batchWindowExpiry (cluster : Nat) (ctx : Nat) (prog : Nat)
  /-- `cycle`: the safety island's cycle count at the commit (R406) -/
  | folioCommit (stream : Nat) (cycle : Nat)
  | reorderStallLimit (stream : Nat)
  | stewardPoll (c : Nat) (reply : PollReply)
  | stewardWatchdog (cluster : Nat) (second : Bool)
  | slotEnd (unit : SharedUnit)
  | ethFrameReceive (port : Nat) (frame : List Byte) (entries : List HostRead)
  | ethLinkChange (port : Nat) (up : Bool) (kind : Nat)
  /-- `cycle`: the safety island's cycle at an admission inside the command (R406) -/
  | rtpPacket (stream : Nat) (cycle : Nat)
  | rtpHoldExpiry (stream : Nat) (cycle : Nat)
  | ethTransmit (port : Nat) (entry : HostRead) (frame : HostRead)
  | rxtail (fn : Nat) (port : Nat) (value : Word)
  | txtail (fn : Nat) (port : Nat) (value : Word)
  /-- `hdr`: the sequence header in the access unit; `head`: what else the parser of the core finds at its head (R183, R184, log entry 9) -/
  | decodeStart (stream : Nat) (core : Nat) (hdr : Option SeqHdr) (head : AuHead)
  | pictureDecoded (core : Nat) (pic : PicFact)
  | mediaWatchdog (core : Nat) (memory : Bool)
  | preprocessStart (unit : Nat) (stream : Nat)
  /-- `failed`: the unit fails on the frame (R222) -/
  | preprocessDone (unit : Nat) (failed : Bool)
  | encodeStart (core : Nat)
  /-- the keys of the picture's free coding decisions: of its rows, of a skip slice, of its headers, of the rows' QPs, of a JPEG file (log entry
  115) -/
  | encodeDone (core rows repl headers qps : Nat) (last : CodeEnd)
  | encoderWatchdog (core : Nat) (memory : Bool)
  | clipWaitExpiry (fn : Nat) (clip : Word)
  | contextLoad (x : SlipIn)
  | contextEvict (x : SlipIn)
  | streamOpen (x : SlipIn)
  | streamStart (x : SlipIn)
  | streamPause (x : SlipIn)
  | streamDrain (x : SlipIn)
  | streamClose (x : SlipIn)
  | streamReconf (x : SlipIn)
  /-- `cycle`: the safety island's cycle at which the admitted frame is latched (R406); `pic`: the record carries coded picture data;
  `ra`: its picture is one a sequence may start with (R184, R224) -/
  | feed (x : SlipIn) (cycle : Nat) (pic : Bool) (ra : Bool)
  | zoneSet (x : SlipIn)
  | capture (x : SlipIn)
  | hold (x : SlipIn)
  | cancel (x : SlipIn)
  | thumb (x : SlipIn)
  | partitionSet (x : SlipIn)
  | ringAssign (x : SlipIn)
  | fenceSlip (x : SlipIn)
  | query (x : SlipIn)
  | shutdown (x : SlipIn)
  | kilnPass (x : SlipIn)
  | kilnGroupStart (group : Nat)
  | kilnDone (entries : List (BitVec 128)) (ms : Nat) (arrays : Nat) (units : Nat) (peak : Nat)
  | kilnShedTimeout (entries : List (BitVec 128)) (ms : Nat) (arrays : Nat) (units : Nat) (peak : Nat)
  | repair (x : SlipIn)
  | attest (x : SlipIn)
  | attestSignDone
  | imageUpdate (x : SlipIn)
  | imageUpdateDone (readback : Bool)
  | transition (x : SlipIn)
  | debugUnlock (x : SlipIn)
  | doorbell (fn : Nat) (ring : Nat) (value : Word) (unknown : List RawSlip)
  | ringEnable (fn : Nat) (ring : Nat) (value : Word)
  | ringDisable (fn : Nat) (ring : Nat) (value : Word)
  | receiptWrite (ring : Nat)
  | folioDelivery (stream : Nat)
  | msixModerationExpiry (ring : Nat)
  /-- `cfg`: the function's configuration space when the host unmasks -/
  | msixUnmask (fn : Nat) (vector : Nat) (cfg : PciCfg)
  | bar2Write (offset : Nat) (bytes : List Byte)
  | bar2Read (offset : Nat) (len : Nat)
  /-- the read of the next slip entry loses to its timeout, or with `slip` the read of the block of that entry -/
  | pcieCompletionTimeout (ring : Nat) (slip : Option RawSlip)
  | functionLevelReset (fn : Nat)
  | hostLinkDown
  | hostLinkUp
  /-- `lost`: the line of the free ring that a refill reads first is poisoned or uncorrectable (R331) -/
  | cellarDraw (pool : Nat) (owner : Owner) (lost : Bool)
  | cellarReturn (part : Nat) (ptr : Nat) (owner : Owner)
  | quarantineReclaim (pool : Nat) (ptr : Nat)
  | cellarRebuildDone (pool : Nat) (bitmapBad : Bool)
  | dramRefresh (ch : Nat) (rank : Nat) (critical : Bool)
  | dramRetrain (ch : Nat) (rank : Nat)
  | dramScrub (ch : Nat) (line : Nat) (err : DramError)
  /-- `replays`: replays of the command that fail before one succeeds (R313) -/
  | dramAlert (ch : Nat) (alert : DramAlert) (replays : Nat)
  | zeroMapGranule (ch : Nat)
  | fabLinkUp (port : Nat) (width : Nat) (neighbour : BitVec 16) (root : Dword)
  | fabLinkDown (port : Nat)
  | fabTrainRetry (port : Nat) (ok : Bool)
  | fecRetrain (port : Nat)
  | shedLinksDown
  | catSend
  | cat (port : Nat) (serial : Dword) (lowest : Dword) (domain : Byte) (call : BitVec 16)
  | rootElection
  | assign (port : Nat) (x : Nat) (y : Nat)
  | linkstate (call : BitVec 16) (ports : BitVec 16)
  | forward (port : Nat) (p : Packet)
  | read (port : Nat) (p : Packet)
  | write (port : Nat) (p : Packet)
  | writeSig (port : Nat) (p : Packet)
  | dataResp (p : Packet)
  | ack (p : Packet)
  | nak (p : Packet)
  | remotePacketTimeout (txid : Nat)
  | walk (fn : Nat) (value : Word)
  | retrain (fn : Nat) (value : Word)
  | fabWinValid (fn : Nat) (n : Nat) (value : Word)
  | fabWinClear (fn : Nat) (n : Nat) (value : Word)
  | silenceExpiry (stream : Nat)
  | testSlotStart (c : Nat) (batchDue : Bool)
  | testSlotEnd (c : Nat) (mismatch : Bool)
  | testIntervalExpiry (c : Nat)
  | safeOkToggle
  | arm (fn : Nat) (value : Word)
  | disarm (fn : Nat) (value : Word)
  | watchEnable (fn : Nat) (n : Nat) (value : Word)
  | lockstepMismatch
  | readZone (index : Byte)
  | readRun (index : Byte)
  | readStatus (index : Byte)
  | echo (index : Byte)
  | spigotCsDeassert
  /-- rails below each level's thresholds, as rail voltages in units of 0.1 % of nominal, and the brake pin level -/
  | shedSample (rails : List (SampleRail × Nat)) (brakeLow : Bool)
  | shedLevelFall
  | brownOut (rail : SampleRail) (permille : Nat)
  | powerEstimate (watts : Nat) (temp : Int) (sensor : Nat)
  | thermalTrip (temp : Int)
  | crystalLoss
  | islandClockStop (island : Nat)
  | islandClockRestart (island : Nat)
  | laneGroupFailure (die : Nat)
  | powerRailRise (rail : SampleRail)
  | coldReset
  | warmReset
  | deviceReset (fn : Nat) (value : Word)
  | bootStart (facts : BootFacts)
  | bootReady
  | hostBootGo (fn : Nat) (value : Word)
  | hostImageVerified
  | mbxSel (fn : Nat) (value : Word)
  | mailboxFillDone (fn : Nat)
  | lock (fn : Nat) (offset : Nat) (value : Word)
  | parityScan (offset : Nat) (mismatch : Bool)
  | pmuEvt (fn : Nat) (n : Nat) (value : Word)
  | registerWrite (w : RegWrite)
  | smbusDevId
  | smbusPwrLevel
  | smbusPwrBoot
  | smbusPwrTemp
  | smbusPwrEst
  | fabCfgEnable (fn : Nat) (value : Word)
  /-- `again`: the flit is the one replayed before on this port -/
  | flitReplay (port : Nat) (again : Bool)
  | spigotUnlistedCommand (cmd : Byte)
  deriving DecidableEq, Repr

end Sys2Proof
end

