-- ==== Sys2Proof/Decode.lean ====
section
/-! DEFINITION. Decode.lean: the words the device itself decodes. opcode_table.json gives no row bits, so decodeTableWord spells
no command; the Aethod instruction word of R126 has its own decoder and encoder here. -/

namespace Sys2Proof

/-- The command that a word spells by the table's bits: the table gives bits to no row. -/
def decodeTableWord (_nbits _w : Nat) : Option Instr := none

/-- The opcode of an Aethod instruction word (R126, Table 5.1). -/
def aethodOpc (w : BitVec 128) : BitVec 8 := w.extractLsb' 120 8

/-- The fields of an Aethod instruction word below its opcode (Table 5.1). -/
def aethodFields (w : BitVec 128) : Fields where
  mod := w.extractLsb' 112 8
  rd := w.extractLsb' 107 5
  ra := w.extractLsb' 102 5
  rb := w.extractLsb' 97 5
  rc := w.extractLsb' 92 5
  ad := w.extractLsb' 88 4
  aa := w.extractLsb' 84 4
  ab := w.extractLsb' 80 4
  pm := w.extractLsb' 77 3
  xf := w.extractLsb' 64 13
  imm := w.extractLsb' 0 64

/-- The opcodes of Table 5.6 and of the tables of its groups. -/
def aethodListed (o : Nat) : Bool :=
  decide (o ≤ 0x05) || (decide (0x10 ≤ o) && decide (o ≤ 0x23)) || (decide (0x30 ≤ o) && decide (o ≤ 0x33)) || (decide (0x40 ≤ o) && decide (o ≤ 0x44))
    || (decide (0x50 ≤ o) && decide (o ≤ 0x62)) || (decide (0x70 ≤ o) && decide (o ≤ 0x72)) || o == 0x80 || (decide (0x90 ≤ o) && decide (o ≤ 0x92))
    || (decide (0xA0 ≤ o) && decide (o ≤ 0xA2)) || o == 0xB0 || o == 0xB1

/-- The instruction of a word on logical core c, meeting no upset. A word whose opcode Table 5.6 does not list is the sequencer's ILLEGAL, which
the NOP command carries (R128). -/
def aethodDecode (c : Nat) (w : BitVec 128) : Option Instr :=
  let f := aethodFields w
  match (aethodOpc w).toNat with
  | 0x00 => some (.nop c ⟨0, f, []⟩) | 0x01 => some (.endPart c f []) | 0x02 => some (.br c ⟨f, []⟩) | 0x03 => some (.brc c ⟨f, []⟩)
  | 0x04 => some (.jl c ⟨f, []⟩) | 0x05 => some (.jr c ⟨f, []⟩) | 0x10 => some (.add c ⟨f, []⟩) | 0x11 => some (.sub c ⟨f, []⟩)
  | 0x12 => some (.mul c ⟨f, []⟩) | 0x13 => some (.div c ⟨f, []⟩) | 0x14 => some (.rem c ⟨f, []⟩) | 0x15 => some (.and c ⟨f, []⟩)
  | 0x16 => some (.or c ⟨f, []⟩) | 0x17 => some (.xor c ⟨f, []⟩) | 0x18 => some (.shl c ⟨f, []⟩) | 0x19 => some (.shr c ⟨f, []⟩)
  | 0x1A => some (.sra c ⟨f, []⟩) | 0x1B => some (.slt c ⟨f, []⟩) | 0x1C => some (.minmax c ⟨f, []⟩) | 0x1D => some (.fop c ⟨f, []⟩)
  | 0x1E => some (.ldi c ⟨f, []⟩) | 0x1F => some (.ldst c f []) | 0x20 => some (.dld c f []) | 0x21 => some (.dset c ⟨f, []⟩)
  | 0x22 => some (.dcpy c ⟨f, []⟩) | 0x23 => some (.dadv c ⟨f, []⟩) | 0x30 => some (.tld c f []) | 0x31 => some (.tst c f [])
  | 0x32 => some (.tcp c f []) | 0x33 => some (.hxch c ⟨f, []⟩) | 0x40 => some (.wld c f []) | 0x41 => some (.mma c f [])
  | 0x42 => some (.mmat c f []) | 0x43 => some (.aclr c ⟨f, []⟩) | 0x44 => some (.adrn c f []) | 0x50 => some (.vadd c f [])
  | 0x51 => some (.vsub c f []) | 0x52 => some (.vmul c f []) | 0x53 => some (.vfma c f []) | 0x54 => some (.vmin c f [])
  | 0x55 => some (.vmax c f []) | 0x56 => some (.vcmp c f []) | 0x57 => some (.vlog c f []) | 0x58 => some (.vcvt c f [])
  | 0x59 => some (.vred c f []) | 0x5A => some (.vld c f []) | 0x5B => some (.vst c f []) | 0x5C => some (.vsel c f [])
  | 0x5D => some (.vbc c f []) | 0x5E => some (.plog c f []) | 0x5F => some (.pfirst c f []) | 0x60 => some (.vcurve c f [])
  | 0x61 => some (.vlut c f []) | 0x62 => some (.vext c f []) | 0x70 => some (.qnt c f []) | 0x71 => some (.dqn c f [])
  | 0x72 => some (.stat c ⟨f, []⟩) | 0x80 => some (.ppc c f []) | 0x90 => some (.semw c ⟨f, []⟩) | 0x91 => some (.sems c ⟨f, []⟩)
  | 0x92 => some (.fence c ⟨f, []⟩) | 0xA0 => some (.take c ⟨f, []⟩) | 0xA1 => some (.claim c ⟨f, []⟩) | 0xA2 => some (.commit c f [])
  | 0xB0 => some (.proof c f []) | 0xB1 => some (.rsdchk c f [])
  | _ => some (.nop c ⟨(aethodOpc w), f, []⟩)

/-- The opcode and the fields of an Aethod command (Table 5.6; NOP's command carries its own opcode, R128); none for a command that is no Aethod
instruction. -/
def aethodParts : Instr → Option (BitVec 8 × Fields)
  | .nop _ ⟨op, f, _⟩ => some (op, f) | .endPart _ f _ => some (0x01, f) | .br _ ⟨f, _⟩ => some (0x02, f) | .brc _ ⟨f, _⟩ => some (0x03, f)
  | .jl _ ⟨f, _⟩ => some (0x04, f) | .jr _ ⟨f, _⟩ => some (0x05, f)
  | .add _ ⟨f, _⟩ => some (0x10, f) | .sub _ ⟨f, _⟩ => some (0x11, f) | .mul _ ⟨f, _⟩ => some (0x12, f) | .div _ ⟨f, _⟩ => some (0x13, f)
  | .rem _ ⟨f, _⟩ => some (0x14, f) | .and _ ⟨f, _⟩ => some (0x15, f) | .or _ ⟨f, _⟩ => some (0x16, f) | .xor _ ⟨f, _⟩ => some (0x17, f)
  | .shl _ ⟨f, _⟩ => some (0x18, f) | .shr _ ⟨f, _⟩ => some (0x19, f) | .sra _ ⟨f, _⟩ => some (0x1A, f) | .slt _ ⟨f, _⟩ => some (0x1B, f)
  | .minmax _ ⟨f, _⟩ => some (0x1C, f) | .fop _ ⟨f, _⟩ => some (0x1D, f) | .ldi _ ⟨f, _⟩ => some (0x1E, f) | .ldst _ f _ => some (0x1F, f)
  | .dld _ f _ => some (0x20, f) | .dset _ ⟨f, _⟩ => some (0x21, f) | .dcpy _ ⟨f, _⟩ => some (0x22, f) | .dadv _ ⟨f, _⟩ => some (0x23, f)
  | .tld _ f _ => some (0x30, f) | .tst _ f _ => some (0x31, f) | .tcp _ f _ => some (0x32, f) | .hxch _ ⟨f, _⟩ => some (0x33, f)
  | .wld _ f _ => some (0x40, f) | .mma _ f _ => some (0x41, f) | .mmat _ f _ => some (0x42, f) | .aclr _ ⟨f, _⟩ => some (0x43, f)
  | .adrn _ f _ => some (0x44, f)
  | .vadd _ f _ => some (0x50, f) | .vsub _ f _ => some (0x51, f) | .vmul _ f _ => some (0x52, f) | .vfma _ f _ => some (0x53, f)
  | .vmin _ f _ => some (0x54, f) | .vmax _ f _ => some (0x55, f) | .vcmp _ f _ => some (0x56, f) | .vlog _ f _ => some (0x57, f)
  | .vcvt _ f _ => some (0x58, f) | .vred _ f _ => some (0x59, f) | .vld _ f _ => some (0x5A, f) | .vst _ f _ => some (0x5B, f)
  | .vsel _ f _ => some (0x5C, f) | .vbc _ f _ => some (0x5D, f) | .plog _ f _ => some (0x5E, f) | .pfirst _ f _ => some (0x5F, f)
  | .vcurve _ f _ => some (0x60, f) | .vlut _ f _ => some (0x61, f) | .vext _ f _ => some (0x62, f)
  | .qnt _ f _ => some (0x70, f) | .dqn _ f _ => some (0x71, f) | .stat _ ⟨f, _⟩ => some (0x72, f)
  | .ppc _ f _ => some (0x80, f)
  | .semw _ ⟨f, _⟩ => some (0x90, f) | .sems _ ⟨f, _⟩ => some (0x91, f) | .fence _ ⟨f, _⟩ => some (0x92, f)
  | .take _ ⟨f, _⟩ => some (0xA0, f) | .claim _ ⟨f, _⟩ => some (0xA1, f) | .commit _ f _ => some (0xA2, f)
  | .proof _ f _ => some (0xB0, f) | .rsdchk _ f _ => some (0xB1, f)
  | _ => none

/-- The 128-bit word of an opcode and its fields (Table 5.1). -/
def aethodWord (o : BitVec 8) (f : Fields) : BitVec 128 :=
  o ++ f.mod ++ f.rd ++ f.ra ++ f.rb ++ f.rc ++ f.ad ++ f.aa ++ f.ab ++ f.pm ++ f.xf ++ f.imm

/-- The instruction word of an Aethod command (R126); none for any other command. -/
def aethodEncode (i : Instr) : Option (BitVec 128) :=
  (aethodParts i).map fun p => aethodWord p.1 p.2

end Sys2Proof
end

