-- ==== Sys2Proof/Config.lean ====
section
/-! DEFINITION. Config.lean: what an implementation fixes and the spec leaves open. Every constant here is opaque: it has no
body, so no proof can see its value, and a statement holds whatever it is (log entries 2, 5 to 10). -/

namespace Sys2Proof.Config

/-- A value the spec leaves open, one per draw; the step applies it to a counter of State (log entry 2). -/
opaque freeValue : Nat → BitVec 512

/-- Whether 1,000,000 host-island cycles have not yet passed since the creation of an entry that a C0 event equals, by the draws and the order so
far and the event's SEQ (R392, log entry 19). -/
opaque mergeOpen : Nat → Nat → Nat → Bool

/-- Sign and payload of a NaN result, from the operands' bits; the spec fixes neither (R90, R108, log entry 10). -/
opaque nanBits : Nat → Nat → BitVec 23

/-- Which of two zeros of unlike sign a minimum or maximum returns (R139, R148, log entry 10). -/
opaque zeroPick : Nat → Nat → Bool

/-- What the post-processing unit returns for the logistic function, among the values within 2 ulp of it (R234, log entry 5). -/
opaque sigma : BitVec 32 → BitVec 32

/-- What the post-processing unit returns for the exponential, among the values within 2 ulp of it (R234, log entry 5). -/
opaque expo : BitVec 32 → BitVec 32

/-- SHAKE256 with a 512-bit output, a standard the spec names and does not restate (R276, R459, log entry 6). -/
opaque shake256 : List Byte → BitVec 512

/-- Verification of an SLH-DSA signature: public key, context string number, message, signature (R454, R465, log entry 6). -/
opaque slhVerify : List Byte → Nat → List Byte → List Byte → Bool

/-- An SLH-DSA-SHAKE-256f signature under the identity key, 49,856 bytes (R461, log entry 6): byte k of it. -/
opaque idSign : List Byte → Nat → Byte

/-- The identity public key, 64 bytes, generated from the identity seed (R460, log entry 6). -/
opaque idPublic : BitVec 512

/-- The KMAC256 tag of a repair record (R449, log entry 6). -/
opaque kmacTag : List Byte → BitVec 256

/-- The 32-byte header of a repair record by SEQ, NENT and serial: word k of it. R449 gives its fields and not their places or its version
(log entry 40). -/
opaque repairHeader : Nat → Nat → BitVec 64 → Nat → BitVec 32

/-- The peak power in W fused for Kiln group g, and the idle estimate at index 0 (R447, log entry 7). -/
opaque kilnPeak : Nat → Nat

/-- A sample of a coded picture as its standard reconstructs it before film grain: codec, parameter sets, the NAL units or OBUs of the access
unit, the samples of its references by name, plane, x and y; then plane, x and y. R176 names the standards and does not restate them (log
entry 9). -/
opaque codedSample : Nat → List (List Byte) → List (List Byte) → (Nat → Nat → Nat → Nat → Nat) → Nat → Nat → Nat → Nat

/-- A byte of the motion data kept with a picture, by codec, NAL units or OBUs and place: the device's own format (Table 7.4, log entry 9). -/
opaque motionByte : Nat → List (List Byte) → Nat → Byte

/-- Whether an RTP packet of H.265 carries DONL or DOND: R213 refuses it and gives the device no way to know (log entry 78). -/
opaque carriesDon : List Byte → Bool

/-- A coordinate of a box corner that is no finite number, in units of 2^-64 pixel (R243, log entry 30). -/
opaque nonFinite : BitVec 32 → Int

/-- The descriptor image of a context's feature layer, by context and layer index: where crops are gathered from; the context image does not
give it to the device (R238, Table 11.4, log entry 31). -/
opaque layerImage : Nat → Nat → BitVec 256

/-- Whether a BATCH program of a context, by context and table index, is an attribute program, and whether it computes embeddings: Table 11.3
does not tell the thin heads apart (R253, log entry 111). -/
opaque attrProg : Nat → Nat → Bool
/-- See attrProg. -/
opaque embProg : Nat → Nat → Bool

/-- What the encoder codes of one CTU row (R266 to R271): whether the picture is the IDR picture, the row, whether it is capped, the QP and the
forced intra mode of each CTU, the luma columns that the sweep has refreshed, and the vector of each 16 x 16 block by CTU. -/
structure RowTask where
  idr : Bool
  row : Nat
  capped : Bool
  qps : List Nat
  intra : List Bool
  refreshed : Nat
  vectors : List (List (Int × Int))

/-- The keys of one picture's free coding decisions: of its rows, of a skip slice, of its headers, of the rows' QPs, of a JPEG file. ENCODE_DONE
brings them, so that two pictures of the same samples need not be coded alike (log entry 115). -/
structure CodeKeys where
  rows : Nat
  repl : Nat
  headers : Nat
  qps : Nat
  file : Nat

/-- The coded bytes of a row by its key and its source and reference samples (plane, x, y): the entropy coding and the decisions within HEVC that
R266 to R271 leave to the encoder (log entry 115). -/
opaque rowBits : Nat → RowTask → (Nat → Nat → Nat → Nat) → (Nat → Nat → Nat → Nat) → List Byte

/-- A sample of the reconstructed picture of coded rows with the rows' key (log entry 115). -/
opaque reconSample : Nat → List RowTask → (Nat → Nat → Nat → Nat) → (Nat → Nat → Nat → Nat) → Nat → Nat → Nat → Byte

/-- The head of a slice by key, width, height, whether it is the IDR picture's, and the pictures since that one (log entry 115). -/
opaque sliceHead : Nat → Nat → Nat → Bool → Nat → List Byte

/-- The slice of an all-skip P picture by key, width, height and the pictures since the IDR picture (log entry 115). -/
opaque skipSlice : Nat → Nat → Nat → Nat → List Byte

/-- The items of Table 10.3 that the parameter sets carry. -/
structure HevcItems where
  /-- Main profile, Main tier, ten times the level -/
  profile : Nat := 1
  tier : Nat := 0
  level : Nat := 51
  depth : Nat := 8
  /-- log2 of the CTU, of the least coding block, and of the least and largest transform -/
  ctu : Nat := 6
  minBlock : Nat := 3
  minTransform : Nat := 2
  maxTransform : Nat := 5
  references : Nat := 1
  amp : Bool := false
  sao : Bool := true
  deblocking : Bool := true
  tmvp : Bool := false
  signHiding : Bool := true
  tiles : Bool := false
  wavefront : Bool := false
  timeScale : Nat := 90000
  cbrFlag : Bool := false
  /-- clip size in the conformance window, num_units_in_tick, HRD bit rate and buffer in bits -/
  width : Nat
  height : Nat
  tick : Nat
  bitRate : Nat
  buffer : Nat

/-- VPS, SPS and PPS with these items, as HEVC codes them, by key (log entry 115). -/
opaque parameterSets : Nat → HevcItems → List Byte

/-- A recovery point SEI message by key, exact_match_flag and recovery_poc_cnt (R268, log entry 115). -/
opaque recoverySei : Nat → Nat → Nat → List Byte

/-- The QP of a CTU row before region offsets by key: VBR, the bits CBR aims at or the peak of VBR, the HRD buffer's fullness, the row, the bytes of
the picture so far (R271 states the aim and not the law, log entry 115). -/
opaque rowQp : Nat → Bool → Nat → Nat → Nat → Nat → Nat

/-- The factor of a vector's coded bits in the search cost by QP, in 1/256, and those bits (R267, log entry 115). -/
opaque lambda : Nat → Nat
/-- See lambda. -/
opaque vectorBits : Int → Int → Nat

/-- A baseline JPEG file by key, size, luma and chroma quantisation tables and samples (R274, log entry 115). -/
opaque jpegFile : Nat → Nat → Nat → List Nat → List Nat → (Nat → Nat → Nat → Nat) → List Byte

/-- Bytes of the encoder working set of one clip (Table 12.4, log entry 31). -/
opaque clipBytes : Nat

/-- The CODE of a TEST event for outcome k (0 pass, 1 repaired, 2 retired): R451 says that the event carries the outcome and not how
(log entry 41). -/
opaque testCode : Nat → Nat

/-- Buffer credits that the flits of a port bring back, at the k-th time the model asks, for buffer 4 * VC + CLASS (R371, log entry 60). -/
opaque creditsBack : Nat → Nat → Nat → Nat

/-- The 32 payload bytes of a CAT packet, which Table 14.3 sizes and does not lay out (log entry 42): own serial, lowest serial heard, domain
and call number. -/
opaque catPayload : BitVec 64 → BitVec 64 → Byte → BitVec 16 → BitVec 256

/-- The 16 payload bytes of an ASSIGN packet that offers coordinates (log entry 42). -/
opaque assignPayload : Nat → Nat → BitVec 128

/-- The 16 payload bytes of a LINKSTATE packet: sender and port states (log entry 42). -/
opaque linkstatePayload : BitVec 16 → Nat → BitVec 128

/-- CODE of C4 cause k (0 thermal trip, 1 crystal loss), which the spec does not number (log entry 43). -/
opaque c4Code : Nat → Byte

/-- The values of a board record lie in Tables 12.1 and 17.1; R458 names them and not their places (log entry 45). -/
opaque boardValues : List Byte → Bool

/-- The entry indices and the serial of a REPAIR block; none where a field breaks its layout, of which R450 gives the fields and not their
places (log entry 45). -/
opaque repairBlock : List Byte → Option (List Nat × BitVec 64)

/-- The engine, even for engine 0, of the array number of an engine column repair (Table 17.8, log entry 44). -/
opaque arrayEngine : Nat → Nat

/-- The bytes by which M0 is extended at boot: LCS, REVOKE and SECVER fuses, variant, VARIANT_CHK and BOOT_SRC straps; R459 names them and
not their layout (log entry 6). -/
opaque bootMeasure : Nat → Nat → Nat → Bool → Bool → Nat → List Byte

/-- Which bit of an engine's tile stands at bit k of its part of the save area, and which header at word k of its headers; R119 gives the
ranges and not the order inside them (log entry 26). -/
opaque savedBit : Nat → Nat
/-- See savedBit. -/
opaque savedHeader : Nat → Nat

/-- The seven SEC-DED check bits over an accumulator entry's value and state; R75 does not give the code (log entry 101). -/
opaque accCheck : Nat → Nat → BitVec 7

/-- The physical column, of 520, that an engine column repair names; Table 17.8 does not say where it stands (log entry 44). -/
opaque repairColumn : BitVec 128 → Nat

/-- Whether the spare rows and columns of a core's SRAMs cover these repair entries; R67 gives no number of them (log entry 102). -/
opaque sparesCover : List (BitVec 128) → Bool

end Sys2Proof.Config
end

