-- ==== Sys2Proof/Machine/Tab.lean ====
section
/-! DEFINITION. Machine/Tab.lean: reading and writing sparse tables, and memories in canonical form. -/

namespace Sys2Proof.Machine

variable {α : Type}

/-- The entry of a table at k, or d where the table lists none. -/
def tget (t : Tab α) (d : α) (k : Nat) : α :=
  match t with
  | [] => d
  | (i, v) :: r => if i = k then v else tget r d k

/-- The entry of a table at k, if the table lists one. -/
def tfind (t : Tab α) (k : Nat) : Option α :=
  match t with
  | [] => none
  | (i, v) :: r => if i = k then some v else tfind r k

/-- The table with the entry at k set to v, in rising index order. -/
def tset (t : Tab α) (k : Nat) (v : α) : Tab α :=
  match t with
  | [] => [(k, v)]
  | (i, w) :: r => if k < i then (k, v) :: (i, w) :: r else if i = k then (k, v) :: r else (i, w) :: tset r k v

/-- The table without any entry at k. -/
def tdrop (t : Tab α) (k : Nat) : Tab α :=
  match t with
  | [] => []
  | (i, w) :: r => if i = k then tdrop r k else (i, w) :: tdrop r k

/-- The table with the entry at k changed by f, from d where it lists none. -/
def tmod (t : Tab α) (d : α) (k : Nat) (f : α → α) : Tab α := tset t k (f (tget t d k))

/-- Every listed entry changed by f. -/
def tmap (t : Tab α) (f : Nat → α → α) : Tab α := t.map fun p => (p.1, f p.1 p.2)

/-- The indices of a table rise strictly from above the bound. -/
def risingAbove (b : Nat) (t : Tab α) : Bool :=
  match t with
  | [] => true
  | (i, _) :: r => decide (b < i) && risingAbove i r

/-- The indices of a table rise strictly. -/
def rising (t : Tab α) : Bool :=
  match t with
  | [] => true
  | (i, _) :: r => risingAbove i r

/-- A memory is in canonical form for the value d of an unlisted byte: addresses rise and no entry equals d. -/
def memWf (d : Byte) (m : List Host.Cell) : Bool := rising m && m.all fun c => c.2 != d

/-- One byte of a memory whose unlisted bytes read as d. -/
def memGet (d : Byte) (m : List Host.Cell) (a : Nat) : Byte := tget m d a

/-- Write one byte: writing d removes the entry. -/
def memSet (d : Byte) (m : List Host.Cell) (a : Nat) (v : Byte) : List Host.Cell :=
  if v = d then tdrop m a else tset m a v

/-- n bytes from a on. -/
def memBytes (d : Byte) (m : List Host.Cell) (a n : Nat) : List Byte :=
  (List.range n).map fun i => memGet d m (a + i)

/-- Write bytes from a on. -/
def memWrite (d : Byte) (m : List Host.Cell) (a : Nat) (bs : List Byte) : List Host.Cell :=
  match bs with
  | [] => m
  | b :: r => memWrite d (memSet d m a b) (a + 1) r

/-- Write bytes from a on into an overlay, which lists every byte written. -/
def overlayWrite (m : List Host.Cell) (a : Nat) (bs : List Byte) : List Host.Cell :=
  match bs with
  | [] => m
  | b :: r => overlayWrite (tset m a b) (a + 1) r

/-- The first position at which a list holds what p asks for. -/
def position (p : α → Bool) : List α → Option Nat
  | [] => none
  | a :: r => if p a then some 0 else (position p r).map (· + 1)

/-- Set the first element that p picks, or append. -/
def upsert (p : α → Bool) (v : α) : List α → List α
  | [] => [v]
  | a :: r => if p a then v :: r else a :: upsert p v r

/-- Change every element that p picks. -/
def amend (p : α → Bool) (f : α → α) (l : List α) : List α := l.map fun a => if p a then f a else a

/-- Change the first element that p picks. -/
def amendFirst (p : α → Bool) (f : α → α) : List α → List α
  | [] => []
  | a :: r => if p a then f a :: r else a :: amendFirst p f r

/-- The element of a list with the least key, the first among equals. -/
def leastBy (key : α → Nat) : List α → Option α
  | [] => none
  | a :: r =>
    match leastBy key r with
    | none => some a
    | some b => if key b < key a then some b else some a

/-- Insertion by rising key, after equals. -/
def insertBy (key : α → Nat) (a : α) : List α → List α
  | [] => [a]
  | b :: r => if key a < key b then a :: b :: r else b :: insertBy key a r

/-- A list in rising order of a key, equals in their order. -/
def sortBy (key : α → Nat) : List α → List α
  | [] => []
  | a :: r => insertBefore key a (sortBy key r)
where
  /-- Insertion before equals. -/
  insertBefore (key : α → Nat) (a : α) : List α → List α
    | [] => [a]
    | b :: r => if key b < key a then b :: insertBefore key a r else a :: b :: r

end Sys2Proof.Machine
end

