-- ==== Sys2Proof/Machine/Bits.lean ====
section
/-! DEFINITION. Machine/Bits.lean: byte order, bit fields, and the check codes of the spec. -/

namespace Sys2Proof.Machine

/-- Bit i of a natural number. -/
def nbit (x i : Nat) : Bool := x / 2 ^ i % 2 == 1

/-- Bits [hi:lo] of a natural number. -/
def bits (x hi lo : Nat) : Nat := x / 2 ^ lo % 2 ^ (hi + 1 - lo)

/-- One bit as a number. -/
def b2n (b : Bool) : Nat := if b then 1 else 0

/-- The little-endian number of a byte list (R7). -/
def leNat : List Byte → Nat
  | [] => 0
  | b :: r => b.toNat + 256 * leNat r

/-- n little-endian bytes of a number (R7). -/
def leBytes (n x : Nat) : List Byte :=
  match n with
  | 0 => []
  | n + 1 => BitVec.ofNat 8 x :: leBytes n (x / 256)

/-- The big-endian number of a byte list (network order). -/
def beNat (bs : List Byte) : Nat := bs.foldl (fun a b => 256 * a + b.toNat) 0

/-- n bytes of a list from offset o, zero where the list ends. -/
def slice (bs : List Byte) (o n : Nat) : List Byte :=
  let t := (bs.drop o).take n
  t ++ List.replicate (n - t.length) 0

/-- The little-endian field of n bytes at offset o. -/
def leAt (bs : List Byte) (o n : Nat) : Nat := leNat ((bs.drop o).take n)

/-- The big-endian field of n bytes at offset o. -/
def beAt (bs : List Byte) (o n : Nat) : Nat := beNat (slice bs o n)

/-- Every byte of a range is zero. -/
def zeroRange (bs : List Byte) (o n : Nat) : Bool := ((bs.drop o).take n).all (· == 0)

/-- The two's-complement value of the low w bits of x. -/
def sgn (w x : Nat) : Int :=
  let y := x % 2 ^ w
  if 2 ^ (w - 1) ≤ y then (y : Int) - (2 ^ w : Nat) else y

/-- The low w bits of an integer in two's complement. -/
def wrapTo (w : Nat) (i : Int) : Nat := (i % ((2 ^ w : Nat) : Int)).toNat

/-- An integer held to a range. -/
def clampI (lo hi x : Int) : Int := if x < lo then lo else if hi < x then hi else x

/-- A 32-bit counter that holds at its largest value. -/
def satInc (w : Word) (n : Nat := 1) : Word := BitVec.ofNat 32 (min (w.toNat + n) 0xFFFFFFFF)

/-- ceil(a / b). -/
def ceilDiv (a b : Nat) : Nat := (a + b - 1) / b

/-- One byte of a CRC-8 with polynomial 0x07, most significant bit first (R37). -/
def crc8Byte (crc : Nat) (b : Nat) : Nat :=
  (List.range 8).foldl (fun c _ => if 128 ≤ c then (2 * c % 256) ^^^ 0x07 else 2 * c) (crc ^^^ b)

/-- The header CRC over the three low bytes of a block header (R37). -/
def headerCrc (w : Nat) : Nat :=
  crc8Byte (crc8Byte (crc8Byte 0xFF (w % 256)) (w / 256 % 256)) (w / 65536 % 256)

/-- CRC-8 over a list of bytes with initial value 0xFF (R37, R421). -/
def crc8 (bs : List Byte) : Nat := bs.foldl (fun c b => crc8Byte c b.toNat) 0xFF

/-- One byte of a reflected 32-bit CRC with the reversed polynomial p. -/
def crc32Byte (p crc : Nat) (b : Byte) : Nat :=
  (List.range 8).foldl (fun c _ => if c % 2 = 1 then (c / 2) ^^^ p else c / 2) (crc ^^^ b.toNat)

/-- CRC-32C, reflected polynomial 0x82F63B78, initial value and final XOR all ones. -/
def crc32c (bs : List Byte) : Nat := (bs.foldl (crc32Byte 0x82F63B78) 0xFFFFFFFF) ^^^ 0xFFFFFFFF

/-- The Ethernet frame check, reflected polynomial 0xEDB88320. -/
def crc32e (bs : List Byte) : Nat := (bs.foldl (crc32Byte 0xEDB88320) 0xFFFFFFFF) ^^^ 0xFFFFFFFF

/-- The ones'-complement sum of 16-bit words of a byte list (IPv4 header check). -/
def onesSum (bs : List Byte) : Nat :=
  match bs with
  | a :: b :: r => a.toNat * 256 + b.toNat + onesSum r
  | [a] => a.toNat * 256
  | [] => 0

/-- Integer square root by bisection from the top bit: floor of the root of x below 4^n. -/
def isqrt (n x : Nat) : Nat :=
  match n with
  | 0 => 0
  | n + 1 =>
    let r := 2 * isqrt n (x / 4)
    if (r + 1) * (r + 1) ≤ x then r + 1 else r

end Sys2Proof.Machine
end

