-- ==== Sys2Proof/Machine/Float.lean ====
section
/-! DEFINITION. Machine/Float.lean: IEEE binary16 and binary32 computed exactly and rounded once to nearest, ties to even, with
subnormals kept (R44, R45, R48, R90, R108). -/

namespace Sys2Proof.Machine

/-- A binary format: precision p, exponent of the least subnormal, exponent field width. -/
structure FloatFmt where
  p : Nat
  emin : Int
  ew : Nat
  deriving DecidableEq, Repr

/-- FP16. -/
def fmt16 : FloatFmt := { p := 11, emin := -24, ew := 5 }
/-- FP32. -/
def fmt32 : FloatFmt := { p := 24, emin := -149, ew := 8 }

/-- The bits of infinity without sign. -/
def FloatFmt.inf (f : FloatFmt) : Nat := (2 ^ f.ew - 1) * 2 ^ (f.p - 1)

/-- The weight of the sign bit. -/
def FloatFmt.signBit (f : FloatFmt) : Nat := 2 ^ (f.p - 1 + f.ew)

/-- What a bit pattern stands for: a finite value (-1)^neg * m * 2^e, an infinity, or a NaN. -/
inductive Num where
  | fin (neg : Bool) (m : Nat) (e : Int)
  | inf (neg : Bool)
  | nan
  deriving DecidableEq, Repr

/-- The value of a bit pattern. -/
def fdec (f : FloatFmt) (x : Nat) : Num :=
  let neg := nbit x (f.p - 1 + f.ew)
  let e := x / 2 ^ (f.p - 1) % 2 ^ f.ew
  let m := x % 2 ^ (f.p - 1)
  if e = 2 ^ f.ew - 1 then (if m = 0 then .inf neg else .nan)
  else if e = 0 then .fin neg m f.emin
  else .fin neg (m + 2 ^ (f.p - 1)) (f.emin + (e - 1 : Nat))

/-- m / 2^k to nearest, ties to even. -/
def rneShift (m k : Nat) : Nat :=
  let q := m / 2 ^ k
  let r := m % 2 ^ k
  if 2 * r < 2 ^ k then q else if 2 ^ k < 2 * r then q + 1 else q + q % 2

/-- The bits of m * 2^e rounded to nearest, ties to even; beyond the range an infinity (R48). -/
def fpack (f : FloatFmt) (neg : Bool) (m : Nat) (e : Int) : Nat :=
  let sg := if neg then f.signBit else 0
  if m = 0 then sg else
  let len : Int := (Nat.log2 m : Int) + 1
  let q := max (e + len - (f.p : Int)) f.emin
  let mant := if q ≤ e then m * 2 ^ (e - q).toNat else rneShift m (q - e).toNat
  let body := (q - f.emin).toNat * 2 ^ (f.p - 1) + mant
  sg + min body f.inf

/-- A NaN result of the operands x and y: quiet, with sign and payload left open (log entry 10). -/
def fnan (f : FloatFmt) (x y : Nat) : Nat :=
  let r := (Config.nanBits x y).toNat
  f.inf + 2 ^ (f.p - 2) + r % 2 ^ (f.p - 2) + (if nbit r 22 then f.signBit else 0)

/-- A signed integer in format f. -/
def fofInt (f : FloatFmt) (i : Int) : Nat := fpack f (decide (i < 0)) i.natAbs 0

/-- The exact signed sum of two finite values, over the lower exponent. -/
def fexactAdd (n1 : Bool) (m1 : Nat) (e1 : Int) (n2 : Bool) (m2 : Nat) (e2 : Int) : Int × Int :=
  let e := min e1 e2
  let a : Int := (m1 * 2 ^ (e1 - e).toNat : Nat)
  let b : Int := (m2 * 2 ^ (e2 - e).toNat : Nat)
  ((if n1 then -a else a) + (if n2 then -b else b), e)

/-- The bits of the exact sum of two finite values rounded once; an exact zero is positive unless both operands are negative. -/
def fsum (f : FloatFmt) (n1 : Bool) (m1 : Nat) (e1 : Int) (n2 : Bool) (m2 : Nat) (e2 : Int) : Nat :=
  let r := fexactAdd n1 m1 e1 n2 m2 e2
  if r.1 = 0 then (if n1 && n2 then f.signBit else 0) else fpack f (decide (r.1 < 0)) r.1.natAbs r.2

/-- Addition. -/
def fadd (f : FloatFmt) (x y : Nat) : Nat :=
  match fdec f x, fdec f y with
  | .fin n1 m1 e1, .fin n2 m2 e2 => fsum f n1 m1 e1 n2 m2 e2
  | .inf n1, .inf n2 => if n1 = n2 then x else fnan f x y
  | .inf _, .fin _ _ _ => x
  | .fin _ _ _, .inf _ => y
  | _, _ => fnan f x y

/-- Negation: the sign bit flips. -/
def fneg (f : FloatFmt) (x : Nat) : Nat := x ^^^ f.signBit

/-- Absolute value. -/
def fabs (f : FloatFmt) (x : Nat) : Nat := x % f.signBit

/-- Whether a pattern is a NaN. -/
def fisNan (f : FloatFmt) (x : Nat) : Bool := decide (f.inf < x % f.signBit)

/-- Whether a pattern is finite. -/
def fisFin (f : FloatFmt) (x : Nat) : Bool := decide (x % f.signBit < f.inf)

/-- Subtraction. -/
def fsub (f : FloatFmt) (x y : Nat) : Nat :=
  if fisNan f y then fnan f x y else fadd f x (fneg f y)

/-- Multiplication. -/
def fmul (f : FloatFmt) (x y : Nat) : Nat :=
  let sg := fun b : Bool => if b then f.signBit else 0
  match fdec f x, fdec f y with
  | .fin n1 m1 e1, .fin n2 m2 e2 => fpack f (n1 != n2) (m1 * m2) (e1 + e2)
  | .inf n1, .inf n2 => f.inf + sg (n1 != n2)
  | .inf n1, .fin n2 m2 _ => if m2 = 0 then fnan f x y else f.inf + sg (n1 != n2)
  | .fin n1 m1 _, .inf n2 => if m1 = 0 then fnan f x y else f.inf + sg (n1 != n2)
  | _, _ => fnan f x y

/-- x * y + z with one rounding. -/
def ffma (f : FloatFmt) (x y z : Nat) : Nat :=
  match fdec f x, fdec f y, fdec f z with
  | .fin n1 m1 e1, .fin n2 m2 e2, .fin n3 m3 e3 => fsum f (n1 != n2) (m1 * m2) (e1 + e2) n3 m3 e3
  | .fin _ _ _, .fin _ _ _, .inf _ => z
  | .nan, _, _ => fnan f x y
  | _, .nan, _ => fnan f x y
  | _, _, .nan => fnan f z x
  | _, _, _ => fadd f (fmul f x y) z

/-- The quotient of two positive naturals with at least 2p bits and a sticky bit, over 2^-k. -/
def fquot (f : FloatFmt) (a b : Nat) : Nat × Int :=
  let k := 2 * f.p + Nat.log2 b + 2
  let q := a * 2 ^ k / b
  let r := a * 2 ^ k % b
  (2 * q + (if r = 0 then 0 else 1), -(k : Int) - 1)

/-- An exact value in format f, rounded once. -/
def fofRat (f : FloatFmt) (v : ℚ) : Nat :=
  let q := fquot f v.num.natAbs v.den
  fpack f (decide (v < 0)) q.1 q.2

/-- Division: a finite value by zero gives an infinity, zero by zero a NaN (R139). -/
def fdiv (f : FloatFmt) (x y : Nat) : Nat :=
  let sg := fun b : Bool => if b then f.signBit else 0
  match fdec f x, fdec f y with
  | .fin n1 m1 e1, .fin n2 m2 e2 =>
    if m2 = 0 then (if m1 = 0 then fnan f x y else f.inf + sg (n1 != n2))
    else
      let q := fquot f m1 m2
      fpack f (n1 != n2) q.1 (q.2 + e1 - e2)
  | .inf n1, .fin n2 _ _ => f.inf + sg (n1 != n2)
  | .fin n1 _ _, .inf n2 => sg (n1 != n2)
  | _, _ => fnan f x y

/-- A pattern that is no NaN as an integer in the order of the values; both zeros give 0. -/
def ford (f : FloatFmt) (x : Nat) : Int :=
  let a : Int := (x % f.signBit : Nat)
  if f.signBit ≤ x then -a else a

/-- x = y as values; a NaN compares false. -/
def feq (f : FloatFmt) (x y : Nat) : Bool := !fisNan f x && !fisNan f y && decide (ford f x = ford f y)
/-- x < y; a NaN compares false. -/
def flt (f : FloatFmt) (x y : Nat) : Bool := !fisNan f x && !fisNan f y && decide (ford f x < ford f y)
/-- x ≤ y; a NaN compares false. -/
def fle (f : FloatFmt) (x y : Nat) : Bool := !fisNan f x && !fisNan f y && decide (ford f x ≤ ford f y)

/-- Minimum: the other operand when one is NaN; between zeros of unlike sign the choice is open (log entry 10). -/
def fmin (f : FloatFmt) (x y : Nat) : Nat :=
  if fisNan f x then (if fisNan f y then fnan f x y else y)
  else if fisNan f y then x
  else if flt f x y then x else if flt f y x then y
  else if x = y then x else if Config.zeroPick x y then x else y

/-- Maximum, as fmin. -/
def fmax (f : FloatFmt) (x y : Nat) : Nat :=
  if fisNan f x then (if fisNan f y then fnan f x y else y)
  else if fisNan f y then x
  else if flt f x y then y else if flt f y x then x
  else if x = y then x else if Config.zeroPick x y then x else y

/-- Conversion between formats. -/
def fcvt (src dst : FloatFmt) (x : Nat) : Nat :=
  match fdec src x with
  | .fin n m e => fpack dst n m e
  | .inf n => dst.inf + (if n then dst.signBit else 0)
  | .nan => fnan dst x x

/-- m * 2^e to the nearest integer, ties to even. -/
def rneInt (neg : Bool) (m : Nat) (e : Int) : Int :=
  let a : Nat := if 0 ≤ e then m * 2 ^ e.toNat else rneShift m (-e).toNat
  if neg then -(a : Int) else a

/-- A value as an integer, to nearest even, held to lo to hi; NaN gives 0 (R139, R147, R148). -/
def ftoInt (f : FloatFmt) (lo hi : Int) (x : Nat) : Int :=
  match fdec f x with
  | .fin n m e => clampI lo hi (rneInt n m e)
  | .inf n => if n then lo else hi
  | .nan => 0

/-- floor(m * 2^e) with sign. -/
def floorInt (neg : Bool) (m : Nat) (e : Int) : Int :=
  let v : Int := if neg then -(m : Int) else m
  if 0 ≤ e then v * (2 ^ e.toNat : Nat) else v / ((2 ^ (-e).toNat : Nat) : Int)

/-- The square root, rounded once. -/
def fsqrt (f : FloatFmt) (x : Nat) : Nat :=
  match fdec f x with
  | .fin n m e =>
    if m = 0 then x else if n then fnan f x x else
    let k : Nat := if e % 2 = 0 then 64 else 65
    let r := isqrt 64 (m * 2 ^ k)
    fpack f false (2 * r + (if r * r = m * 2 ^ k then 0 else 1)) ((e - (k : Int)) / 2 - 1)
  | .inf n => if n then fnan f x x else x
  | .nan => fnan f x x

/-- A value as a fixed-point number with 64 fraction bits, rounded down; a value that is no finite number is left open (log entry 30). -/
def fixOf (x : Nat) : Int :=
  match fdec fmt32 x with
  | .fin n m e => floorInt n m (e + 64)
  | _ => Config.nonFinite (BitVec.ofNat 32 x)

/-- A fixed-point number with 64 fraction bits in FP32. -/
def ofFix (i : Int) : Nat := fpack fmt32 (decide (i < 0)) i.natAbs (-64)

/-- The sign of a pattern that is no NaN: -1, 0 or 1. -/
def fsign (f : FloatFmt) (x : Nat) : Int := (ford f x).sign

end Sys2Proof.Machine
end

