-- ==== Sys2Proof/Machine/State.lean ====
section
/-! DEFINITION. Machine/State.lean: the state of the FL-640 as plain data, grouped by the unit that holds it, the reasons a
command can stop, and the state right after power-up. A Tab lists only the entries that differ from the default its reader
names; a List Host.Cell is a memory in canonical form. -/

namespace Sys2Proof.Machine

/-- Why a command ends in a fault of the model. The FL-640 reports its own faults as next states (core faults, events, receipts), so no
meaning ends here. -/
inductive Fault where
  /-- raised by no command: the spec gives every command an effect; safe -/
  | noEffect
  deriving DecidableEq, Repr

/-- Why a command is refused. -/
inductive Refusal where
  /-- raised by an arm of exec whose command has no meaning yet; none is left; safe -/
  | notModelled (mnemonic : String)
  deriving DecidableEq, Repr

/-! ### Compute cores (chapters 2 to 5) -/

/-- The quantiser counters of the running job (R54, R150). -/
structure QCount where
  sat : Word := 0
  coll : Word := 0
  sclamp : Word := 0
  nonfin : Word := 0
  dqskew : Word := 0
  deriving DecidableEq, Repr

/-- The register files of a core (R108). Unlisted registers read 0, masks all ones. -/
structure Regs where
  s : Tab Word := []
  a : Tab (BitVec 256) := []
  v : Tab (BitVec 8192) := []
  p : Tab (BitVec 512) := []
  /-- offset of the next instruction in the code (R119) -/
  pc : Nat := 0
  q : QCount := {}
  deriving DecidableEq, Repr

/-- One half of an engine's weight tile (R84, R145); the whole engine keeps both halves equal. -/
structure Half where
  loaded : Bool := false
  fmt : Nat := 0
  depth : Nat := 0
  width : Nat := 0
  tscale : Word := 0
  /-- condemned by a residue fault until the job ends (R86) -/
  condemned : Bool := false
  deriving DecidableEq, Repr

/-- One weight block of a column: its header, its 64 codes in the cells, and the residue store beside them, three bits an operand; an A8
operand has its high nibble's residue at index i and its low nibble's at 64 + i (R33, R31, R64, R65). -/
structure WBlock where
  hdr : Word
  codes : BitVec 512
  residues : BitVec 384 := 0
  deriving DecidableEq, Repr

/-- An engine: tile, column poison (3 bits a column, Table 3.3), and accumulator rows of 512 columns, each entry with its value, its state
and the seven SEC-DED check bits over both (R75). -/
structure Engine where
  h0 : Half := {}
  h1 : Half := {}
  split : Bool := false
  square : Bool := false
  /-- key 8 * column + block -/
  tile : Tab WBlock := []
  colPoison : BitVec 1536 := 0
  acc : Tab (BitVec 16384) := []
  accState : Tab (BitVec 1536) := []
  accCheck : Tab (BitVec 3584) := []
  deriving DecidableEq, Repr

/-- What a remote access does when its packets are all answered (R375): a load, a store, or a COMMIT of a key, with its
descriptors. -/
inductive RemoteOp where
  | load (dst : BitVec 256) (src : BitVec 256) (turn : Bool)
  | store
  | commit (key : Word)
  deriving DecidableEq, Repr

/-- What a stalled sequencer waits for (R117, R236, R376). -/
inductive Wait where
  | none
  | semw (sem : Nat) (n : Nat) (rd : Nat)
  | remote (op : RemoteOp)
  | ppc
  /-- a remote access failed; the fault is taken once every earlier queued instruction has completed (R125) -/
  | failing (code : Nat) (cause : Nat) (fabric : Bool)
  deriving DecidableEq, Repr

/-- A job part on a core (R103, R105). -/
structure Part where
  job : Nat
  idx : Nat
  ctx : Nat
  prog : Nat
  prio : Nat
  /-- order in which parts started (R292) -/
  started : Nat
  wait : Wait := .none
  /-- a pre-emption waits on it (R293) -/
  fenced : Option Nat := none
  /-- issue has stopped for a pre-emption by this job, which waits for the instructions already queued (R119) -/
  halted : Option Nat := none
  /-- its job was stopped: it issues nothing and is gone once its issued instructions have completed (R103, R125, R294) -/
  stopping : Bool := false
  /-- its claims were released because it was presumed dead (R175) -/
  dead : Bool := false
  claims : Nat := 0
  deriving DecidableEq, Repr

/-- The state a pre-empted part leaves (R119). -/
structure Saved where
  part : Part
  regs : Regs
  e0 : Engine
  e1 : Engine
  /-- its save area is written (PREEMPT_SAVE_DONE) -/
  done : Bool := false
  /-- the job that pre-empted it -/
  byJob : Nat := 0
  deriving DecidableEq, Repr

/-- A posted halo transfer (R97, R143): its instruction's offset, partner, port, direction, descriptor. -/
structure Halo where
  pc : Nat
  partner : Nat
  port : Nat
  recv : Bool
  desc : BitVec 256
  /-- its partner's posting has been matched with it, and the transfer runs -/
  paired : Bool := false
  /-- the code and cause of the fault it ends with once every earlier queued transfer has completed (R125) -/
  fault : Option (Nat × Nat) := none
  deriving DecidableEq, Repr

/-- The record of a core fault (R125, R129). -/
structure CoreFault where
  address : Nat
  detail : Word
  deriving DecidableEq, Repr

/-- State of a core under test or withdrawn (Table 3.11). -/
inductive CoreHealth where
  | inService | queued | underTest | withdrawn
  deriving DecidableEq, Repr

/-- A physical compute core. -/
structure Core where
  part : Option Part := none
  regs : Regs := {}
  e0 : Engine := {}
  e1 : Engine := {}
  carrel : List Host.Cell := []
  /-- global writes not yet visible to another core (R113) -/
  writes : List Host.Cell := []
  saved : List Saved := []
  halo : List Halo := []
  fault : Option CoreFault := none
  health : CoreHealth := .inService
  resflt : Nat := 0
  /-- unserviceable physical columns of each engine, of 520, in rising order (R66), and the repair entries that take spare rows and columns of
  the core's SRAMs (R67) -/
  bad0 : List Nat := []
  bad1 : List Nat := []
  sramFixes : List (BitVec 128) := []
  /-- a fault or a failed proof queues the core for test at its next job boundary (R88, R100) -/
  testDue : Bool := false
  /-- its island was reset, so its carrel cannot be copied (R89) -/
  wiped : Bool := false
  /-- periodic test slots done in this interval, and a slot in progress (R412) -/
  slots : Nat := 0
  inSlot : Bool := false
  /-- order of the last in-service test, for "untested longest" (R451) -/
  lastTest : Nat := 0
  deriving DecidableEq, Repr

/-! ### Clusters and the device-wide work (chapters 4, 9, 11) -/

/-- A residency slot (R281). -/
structure Residency where
  ctx : Nat
  part : Nat
  carrelBase : Nat
  carrelKib : Nat
  bankBase : Nat
  banks : Nat
  ways : Nat
  semBase : Nat
  nsem : Nat
  tallyBase : Nat
  ntally : Nat
  /-- order of the instant at which it last became blocked (R295) -/
  blockedAt : Nat
  deriving DecidableEq, Repr

/-- A batch slot of the Grist batcher: the frame and the kept box it was gathered for, and whether the crop is corrupt (R238, R240). -/
structure BatchSlot where
  stream : Nat
  frame : Nat
  cand : Nat
  corrupt : Bool
  deriving DecidableEq, Repr

/-- A batch queue of one thin-head program in one cluster (R237). -/
structure Batch where
  ctx : Nat
  prog : Nat
  slots : List BatchSlot
  /-- the crop buffer drawn for it, and its owner (R322) -/
  buf : Option (Nat × Owner) := none
  deriving DecidableEq, Repr

/-- A PPC call at the post-processing unit (R236, R286). -/
structure PpcCall where
  /-- logical core, and the partition that calls -/
  core : Nat
  part : Nat
  f : Fields
  deriving DecidableEq, Repr

/-- A cluster: tally unit, semaphores, stacks, steward (R99, R115, R120, R281). -/
structure Cluster where
  inService : Bool := true
  /-- physical core 0 to 4 that serves logical core n; unlisted n is served by n; 7 when withdrawn -/
  phys : Tab Nat := []
  /-- logical core the spare serves, and the physical core 0 to 4 held as spare -/
  standin : Option Nat := none
  spare : Option Nat := some 4
  /-- a copy in progress: logical core, old physical, new physical (R89) -/
  moving : Option (Nat × Nat × Nat) := none
  sems : Tab Nat := []
  /-- owner records: (semaphore, job, counts taken less counts given); the net holding is the record floored at 0 (R115) -/
  holdings : List (Nat × Nat × Int) := []
  tallies : Tab Word := []
  residencies : Tab Residency := []
  /-- an eviction in progress: slot, evicted context, context that takes it (R296) -/
  evicting : Option (Nat × Nat × Nat) := none
  /-- dirty lines of the stacks, key as a DRAM key (R114) -/
  stackLines : List Host.Cell := []
  batches : List Batch := []
  calls : List PpcCall := []
  slot : Nat := 0
  /-- an in-service test: physical core (R451) -/
  testing : Option Nat := none
  expiries : Nat := 0
  deriving DecidableEq, Repr

/-- A program of a context (Tables 4.1, 11.3). -/
structure Prog where
  role : Nat
  bands : Nat
  aux : Nat
  flags : Nat
  codeLen : Nat
  entry : Nat
  holdUs : Nat
  gang : Nat
  nsem : Nat
  ntally : Nat
  accBanks : Nat
  claims : Nat
  carrelKib : Nat
  tallyInit : List Word
  cycleEst : Nat
  /-- offset of the program's code in the context's area -/
  codeAt : Nat
  deriving DecidableEq, Repr

/-- A reusable tile (Table 9.1). -/
structure ReuseTile where
  tile : Nat
  entry : Nat
  x0 : Nat
  y0 : Nat
  x1 : Nat
  y1 : Nat
  slot : Nat
  deriving DecidableEq, Repr

/-- A reuse table (Table 9.1): staleness limit, archive bytes and the tiles. -/
structure Reuse where
  limit : Nat
  bytes : Nat
  tiles : List ReuseTile
  deriving DecidableEq, Repr

/-- A batcher record (Table 11.4). -/
structure Batcher where
  target : Nat
  window : Nat
  rh : Nat
  rw : Nat
  layer : Nat
  entry : Nat
  deriving DecidableEq, Repr

/-- A context definition (R276 to R280). -/
structure Ctx where
  owner : Nat
  part : Nat
  clusters : Nat
  ways : Nat
  ilen : Nat
  globalLen : Nat
  /-- the DRAM that holds the global share and then the image: pieces (partition offset, bytes), joined in order -/
  area : List (Nat × Nat)
  progs : List Prog
  /-- 256 levels of the codebook table (R41) -/
  codebooks : List Byte
  /-- 400-byte curves (R91) -/
  curves : List (List Byte)
  tracker : List Byte
  boxes : List (List Byte)
  reuses : List Reuse
  batchers : List Batcher
  /-- in C2 (R389) -/
  faulted : Bool := false
  /-- written-back copies of evicted shares: (cluster, logical core index, carrel cells) (R296) -/
  written : List (Nat × Nat × List Host.Cell) := []
  /-- removal or replacement waits for the last job: receipt (slip ring, taken id) and the new definition (R280) -/
  leaving : Option (Nat × Nat) := none
  deriving DecidableEq, Repr

/-- How a job stands (R103, R119). -/
inductive JobState where
  | waiting            -- its cluster is not chosen or its predecessor has not started
  | queued (core : Nat)
  | running
  | ended
  deriving DecidableEq, Repr

/-- A job (R103, R277). -/
structure Job where
  id : Nat
  ctx : Nat
  prog : Nat
  stream : Nat
  frame : Nat
  role : Nat
  band : Nat := 0
  attempt : Nat := 0
  /-- re-runs used: skew (R61), engine (R87), halo (Table 15.3) -/
  skewRuns : Nat := 0
  engineRuns : Nat := 0
  haloRuns : Nat := 0
  prio : Nat
  admitted : Nat
  state : JobState := .waiting
  /-- logical cores of its parts, and those that have ended -/
  cores : List Nat := []
  ended : List Nat := []
  cluster : Nat := 0
  /-- by slot of the batch: the frame as (stream, order), and the kept box (R240, R409) -/
  frames : List (Nat × Nat) := []
  cands : List Nat := []
  /-- the head-weight pointer that it read when it started (R252) -/
  head : Nat := 0
  /-- claims (R121) are keyed by context and frame; the reuse tiles it recomputes (R229) -/
  reuse : List Nat := []
  /-- validity of the batch slots (R240), and the crop buffer of a batch job with its owner -/
  mask : List Bool := []
  buf : Option (Nat × Owner) := none
  /-- a band job that faulted and waits for its set to end (R170) -/
  wantRerun : Bool := false
  /-- cores on which an earlier attempt ran (R61, R87) -/
  avoid : List Nat := []
  deriving DecidableEq, Repr

/-- State of a claim (R121). -/
inductive ClaimState where
  /-- by the part of a job that started with this order number -/
  | won (job : Nat) (start : Nat)
  /-- COMMITTED by the part, its copy not yet visible (R123, R174) -/
  | publishing (job : Nat) (start : Nat)
  | committed
  | released
  deriving DecidableEq, Repr

/-- A claim that is not FREE. -/
structure Claim where
  ctx : Nat
  frame : Nat
  stream : Nat
  key : Word
  state : ClaimState
  deriving DecidableEq, Repr

/-- A partition record (Table 11.7). -/
structure Partition where
  present : Bool := false
  noc : Nat := 0
  ppwin : Nat := 0
  celwin : Nat := 0
  minCores : Nat := 0
  channels : Nat := 0
  ppu : Nat := 0
  cores : Nat := 0
  media : Nat := 0
  enc : Nat := 0
  ways : List Nat := []
  slots : List Nat := []
  /-- in C3 (R389) -/
  c3 : Bool := false
  /-- link credits in use (R376) -/
  credits : Nat := 0
  deriving DecidableEq, Repr

/-- What the device has charged to a Ledger account (Table 11.9). Core and steward cycles and energy follow the cycles, which the model
leaves open at a read (log entries 8 and 39). -/
structure Account where
  mediaCycles : Nat := 0
  encoderCycles : Nat := 0
  ppuCycles : Nat := 0
  carrelBytes : Nat := 0
  stacksBytes : Nat := 0
  dramBytes : Nat := 0
  pcieBytes : Nat := 0
  fabricBytes : Nat := 0
  ended : Nat := 0
  rerun : Nat := 0
  aborted : Nat := 0
  deriving DecidableEq, Repr

/-! ### Streams (chapters 7 to 11) -/

/-- Stream states (R301). -/
inductive SState where
  | closed | opened | running | paused | draining | faulted
  deriving DecidableEq, Repr

/-- An envelope (Table 7.3). -/
structure Envelope where
  codec : Nat := 0
  depth : Nat := 8
  maxW : Nat := 0
  maxH : Nat := 0
  maxRefs : Nat := 0
  maxRate : Nat := 0
  deriving DecidableEq, Repr

/-- An explicit region of a clip (Table 10.1). -/
structure Region where
  x0 : Nat
  y0 : Nat
  x1 : Nat
  y1 : Nat
  qpoff : Int
  privacy : Bool
  deriving DecidableEq, Repr

/-- A packet held in the reorder window (R210). -/
structure Rtp where
  seq : Nat
  ts : Nat
  marker : Bool
  ssrc : Nat
  payload : List Byte
  deriving DecidableEq, Repr

/-- The depacketiser of an ingest-fed stream (R209 to R214). -/
structure Depack where
  /-- the locked SSRC, and the last packet of another one (R209) -/
  ssrc : Option Nat := none
  rival : Option Rtp := none
  /-- N, the held packets in order of arrival, and a probe (R210) -/
  next : Nat := 0
  held : List Rtp := []
  probe : Option Rtp := none
  /-- RTP timestamp and presentation time of the last access unit begun (R214) -/
  base : Option (Nat × Nat) := none
  /-- the same of the last packet that either path took (R224) -/
  clock : Option (Nat × Nat) := none
  relocked : Bool := false
  /-- the access unit in progress: its bytes, the unit being joined from fragments, whether further fragments of a lost unit are
  dropped, where its loss marks stand among its bytes, and whether it holds coded picture data (R212) -/
  opened : Bool := false
  bytes : List Byte := []
  fragment : List Byte := []
  inFragment : Bool := false
  skip : Bool := false
  lossMarks : List Nat := []
  hasPicture : Bool := false
  /-- packets were lost since the last delivered one -/
  lossBefore : Bool := false
  /-- datagrams that wait for the depacketiser, oldest first -/
  fifo : List (List Byte) := []
  deriving DecidableEq, Repr

/-- Stream ingest counts (Table 8.15). -/
structure IngestCount where
  ppsat : Nat := 0
  delivered : Nat := 0
  lost : Nat := 0
  dup : Nat := 0
  late : Nat := 0
  badseq : Nat := 0
  badrtp : Nat := 0
  unsupp : Nat := 0
  ssrcchg : Nat := 0
  notrun : Nat := 0
  shed : Nat := 0
  deriving DecidableEq, Repr

/-- The class and box of an object record, in quarters of an output-window pixel (R269, Table 9.9). -/
structure ClipBox where
  cls : Nat
  x0 : Nat
  y0 : Nat
  x1 : Nat
  y1 : Nat
  deriving DecidableEq, Repr

/-- A decoded picture's frame buffer (R186, R187). -/
structure FrameBuf where
  ptr : Nat
  pts : Nat
  reference : Bool
  longTerm : Bool := false
  slots : List Nat := []
  /-- order of its decode, one per picture -/
  refreshed : Nat := 0
  /-- frames that wait for its output, and pre-processing runs to come: AV1 shows one buffer more than once (R187, R190) -/
  waitingOutput : Nat
  reading : Nat
  clips : Nat := 0
  holdLeft : Nat := 0
  taint : List Bool
  change : List Nat
  width : Nat
  height : Nat
  /-- P010, not NV12 (R178, R199) -/
  ten : Bool := false
  /-- what its coded syntax says of each block, references by their decode order plus one, 0 for a substitute (R200, R202) -/
  facts : List BlockFact := []
  warps : List (Nat × List Int) := []
  /-- every block is unknown: RESCHANGE, leading or JPEG (Table 7.7) -/
  unknown : Bool := false
  /-- what a clip that takes the picture needs: its frame number, output window, CONCEALED, and once its folio is sealed whether that is
  a gap folio and its records' boxes (R260, R269) -/
  num : Nat := 0
  winX : Nat := 0
  winY : Nat := 0
  winW : Nat := 0
  winH : Nat := 0
  concealed : Bool := false
  folio : Option (Bool × List ClipBox) := none
  deriving DecidableEq, Repr

/-- A track (R242). -/
structure Track where
  id : Nat
  cls : Nat
  state : Nat
  x : List Word
  cov : List Word
  emb : Emb := {}
  hits : Nat := 0
  misses : Nat := 0
  age : Nat := 0
  conf : BitVec 16
  deriving DecidableEq, Repr

/-- An object record (Table 9.9). -/
structure ObjRec where
  track : Nat
  cls : Nat
  conf : BitVec 16
  x0 : Nat
  y0 : Nat
  x1 : Nat
  y1 : Nat
  zones : BitVec 64 := 0
  tstate : Nat
  rflags : Nat
  age : Nat
  misses : Nat
  attrst : Nat := 0
  attr : BitVec 128 := 0
  emb : Emb := {}
  embOff : Option Nat := none
  vx : BitVec 16 := 0
  vy : BitVec 16 := 0
  deriving DecidableEq, Repr

/-- The result of a frame (R253, R255): a gap reason or a folio. -/
inductive Result where
  | gap (reason : Nat)
  | folio
  deriving DecidableEq, Repr

/-- Where an admitted frame stands on its way to its folio. -/
inductive Stage where
  | access      -- waits for or is in decode
  | reorder     -- decoded, waits in the output reorder
  | tensors     -- waits for ready tensors (R219)
  | preproc     -- waits for or is in pre-processing
  | jobs        -- its jobs run
  | tracker     -- its last FRAME job has ended
  | finished    -- its result is in the window
  deriving DecidableEq, Repr

/-- A zone record (Table 9.7). -/
structure Zone where
  zone : Nat
  enabled : Bool
  bound : Bool
  anchor : Nat
  spigot : Nat
  classes : BitVec 64
  minconf : BitVec 16
  states : Nat
  warn : Nat
  cbase : Nat
  verts : List (Nat × Nat)
  deriving DecidableEq, Repr

/-- An output entry (Table 8.14). -/
structure OutEntry where
  x0 : Nat
  y0 : Nat
  cw : Nat
  ch : Nat
  ow : Nat
  oh : Nat
  ops : Nat
  colour : Nat
  angle : Int
  fmt : Nat
  zp : Nat
  scale : Nat
  fill : Nat
  mean : List (BitVec 16)
  invstd : List (BitVec 16)
  deriving DecidableEq, Repr

/-- What became of a crop: its result is still out, it was computed, it was corrupt, or its batch was lost (R239 to R241). -/
inductive CropState where
  | out | done | corrupt | lost
  deriving DecidableEq, Repr

/-- A crop of a frame: the thin-head program, and the kept box in the order of the frame's candidate records (R239). -/
structure CropRes where
  prog : Nat
  cand : Nat
  state : CropState := .out
  deriving DecidableEq, Repr

/-- An admitted frame not yet sealed, or sealed and awaiting delivery (R190, R387). -/
structure Frame where
  pts : Nat
  /-- admission order over the device (log entry 4) -/
  order : Nat
  num : Option Nat := none
  /-- safety island cycle latched at admission (R406) -/
  admitted : Nat := 0
  stage : Stage := .access
  /-- the access-unit buffer, the bytes in it, and the offsets at which loss marks stand (R212, R218) -/
  auPtr : Option Nat := none
  auSize : Nat := 0
  lossMarks : List Nat := []
  discont : Bool := false
  hasPicture : Bool := true
  truncated : Bool := false
  /-- bytes of the access unit before the cut of R185 -/
  auLen : Nat := 0
  /-- a raw frame or ready tensors, which no decoder takes (R218) -/
  bypass : Bool := false
  /-- the context and the output table in effect since its admission (R300) -/
  ctx : Nat := 0
  outs : List OutEntry := []
  concealed : Bool := false
  partialPic : Bool := false
  resChange : Bool := false
  globalMotion : Option (Int × Int) := none
  /-- P010, not NV12; and the media core that decoded it (R199, R203) -/
  ten : Bool := false
  core : Option Nat := none
  /-- frame-buffer pointer, output window, change and taint maps -/
  buf : Option Nat := none
  winX : Nat := 0
  winY : Nat := 0
  winW : Nat := 0
  winH : Nat := 0
  /-- blocks of a row of the coded picture -/
  cols : Nat := 0
  change : List Nat := []
  taint : List Bool := []
  /-- codes and headers of its input tensors, by output entry -/
  inputs : Tab (List Byte) := []
  /-- tensors arrived and expected (R219) -/
  tensors : List Nat := []
  count : Nat := 0
  /-- failed decode attempts and the core of the last, failed pre-processing attempts and the unit of the last (R198, R222) -/
  attempts : Nat := 0
  lastMedia : Option Nat := none
  ppTries : Nat := 0
  lastUnit : Option Nat := none
  /-- next FRAME program to start (R277) -/
  prog : Nat := 0
  /-- its crops and what became of them (R239 to R241) -/
  crops : List CropRes := []
  /-- physical cores of its FRAME and BATCH parts, and of its SENTINEL parts (R415) -/
  ran : List Nat := []
  sentRan : List Nat := []
  result : Option Result := none
  folioPtr : Option Nat := none
  untrusted : Bool := false
  degraded : Bool := false
  trackReset : Bool := false
  ncand : Nat := 0
  ntrk : Nat := 0
  reused : Nat := 0
  reusable : Nat := 0
  adapt : Nat := 0
  recs : List ObjRec := []
  zocc : BitVec 64 := 0
  zwarn : BitVec 64 := 0
  zcount : List (Nat × Nat) := []
  /-- the zone set it was evaluated with (R248) -/
  zset : Option (List Zone) := none
  /-- whether a proof that belongs to it mismatched (R409, R411) -/
  proofBad : Bool := false
  /-- SENTINEL outcome: none while its job runs (R415) -/
  sentinel : Option (Option (BitVec 64)) := none
  sealed : Bool := false
  /-- order of its seal and its folio ring (R349) -/
  sealOrder : Nat := 0
  ring : Nat := 0
  late : Bool := false
  deriving DecidableEq, Repr

/-- The feature archive of a stream (R228, R229): valid tiles as (program, tile, frame of their copy). -/
structure Archive where
  ptr : Option Nat := none
  valid : List (Nat × Nat × Nat) := []
  deriving DecidableEq, Repr

/-- A stream (R299 to R303). -/
structure Stream where
  state : SState := .closed
  owner : Nat := 0
  ctx : Nat := 0
  part : Nat := 0
  prio : Nat := 0
  firkin : Bool := false
  hostPath : Bool := false
  env : Envelope := {}
  env0 : Envelope := {}
  outs : List OutEntry := []
  /-- reconfiguration marked for the next admitted frame (R300) -/
  nextConf : List Byte := []
  flow : Option Nat := none
  hold100us : Nat := 1
  dep : Depack := {}
  cnt : IngestCount := {}
  /-- path switch: boundary T, random-access point T*, LAST accepted (R224) -/
  bound : Nat := 0
  switching : Bool := false
  tstar : Option Nat := none
  lastSeen : Bool := false
  seq : Option SeqHdr := none
  /-- gap reason while a refused header is in force (R184) -/
  refused : Option Nat := none
  started : Bool := false
  /-- the next picture starts a sequence of another size or depth (R199) -/
  resChange : Bool := false
  bufs : List FrameBuf := []
  /-- parameter sets and sequence headers received, oldest first (R190) -/
  sets : List (List Byte) := []
  /-- damage whose resume point is the next picture or parameter set (Table 7.5) -/
  resume : Bool := false
  /-- decode order of the picture output last (R200) -/
  lastPic : Option Nat := none
  /-- packets of an access unit at or above T that has shown no random-access picture yet: port, frame and payload (R224) -/
  peek : List (Nat × List Byte × List Byte) := []
  lastWin : Option (Nat × Nat × Nat × Nat) := none
  /-- whether the picture output before was a gap, and whether none was output since STREAM_START (R201) -/
  afterGap : Bool := true
  /-- by second of presentation time: the bytes of its access units, and whether it exceeded MAX_RATE (R185) -/
  rate : Tab (Nat × Bool) := []
  highPts : Option Nat := none
  nextNum : Nat := 0
  /-- frames admitted since STREAM_START (Table 19.8) -/
  admittedCount : Nat := 0
  sealedNum : Option Nat := none
  frames : List Frame := []
  hold : Nat := 0
  ring : Nat := 0
  home : Option Nat := none
  /-- (program, logical core) of the previous job (R290) -/
  lastCore : Tab Nat := []
  tracks : List Track := []
  nextTrack : Nat := 1
  tracksOut : Bool := false
  trackPts : Option Nat := none
  resetPending : Bool := false
  zones : List Zone := []
  archive : Archive := {}
  adapt : Nat := 0
  /-- the head-weight pointer: the number of the copy in use; a swap moves it to the next (R252) -/
  head : Nat := 0
  /-- 1,024 sealed folios await delivery, until fewer than 512 do (R350) -/
  blocked : Bool := false
  /-- receipts held until the last seal: (slip ring, taken id) (R303) -/
  closing : Option (Nat × Nat) := none
  deriving DecidableEq, Repr

/-! ### Media, encoder, pre-processing, Ethernet (chapters 7, 8, 10) -/

/-- A media core (R203). -/
structure Media where
  state : Nat := 0
  stream : Nat := 0x7FF
  order : Nat := 0
  buf : Option Nat := none
  /-- of the access unit in hand: whether a sequence may start with it, whether its picture is a reference, the slot it shows -/
  randomAccess : Bool := false
  reference : Bool := false
  shows : Option Nat := none
  wdog : Nat := 0
  codec : Nat := 0
  fails : Nat := 0
  /-- queued for in-service test (R445) -/
  testQueued : Bool := false
  /-- a result that lost to the watchdog may still complete (R198) -/
  lateDue : Nat := 0
  pict : Word := 0
  conc : Word := 0
  partialCount : Word := 0
  resync : Word := 0
  subst : Word := 0
  envref : Word := 0
  nobuf : Word := 0
  wdlate : Word := 0
  rate : Word := 0
  deriving DecidableEq, Repr

/-- What a clip codes for a frame: its picture, an all-skip picture for a frame without one (R262), or one for a picture that was
yielded (R261). -/
inductive ClipSrc where
  | pic (ptr : Nat)
  | gap
  | missing
  deriving DecidableEq, Repr

/-- A picture that a clip takes (R260, R262): its arrival, the size of its output window (0 without one), and once its folio is sealed
whether that is a gap folio and its records' boxes (R269). -/
structure ClipPic where
  pts : Nat
  num : Nat
  arrived : Nat
  src : ClipSrc
  winW : Nat := 0
  winH : Nat := 0
  concealed : Bool := false
  folio : Option (Bool × List ClipBox) := none
  deriving DecidableEq, Repr

/-- A clip (R257 to R273). -/
structure Clip where
  fn : Nat
  id : Word
  stream : Nat
  part : Nat
  thumb : Bool
  vbr : Bool
  deriveQp : Bool
  derivePriv : Bool
  scale : Nat
  first : Nat
  last : Nat
  maxPic : Nat
  waitMs : Nat
  refresh : Nat
  rate : Nat
  maxRate : Nat
  cap : Nat
  mosaic : Nat
  dqp : Int
  dclass : BitVec 64
  margin : Nat
  quality : Nat
  tside : Nat
  dcbase : Nat
  haddr : Nat
  hlen : Nat
  tick : Nat
  regions : List Region
  order : Nat
  core : Option Nat := none
  /-- the encoder working set drawn for it (Table 12.4) -/
  buf : Option Nat := none
  /-- pictures to code, in output order -/
  ready : List ClipPic := []
  /-- no later picture lies in range -/
  closed : Bool := false
  coded : Nat := 0
  bytes : Nat := 0
  firstPts : Nat := 0
  lastPts : Nat := 0
  /-- size of the clip picture -/
  w : Nat := 0
  h : Nat := 0
  sweep : Nat := 0
  /-- the next picture codes the sweep position again (R271) -/
  again : Bool := false
  /-- the previous reconstructed picture: luma, Cb and Cr by rows (R267), and the HRD buffer's fullness in bits (R271) -/
  recon : List Byte := []
  hrd : Nat := 0
  /-- WAIT has expired: the clip ends once its ready pictures are coded (R263) -/
  timedOut : Bool := false
  attempts : Nat := 0
  truncatedFlag : Bool := false
  early : Bool := false
  faultFlag : Bool := false
  entries : List Byte := []
  bits : List Byte := []
  ended : Bool := false
  deriving DecidableEq, Repr

/-- An encoder core (R275). -/
structure Enc where
  state : Nat := 0
  clip : Option (Nat × Word) := none
  wdog : Nat := 0
  lateDue : Nat := 0
  pict : Word := 0
  capped : Word := 0
  skiprepl : Word := 0
  refrep : Word := 0
  missing : Word := 0
  clips : Word := 0
  wdlate : Word := 0
  deriving DecidableEq, Repr

/-- A pre-processing unit (R222): the stream and frame order it serves. -/
structure Ppu where
  work : Option (Nat × Nat) := none
  inService : Bool := true
  deriving DecidableEq, Repr

/-- A host packet ring of a port (R215). -/
structure PktRing where
  base : Dword := 0
  size : Word := 0
  tail : Nat := 0
  head : Nat := 0
  vec : Nat := 0
  /-- entries written since the driver last moved TAIL (R354), and since the last message (R216) -/
  written : Nat := 0
  unannounced : Nat := 0
  deriving DecidableEq, Repr

/-- An Ethernet port (Table 8.9). -/
structure Port where
  pstat : Nat := 0
  mac : BitVec 48 := 0
  rx : PktRing := {}
  tx : PktRing := {}
  rxfrm : Word := 0
  badfrm : Word := 0
  hrxpkt : Word := 0
  hrxdrop : Word := 0
  txfrm : Word := 0
  /-- frames handed to the wire, oldest first (R217) -/
  sent : List (List Byte) := []
  deriving DecidableEq, Repr

/-! ### Host interface (chapters 13, 19) -/

/-- A slip the device has taken whose receipt is not written (R346). -/
structure Taken where
  /-- order in which it was taken; what waits for it names it so -/
  id : Nat
  seq : Nat
  opcode : Nat
  tag : Word
  /-- the stream it names, and the streams (id) and contexts (4096 + id) that order it (R346) -/
  stream : Option Nat := none
  keys : List Nat := []
  /-- status, stream state byte and RESULT once complete -/
  done : Option (Nat × Nat × BitVec 256) := none
  /-- a FENCE waits for the delivery of these frames: (stream, order) (R352) -/
  awaits : Option (List (Nat × Nat)) := none
  deriving DecidableEq, Repr

/-- A written C0 entry that a later one may merge into (R392). -/
structure Mergeable where
  source : Nat
  unit : Nat
  code : Nat
  index : Nat
  rep : Nat
  deriving DecidableEq, Repr

/-- A hardware ring (Table 13.4). -/
structure Ring where
  base : Dword := 0
  enable : Bool := false
  kind : Nat := 0
  s : Nat := 0
  pair : Nat := 0
  vector : Nat := 0
  folioFirst : Nat := 0
  folioLast : Nat := 0
  area : Dword := 0
  areaSz : Nat := 0
  modTime : Nat := 0
  modCount : Nat := 1
  head : Nat := 0
  tail : Nat := 0
  owner : Nat := 0
  baddb : Word := 0
  drop : Word := 0
  phase : Bool := true
  seq : Nat := 0
  taken : List Taken := []
  unannounced : Nat := 0
  merges : List Mergeable := []
  areaNext : Nat := 0
  /-- occupied spans of the folio area: (entry index, offset, bytes) -/
  spans : List (Nat × Nat × Nat) := []
  deriving DecidableEq, Repr

/-- A function's own state: mailbox, MSI-X, scratch (R353, R480). -/
structure Func where
  enabled : Bool := false
  mbxSel : Word := 0
  mbxValid : Bool := false
  mbxUnknown : Bool := false
  mbxBusy : Bool := false
  mbxLen : Nat := 0
  mbxGen : BitVec 16 := 0
  mbxData : List Word := []
  scratch : Word := 0
  msixEnable : Bool := false
  fnMask : Bool := false
  /-- unmasked vectors; every other vector is masked -/
  unmasked : List Nat := []
  pendingVec : List Nat := []
  intxDisable : Bool := false
  eventSeq : Word := 0
  total : Account := {}
  sessionEnded : Bool := false
  deriving DecidableEq, Repr

/-- What the device has put on the link toward the host besides memory writes: MSI-X messages, newest first. -/
structure Msix where
  fn : Nat
  vector : Nat
  deriving DecidableEq, Repr

/-- The host island. -/
structure HostSt where
  linkUp : Bool := false
  linkLost : Bool := false
  /-- PERST_N and POR_N seen released -/
  porN : Bool := false
  perstN : Bool := true
  numVfs : Nat := 0
  bar2Size : Nat := 28
  bar2Part : Nat := 1
  bar2Data : List Byte := []
  bar2Poisoned : Bool := false
  /-- DRAM that the host wrote through BAR2 since the last reset: (key, bytes) (Table 12.3) -/
  bar2Written : List (Nat × Nat) := []
  inta : Bool := false
  mem : List Host.Cell := []
  msix : List Msix := []
  rings : Tab Ring := []
  fns : Tab Func := []
  discReceipts : Word := 0
  discEvents : Word := 0
  discFolios : Word := 0
  lateCpl : Word := 0
  /-- advisory non-fatal errors reported by AER (R347) -/
  advisory : Word := 0
  deriving DecidableEq, Repr

/-! ### Memory and the Cellar (chapter 12) -/

/-- A DDR-5 channel and its controller (Table 12.5). -/
structure Channel where
  used : Bool := false
  rdimm : Bool := false
  failed : Bool := false
  ranks : Nat := 1
  gib : Nat := 0
  rate : Nat := 0
  owner : Nat := 1
  ce : Word := 0
  ue : Word := 0
  replay : Word := 0
  wcrc : Word := 0
  postMax : Nat := 0
  retrain : Word := 0
  erased0 : BitVec 20 := 0
  erased1 : BitVec 20 := 0
  /-- corrected reads of the last 24 hours by 20 * rank + device (R310) -/
  corrected : Tab Nat := []
  /-- refreshes owed by rank (R315) -/
  owed : Tab Nat := []
  /-- poisoned lines, and lines of unknown data after a write CRC alert (R312, R314) -/
  poison : List Nat := []
  /-- granules logically zero, oldest first (R318) -/
  zeroMap : List Nat := []
  deriving DecidableEq, Repr

/-- A reservation in a pool (R322). -/
structure Reserve where
  owner : Owner
  min : Nat
  max : Nat
  deriving DecidableEq, Repr

/-- A pool (R319). -/
structure Pool where
  part : Nat
  kind : Nat
  m : Nat
  k : Nat
  /-- chunks: (base, buffers) -/
  chunks : List (Nat × Nat) := []
  /-- free pointers with the function of their last owner, oldest first: on chip, and in the ring of DRAM -/
  cache : List (Nat × Nat) := []
  store : List (Nat × Nat) := []
  held : List (Nat × Owner × Nat) := []
  quarantined : List (Nat × Nat) := []
  /-- returned at a function-level reset, waiting for the zero map (R328) -/
  wiping : List (Nat × Nat) := []
  reserves : List Reserve := []
  quar : Word := 0
  badret : Word := 0
  rebuilding : Bool := false
  /-- a line of the ownership bitmap read uncorrectable: the pool waits to be created afresh (R331) -/
  bad : Bool := false
  deriving DecidableEq, Repr

/-- DRAM, its controllers and the Cellar. -/
structure MemSt where
  /-- key: channel * 2^35 + channel offset -/
  dram : List Host.Cell := []
  channels : Tab Channel := []
  pools : Tab Pool := []
  slot : Nat := 0
  /-- draws that wait for a slot of their partition: (pool, owner), oldest first (R286) -/
  waiting : List (Nat × Owner) := []
  /-- freed DRAM, newest first: (partition, offset, bytes, function that held it); unlisted DRAM counts as PF0's (R325, R441) -/
  lastFn : List (Nat × Nat × Nat × Nat) := []
  deriving DecidableEq, Repr

/-! ### Fabric (chapter 14) -/

/-- A fabric port (Table 14.8). -/
structure FabPort where
  state : Nat := 0
  width : Nat := 0
  neighbour : BitVec 16 := 0xFFFE
  root : Dword := 0
  replays : Nat := 0
  draining : Bool := false
  domain : Byte := 0
  serial : Dword := 0
  /-- buffer credits held at the next device, in 64-byte units by 4 * VC + CLASS (R371) -/
  used : Tab Nat := []
  /-- the input served last, by 4 * VC + CLASS (R372) -/
  turn : Tab Nat := []
  deriving DecidableEq, Repr

/-- A packet that waits for buffer credits: in the input buffer of port `input`, or, with input 4, as one of the device's own (R371). -/
structure HeldPacket where
  input : Nat
  pkt : Packet
  /-- where it has still to go: egress port, and whether as an escape -/
  ways : List (Nat × Bool)
  deriving DecidableEq, Repr

/-- A window (Table 14.8). -/
structure Window where
  valid : Bool := false
  exported : Bool := false
  canRead : Bool := false
  canWrite : Bool := false
  ctx : Nat := 0
  peer : BitVec 16 := 0
  peerWin : Nat := 0
  sigClu : Nat := 0
  sigEn : Bool := false
  sigSem : Nat := 0
  off : Dword := 0
  len : Nat := 0
  deriving DecidableEq, Repr

/-- A detour entry (Table 14.8). -/
structure Detour where
  escape : Bool
  port : Nat
  kind : Nat
  x : Nat
  y : Nat
  deriving DecidableEq, Repr

/-- A peer as the catalogue keeps it (R380). -/
structure Peer where
  /-- its CAT was heard, which carries its serial and domain -/
  known : Bool := false
  serial : Dword := 0
  domain : Byte := 0
  ports : BitVec 16 := 0
  /-- its LINKSTATE was heard, which carries its port states -/
  reported : Bool := false
  deriving DecidableEq, Repr

/-- What a remote access is for (R375). -/
inductive RemoteKind where
  | load | store | signal
  deriving DecidableEq, Repr

/-- An outstanding packet of a remote access (R376). -/
structure Remote where
  txid : Nat
  core : Nat
  job : Nat
  part : Nat
  kind : RemoteKind
  peer : BitVec 16
  win : Nat
  offset : Nat
  len : Nat
  /-- carrel byte at which a read lands -/
  land : Nat
  data : List Byte := []
  resent : Bool := false
  sent : Bool := false
  answered : Bool := false
  deriving DecidableEq, Repr

/-- The fabric. -/
structure FabSt where
  enable : Bool := false
  torus : Bool := false
  domain : Byte := 0
  sx : Nat := 1
  sy : Nat := 1
  lock : Bool := false
  walk : Nat := 0
  root : Bool := false
  split : Bool := false
  miswired : Bool := false
  detourFull : Bool := false
  call : BitVec 16 := 0xFFFE
  ports : Tab FabPort := []
  lowest : Dword := 0
  walks : Word := 0
  enabledOnce : Bool := false
  fwd : Word := 0
  drop : Word := 0
  replay : Word := 0
  nakCount : Word := 0
  tmo : Word := 0
  late : Word := 0
  detours : List Detour := []
  wins : Tab Window := []
  peers : Tab Peer := []
  remotes : List Remote := []
  nextTx : Nat := 0
  /-- packets put on a port, oldest first: (egress port, packet) -/
  out : List (Nat × Packet) := []
  /-- packets that wait for buffer credits, in the order of arrival (R371) -/
  held : List HeldPacket := []
  /-- the model's counter of the free amounts in which buffer credits return (log entry 60) -/
  returns : Nat := 0
  /-- destinations whose new packets are held until earlier ones are answered (R370) -/
  heldDst : List (BitVec 16) := []
  linksDownDue : Bool := false
  deriving DecidableEq, Repr

/-! ### Safety, power, security, errors, counters (chapters 15 to 20) -/

/-- A watch entry (Table 16.7) and the state kept for its stream. -/
structure Watch where
  en : Bool := false
  stream : Nat := 0
  budget : Nat := 0
  silence : Nat := 0
  clean : Nat := 0
  lastClean : Bool := true
  silenced : Bool := false
  timer : Bool := false
  /-- disagreement window: newest first (R416) -/
  window : List Bool := []
  deriving DecidableEq, Repr

/-- What the Spigot drives (R420). -/
inductive SpigotOut where
  | released
  | word (w : Word)
  | run (next : Nat) (w : Word)
  deriving DecidableEq, Repr

/-- The safety island. -/
structure SafSt where
  arm : Bool := false
  lock : Bool := false
  cause : Nat := 0
  ftti : Nat := 0x64
  half : Nat := 100000
  cleanN : Nat := 1
  k : Nat := 4
  w : Nat := 300
  watches : Tab Watch := []
  /-- zone words [31:8]; an unlisted index reads the never-bound word (R423) -/
  zones : Tab (BitVec 24) := []
  /-- binding of a Spigot index: (stream, zone) -/
  bound : Tab (Nat × Nat) := []
  notok : Word := 0
  disagree : Word := 0
  lateCount : Word := 0
  prooffail : Word := 0
  testfail : Word := 0
  testlate : Word := 0
  silenceCount : Word := 0
  ok : Bool := false
  lineA : Bool := false
  lineB : Bool := false
  statusSeq : BitVec 8 := 0
  held : Bool := false
  /-- the lines are driven (Table 1.7) -/
  driven : Bool := false
  spigot : SpigotOut := .released
  deriving DecidableEq, Repr

/-- A repair record in force (R449). -/
structure Repair where
  seq : Nat := 0
  entries : List (BitVec 128) := []
  deriving DecidableEq, Repr

/-- A Kiln report (Table 17.7). -/
structure KilnReport where
  status : Nat
  ms : Nat
  entries : List (BitVec 128)
  arrays : Nat
  units : Nat
  peak : Nat
  seq : Nat
  deriving DecidableEq, Repr

/-- The Kiln pass and its report (R447, R448). -/
structure Kiln where
  running : Bool := false
  paused : Bool := false
  groups : List Nat := []
  receipt : Option (Nat × Nat) := none
  /-- none before a pass -/
  report : Option KilnReport := none
  deriving DecidableEq, Repr

/-- The always-on island (Table 17.9). -/
structure PwrSt where
  cap : Nat := 250
  lock : Bool := false
  shedth : Word := 0xAAB0B6BC
  brakeLvl : Nat := 3
  shedPrio : Nat := 4
  istPeriod : Nat := 24
  level : Nat := 0
  droop : Bool := false
  brake : Bool := false
  droopRail : Nat := 15
  stage : Nat := 0
  fail : Nat := 0
  unclean : Bool := false
  hostBoot : Bool := false
  warm : Bool := false
  temp : Int := 0
  sensor : Nat := 0
  est : Nat := 0
  shedCount : Tab Word := []
  throt : Word := 0
  therm : Word := 0
  overCap : Word := 0
  throttle : Nat := 0
  /-- consecutive samples by 10 * level + rail, and of the brake (R436) -/
  samples : Tab Nat := []
  brakeSamples : Nat := 0
  demand : Nat := 0
  siSamples : Nat := 0
  usCap : Nat := 0
  usTherm : Nat := 0
  usOver : Nat := 0
  crystalLost : Bool := false
  stopped : List Nat := []
  railsUp : List SampleRail := []
  orderFaults : Nat := 0
  resetting : Bool := true
  kiln : Kiln := {}
  /-- a cold boot is under way (the wider boot of R443) -/
  coldBoot : Bool := true
  /-- the reset under way is a device reset, whose boot keeps the host link and samples no strap (R442, R443) -/
  deviceBoot : Bool := false
  bootSrc : Nat := 0
  /-- what the boot under way finds, while it waits for a host image -/
  facts : Option BootFacts := none
  deriving DecidableEq, Repr

/-- Fuses and flash, which no reset changes (R453, R454). -/
structure NvSt where
  variantS : Bool := true
  serial : Dword := 0
  step : Nat := 1
  lcs : Nat := 2
  revoke : BitVec 4 := 0
  secver : Nat := 0
  oauth : BitVec 512 := 0
  mauth : BitVec 512 := 0
  /-- digests of the four image public keys (Table 18.1) -/
  imgkey : Tab (BitVec 512) := []
  idErased : Bool := false
  krecErased : Bool := false
  oauthErased : Bool := false
  rowsLeft : Nat := 32
  marker : Bool := true
  /-- the repair record in force, and the one in the other of the two slots of flash (R449) -/
  record : Option Repair := none
  otherRecord : Option Repair := none
  fused : List (BitVec 128) := []
  flash : List Byte := []
  board : List Byte := []
  deriving DecidableEq, Repr

/-- The security island. -/
structure SecSt where
  m : Tab (BitVec 512) := []
  nload : Word := 0
  challenge : Option (BitVec 512) := none
  debug : Bool := false
  jtag : Bool := false
  hbCode : Nat := 0
  verifying : Bool := false
  hbIgnored : Nat := 0
  hbLen : Nat := 0
  staging : List Host.Cell := []
  imageSecver : Nat := 0
  imageCommit : Bool := false
  imageRevoke : Bool := false
  imageKey : Nat := 0
  /-- ATTEST slips waiting or signing: (slip ring, taken id, report address, nonce) -/
  attq : List (Nat × Nat × Nat × BitVec 512) := []
  /-- image update in progress: (slip ring, taken id, image, board record) -/
  update : Option (Nat × Nat × List Byte × List Byte) := none
  deriving DecidableEq, Repr

/-- The error and event unit (Table 15.12). -/
structure ErrSt where
  c4 : Bool := false
  c4Source : Nat := 0
  c4Code : Nat := 0
  cnt : Tab Word := []
  evdrop : Word := 0
  dupres : Word := 0
  /-- registers whose parity mismatches, by BAR0 offset (R476) -/
  parity : List Nat := []
  deriving DecidableEq, Repr

/-- One island's counters (R482 to R487). -/
structure Island where
  pmc : Tab (BitVec 48) := []
  evt : Tab Word := []
  census : Tab Word := []
  /-- kind of the census period that runs: 1 boot, 2 Kiln, 3 in-service test, 4 recovery, 0 none; and periods entered -/
  censusKind : Nat := 0
  censusCount : Nat := 0
  /-- counters that have counted an event whose count the model leaves open (log entry 39) -/
  openPmc : List Nat := []
  /-- counters whose selection register fails its parity (R476) -/
  marred : List Nat := []
  deriving DecidableEq, Repr

/-- Die-to-die interfaces (R17). -/
structure Die where
  lanes : Nat := 12
  withdrawn : Bool := false
  deriving DecidableEq, Repr

/-- The SMBus answer last given: none when not acknowledged (R492). -/
abbrev SmbusOut := Option Word

/-- The whole device, with the queue of waiting commands. -/
structure State where
  pending : List Instr := []
  /-- counter that names the next free value (the model's own field, log entry 2) -/
  free : Nat := 0
  /-- counter that orders jobs, parts and admissions (the model's own field, log entry 4) -/
  order : Nat := 0
  cores : Tab Core := []
  clusters : Tab Cluster := []
  ctxs : Tab Ctx := []
  /-- new definitions of REPLACE loads that wait for the swap (R280) -/
  nextCtxs : Tab Ctx := []
  jobs : List Job := []
  claims : List Claim := []
  parts : Tab Partition := []
  accounts : Tab Account := []
  streams : Tab Stream := []
  flows : Tab (List Byte × Nat) := []
  media : Tab Media := []
  encs : Tab Enc := []
  clips : List Clip := []
  ppus : Tab Ppu := []
  ports : Tab Port := []
  ppload : Tab (Nat × Nat) := []
  host : HostSt := {}
  mem : MemSt := {}
  fab : FabSt := {}
  saf : SafSt := {}
  pwr : PwrSt := {}
  nv : NvSt := {}
  sec : SecSt := {}
  err : ErrSt := {}
  islands : Tab Island := []
  pmuIsl : Nat := 0
  dies : Tab Die := []
  varMis : Bool := false
  strapHigh : Bool := true
  smbus : SmbusOut := none
  deriving DecidableEq, Repr

/-- The state at power-up, with every rail down and cold reset held: every register at the reset value of its table
(Tables 3.11 to 20.6) and nothing started (R24, R440, R500). Values the spec does not give are in log entries 3 and 4. -/
def State.reset : State := {}

end Sys2Proof.Machine
end

