-- ==== Sys2Proof/Machine/Ops.lean ====
section
/-! DEFINITION. Machine/Ops.lean: the named operations over State that the commands share: units and partitions, DRAM, rings and
interrupts, events, frames and their results, job ends, and the error classes. -/

namespace Sys2Proof.Machine

/-- What a meaning answers. -/
abbrev Out := Host.Outcome State Fault Refusal

/-! ### Free values and counters -/

/-- The i-th free value of this command, w bits wide (log entry 2). -/
def freeBits (s : State) (i w : Nat) : BitVec w := (Config.freeValue (s.free + i)).setWidth w

/-- n free values are used up. -/
def useFree (n : Nat) (s : State) : State := { s with free := s.free + n }

/-- The next order number and the state after it (log entry 4). -/
def takeOrder (s : State) : Nat × State := (s.order, { s with order := s.order + 1 })

/-- Add n to counter k and carry along its chain: a counter with CHAIN wraps into the next one, any other holds at its maximum; one whose
selection register fails its parity stops (R483, Table 19.1). -/
def addPmc (d : Island) : Nat → Nat → Nat → Tab (BitVec 48) → Tab (BitVec 48)
  | 0, _, _, t => t
  | m + 1, k, n, t =>
    let v := (tget t 0 k).toNat + n
    if n = 0 ∨ d.marred.contains k then t
    else if nbit (tget d.evt 0 k).toNat 30 then addPmc d m (k + 1) (v / 2 ^ 48) (tset t k (BitVec.ofNat 48 v))
    else tset t k (BitVec.ofNat 48 (min v (2 ^ 48 - 1)))

/-- Add n to what an island counts of an event (R482). -/
def bumpPmc (d : Island) (n : Nat) (l : List Nat) (t : Tab (BitVec 48)) : Tab (BitVec 48) := l.foldl (fun t k => addPmc d 8 k n t) t

/-- The counters of island `isl` whose selection is enabled for `code` and not fed by a chain. -/
def pmcsOf (d : Island) (code : Nat) : List Nat :=
  (List.range 8).filter fun k =>
    let e := (tget d.evt 0 k).toNat
    nbit e 31 && e % 256 == code && !d.marred.contains k && !(decide (0 < k) && nbit (tget d.evt 0 (k - 1)).toNat 30)

/-- Count n events of a code in an island. A clock stop always counts in the census (R485). -/
def countEv (isl code n : Nat) (s : State) : State :=
  let d := tget s.islands {} isl
  let sel := pmcsOf d code
  let d1 := if sel.isEmpty then d else { d with pmc := bumpPmc d n sel d.pmc }
  let d2 := if d.censusKind != 0 || code == 0x01 then { d1 with census := tmod d1.census 0 code (satInc · n) } else d1
  if sel.isEmpty && d.censusKind == 0 && code != 0x01 then s else { s with islands := tset s.islands isl d2 }

/-- A census period of an island begins (R485). -/
def beginCensus (isl kind : Nat) (s : State) : State :=
  { s with islands := tmod s.islands {} isl fun d => { d with censusKind := kind, censusCount := min (d.censusCount + 1) 65535 } }

/-- The census period of a kind ends in an island. -/
def endCensus (isl kind : Nat) (s : State) : State :=
  if (tget s.islands {} isl).censusKind = kind then { s with islands := tmod s.islands {} isl fun d => { d with censusKind := 0 } } else s

/-- An island is reset: its counters are zero and a recovery census begins (R482, R485). -/
def resetIsland (isl : Nat) (s : State) : State :=
  beginCensus isl 4 { s with islands := tmod s.islands {} isl fun d => { d with pmc := [], openPmc := [] } }

/-! ### Units -/

/-- Physical core k (5c + n). -/
def coreAt (s : State) (k : Nat) : Core := tget s.cores {} k
/-- Set a physical core. -/
def setCore (k : Nat) (c : Core) (s : State) : State := { s with cores := tset s.cores k c }
/-- Change a physical core. -/
def modCore (k : Nat) (f : Core → Core) (s : State) : State := setCore k (f (coreAt s k)) s
/-- Cluster c. -/
def cluAt (s : State) (c : Nat) : Cluster := tget s.clusters {} c
/-- Change a cluster. -/
def modClu (c : Nat) (f : Cluster → Cluster) (s : State) : State := { s with clusters := tset s.clusters c (f (cluAt s c)) }
/-- Stream id. -/
def strm (s : State) (id : Nat) : Stream := tget s.streams {} id
/-- Change a stream. -/
def modStrm (id : Nat) (f : Stream → Stream) (s : State) : State := { s with streams := tset s.streams id (f (strm s id)) }
/-- Change one admitted frame, by its order. -/
def modFrame (id order : Nat) (f : Frame → Frame) (s : State) : State :=
  modStrm id (fun st => { st with frames := amend (fun fr => fr.order == order) f st.frames }) s
/-- An admitted frame by its order. -/
def frameOf (s : State) (id order : Nat) : Option Frame := (strm s id).frames.find? fun f => f.order == order
/-- A function's own state. -/
def fnAt (s : State) (f : Nat) : Func := tget s.host.fns {} f
/-- Change a function's own state. -/
def modFn (f : Nat) (g : Func → Func) (s : State) : State :=
  { s with host := { s.host with fns := tset s.host.fns f (g (fnAt s f)) } }
/-- A function that exists and is enabled: PF0, or a VF by NUM_VFS (R332, R356). -/
def fnPresent (s : State) (f : Nat) : Bool := f == 0 || decide (f ≤ s.host.numVfs)

/-- The physical core that serves logical core c, if one does (R99, R100). -/
def servedBy (s : State) (c : Nat) : Option Nat :=
  let cl := cluAt s (c / 4)
  let p := tget cl.phys (c % 4) (c % 4)
  if cl.inService && decide (p < 5) && decide (c < 32) then some (5 * (c / 4) + p) else none

/-- The DDR-5 channels that exist (R306). -/
def usedChannels (s : State) : List Nat := (List.range 8).filter fun m => (tget s.mem.channels {} m).used

/-- The bits of a list of unit numbers. -/
def maskOf (l : List Nat) : Nat := l.foldl (fun a n => a ||| 2 ^ n) 0

/-- The record of a partition: until the first accepted PARTITION_SET, partition 1 holds every unit (R285). -/
def partAt (s : State) (p : Nat) : Partition :=
  tget s.parts (if p = 1 then
    { present := true, noc := 64, ppwin := 64, celwin := 64, minCores := 0, channels := maskOf (usedChannels s), ppu := 0xFF,
      cores := 0xFFFFFFFF, media := 0xFFFFFFFF, enc := 0xF, ways := List.replicate 8 16, slots := List.replicate 8 4 } else {}) p

/-- Change a partition. -/
def modPart (p : Nat) (f : Partition → Partition) (s : State) : State := { s with parts := tset s.parts p (f (partAt s p)) }

/-- The partition that holds logical core c. -/
def partOfCore (s : State) (c : Nat) : Nat :=
  ((List.range 4).find? fun p => (partAt s p).present && nbit (partAt s p).cores c).getD 4

/-- The logical cores of partition p in service. -/
def coresIn (s : State) (p : Nat) : List Nat :=
  (List.range 32).filter fun c => nbit (partAt s p).cores c && (servedBy s c).isSome

/-- Those of them in cluster cl. -/
def coresInClu (s : State) (p cl : Nat) : List Nat := (coresIn s p).filter fun c => c / 4 == cl

/-- A context definition. -/
def ctxAt (s : State) (id : Nat) : Option Ctx := tfind s.ctxs id

/-- The residency of a context in a cluster. -/
def residencyOf (s : State) (cl ctx : Nat) : Option Residency :=
  ((cluAt s cl).residencies.find? fun r => r.2.ctx == ctx).map (·.2)

/-- The clusters where a context is resident. -/
def residentClusters (s : State) (ctx : Nat) : List Nat := (List.range 8).filter fun cl => (residencyOf s cl ctx).isSome

/-- Charge a context's account and its owner's total (R298). -/
def charge (ctx : Nat) (f : Account → Account) (s : State) : State :=
  match ctxAt s ctx with
  | none => s
  | some c => modFn c.owner (fun g => { g with total := f g.total }) { s with accounts := tmod s.accounts {} ctx f }

/-- A 64-bit count that holds at its largest value (R297). -/
def hold64 (n : Nat) : Nat := min n (2 ^ 64 - 1)

/-! ### DRAM (R307, R314, R318) -/

/-- The channels of a partition in ascending order. -/
def partChannels (s : State) (p : Nat) : List Nat := (usedChannels s).filter fun m => nbit (partAt s p).channels m

/-- The capacity in use of a channel in bytes (R306). -/
def capOf (s : State) (m : Nat) : Nat := (tget s.mem.channels {} m).gib * 2 ^ 30

/-- The channel and channel offset of a partition offset (R307); none beyond the partition's DRAM. -/
def dramAt (s : State) (p x : Nat) : Option (Nat × Nat) :=
  let ch := partChannels s p
  let k := ch.length
  if k = 0 then none else
  let g := x / 256
  let m := ch.getD (g % k) 0
  let o := 256 * (g / k) + x % 256
  if o < capOf s m then some (m, o) else none

/-- The key of a DRAM byte. -/
def dramKey (m o : Nat) : Nat := m * 2 ^ 35 + o

/-- The key of a partition offset. -/
def keyOf (s : State) (p x : Nat) : Option Nat := (dramAt s p x).map fun mo => dramKey mo.1 mo.2

/-- The bytes of DRAM a partition has. -/
def partBytes (s : State) (p : Nat) : Nat := ((partChannels s p).map (capOf s)).sum

/-- What DRAM holds at a key: zero in a granule whose zero-map bit is set (R318). -/
def dramByte (s : State) (key : Nat) : Byte :=
  let m := key / 2 ^ 35
  let o := key % 2 ^ 35
  if (tget s.mem.channels {} m).zeroMap.contains (o / 65536) then 0 else memGet 0 s.mem.dram key

/-- Whether a read of a key ends poisoned or with an error response: a poisoned line (R314), or a failed channel (R313). -/
def dramPoisoned (s : State) (key : Nat) : Bool :=
  let ch := tget s.mem.channels {} (key / 2 ^ 35)
  ch.failed || ch.poison.contains (key % 2 ^ 35 / 64)

/-- Change a channel. -/
def modChan (m : Nat) (f : Channel → Channel) (s : State) : State :=
  { s with mem := { s.mem with channels := tset s.mem.channels m (f (tget s.mem.channels {} m)) } }

/-- Zero a granule physically and clear its zero-map bit (R318). -/
def settleGranule (m g : Nat) (s : State) : State :=
  if (tget s.mem.channels {} m).zeroMap.contains g then
    let lo := dramKey m (g * 65536)
    modChan m (fun c => { c with zeroMap := c.zeroMap.filter (· != g) })
      { s with mem := { s.mem with dram := s.mem.dram.filter fun c => !(decide (lo ≤ c.1) && decide (c.1 < lo + 65536)) } }
  else s

/-- Clear the poison of every line that a write to these keys covers whole (R314). -/
def liftPoison (keys : List Nat) (s : State) : State :=
  if s.mem.channels.all fun c => c.2.poison.isEmpty then s else
  { s with mem := { s.mem with channels := tmap s.mem.channels fun m c =>
      { c with poison := c.poison.filter fun l =>
          !((List.range 64).all fun i => keys.contains (dramKey m (64 * l + i))) } } }

/-- Write one DRAM byte: a write to a poisoned line or a failed channel is not performed (R313, R314), and a partial write of a
logically zero granule first zeroes the rest (R318). -/
def dramPut (key : Nat) (b : Byte) (s : State) : State :=
  if dramPoisoned s key then s else
  let s := settleGranule (key / 2 ^ 35) (key % 2 ^ 35 / 65536) s
  { s with mem := { s.mem with dram := memSet 0 s.mem.dram key b } }

/-- Write cells of DRAM in one request. -/
def dramPuts (cells : List Host.Cell) (s : State) : State :=
  cells.foldl (fun s x => dramPut x.1 x.2 s) (liftPoison (cells.map (·.1)) s)

/-- The cells of bytes from partition offset x on; bytes beyond the partition's DRAM have no place. -/
def cellsAt (s : State) (p x : Nat) : List Byte → List Host.Cell
  | [] => []
  | b :: r => match keyOf s p x with
    | some k => (k, b) :: cellsAt s p (x + 1) r
    | none => cellsAt s p (x + 1) r

/-- Write DRAM bytes at partition offset x on. -/
def dramWrite (p x : Nat) (bs : List Byte) (s : State) : State := dramPuts (cellsAt s p x bs) s

/-- Read n DRAM bytes at partition offset x on. -/
def dramRead (s : State) (p x n : Nat) : List Byte :=
  (List.range n).map fun i => match keyOf s p (x + i) with | some k => dramByte s k | none => 0

/-! ### Rings, interrupts (R337 to R340, R353, R354) -/

/-- The reset value of ring n (R339). -/
def ringReset (n : Nat) : Ring :=
  if n = 0 then { kind := 0, pair := 1 } else if n = 1 then { kind := 1 } else if n = 2 then { kind := 3, vector := 1 } else {}

/-- Ring n. -/
def ringAt (s : State) (n : Nat) : Ring := tget s.host.rings (ringReset n) n
/-- Set ring n. -/
def setRing (n : Nat) (r : Ring) (s : State) : State := { s with host := { s.host with rings := tset s.host.rings n r } }
/-- Change ring n. -/
def modRing (n : Nat) (f : Ring → Ring) (s : State) : State := setRing n (f (ringAt s n)) s
/-- Entries of a ring. -/
def Ring.size (r : Ring) : Nat := 2 ^ (6 + r.s)
/-- Whether a ring is full. -/
def Ring.full (r : Ring) : Bool := (r.tail + 1) % r.size == r.head

/-- INTA's level by R354. -/
def intaLevel (s : State) : Bool :=
  let f := fnAt s 0
  !f.msixEnable && !f.intxDisable &&
    (s.host.rings.any (fun p => p.2.owner == 0 && p.2.enable && p.2.kind != 0 && p.2.head != p.2.tail) ||
     (List.range 2).any fun i => let p := tget s.ports {} i; decide (0 < p.rx.written) || decide (0 < p.tx.written))

/-- Drive INTA. -/
def driveInta (s : State) : State := { s with host := { s.host with inta := intaLevel s && s.host.linkUp } }

/-- Vectors of a function's MSI-X table (Table 13.2). -/
def msixVectors (f : Nat) : Nat := if f = 0 then 2048 else 64

/-- Send an MSI-X message, or set the pending bit of a masked vector (R353). -/
def sendMsix (f v : Nat) (s : State) : State :=
  let g := fnAt s f
  if !g.msixEnable || !s.host.linkUp then s
  else if g.fnMask || !g.unmasked.contains v then
    modFn f (fun g => { g with pendingVec := if g.pendingVec.contains v then g.pendingVec else v :: g.pendingVec }) s
  else { s with host := { s.host with msix := { fn := f, vector := v } :: s.host.msix } }

/-- Announce every unannounced entry of ring n (R353, R392). -/
def announce (n : Nat) (s : State) : State :=
  let r := ringAt s n
  sendMsix r.owner r.vector (setRing n { r with unannounced := 0, merges := [] } s)

/-- Write host memory. -/
def hostWrite (a : Nat) (bs : List Byte) (s : State) : State :=
  { s with host := { s.host with mem := memWrite 0 s.host.mem a bs } }

/-- Write one 64-byte entry at the device's index of ring n: its 63 bytes, then PHASE; move the index, flip the phase at the
wrap, and announce when COUNT entries are unannounced (R337, R338, R353). The ring has room. -/
def ringPut (n : Nat) (entry : List Byte) (s : State) : State :=
  let r := ringAt s n
  let s := hostWrite (r.base.toNat + 64 * r.tail) (slice entry 0 63 ++ [if r.phase then 1 else 0]) s
  let t := (r.tail + 1) % r.size
  let r := { r with tail := t, phase := if t = 0 then !r.phase else r.phase, unannounced := r.unannounced + 1 }
  let s := setRing n r s
  driveInta (if max 1 r.modCount ≤ r.unannounced then announce n s else s)

/-- Count in a ring's RING_DROP. -/
def ringDrop (n : Nat) (s : State) : State := modRing n (fun r => { r with drop := satInc r.drop }) s

/-! ### Events (R391, R392) -/

/-- What an event entry says (Table 15.4). -/
structure Event where
  type : Nat := 1
  cls : Nat := 0xFF
  part : Option Nat := none
  source : Nat := 0x10
  unit : Option Nat := none
  stream : Option Nat := none
  ctx : Option Nat := none
  frame : Option Nat := none
  code : Nat := 0
  detail : List Nat := []
  deriving DecidableEq, Repr

/-- The function an event belongs to: the owner of the stream or context it names, else PF0. -/
def eventOwner (s : State) (e : Event) : Nat :=
  match e.stream, e.ctx with
  | some i, _ => (strm s i).owner
  | none, some c => match ctxAt s c with | some d => d.owner | none => 0
  | none, none => 0

/-- The ring an event goes to: the owner's lowest-numbered enabled event ring, or PF0's ring 2. -/
def eventRing (s : State) (e : Event) : Option Nat :=
  if e.stream.isSome || e.ctx.isSome then
    let f := eventOwner s e
    let l := s.host.rings.filter fun p => p.2.owner == f && p.2.enable && p.2.kind == 3
    (l.head?).map (·.1)
  else if (ringAt s 2).enable then some 2 else none

/-- The partition an event names. -/
def eventPart (s : State) (e : Event) : Nat :=
  match e.part, e.stream, e.ctx with
  | some p, _, _ => p
  | none, some i, _ => (strm s i).part
  | none, none, some c => match ctxAt s c with | some d => d.part | none => 0xFF
  | none, none, none => 0xFF

/-- The 63 bytes of an event entry below PHASE (Table 15.4). -/
def eventBytes (s : State) (e : Event) (seq : Word) (rep : Nat) : List Byte :=
  leBytes 2 e.type ++ leBytes 1 e.cls ++ leBytes 1 (eventPart s e) ++ leBytes 4 seq.toNat ++ leBytes 2 e.source
    ++ leBytes 2 (e.unit.getD 0xFFFF) ++ leBytes 2 (e.stream.getD 0xFFFF) ++ leBytes 2 (e.ctx.getD 0xFFFF)
    ++ leBytes 8 (e.frame.getD (2 ^ 64 - 1)) ++ leBytes 2 e.code ++ leBytes 2 rep ++ leBytes 4 0
    ++ ((List.range 6).flatMap fun i => leBytes 4 (e.detail.getD i 0)) ++ leBytes 7 0

/-- Merge a C0 event into an unannounced entry with its SOURCE, UNIT and CODE (R392); REPEAT holds at 65,535. -/
def mergeEvent (n : Nat) (m : Mergeable) (s : State) : State :=
  let r := ringAt s n
  let rep := min (m.rep + 1) 65535
  let s := hostWrite (r.base.toNat + 64 * m.index + 26) (leBytes 2 rep) s
  setRing n { r with merges := amend (fun x => x.index == m.index) (fun x => { x with rep := rep }) r.merges } s

/-- A new entry of ring n for an event; a full ring drops it (R391). -/
def newEntry (n : Nat) (e : Event) (seq : Word) (s : State) : State :=
  let r := ringAt s n
  if r.full then ringDrop n s
  else
    let m : Mergeable := { source := e.source, unit := e.unit.getD 0xFFFF, code := e.code, index := r.tail, rep := 0 }
    let other := fun (x : Mergeable) => x.index != r.tail && !(x.source == m.source && x.unit == m.unit && x.code == m.code)
    ringPut n (eventBytes s e seq 0) (if e.cls == 0 then setRing n { r with merges := m :: r.merges.filter other } s else s)

/-- Place an event in ring n: a C0 event like an unannounced entry merges into it while that entry is young (R392). -/
def placeEvent (n : Nat) (e : Event) (seq : Word) (s : State) : State :=
  let r := ringAt s n
  let u := e.unit.getD 0xFFFF
  match (if e.cls == 0 then r.merges.find? fun m => m.source == e.source && m.unit == u && m.code == e.code else none) with
  | some m => if Config.mergeOpen s.free s.order seq.toNat then mergeEvent n m s else newEntry n e seq s
  | none => newEntry n e seq s

/-- Count an error event's class (R401). -/
def countClass (e : Event) (s : State) : State :=
  if e.type == 1 && decide (e.cls < 5) then { s with err := { s.err with cnt := tmod s.err.cnt 0 e.cls satInc } } else s

/-- An event with its SEQ is written, merged or dropped (R391, R392). While the host link is down it is discarded and counted (R358). -/
def deliverEvent (e : Event) (seq : Word) (s : State) : State :=
  if !s.host.linkUp then { s with host := { s.host with discEvents := satInc s.host.discEvents } }
  else match eventRing s e with
    | none => { s with err := { s.err with evdrop := satInc s.err.evdrop } }
    | some n => placeEvent n e seq s

/-- Report an event: count its class, advance the function's SEQ, and deliver it (R391, R392, R401). -/
def emit (e : Event) (s : State) : State :=
  let t := countClass e s
  let f := eventOwner t e
  deliverEvent e (fnAt t f).eventSeq (modFn f (fun g => { g with eventSeq := g.eventSeq + 1 }) t)

/-- A C0 event of a source and unit. -/
def emitC0 (source unit code : Nat) (detail : List Nat := []) (s : State) : State :=
  emit { cls := 0, source := source, unit := some unit, code := code, detail := detail } s

/-- Single-bit errors corrected in the memories of a unit's island are counted and reported (R390). -/
def correctMemories (source unit island n : Nat) (s : State) : State :=
  (List.range n).foldl (fun s _ => countEv island 0x04 1 (emitC0 source unit 0 [] s)) s

/-! ### SAFE_OK (R417, R418) and Spigot words (R421) -/

/-- SAFE_OK goes not-OK: both lines low, counted, status sequence advanced (R417, R418). -/
def goNotOk (s : State) : State :=
  if s.saf.ok then
    { s with saf := { s.saf with ok := false, lineA := false, lineB := false, notok := satInc s.saf.notok,
                                 statusSeq := s.saf.statusSeq + 1 } }
  else s

/-- The enabled watch entry of a stream. -/
def watchOf (s : State) (id : Nat) : Option Nat :=
  (s.saf.watches.find? fun w => w.2.en && w.2.stream == id).map (·.1)

/-- A stream is watched: named by an enabled entry and of partition 0 (R405). -/
def watched (s : State) (id : Nat) : Bool := (watchOf s id).isSome && (strm s id).part == 0

/-- Set a stream's clean count back to 0: a not-OK cause applies to it (R418). -/
def dirtyStream (id : Nat) (s : State) : State :=
  goNotOk { s with saf := { s.saf with watches := tmap s.saf.watches fun _ w =>
    if w.stream == id then { w with clean := 0 } else w } }

/-- A not-OK cause that applies to every watched stream (R418). -/
def dirtyAll (s : State) : State :=
  goNotOk { s with saf := { s.saf with watches := tmap s.saf.watches fun _ w => { w with clean := 0 } } }

/-- A watched stream enters or leaves RUNNING: its silence timer starts or stops, and leaving is a not-OK cause (R407, R418). -/
def watchRunning (id : Nat) (running : Bool) (s : State) : State :=
  if watched s id then
    let s := { s with saf := { s.saf with watches := tmap s.saf.watches fun _ w =>
      if w.stream == id && w.en then { w with timer := running } else w } }
    if running then s else dirtyStream id s
  else s

/-- Mark a zone word stale in place; `dis` also disables it and zeroes the count (R407, R423). -/
def staleWord (dis : Bool) (w : BitVec 24) : BitVec 24 :=
  let w := w ||| 0x000400
  if dis then (w ||| 0x001000) &&& 0xFFFF00 else w

/-- The zone word [31:8] of a Spigot index; never bound: sequence 0, stale and disabled (R423). -/
def zoneWord (s : State) (i : Nat) : BitVec 24 := tget s.saf.zones 0x001400 i

/-- Mark in place every Spigot-bound zone that p picks by (stream, zone). -/
def staleZones (p : Nat × Nat → Bool) (dis : Bool) (s : State) : State :=
  let z := s.saf.bound.foldl
    (fun z b => if p b.2 then tset z b.1 (staleWord dis (tget z 0x001400 b.1)) else z) s.saf.zones
  { s with saf := { s.saf with zones := z } }

/-- Release the bindings that p picks: marked stale and disabled, count 0, sequence kept (R423). -/
def unbind (p : Nat × Nat → Bool) (s : State) : State :=
  let s := staleZones p true s
  { s with saf := { s.saf with bound := s.saf.bound.filter fun b => !p b.2 } }

/-- The context a frame runs under. -/
def frameCtx (s : State) (id order : Nat) : Nat := match frameOf s id order with | some f => f.ctx | none => (strm s id).ctx

/-! ### Cellar owners (R322) -/

/-- The function of an owner. -/
def ownerFn (s : State) : Owner → Nat
  | .stream id => (strm s id).owner
  | .residency cl k _ => match tfind (cluAt s cl).residencies k with
    | some r => match ctxAt s r.ctx with | some c => c.owner | none => 0
    | none => 0
  | .partition _ => 0

/-! ### Partition DRAM (R279, R307, R317, R318, R323) -/

/-- Bytes of a partition that one 64 KiB granule number of its channels spans. -/
def granuleSpan (s : State) (p : Nat) : Nat := 65536 * (partChannels s p).length

/-- The partition offset of a DRAM key (R307, inverted). -/
def offsetOf (s : State) (p key : Nat) : Option Nat :=
  let ch := partChannels s p
  let o := key % 2 ^ 35
  (position (fun m => m == key / 2 ^ 35) ch).map fun i => 256 * (o / 256 * ch.length + i) + o % 256

/-- Whether a DRAM key lies in n bytes at partition offset x. -/
def keyIn (s : State) (p x n key : Nat) : Bool :=
  match offsetOf s p key with
  | some y => decide (x ≤ y) && decide (y < x + n)
  | none => false

/-- Wipe n bytes at partition offset x: every line reads as zero and poison is cleared (R317). -/
def wipeRange (p x n : Nat) (s : State) : State :=
  { s with
    mem := { s.mem with
      dram := s.mem.dram.filter fun c => !keyIn s p x n c.1
      channels := tmap s.mem.channels fun m c => { c with poison := c.poison.filter fun l => !keyIn s p x n (dramKey m (64 * l)) } }
    clusters := tmap s.clusters fun _ c => { c with stackLines := c.stackLines.filter fun k => !keyIn s p x n k.1 } }

/-- Wipe an extent by the zero map: the granules that lie whole in it get their bits, in rising order, the rest is written (R318,
log entry 27). -/
def zeroExtent (p x n : Nat) (s : State) : State :=
  let k := granuleSpan s p
  let s := wipeRange p x n s
  if k = 0 then s else
  let gs := (List.range ((x + n) / k - ceilDiv x k)).map (ceilDiv x k + ·)
  (partChannels s p).foldl (fun s m => modChan m (fun c =>
    { c with zeroMap := c.zeroMap ++ gs.filter fun g => !c.zeroMap.contains g }) s) s

/-- Whether a granule that n bytes at offset x cover still has its zero-map bit set. -/
def granuleBusy (s : State) (p x n : Nat) : Bool :=
  let k := granuleSpan s p
  (partChannels s p).any fun m => (tget s.mem.channels {} m).zeroMap.any fun g => decide (g * k < x + n) && decide (x < (g + 1) * k)

/-- The bytes of a size class, and the alignment and stride of its buffers (R319). -/
def Pool.bytes (q : Pool) : Nat := q.m * 2 ^ q.k
/-- Alignment of a pool's buffers. -/
def Pool.align (q : Pool) : Nat := if 65536 ≤ q.bytes then 65536 else 64
/-- Stride of a pool's buffers. -/
def Pool.stride (q : Pool) : Nat := ceilDiv q.bytes q.align * q.align

/-- The extents (offset, bytes) of a partition's DRAM that are taken: context images and shares, and pool chunks. -/
def extents (s : State) (p : Nat) : List (Nat × Nat) :=
  let defs := (s.ctxs ++ s.nextCtxs).filter fun c => c.2.part == p
  let pools := s.mem.pools.filter fun q => q.2.part == p
  (defs.flatMap fun c => c.2.area) ++ pools.flatMap fun q => q.2.chunks.map fun c => (c.1, c.2 * q.2.stride)

/-- The free extents of a partition's DRAM, lowest first. -/
def freeGaps (s : State) (p : Nat) : List (Nat × Nat) :=
  let l := sortBy (fun e : Nat × Nat => e.1) ((extents s p).filter fun e => e.2 != 0)
  let r := l.foldl (fun (a : Nat × List (Nat × Nat)) e =>
    (max a.1 (e.1 + e.2), if a.1 < e.1 then a.2 ++ [(a.1, e.1 - a.1)] else a.2)) (0, [])
  r.2 ++ (if r.1 < partBytes s p then [(r.1, partBytes s p - r.1)] else [])

/-- The first n bytes of a list of extents. -/
def carve : Nat → List (Nat × Nat) → List (Nat × Nat)
  | _, [] => []
  | n, g :: r => if n = 0 then [] else if n ≤ g.2 then [(g.1, n)] else g :: carve (n - g.2) r

/-- The partition offset of byte x of an area. -/
def placeIn : List (Nat × Nat) → Nat → Option Nat
  | [], _ => none
  | g :: r, x => if x < g.2 then some (g.1 + x) else placeIn r (x - g.2)

/-- The byte of an area that stands at partition offset y. -/
def offsetIn : List (Nat × Nat) → Nat → Option Nat
  | [], _ => none
  | g :: r, y => if g.1 ≤ y ∧ y < g.1 + g.2 then some (y - g.1) else (offsetIn r y).map (g.2 + ·)

/-- The key of byte x of a context's global share; none beyond it. -/
def shareKey (s : State) (c : Ctx) (x : Nat) : Option Nat :=
  if x < c.globalLen then (placeIn c.area x).bind (keyOf s c.part) else none

/-- The lowest aligned offset at which n bytes of the partition's DRAM are free (R279, R323). -/
def firstFit (s : State) (p align n : Nat) : Option Nat :=
  let l := extents s p ++ (partChannels s p).flatMap fun m =>
    (tget s.mem.channels {} m).zeroMap.map fun g => (g * granuleSpan s p, granuleSpan s p)
  let ok := fun (x : Nat) => decide (x + n ≤ partBytes s p) && l.all fun e => e.2 == 0 || decide (x + n ≤ e.1) || decide (e.1 + e.2 ≤ x)
  leastBy id ((0 :: l.map fun e => ceilDiv (e.1 + e.2) align * align).filter ok)

/-- The function that last held n bytes at an offset: PF0 where nothing was freed there (R441), and no function's number where the
bytes were held by several. -/
def lastFnOf (s : State) (p x n : Nat) : Nat :=
  match s.mem.lastFn.find? fun e => e.1 == p && decide (e.2.1 < x + n) && decide (x < e.2.1 + e.2.2.1) with
  | some e => if e.2.1 ≤ x ∧ x + n ≤ e.2.1 + e.2.2.1 then e.2.2.2 else 0xFFFF
  | none => 0

/-- Free an extent, remembering the function that held it. -/
def freeExtent (p x n f : Nat) (s : State) : State :=
  if n = 0 then s else { s with mem := { s.mem with lastFn := (p, x, n, f) :: s.mem.lastFn } }

/-! ### Pools (R319 to R325) -/

/-- The size class (m, k) of a request: the smallest m * 2^k that holds it, m from 8 to 15 and k from 3 (R319). -/
def sizeClass (n : Nat) : Nat × Nat :=
  match (List.range 40).find? fun i => decide (ceilDiv n (2 ^ (i + 3)) ≤ 15) with
  | some i => (max 8 (ceilDiv n (2 ^ (i + 3))), i + 3)
  | none => (15, 43)

/-- Pool n. -/
def poolAt (s : State) (n : Nat) : Option Pool := tfind s.mem.pools n
/-- Set pool n. -/
def setPool (n : Nat) (q : Pool) (s : State) : State := { s with mem := { s.mem with pools := tset s.mem.pools n q } }

/-- The free count F (R322). -/
def Pool.free (q : Pool) : Nat := q.cache.length + q.store.length
/-- Buffers an owner holds. -/
def Pool.heldBy (q : Pool) (o : Owner) : Nat := (q.held.filter fun h => h.2.1 == o).length
/-- The sum U of the unmet minima (R322). -/
def Pool.unmet (q : Pool) : Nat := (q.reserves.map fun r => r.min - q.heldBy r.owner).sum
/-- Buffers of a pool. -/
def Pool.count (q : Pool) : Nat := (q.chunks.map (·.2)).sum
/-- Whether an offset lies in a chunk of a pool. -/
def Pool.spans (q : Pool) (ptr : Nat) : Bool := q.chunks.any fun c => decide (c.1 ≤ ptr) && decide (ptr < c.1 + c.2 * q.stride)
/-- Whether an offset is the start of one of a pool's buffers (R324). -/
def Pool.starts (q : Pool) (ptr : Nat) : Bool :=
  q.chunks.any fun c => decide (c.1 ≤ ptr) && decide (ptr < c.1 + c.2 * q.stride) && (ptr - c.1) % q.stride == 0

/-- Refill 64 pointers from the ring when fewer than 64 remain on chip, spill 64 when more than 192 do (R320); a lost ring line loses
its 8 pointers and starts a rebuild (R331). -/
def balance (lost : Bool) (q : Pool) : Pool :=
  if q.cache.length < 64 && !q.store.isEmpty then
    let got := if lost then (q.store.take 64).drop 8 else q.store.take 64
    { q with cache := got ++ q.cache, store := q.store.drop 64, rebuilding := q.rebuilding || lost }
  else if 192 < q.cache.length then { q with store := q.store ++ q.cache.take 64, cache := q.cache.drop 64 }
  else q

/-- Enter a pointer into the free store (R320). -/
def enterFree (ptr f : Nat) (q : Pool) : Pool := balance false { q with cache := q.cache ++ [(ptr, f)] }

/-- Whether a draw by an owner is served (R322); none is while the free store is rebuilt, nor from a pool whose bitmap was lost (R331). -/
def mayDraw (q : Pool) (o : Owner) : Bool :=
  match q.reserves.find? fun r => r.owner == o with
  | none => false
  | some r =>
    let h := q.heldBy o
    !q.rebuilding && !q.bad && (if h < r.min then decide (0 < q.free) else decide (h < r.max) && decide (q.unmet < q.free))

/-- The pointer a draw of function f takes: its own function's first, else the oldest (R325). -/
def pickPtr (q : Pool) (f : Nat) : Option (Nat × Nat) :=
  match q.cache.find? fun c => c.2 == f with
  | some c => some c
  | none => q.cache.head?

/-- A draw of a buffer of pool n for an owner (R322, R325): the pointer, or none where it fails. A buffer that another function held
last is wiped. -/
def drawBuf (n : Nat) (o : Owner) (f : Nat) (lost : Bool) (s : State) : Option Nat × State :=
  match poolAt s n with
  | none => (none, s)
  | some q =>
    match mayDraw q o, pickPtr q f with
    | true, some c =>
      let s := setPool n (balance lost { q with cache := q.cache.filter (· != c), held := q.held ++ [(c.1, o, f)] }) s
      (some c.1, if c.2 = f then s else wipeRange q.part c.1 q.bytes s)
    | _, _ => (none, s)

/-- The pool of a kind in which an owner has its reservation. -/
def poolFor (s : State) (kind : Nat) (o : Owner) : Option Nat :=
  (s.mem.pools.find? fun q => q.2.kind == kind && q.2.reserves.any fun r => r.owner == o).map (·.1)

/-- A draw of a buffer of a kind for an owner. -/
def drawFor (kind : Nat) (o : Owner) (f : Nat) (s : State) : Option Nat × State :=
  match poolFor s kind o with
  | some n => drawBuf n o f false s
  | none => (none, s)

/-- Extend a pool by one chunk of 64 buffers from the partition's free DRAM (R323). -/
def extendPool (n : Nat) (s : State) : Option State :=
  match poolAt s n with
  | none => none
  | some q =>
    match firstFit s q.part q.align (64 * q.stride) with
    | none => none
    | some base =>
      let q := { q with chunks := q.chunks ++ [(base, 64)] }
      some (setPool n ((List.range 64).foldl (fun q i =>
        enterFree (base + i * q.stride) (lastFnOf s q.part (base + i * q.stride) q.bytes) q) q) s)

/-- Extend a pool until its free buffers cover the unmet minima (R323). -/
def coverPool (n : Nat) (fuel : Nat) (s : State) : Option State :=
  match fuel, poolAt s n with
  | 0, _ => none
  | _, none => none
  | k + 1, some q => if q.unmet ≤ q.free then some s else (extendPool n s).bind (coverPool n k)

/-- Build a pool with one chunk, for reservations that are then covered (R319, R323, log entry 28). -/
def buildPool (n : Nat) (q : Pool) (s : State) : Option State := (extendPool n (setPool n q s)).bind (coverPool n 64)

/-- Release a pool's chunks. -/
def releasePool (n : Nat) (q : Pool) (s : State) : State :=
  let last := fun (x : Nat) => (((q.cache ++ q.store).find? fun c => c.1 == x).map (·.2)).getD 0xFFFF
  let s := q.chunks.foldl (fun s c => (List.range c.2).foldl (fun s i =>
    freeExtent q.part (c.1 + i * q.stride) q.stride (last (c.1 + i * q.stride)) s) s) s
  { s with mem := { s.mem with pools := tdrop s.mem.pools n } }

/-- Release a pool that no owner holds or reserves; one whose ownership bitmap was lost is released once every buffer has returned, and
created afresh for the owners that still reserve in it (R331). -/
def settlePool (n : Nat) (s : State) : State :=
  match poolAt s n with
  | some q =>
    if q.held.isEmpty && q.quarantined.isEmpty && q.wiping.isEmpty then
      if q.reserves.isEmpty then releasePool n q s
      else if q.bad then
        let t := releasePool n q s
        (buildPool n { part := q.part, kind := q.kind, m := q.m, k := q.k, reserves := q.reserves } t).getD t
      else s
    else s
  | none => s

/-- The pool of a partition in whose chunks an offset lies. -/
def poolSpanning (s : State) (p ptr : Nat) : Option (Nat × Pool) := s.mem.pools.find? fun q => q.2.part == p && q.2.spans ptr

/-- A rejected return: counted in the pool and reported with the pointer and the returner (R324, Table 15.3). -/
def rejectReturn (p ptr : Nat) (o : Owner) (pool : Option (Nat × Pool)) (s : State) : State :=
  let s := match pool with
    | some (n, q) => setPool n { q with badret := satInc q.badret } s
    | none => s
  let st := match o with | .stream i => some i | _ => none
  emit { cls := 1, part := some p, source := 0x07, unit := pool.map (·.1), stream := st, detail := [ptr % 2 ^ 32, ptr / 2 ^ 32] } s

/-- A return of a pointer by an owner of a partition, checked by R324. -/
def returnBuf (p ptr : Nat) (o : Owner) (s : State) : State :=
  match poolSpanning s p ptr with
  | none => rejectReturn p ptr o none s
  | some (n, q) =>
    match q.starts ptr, q.held.find? fun h => h.1 == ptr && h.2.1 == o with
    | true, some h => settlePool n (setPool n (enterFree ptr h.2.2 { q with held := q.held.filter fun g => g.1 != ptr }) s)
    | _, _ => rejectReturn p ptr o (some (n, q)) s

/-- A transfer into a buffer lost to its watchdog: the buffer leaves its owner, or the free store, until it is reclaimed (R326, R327). -/
def quarantineBuf (p ptr : Nat) (s : State) : State :=
  match poolSpanning s p ptr with
  | none => s
  | some (n, q) =>
    match q.held.find? (fun h => h.1 == ptr), (q.cache ++ q.store).find? fun c => c.1 == ptr with
    | some h, _ => setPool n { q with held := q.held.filter (fun g => g.1 != ptr), quarantined := q.quarantined ++ [(ptr, h.2.2)],
                                      quar := satInc q.quar } s
    | none, some c => setPool n { q with cache := q.cache.filter (· != c), store := q.store.filter (· != c),
                                         quarantined := q.quarantined ++ [c], quar := satInc q.quar } s
    | none, none => s

/-- Make a reservation (R322, R323); none where the partition cannot supply the minimum or 64 pools exist. A new pool is built with
one chunk (log entry 28). -/
def reserve (p kind size : Nat) (o : Owner) (min max : Nat) (s : State) : Option State :=
  let (m, k) := sizeClass size
  let add := fun (n : Nat) (s : State) =>
    match poolAt s n with
    | some q => coverPool n 64 (setPool n { q with reserves := q.reserves ++ [{ owner := o, min := min, max := max }] } s)
    | none => none
  match s.mem.pools.find? fun q => q.2.part == p && q.2.kind == kind && q.2.m == m && q.2.k == k with
  | some q => add q.1 s
  | none =>
    match (List.range 64).find? fun n => (poolAt s n).isNone with
    | some n => (buildPool n { part := p, kind := kind, m := m, k := k } s).bind (add n)
    | none => none

/-- Change an owner's minimum and maximum of a kind; the pool is extended where the minimum rose and DRAM is there (R323). -/
def setLimits (kind : Nat) (o : Owner) (min max : Nat) (s : State) : State :=
  match poolFor s kind o with
  | none => s
  | some n =>
    match poolAt s n with
    | none => s
    | some q =>
      let s := setPool n { q with reserves := q.reserves.map fun r => if r.owner == o then { r with min := min, max := max } else r } s
      (coverPool n 64 s).getD s

/-- An owner ends: its buffers return and its reservations are removed. -/
def releaseOwner (o : Owner) (s : State) : State :=
  (List.range 64).foldl (fun s n =>
    match poolAt s n with
    | none => s
    | some q =>
      let mine := q.held.filter fun h => h.2.1 == o
      if mine.isEmpty && !(q.reserves.any fun r => r.owner == o) then s else
      let q := { q with held := q.held.filter (fun h => h.2.1 != o), reserves := q.reserves.filter fun r => r.owner != o }
      settlePool n (setPool n (mine.foldl (fun q h => enterFree h.1 h.2.2 q) q) s)) s

/-- Wiping buffers whose granules are all clear enter the free store (R328). -/
def settleWiping (s : State) : State :=
  (List.range 64).foldl (fun s n =>
    match poolAt s n with
    | none => s
    | some q =>
      let done := q.wiping.filter fun w => !granuleBusy s q.part w.1 q.bytes
      if done.isEmpty then s else
      let q := { q with wiping := q.wiping.filter fun w => granuleBusy s q.part w.1 q.bytes }
      settlePool n (setPool n (done.foldl (fun q w => enterFree w.1 w.2 q) q) s)) s

/-- Function-level reset of function f: its buffers return by the zero map, those in `active` are quarantined, and the reservations
in `owners` are removed (R328). -/
def resetBuffers (f : Nat) (owners : List Owner) (active : List Nat) (s : State) : State :=
  let s := (List.range 64).foldl (fun s n =>
    match poolAt s n with
    | none => s
    | some q =>
      let mine := q.held.filter fun h => h.2.2 == f
      let act := mine.filter fun h => active.contains h.1
      let rest := mine.filter fun h => !active.contains h.1
      let q := { q with held := q.held.filter (fun h => h.2.2 != f)
                        reserves := q.reserves.filter fun r => !owners.contains r.owner
                        quarantined := q.quarantined ++ act.map fun h => (h.1, f)
                        quar := satInc q.quar act.length
                        wiping := q.wiping ++ rest.map fun h => (h.1, f) }
      settlePool n (rest.foldl (fun s h => zeroExtent q.part h.1 q.bytes s) (setPool n q s))) s
  settleWiping s

/-! ### Frames and results (R190, R253, R387) -/

/-- Gap reason COMPUTE_FAULT (Table 9.10). -/
def gapComputeFault : Nat := 7
/-- Gap reason ABORTED (Table 9.10). -/
def gapAborted : Nat := 8

/-- Remove the claims of frames of a stream, picked by number (R121, R172). -/
def dropClaims (id : Nat) (p : Nat → Bool) (s : State) : State :=
  { s with claims := s.claims.filter fun c => !(c.stream == id && p c.frame) }

/-- A gap ends its frame's claims; those of a folio end at its seal (R121). -/
def endClaims (id : Nat) (f : Frame) (r : Result) (s : State) : State :=
  match r with
  | .gap _ => dropClaims id (fun n => f.num == some n) s
  | .folio => s

/-- Write a result into a frame's place: the first stands, a later one is discarded and counted (R387). -/
def putResult (id order : Nat) (r : Result) (s : State) : State :=
  match frameOf s id order with
  | some f =>
    if f.result.isNone then endClaims id f r (modFrame id order (fun f => { f with result := some r, stage := .finished }) s)
    else { s with err := { s.err with dupres := satInc s.err.dupres } }
  | none => { s with err := { s.err with dupres := satInc s.err.dupres } }

/-- Number the frames that have none, in presentation order (R190, R303). -/
def numberFrames (n : Nat) (fs : List Frame) : List Frame :=
  let todo := sortBy (fun f : Frame => f.pts) (fs.filter fun f => f.num.isNone)
  fs.map fun f =>
    match f.num with
    | some _ => f
    | none => { f with num := some (n + ((position (fun g : Frame => g.order == f.order) todo).getD 0)) }

/-- Every frame without a number takes the next ones. -/
def numberAll (st : Stream) : Stream :=
  { st with frames := numberFrames st.nextNum st.frames
            nextNum := st.nextNum + (st.frames.filter fun f => f.num.isNone).length }

/-- Every admitted frame of a stream without a result gets one gap, `first` for the frame that faulted (Table 15.2, R303). -/
def gapAll (id : Nat) (faulted : Option Nat) (reason : Nat) (s : State) : State :=
  let open' := ((strm s id).frames.filter fun f => f.result.isNone).filterMap (·.num)
  dropClaims id (open'.contains ·) <| modStrm id (fun st =>
    let st := numberAll st
    { st with frames := st.frames.map fun f =>
        if f.result.isNone then
          { f with stage := .finished
                   result := some (.gap (if faulted == some f.order then gapComputeFault else reason)) }
        else f }) s

/-! ### Jobs: stopping, re-running (R103, R118, R124, R294) -/

/-- A job by its id. -/
def jobOf (s : State) (id : Nat) : Option Job := s.jobs.find? fun j => j.id == id
/-- Change a job. -/
def modJob (id : Nat) (f : Job → Job) (s : State) : State := { s with jobs := amend (fun j => j.id == id) f s.jobs }

/-- Scalar register n; s0 reads 0 (R108). -/
def sreg (r : Regs) (n : BitVec 5) : Word := if n = 0 then 0 else tget r.s 0 n.toNat
/-- Write a scalar; a write to s0 is discarded (R127). -/
def setS (n : BitVec 5) (v : Word) (r : Regs) : Regs := if n = 0 then r else { r with s := tset r.s n.toNat v }
/-- The counts a job took from a semaphore less those it gave (R115). -/
def heldBy (c : Cluster) (sem job : Nat) : Int := ((c.holdings.find? fun h => h.1 == sem && h.2.1 == job).map (·.2.2)).getD 0

/-- Whether a job has a net holding of a semaphore (R115). -/
def hasHolding (s : State) (job : Nat) : Bool := s.clusters.any fun c => c.2.holdings.any fun h => h.2.1 == job && decide (0 < h.2.2)

/-- Whether a job holds a link credit (R376). -/
def hasCredit (s : State) (job : Nat) : Bool := s.fab.remotes.any fun r => r.job == job && r.sent && !r.answered

/-- A part stands at an instruction boundary with nothing queued: a waiting SEMW is withdrawn (R119). -/
def atBoundary (k : Core) : Bool :=
  k.halo.isEmpty && match k.part with
    | some p => match p.wait with | .none => true | .semw _ _ _ => true | _ => false
    | none => false

/-- Pre-empt the part of physical core ph for a job: its registers and engine tiles are set aside (R119). -/
def preemptNow (ph byJob : Nat) (s : State) : State :=
  countEv (40 + ph / 5) 0x26 1 (modCore ph (fun k =>
    match k.part with
    | some p =>
      let v : Saved := { part := { p with wait := .none, fenced := none, halted := none }, regs := k.regs, e0 := k.e0, e1 := k.e1, byJob := byJob }
      { k with part := none, saved := v :: k.saved }
    | none => k) s)

/-- A fenced part's last release has come: it is set aside at once, or stops issue until its queued instructions have completed (R119, R293). -/
def endFence (ph byJob : Nat) (s : State) : State :=
  if atBoundary (coreAt s ph) then preemptNow ph byJob s
  else modCore ph (fun k => { k with part := k.part.map fun p => { p with fenced := none, halted := some byJob } }) s

/-- Pre-empt every fenced part of a job that now holds neither a semaphore count nor a link credit (R293). -/
def settleFences (job : Nat) (s : State) : State :=
  if hasHolding s job || hasCredit s job then s else
  s.cores.foldl (fun s c =>
    match c.2.part with
    | some p => match p.job == job, p.fenced with
      | true, some j => endFence c.1 j s
      | _, _ => s
    | none => s) s

/-- The instruction of a core is complete: the next one stands at `pc` (R119), it counts as retired, and a fence that its job no
longer needs ends (R293). -/
def retire (ph pc : Nat) (s : State) : State :=
  let s := countEv ph 0x10 1 (modCore ph (fun k => { k with regs := { k.regs with pc := pc } }) s)
  match (coreAt s ph).part with
  | some p => settleFences p.job s
  | none => s

/-- A waiting SEMW of physical core ph that its semaphore's count now covers is granted: the count is taken, 0 is written, and the
instruction completes (R117, R118). -/
def grantOne (cl ph : Nat) (s : State) : State :=
  match (coreAt s ph).part with
  | some p =>
    match p.wait with
    | .semw sem n rd =>
      let c := cluAt s cl
      let have' := tget c.sems 0 sem
      if have' < n then s else
      let s := modClu cl (fun c =>
        { c with sems := tset c.sems sem (have' - n)
                 holdings := upsert (fun h => h.1 == sem && h.2.1 == p.job) (sem, p.job, heldBy c sem p.job + n) c.holdings }) s
      let s := modCore ph (fun k =>
        { k with part := some { p with wait := .none }
                 regs := setS (BitVec.ofNat 5 rd) 0 k.regs }) s
      retire ph ((coreAt s ph).regs.pc + 16) s
    | _ => s
  | none => s

/-- Grant the waiting SEMWs of a cluster after a count rose, in an order the arbiter leaves open (R118, log entry 2). -/
def grantSems (cl : Nat) (s : State) : State :=
  let order := (sortBy (fun p => p.1) ((List.range 5).map fun i => ((freeBits s i 16).toNat, 5 * cl + i))).map (·.2)
  useFree 5 (order.foldl (fun s ph => grantOne cl ph s) s)

/-- Return the net holdings of a job in one cluster. -/
def returnIn (job cl : Nat) (s : State) : State :=
  let c := cluAt s cl
  if c.holdings.any fun h => h.2.1 == job then
    grantSems cl (modClu cl (fun c =>
      { c with sems := c.holdings.foldl (fun t h => if h.2.1 == job then tmod t 0 h.1 (fun n => min (n + h.2.2.toNat) 65535) else t) c.sems
               holdings := c.holdings.filter fun h => h.2.1 != job }) s)
  else s

/-- Return every net holding of a job to its semaphores' counts (R118, R294). -/
def returnHoldings (job : Nat) (s : State) : State := (List.range 8).foldl (fun s cl => returnIn job cl s) s

/-- A stopped part whose remote access still completes (R103). -/
def finishing (k : Core) : Bool :=
  k.part.any fun p => p.stopping && match p.wait with | .remote _ => true | _ => false

/-- Release the WON claims of a job, or of the part of it with the given start order; what it has COMMITTED stays so, also where its copy was
cut off (R124). -/
def releaseClaims (job : Nat) (start : Option Nat) (s : State) : State :=
  { s with claims := s.claims.map fun c =>
      match c.state with
      | .won j i => if j = job && (start == none || start == some i) then { c with state := .released } else c
      | .publishing j _ => if j = job && !(s.cores.any fun k => finishing k.2 && k.2.part.any fun p => p.job == job) && start == none
          then { c with state := .committed } else c
      | _ => c }

/-- Give up the packets that p picks and return their link credits; their later responses are late (R376). -/
def dropPackets (p : Remote → Bool) (s : State) : State :=
  let gone := s.fab.remotes.filter p
  let s := { s with fab := { s.fab with remotes := s.fab.remotes.filter fun r => !p r } }
  gone.foldl (fun s r => if r.sent && !r.answered then modPart r.part (fun q => { q with credits := q.credits - 1 }) s else s) s

/-- Return the link credits of a job's outstanding packets, but for those of a part whose access completes first (R103, R294). -/
def returnCredits (job : Nat) (s : State) : State := dropPackets (fun r => r.job == job && !finishing (coreAt s r.core)) s

/-- What a stopped part leaves of its core: the transfers that still run (`all` keeps every posted one), and what its sequencer waits for while
a call or a remote access is out. With nothing left the part is gone; else it issues nothing and goes when they have completed (R103, R125,
R294). A core that a test is due for is queued now (R88, R100). -/
def stopOn (all : Bool) (c : Core) : Core :=
  match c.part with
  | none => c
  | some p =>
    if p.stopping then c else
    let halo := c.halo.filter fun h => (all || h.paired) && h.fault.isNone
    let wait := match p.wait with
      | .ppc => Wait.ppc
      | .remote op => if all then .remote op else .none
      | _ => .none
    if halo.isEmpty && wait == .none then
      { c with part := none, halo := [], testDue := false, health := if c.testDue && c.health == .inService then .queued else c.health }
    else { c with part := some { p with stopping := true, wait := wait, fenced := none, halted := none }, halo := halo }

/-- Stop the parts of a job on every core and drop its pre-empted ones; a presumed-dead part stays until its island is reset (R396). -/
def clearParts (all : Bool) (job : Nat) (s : State) : State :=
  { s with cores := tmap s.cores fun _ c =>
      let c := if c.part.any fun p => p.job == job && !p.dead then stopOn all c else c
      { c with saved := c.saved.filter fun v => v.part.job != job } }

/-- Condemnation ends with the job (R86). -/
def endCondemn (e : Engine) : Engine := { e with h0 := { e.h0 with condemned := false }, h1 := { e.h1 with condemned := false } }

/-- Steps 1 to 4 of the abort path (R294): stop the parts, return holdings and credits, release claims. -/
def stopParts (job : Nat) (s : State) : State :=
  releaseClaims job none (returnCredits job (returnHoldings job (clearParts false job s)))

/-- A part of the job has faulted: its other parts stop, and what they have issued completes first, remote accesses included (R103); holdings
go back and claims are released (R118, R124). -/
def endParts (job : Nat) (s : State) : State :=
  releaseClaims job none (returnHoldings job (clearParts true job s))

/-- A residency whose context has no job left in its cluster becomes blocked now (R295). -/
def noteBlocked (ctx cl : Nat) (s : State) : State :=
  if s.jobs.any (fun j => j.ctx == ctx && j.cluster == cl && j.state != .waiting) then s
  else
    let (o, s) := takeOrder s
    modClu cl (fun c => { c with residencies := tmap c.residencies fun _ r =>
      if r.ctx == ctx then { r with blockedAt := o } else r }) s

/-- Return a buffer that its owner still holds. -/
def giveBack (p ptr : Nat) (o : Owner) (s : State) : State :=
  match poolSpanning s p ptr with
  | some (_, q) => if q.held.any fun h => h.1 == ptr && h.2.1 == o then returnBuf p ptr o s else s
  | none => s

/-- Remove a job, stopping its parts; a batch job's buffer returns. -/
def dropJob (id : Nat) (s : State) : State :=
  match jobOf s id with
  | none => s
  | some j =>
    let s := stopParts id s
    let s := match j.buf, ctxAt s j.ctx with
      | some b, some c => giveBack c.part b.1 b.2 s
      | _, _ => s
    noteBlocked j.ctx j.cluster { s with jobs := s.jobs.filter fun k => k.id != id }

/-- The frame a job works on, as an order of its stream. -/
def jobFrames (j : Job) : List (Nat × Nat) := if j.frames.isEmpty then [(j.stream, j.frame)] else j.frames.eraseDups

/-- Remove every job of a stream; a batch job that holds crops of other streams too stays. -/
def dropStreamJobs (id : Nat) (s : State) : State :=
  (s.jobs.filter fun j => (jobFrames j).all fun p => p.1 == id).foldl (fun s j => dropJob j.id s) s

/-- The disagreement of a SENTINEL job that faults or is aborted (R415). -/
def sentinelFails (j : Job) (s : State) : State :=
  if j.role = 3 then modFrame j.stream j.frame (fun f => { f with sentinel := some none }) s else s

/-- Queue lengths. -/
def queueLen (s : State) (c : Nat) : Nat := (s.jobs.filter fun j => j.state == .queued c).length

/-- The program of a job. -/
def jobProg (s : State) (j : Job) : Option Prog := (ctxAt s j.ctx).bind fun c => c.progs[j.prog]?

/-- A banded program. -/
def banded (s : State) (j : Job) : Bool := (jobProg s j).any fun g => decide (2 ≤ g.bands)

/-- A job may run on logical core c: its context's partition holds the core in service, its context is resident in the core's cluster, the
cluster has cores for its gang (R287), and no earlier attempt rules the core out. -/
def mayUse (s : State) (j : Job) (c : Nat) : Bool :=
  let part := match ctxAt s j.ctx with | some d => d.part | none => 4
  (servedBy s c).isSome && nbit (partAt s part).cores c && (residencyOf s (c / 4) j.ctx).isSome && !j.avoid.contains c
    && decide (((jobProg s j).map (·.gang)).getD 1 ≤ (coresInClu s part (c / 4)).length)

/-- The core a job goes to by R290: the core of the stream's previous job of the program, else the core of the home cluster with the
fewest queued jobs, else, where it can run on none of these, the one of any cluster (R61, R87, R287). -/
def chooseCore (s : State) (j : Job) : Option Nat :=
  let st := strm s j.stream
  let all := (List.range 32).filter (mayUse s j)
  let near := leastBy (queueLen s) (all.filter fun c => st.home == some (c / 4))
  if j.role = 1 then leastBy (queueLen s) (all.filter fun c => c / 4 == j.cluster)
  else match (tfind st.lastCore j.prog).filter (mayUse s j), near with
  | some c, _ => some c
  | none, some c => some c
  | none, none => leastBy (queueLen s) all

/-- The home cluster of a stream by R290: fewest streams of the context, lowest on a tie. -/
def chooseHome (s : State) (ctx part : Nat) : Option Nat :=
  leastBy (fun cl => (s.streams.filter fun p => p.2.ctx == ctx && p.2.home == some cl && p.2.state != .closed).length)
    ((residentClusters s ctx).filter fun cl => (cluAt s cl).inService && !(coresInClu s part cl).isEmpty)

/-- Queue a band job in its own cluster: the b-th cluster where the context is resident and the partition has cores (R170). -/
def enqueueBand (j : Job) (s : State) : State :=
  let part := (strm s j.stream).part
  let cls := (residentClusters s j.ctx).filter fun cl => (cluAt s cl).inService && !(coresInClu s part cl).isEmpty
  let j := match cls[j.band]? with
    | some cl =>
      match leastBy (queueLen s) ((coresInClu s part cl).filter (mayUse s j)) with
      | some c => { j with state := .queued c, cluster := cl }
      | none => { j with state := .waiting }
    | none => { j with state := .waiting }
  { s with jobs := upsert (fun k => k.id == j.id) j s.jobs }

/-- Put a job in a queue, a band job in its band's cluster, or leave it waiting where its context is resident nowhere (R170, R290). -/
def enqueue (j : Job) (s : State) : State :=
  if banded s j then enqueueBand j s else
  let st := strm s j.stream
  let usable := match st.home with
    | some cl => (residencyOf s cl j.ctx).isSome && (cluAt s cl).inService && !(coresInClu s st.part cl).isEmpty
    | none => false
  let s := if usable then s else modStrm j.stream (fun st => { st with home := chooseHome s j.ctx st.part }) s
  let j := match chooseCore s j with
    | some c => { j with state := .queued c, cluster := c / 4 }
    | none => { j with state := .waiting }
  { s with jobs := upsert (fun k => k.id == j.id) j s.jobs }

/-- Re-run a job from its beginning (R61, R87): its parts stop, its claims won are released, its place in the queues is taken anew. -/
def rerun (j : Job) (f : Job → Job) (s : State) : State :=
  let s := endParts j.id s
  let j := f { j with attempt := j.attempt + 1, cores := [], ended := [], state := .waiting }
  charge j.ctx (fun a => { a with rerun := hold64 (a.rerun + 1) }) (enqueue j s)

/-- The frame of a job gets a gap and no further job of the frame runs. -/
def failFrames (j : Job) (reason : Nat) (s : State) : State :=
  (jobFrames j).foldl (fun s p =>
    let s := (s.jobs.filter fun k => k.stream == p.1 && k.frame == p.2 && k.frames.isEmpty).foldl (fun s k => dropJob k.id s) s
    putResult p.1 p.2 (.gap reason) s) s

/-- Abort a job by R294: every part and every band job of the frame stops, and the frame's gap is ABORTED; logged as C1. -/
def abortJob (id : Nat) (s : State) : State :=
  match jobOf s id with
  | none => s
  | some j =>
    let s := sentinelFails j s
    let bands := s.jobs.filter fun k => k.stream == j.stream && k.frame == j.frame && k.ctx == j.ctx && k.prog == j.prog
    let s := bands.foldl (fun s k => dropJob k.id s) (dropJob id s)
    let s := charge j.ctx (fun a => { a with aborted := hold64 (a.aborted + 1) }) s
    let s := countEv (40 + j.cluster) 0x27 1 s
    let s := emit { cls := 1, stream := some j.stream, ctx := some j.ctx,
                    frame := (frameOf s j.stream j.frame).bind (·.num) } s
    if j.role = 3 || j.role = 4 then s else
    (jobFrames j).foldl (fun s p =>
      match frameOf s p.1 p.2 with
      | some f => if f.result.isNone then putResult p.1 p.2 (.gap gapAborted) s else s
      | none => s) s

/-! ### Error classes (R389) -/

/-- A stream goes to FAULTED: its jobs stop, its frames get their gaps, and a STREAM_STATE event reports it (R302, R389). -/
def faultStream (id : Nat) (faulted : Option Nat) (s : State) : State :=
  match (strm s id).state with
  | .closed => s
  | .faulted => s
  | _ =>
    let s := dropStreamJobs id s
    let s := gapAll id faulted gapAborted s
    let s := watchRunning id false (modStrm id (fun st => { st with state := .faulted }) s)
    emit { type := 2, source := 0x10, stream := some id, ctx := some (strm s id).ctx, code := 5 } s

/-- A C2 fault of a context: the event, the context takes no new job, and every stream naming it goes to FAULTED (R389). -/
def faultContext (ctx : Nat) (e : Event) (sid : Nat) (faulted : Option Nat) (s : State) : State :=
  let s := emit { e with cls := 2, ctx := some ctx } s
  let s := { s with ctxs := tmap s.ctxs fun i c => if i = ctx then { c with faulted := true } else c }
  let s := (s.jobs.filter fun j => j.ctx == ctx).foldl (fun s j => dropJob j.id s) s
  (s.streams.filter fun p => p.2.ctx == ctx).foldl
    (fun s p => faultStream p.1 (if p.1 == sid then faulted else none) s) s

/-- A C3 fault of a partition (R389); in partition 0 it disarms and SAFE_OK goes static (R419). -/
def faultPartition (p : Nat) (e : Event) (s : State) : State :=
  if (partAt s p).c3 || decide (4 ≤ p) then s else
  let s := emit { e with cls := 3, part := some p } (modPart p (fun q => { q with c3 := true }) s)
  let s := if p = 0 then { (goNotOk s) with saf := { (goNotOk s).saf with arm := false, lineA := false, lineB := false } } else s
  (s.streams.filter fun q => q.2.part == p).foldl (fun s q => faultStream q.1 none s) s

/-- A C3 fault with its event, which is written also where the partition is in C3 already (R426, R476). -/
def partFault (p : Nat) (e : Event) (s : State) : State :=
  if (partAt s p).c3 then emit { e with cls := 3, part := some p } s else faultPartition p e s

/-- C3 ends when the partition holds no open stream and no defined context (Table 15.2). -/
def settleC3 (s : State) : State :=
  { s with parts := tmap s.parts fun p q =>
      if q.c3 && !(s.streams.any fun x => x.2.part == p && x.2.state != .closed) && !(s.ctxs.any fun x => x.2.part == p)
      then { q with c3 := false } else q }

/-- A C4 fault: every island but the host and always-on islands stops, and the Ethernet and fabric links are down (R25, R389, Table 1.7). Its CODE
is open (log entry 43): `k` names the cause. -/
def faultDevice (source k : Nat) (s : State) : State :=
  if s.err.c4 then s else
  let code := (Config.c4Code k).toNat
  let s := emit { cls := 4, source := source, code := code } s
  let s := goNotOk s
  { s with err := { s.err with c4 := true, c4Source := source, c4Code := code }
           ports := tmap s.ports fun _ p => { p with pstat := 0 }
           fab := { s.fab with ports := tmap s.fab.ports (fun _ p => { p with state := 0, width := 0, neighbour := 0xFFFE, draining := false, used := [] })
                               held := [] }
           saf := { s.saf with lineA := false, lineB := false, driven := false, spigot := .released } }

/-- Extend measurement register Mk by data (R459). -/
def extendM (k : Nat) (d : List Byte) (s : State) : State :=
  { s with sec := { s.sec with m := tmod s.sec.m 0 k fun v => Config.shake256 (leBytes 64 v.toNat ++ leBytes 64 (Config.shake256 d).toNat) } }

/-- The power settings in force: a register whose parity mismatches counts with its FL-640 reset value (Table 19.1). -/
def pwrReg {α : Type} (s : State) (off : Nat) (v dflt : α) : α := if s.err.parity.contains (0x20000 + off) then dflt else v
/-- The power cap in W. -/
def powerCap (s : State) : Nat := pwrReg s 0 s.pwr.cap (if s.nv.variantS then 250 else 400)
/-- The shed thresholds. -/
def shedThOf (s : State) : Word := pwrReg s 8 s.pwr.shedth 0xAAB0B6BC
/-- BRAKELVL. -/
def brakeOf (s : State) : Nat := pwrReg s 0xC s.pwr.brakeLvl 3
/-- SHEDPRIO. -/
def shedPrioOf (s : State) : Nat := pwrReg s 0xC s.pwr.shedPrio 4
/-- ISTPERIOD in hours. -/
def istOf (s : State) : Nat := pwrReg s 0xC s.pwr.istPeriod 24

/-- The device runs, shuts down or is shut: memory is refreshed, and what was sealed is still delivered (R446). -/
def running (s : State) : Bool := decide (7 ≤ s.pwr.stage) && decide (s.pwr.stage ≤ 9) && !s.pwr.resetting && !s.err.c4

/-- The clock of an island runs: the blocks in it answer (R477). -/
def blockUp (s : State) (island : Nat) : Bool := !s.pwr.stopped.contains island

/-- READY: the last step of the boot timeline is done and the device runs (R24). -/
def ready (s : State) : Bool := s.pwr.stage == 7 && !s.pwr.resetting && !s.err.c4

/-- The device works and the clock of an island runs: a block in a stopped island waits (R18, R433). -/
def upAt (s : State) (island : Nat) : Bool := ready s && blockUp s island

/-- The island of the base-die blocks that Table 1.4 does not name: the NoC's (R18). -/
def nocIsland : Nat := 84

end Sys2Proof.Machine
end

