-- ==== Sys2Proof/Machine/Operands.lean ====
section
/-! DEFINITION. Machine/Operands.lean: what an Aethod instruction reads and names: the issuing environment, field checks (R127 to
R130), register files (R108), tensor descriptors (R109, R110, R131 to R135), block headers and codes (R29 to R42), and the bytes of
carrel and global memory (R93, R113, R132). -/

namespace Sys2Proof.Machine

/-! ### The issuing part -/

/-- The core, part and program an instruction runs for. -/
structure Env where
  c : Nat
  ph : Nat
  core : Core
  part : Part
  ctx : Ctx
  prog : Prog
  res : Residency
  /-- Cellar buffers that the program reaches behind its share: (global offset, partition offset, bytes) -/
  maps : List (Nat × Nat × Nat) := []
  /-- its frame's input tensors behind those: (global offset, bytes) -/
  ins : List (Nat × List Byte) := []
  deriving DecidableEq, Repr

/-- Descriptor register n. -/
def areg (r : Regs) (n : BitVec 4) : BitVec 256 := tget r.a 0 n.toNat
/-- Write a descriptor register. -/
def setA (n : BitVec 4) (v : BitVec 256) (r : Regs) : Regs := { r with a := tset r.a n.toNat v }
/-- Vector register n. -/
def vreg (r : Regs) (n : Nat) : BitVec 8192 := tget r.v 0 n
/-- Write a vector register. -/
def setV (n : Nat) (v : BitVec 8192) (r : Regs) : Regs := { r with v := tset r.v n v }
/-- Mask register n; p0 is all ones (R108). -/
def preg (r : Regs) (n : Nat) : BitVec 512 := if n = 0 then BitVec.allOnes 512 else tget r.p (BitVec.allOnes 512) n
/-- Write a mask register; a write to p0 is discarded (R127). -/
def setP (n : Nat) (v : BitVec 512) (r : Regs) : Regs := if n = 0 then r else { r with p := tset r.p n v }

/-- Element i of a vector register. -/
def velem (v : BitVec 8192) (i : Nat) : Nat := (v.extractLsb' (16 * i) 16).toNat
/-- A vector register of 512 elements given by a function. -/
def vmake (f : Nat → Nat) : BitVec 8192 :=
  BitVec.ofNat 8192 ((List.range 512).foldr (fun i a => f i % 65536 + 65536 * a) 0)
/-- A mask of 512 bits given by a function. -/
def pmake (f : Nat → Bool) : BitVec 512 := BitVec.ofNat 512 ((List.range 512).foldr (fun i a => b2n (f i) + 2 * a) 0)
/-- Only the elements whose mask bit is 1 are written (R108, R148). -/
def vwrite (m : BitVec 512) (old : BitVec 8192) (f : Nat → Nat) : BitVec 8192 :=
  vmake fun i => if m.getLsbD i then f i else velem old i

/-! ### Field checks (R127 to R130) -/

/-- The fields an instruction uses; every other bit must be zero (R126, R128). -/
structure Uses where
  mod : BitVec 8 := 0
  rd : Bool := false
  ra : Bool := false
  rb : Bool := false
  rc : Bool := false
  ad : Bool := false
  aa : Bool := false
  ab : Bool := false
  pm : Bool := false
  xf : BitVec 13 := 0
  imm : BitVec 64 := 0
  deriving DecidableEq, Repr

/-- A non-zero bit in a field or bit the instruction does not use: cause 0x02. -/
def stray (u : Uses) (f : Fields) : Bool :=
  (f.mod &&& ~~~u.mod) != 0 || (!u.rd && f.rd != 0) || (!u.ra && f.ra != 0) || (!u.rb && f.rb != 0) || (!u.rc && f.rc != 0)
    || (!u.ad && f.ad != 0) || (!u.aa && f.aa != 0) || (!u.ab && f.ab != 0) || (!u.pm && f.pm != 0)
    || (f.xf &&& ~~~u.xf) != 0 || (f.imm &&& ~~~u.imm) != 0

/-- A check that an instruction makes: its cause, the descriptor it concerns, and whether it fails. -/
structure Check where
  cause : Nat
  dreg : Option Nat := none
  bad : Bool
  deriving DecidableEq, Repr

/-- The failing check with the lowest cause, in the order AD, AA, AB among equals (R130). -/
def worst (l : List Check) : Option Check := leastBy (fun k => k.cause) (l.filter fun k => k.bad)

/-- A p register named by a field: bits [4:3] must be 0 (R127). -/
def badP (n : BitVec 5) : Check := { cause := 0x03, bad := decide (8 ≤ n.toNat) }

/-! ### Descriptors (R109, R131 to R135) -/

/-- Bits [hi:lo] of a descriptor image. -/
def dget (d : BitVec 256) (hi lo : Nat) : Nat := (d.extractLsb' lo (hi + 1 - lo)).toNat
/-- Replace bits [hi:lo] of a descriptor image. -/
def dput (d : BitVec 256) (hi lo v : Nat) : BitVec 256 :=
  let m := BitVec.ofNat 256 ((2 ^ (hi + 1 - lo) - 1) * 2 ^ lo)
  (d &&& ~~~m) ||| (BitVec.ofNat 256 (v * 2 ^ lo) &&& m)

/-- A descriptor by its fields' meanings (Table 5.4). -/
structure Desc where
  valid : Bool
  glob : Bool
  fmt : Nat
  rax3 : Bool
  sq : Bool
  pad : Nat
  pconst : Int
  cs1 : Nat
  cs2 : Nat
  pb1 : Nat
  pb2 : Nat
  dl1 : Nat
  dl2 : Nat
  borg : Nat
  base : Nat
  hbase : Int
  str1 : Nat
  str2 : Nat
  str3 : Nat
  e0 : Nat
  e1 : Nat
  e2 : Nat
  e3 : Nat
  tscale : Nat
  deriving DecidableEq, Repr

/-- Read a descriptor image (Table 5.4, R133). -/
def descOf (d : BitVec 256) : Desc where
  valid := dget d 0 0 == 1
  glob := dget d 1 1 == 1
  fmt := dget d 5 2
  rax3 := dget d 6 6 == 1
  sq := dget d 7 7 == 1
  pad := dget d 9 8
  pconst := sgn 5 (dget d 14 10)
  cs1 := dget d 17 15 + 1
  cs2 := dget d 20 18 + 1
  pb1 := dget d 28 21
  pb2 := dget d 36 29
  dl1 := dget d 44 37
  dl2 := dget d 52 45
  borg := dget d 60 53
  base := dget d 94 61
  hbase := 4 * ((dget d 94 61 / 4 : Nat) : Int) + 4 * sgn 21 (dget d 115 95)
  str1 := 32 * dget d 129 116
  str2 := 32 * dget d 143 130
  str3 := 32 * dget d 159 144
  e0 := dget d 175 160 + 1
  e1 := dget d 191 176 + 1
  e2 := dget d 207 192 + 1
  e3 := dget d 223 208 + 1
  tscale := dget d 255 224

/-- The default image: TSCALE 1.0, extents, convolution strides and dilations 1, every other field 0 (R135). -/
def defaultDesc : BitVec 256 := dput (dput (dput 0 255 224 0x3F800000) 44 37 1) 52 45 1

/-- FMT codes of Table 5.5 for the quantised formats. -/
def quantised (fmt : Nat) : Bool := decide (fmt < 7)
/-- FP16, FP32 and INT16, whose HOFF is held at 0 (R133). -/
def headerless (fmt : Nat) : Bool := decide (7 ≤ fmt) && decide (fmt ≤ 9)
/-- Bits of one element. -/
def elemBits (fmt : Nat) : Nat :=
  match fmt with
  | 0 | 1 | 2 => 4 | 3 | 4 => 2 | 5 => 1 | 6 => 8 | 7 | 9 => 16 | _ => 32
/-- Bytes of a block (Table 2.2). -/
def blockBytes (fmt : Nat) : Nat := 8 * elemBits fmt
/-- The alignment of BASE (R110). -/
def baseAlign (fmt : Nat) : Nat := if quantised fmt then blockBytes fmt else elemBits fmt / 8

/-- HOFF for a header base (R133), if 21 bits hold it. -/
def hoffFor (base : Nat) (hbase : Int) : Option Nat :=
  let h := (hbase - 4 * ((base / 4 : Nat) : Int)) / 4
  if -(2 ^ 20 : Int) ≤ h ∧ h < 2 ^ 20 then some (wrapTo 21 h) else none

/-- The checks of a descriptor used by an instruction (R110), apart from its addresses. -/
def descChecks (n : Nat) (d : Desc) : List Check :=
  let q := quantised d.fmt && !d.rax3
  let bb := blockBytes d.fmt
  [ { cause := 0x04, dreg := some n, bad := !d.valid },
    { cause := 0x05, dreg := some n, bad := d.valid && (decide (9 < d.fmt) || (!d.glob && decide (2 ^ 22 ≤ d.base))
        || d.dl1 == 0 || d.dl2 == 0 || d.tscale % 2 ^ 31 == 0 || !fisFin fmt32 d.tscale) },
    { cause := 0x06, dreg := some n, bad := d.valid && (d.base % baseAlign d.fmt != 0
        || (q && (d.str1 % bb != 0 || d.str2 % bb != 0 || d.str3 % bb != 0))) } ]

/-- The byte address of the row (i1, i2, i3). -/
def rowAddr (d : Desc) (i1 i2 i3 : Nat) : Nat := d.base + i1 * d.str1 + i2 * d.str2 + i3 * d.str3
/-- Blocks of a row. -/
def rowBlocks (d : Desc) : Nat := ceilDiv d.e0 64
/-- Bytes of a row: whole blocks for a quantised tensor blocked along axis 0 (R31, R157). -/
def rowBytes (d : Desc) : Nat :=
  if quantised d.fmt && !d.rax3 then rowBlocks d * blockBytes d.fmt else ceilDiv (d.e0 * elemBits d.fmt) 8
/-- Positions on axis 3 that a tensor is laid out over: whole blocks where it is blocked along axis 3 (R164, log entry 109). -/
def laid3 (d : Desc) : Nat := if quantised d.fmt && d.rax3 then 64 * ceilDiv d.e3 64 else d.e3
/-- The bytes from BASE to the end of the last row. -/
def spanBytes (d : Desc) : Nat := (d.e1 - 1) * d.str1 + (d.e2 - 1) * d.str2 + (laid3 d - 1) * d.str3 + rowBytes d
/-- Header index of block b of row (i1, i2, i3), RAX 0 (R134). -/
def hdrIndex (d : Desc) (b i1 i2 i3 : Nat) : Nat := (rowAddr d i1 i2 i3 - d.base) / blockBytes d.fmt + b
/-- Header index for RAX 1 (R134). -/
def hdrIndex3 (d : Desc) (i0 i1 i2 b : Nat) : Nat := b + ceilDiv d.e3 64 * (i0 + d.e0 * (i1 + d.e1 * i2))
/-- Headers of a tensor, from the first to the last. -/
def hdrCount (d : Desc) : Nat :=
  if d.rax3 then ceilDiv d.e3 64 * d.e0 * d.e1 * d.e2
  else hdrIndex d (rowBlocks d - 1) (d.e1 - 1) (d.e2 - 1) (d.e3 - 1) + 1
/-- The expected tag of header n (R38, R134). -/
def expTag (d : Desc) (n : Nat) : Nat := (d.borg + n) % 256
/-- The header index of square block (rb, cb): a stream in row-block-major order (R82). -/
def sqIndex (d : Desc) (rb cb : Nat) : Nat := rb * ceilDiv d.e1 64 + cb
/-- The positions over axes 1 to 3, axis 1 fastest (R146). -/
def positions (d : Desc) : List (Nat × Nat × Nat) :=
  (List.range (d.e1 * d.e2 * d.e3)).map fun v => (v % d.e1, v / d.e1 % d.e2, v / d.e1 / d.e2)

/-! ### What a program reaches behind its share (R218, R221, R229, R238; log entry 110) -/

/-- Program i of a context reuses tiles. -/
def reusing (c : Ctx) (i : Nat) : Option Reuse :=
  (c.progs[i]?).bind fun g => if g.role = 0 ∧ nbit g.flags 1 then c.reuses[g.aux]? else none

/-- Where the part of a stream's archive buffer that program i uses begins: the reuse programs' parts follow one another in table order. -/
def archiveAt (c : Ctx) (i : Nat) : Nat := ((List.range i).map fun k => ((reusing c k).map (·.bytes)).getD 0).sum

/-- The feature layer that a batcher record takes crops from. -/
def layerDesc (ctx : Nat) (b : Batcher) : Desc := descOf (Config.layerImage ctx b.layer)

/-- The tensor that one slot of a batch holds: the channel blocks of the crop's bins in row order, then at the next multiple of 64 their
headers (R238). -/
def slotDesc (ctx : Nat) (b : Batcher) (base : Nat) : Desc :=
  let t := layerDesc ctx b
  let row := ceilDiv t.e0 64 * blockBytes t.fmt
  { t with glob := true, rax3 := false, borg := 0, base := base, hbase := base + ceilDiv (b.rw * b.rh * row) 64 * 64,
           str1 := row, str2 := b.rw * row, str3 := 0, e1 := b.rw, e2 := b.rh, e3 := 1 }

/-- Bytes of a batch slot. -/
def slotBytes (ctx : Nat) (b : Batcher) : Nat :=
  let t := layerDesc ctx b
  let n := b.rw * b.rh * ceilDiv t.e0 64
  ceilDiv (n * blockBytes t.fmt) 64 * 64 + ceilDiv (4 * n) 64 * 64

/-- The Cellar buffer that a job's program reaches: its part of the stream's archive (R229), or its batch's crop buffer (R238). -/
def mapsOf (s : State) (c : Ctx) (j : Job) : List (Nat × Nat × Nat) :=
  match (strm s j.stream).archive.ptr, reusing c j.prog, j.buf, (c.progs[j.prog]?).bind fun g => c.batchers[g.aux]? with
  | some p, some r, _, _ => if j.role = 0 then [(c.globalLen, p + archiveAt c j.prog, r.bytes)] else []
  | _, _, some (p, _), some b => if j.role = 1 then [(c.globalLen, p, b.target * slotBytes j.ctx b)] else []
  | _, _, _, _ => []

/-- The input tensors of a job's frame, one after another from the next multiple of 64 behind what mapsOf gives. -/
def insOf (s : State) (c : Ctx) (j : Job) : List (Nat × List Byte) :=
  if j.role = 1 ∨ j.role = 4 then [] else
  let base := c.globalLen + ceilDiv ((mapsOf s c j).map (·.2.2)).sum 64 * 64
  match frameOf s j.stream j.frame with
  | some f => (f.inputs.foldl (fun (a : Nat × List (Nat × List Byte)) x =>
      (a.1 + ceilDiv x.2.length 64 * 64, a.2 ++ [(a.1, x.2)])) (base, [])).2
  | none => []

/-- The environment of logical core c's running part; none when the core issues nothing: no part runs there, its sequencer waits or has
stopped issue (R103, R119, R125), its clock is stopped or the device does not run. -/
def envOf (s : State) (c : Nat) : Option Env :=
  if !ready s then none else
  match servedBy s c with
  | none => none
  | some ph =>
    let core := coreAt s ph
    if s.pwr.stopped.contains ph || core.inSlot then none else
    match core.part with
    | none => none
    | some p =>
      if p.stopping || p.halted.isSome || core.halo.any (·.fault.isSome) then none else
      match p.wait, ctxAt s p.ctx with
      | .none, some d =>
        match d.progs[p.prog]?, residencyOf s (c / 4) p.ctx with
        | some g, some r =>
          let j := jobOf s p.job
          some { c := c, ph := ph, core := core, part := p, ctx := d, prog := g, res := r,
                 maps := (j.map (mapsOf s d)).getD [], ins := (j.map (insOf s d)).getD [] }
        | _, _ => none
      | _, _ => none

/-! ### Memory of a context (R93, R113, R132) -/

/-- A byte range lies within the context's share of a space, or within what the program reaches behind it. -/
def inShare (e : Env) (glob : Bool) (lo : Int) (n : Nat) : Bool :=
  if glob then decide (0 ≤ lo) && (decide (lo + n ≤ e.ctx.globalLen)
    || e.maps.any (fun m => decide ((m.1 : Int) ≤ lo) && decide (lo + n ≤ m.1 + m.2.2))
    || e.ins.any fun m => decide ((m.1 : Int) ≤ lo) && decide (lo + n ≤ m.1 + m.2.length))
  else decide ((e.res.carrelBase : Int) ≤ lo) && decide (lo + n ≤ e.res.carrelBase + 1024 * e.res.carrelKib)

/-- The key of a byte of the context's global share, or of a buffer behind it; none for an input tensor, which is not written. -/
def globalKey (s : State) (e : Env) (a : Nat) : Option Nat :=
  match e.maps.find? fun m => decide (m.1 ≤ a) && decide (a < m.1 + m.2.2) with
  | some m => keyOf s e.ctx.part (m.2.1 + (a - m.1))
  | none => shareKey s e.ctx a

/-- A byte of an input tensor. -/
def inputByte (e : Env) (a : Nat) : Byte :=
  match e.ins.find? fun m => decide (m.1 ≤ a) && decide (a < m.1 + m.2.length) with
  | some m => m.2.getD (a - m.1) 0
  | none => 0

/-- A byte of the context's global share as the core sees it: its own writes, then the cluster's stacks, then DRAM. -/
def globalByte (s : State) (e : Env) (a : Nat) : Byte :=
  match globalKey s e a with
  | none => inputByte e a
  | some k =>
    match tfind (coreAt s e.ph).writes k with
    | some b => b
    | none => match tfind (cluAt s (e.c / 4)).stackLines k with
      | some b => b
      | none => dramByte s k

/-- A byte of either space. -/
def spaceByte (s : State) (e : Env) (glob : Bool) (a : Nat) : Byte :=
  if glob then globalByte s e a else memGet 0 (coreAt s e.ph).carrel a

/-- A little-endian 32-bit word of either space. -/
def spaceWord (s : State) (e : Env) (glob : Bool) (a : Nat) : Nat :=
  leNat ((List.range 4).map fun i => spaceByte s e glob (a + i))

/-- A global byte that a read finds poisoned (R314, Table 12.2). -/
def globalPoisoned (s : State) (e : Env) (a : Nat) : Bool :=
  match globalKey s e a with
  | none => false
  | some k => (tfind (coreAt s e.ph).writes k).isNone && (tfind (cluAt s (e.c / 4)).stackLines k).isNone && dramPoisoned s k

/-- A poisoned line in a range of the global share. -/
def rangePoisoned (s : State) (e : Env) (lo n : Nat) : Bool :=
  (List.range (n / 64 + 2)).any fun i => globalPoisoned s e (lo + min (64 * i) (n - 1))

/-- Write one byte of the global share into the core's own writes (R113). -/
def putGlobal (e : Env) (a : Nat) (b : Byte) (s : State) : State :=
  match globalKey s e a with
  | some k => modCore e.ph (fun c => { c with writes := tset c.writes k b }) s
  | none => s

/-- Write global bytes from a on. -/
def putGlobals (e : Env) (a : Nat) (bs : List Byte) (s : State) : State :=
  match bs with
  | [] => s
  | b :: r => putGlobals e (a + 1) r (putGlobal e a b s)

/-- Write bytes of either space: the carrel at once, a global byte into the core's own writes (R113). -/
def spaceWrite (e : Env) (glob : Bool) (a : Nat) (bs : List Byte) (s : State) : State :=
  if glob then putGlobals e a bs s
  else modCore e.ph (fun c => { c with carrel := memWrite 0 c.carrel a bs }) s

/-- Several writes in order. -/
def spaceWrites (e : Env) (glob : Bool) (l : List (Nat × List Byte)) (s : State) : State :=
  l.foldl (fun s w => spaceWrite e glob w.1 w.2 s) s

/-- FENCE at CLUSTER scope: the core's writes become visible in the cluster's stacks (R114). -/
def fenceCluster (ph : Nat) (s : State) : State :=
  let w := (coreAt s ph).writes
  let s := modCore ph (fun c => { c with writes := [] }) s
  modClu (ph / 5) (fun c => { c with stackLines := w.foldl (fun m x => tset m x.1 x.2) c.stackLines }) s

/-- No cluster's stacks hold a copy of these bytes: what reaches DRAM at DEVICE scope is what every cluster reads (R114). -/
def dropLines (keys : List Nat) (s : State) : State :=
  { s with clusters := tmap s.clusters fun _ c => { c with stackLines := c.stackLines.filter fun x => !keys.contains x.1 } }

/-- The stacks' writes reach the memory controllers and are what every cluster reads (R114). -/
def flushStacks (cl : Nat) (s : State) : State :=
  let w := (cluAt s cl).stackLines
  dramPuts w (dropLines (w.map (·.1)) s)

/-- FENCE at DEVICE scope (R114). -/
def fenceDevice (ph : Nat) (s : State) : State := flushStacks (ph / 5) (fenceCluster ph s)

/-- Every write of every core reaches DRAM, as when a context's shares are written back or freed. -/
def flushAll (s : State) : State :=
  let s := s.cores.foldl (fun s c => fenceCluster c.1 s) s
  (List.range 8).foldl (fun s cl => flushStacks cl s) s

/-! ### Blocks (R30 to R39) -/

/-- The SCALE byte's exponent and mantissa (R35). -/
def scaleExp (h : Nat) : Nat := h / 8 % 32
/-- The integer significand 8 + m (R43). -/
def scaleSig (h : Nat) : Nat := 8 + h % 8
/-- A block is empty when its SCALE exponent is 0 (R36). -/
def emptyHdr (h : Nat) : Bool := scaleExp h == 0
/-- The zero point of a header for a format (Table 2.5). -/
def zeroPoint (fmt h : Nat) : Nat :=
  match fmt with
  | 0 => h / 256 % 16
  | 3 => h / 256 % 4
  | 6 => h / 256 % 256
  | _ => 0
/-- Codebook level j of codebook k (R40, R41). A context whose image has no codebook section holds only levels 0, a choice of the model: Table
11.2 does not ask for the section (log entry 105). -/
def level (cb : List Byte) (k j : Nat) : Int := sgn 5 ((cb.getD (16 * k + j) 0).toNat)
/-- The operand fed to the multiplier for a code (Table 2.1, R30). -/
def fed (cb : List Byte) (fmt h c : Nat) : Int :=
  match fmt with
  | 0 | 3 | 6 => (c : Int) - zeroPoint fmt h
  | 1 => sgn 4 c
  | 2 => level cb (h / 4096 % 16) c
  | 4 => if c % 2 = 0 then 0 else if c = 1 then 1 else -1
  | _ => if c % 2 = 0 then 1 else -1
/-- The empty-element code (Table 2.1). -/
def emptyCode (cb : List Byte) (fmt h : Nat) : Nat :=
  match fmt with
  | 0 | 3 | 6 => zeroPoint fmt h
  | 2 => ((List.range 16).find? fun j => level cb (h / 4096 % 16) j == 0).getD 0
  | _ => 0
/-- Code i of a block's bytes (Table 2.2). -/
def codeOf (fmt : Nat) (bs : List Byte) (i : Nat) : Nat :=
  let w := elemBits fmt
  (bs.getD (i * w / 8) 0).toNat / 2 ^ (i * w % 8) % 2 ^ w
/-- The bytes of a block of 64 codes (Table 2.2). -/
def packCodes (fmt : Nat) (cs : List Nat) : List Byte :=
  leBytes (blockBytes fmt) (cs.foldr (fun c a => c % 2 ^ elemBits fmt + 2 ^ elemBits fmt * a) 0)
/-- A header word with its CRC (R37). -/
def sealHdr (tag body : Nat) : Nat :=
  let w := body % 65536 + 65536 * (tag % 256)
  w + 2 ^ 24 * headerCrc w
/-- The CRC of a header matches (R37). -/
def crcGood (h : Nat) : Bool := h / 2 ^ 24 % 256 == headerCrc (h % 2 ^ 24)
/-- The skew of a block: SKEW_CRC, SKEW_TAG or SKEW_COUNT in that order, none when the block is accepted (R39, R58). -/
def skewOf (h tag : Nat) (countBad : Bool) : Option Nat :=
  if !crcGood h then some 1 else if h / 65536 % 256 != tag then some 2 else if countBad then some 3 else none
/-- The address of header n. -/
def hdrAddr (d : Desc) (n : Nat) : Nat := (d.hbase + 4 * (n : Int)).toNat
/-- Header n of a tensor. -/
def hdrAt (s : State) (e : Env) (d : Desc) (n : Nat) : Nat := spaceWord s e d.glob (hdrAddr d n)
/-- The bytes of block b of a row. -/
def blockAt (s : State) (e : Env) (d : Desc) (b i1 i2 i3 : Nat) : List Byte :=
  let a := rowAddr d i1 i2 i3 + b * blockBytes d.fmt
  (List.range (blockBytes d.fmt)).map fun i => spaceByte s e d.glob (a + i)
/-- Whether the upsets of an instruction disturb the loader counts at the n-th block it fetches (R39). -/
def countBad (u : List Upset) (n : Nat) : Bool := u.any fun x => match x with | .skewCount k => k == n | _ => false
/-- Whether a read of the instruction is uncorrectable. -/
def readLost (u : List Upset) : Bool := u.any fun x => match x with | .uncorrectable => true | _ => false

/-- The header range of a tensor lies within the share, and so does its data. -/
def tensorInShare (e : Env) (d : Desc) : Bool :=
  inShare e d.glob d.base (spanBytes d) && (!quantised d.fmt || inShare e d.glob d.hbase (4 * hdrCount d))

/-- ACCESS when the tensor leaves the share: cause 0x01 carrel, 0x02 global (R110, Table 5.2). -/
def accessCheck (e : Env) (n : Nat) (d : Desc) : Check :=
  { cause := if d.glob then 0x02 else 0x01, dreg := some n, bad := !tensorInShare e d }

end Sys2Proof.Machine
end

