-- ==== Sys2Proof/Machine/CoreRun.lean ====
section
/-! DEFINITION. Machine/CoreRun.lean: how a core issues an Aethod instruction and what a core fault does (R87, R88, R103, R112,
R125, R129, R130). -/

namespace Sys2Proof.Machine

/-! ### Cores that fault (R87, R88, R287) -/

/-- Move the jobs queued on a logical core to the partition's other cores of its cluster (R287). -/
def moveQueue (c : Nat) (s : State) : State :=
  let js := s.jobs.filter fun j => j.state == .queued c
  js.foldl (fun s j =>
    let part := match ctxAt s j.ctx with | some d => d.part | none => 4
    match leastBy (queueLen s) ((coresInClu s part (c / 4)).filter fun k => k != c && mayUse s j k) with
    | some k => modJob j.id (fun j => { j with state := .queued k }) s
    | none => enqueue { j with avoid := c :: j.avoid } s) s

/-- A partition that has fewer logical cores in service than MINCORES takes a C3 fault (R287). -/
def checkMinCores (p : Nat) (s : State) : State :=
  if (partAt s p).present && decide ((coresIn s p).length < (partAt s p).minCores)
  then faultPartition p { source := 0x10 } s else s

/-- A logical core leaves service without a stand-in (R16, R88): its jobs move, and MINCORES is tested. -/
def loseCore (c : Nat) (s : State) : State :=
  let p := partOfCore s c
  let s := match servedBy s c with
    | some ph =>
      let aborted := ((coreAt s ph).saved.map fun v => v.part.job)
      modCore ph (fun k => { k with health := .withdrawn }) (aborted.foldl (fun s j => abortJob j s) s)
    | none => s
  let s := modClu (c / 4) (fun cl => { cl with phys := tset cl.phys (c % 4) 7 }) s
  checkMinCores p (moveQueue c (emitC0 0x01 c 0 [] s))

/-- A physical core of the cluster is free to stand in (R88, R99, Table 3.12). -/
def spareFree (s : State) (cl : Nat) : Bool :=
  let k := cluAt s cl
  k.spare.isSome && k.standin.isNone && k.moving.isNone && k.testing.isNone

/-- A core that a test is due for is queued now that it stands at a job boundary: until its test it takes no new job while a spare is free, or
where it serves partition 0, and the jobs queued on it move (R88, R100). -/
def takeTestDue (c ph : Nat) (s : State) : State :=
  let k := coreAt s ph
  if !k.testDue || k.part.isSome then s
  else
    let s := modCore ph (fun k => { k with testDue := false, health := if k.health == .inService then .queued else k.health }) s
    if partOfCore s c = 0 || spareFree s (c / 4) then moveQueue c s else s

/-- Queue a physical core for in-service test after a residue or memory fault (R88). A second fault before its test withdraws it
when no spare can stand in. -/
def queueTest (c ph : Nat) (s : State) : State :=
  let k := coreAt s ph
  if (k.health == .queued || k.testDue) && !spareFree s (c / 4) then loseCore c s
  else takeTestDue c ph (modCore ph (fun k => { k with testDue := true }) s)

/-- Count a residue or memory fault of a physical core (Table 3.11). -/
def countResflt (ph : Nat) (s : State) : State := modCore ph (fun k => { k with resflt := min (k.resflt + 1) 255 }) s

/-! ### Re-runs (R61, R87, R170) -/

/-- The band jobs of a job's frame and program. -/
def bandSet (s : State) (j : Job) : List Job :=
  s.jobs.filter fun k => k.stream == j.stream && k.frame == j.frame && k.ctx == j.ctx && k.prog == j.prog

/-- When every band job of the set has ended and one of them must run again, all of them run again (R170). -/
def settleBands (j : Job) (s : State) : State :=
  let l := bandSet s j
  if l.all (fun k => k.state == .ended) && l.any (fun k => k.wantRerun) then
    l.foldl (fun s k => rerun k (fun k => { k with wantRerun := false }) s) s
  else s

/-- Run a faulted job again, or its whole band set once every band job has ended. -/
def runAgain (j : Job) (f : Job → Job) (s : State) : State :=
  if banded s j then
    let s := endParts j.id s
    settleBands j (modJob j.id (fun _ => f { j with state := .ended, wantRerun := true, cores := [], ended := [] }) s)
  else rerun j f s

/-- The tracker state of a stream is lost: every track ends without a report, and the first folio after the loss carries TRACK_RESET: that of
frame `first`, or else of the oldest frame without a result (R247, Table 15.3). -/
def loseTracksAt (id : Nat) (first : Option Nat) (s : State) : State :=
  let s := modStrm id (fun st =>
    let st := { st with tracks := [], trackPts := none }
    let oldest := leastBy (fun f : Frame => match f.num with | some n => n | none => 2 ^ 64 + f.pts) (st.frames.filter fun f => f.result.isNone)
    match first.orElse fun _ => oldest.map (·.order) with
    | some g => { st with frames := amend (fun f => f.order == g) (fun f => { f with trackReset := true }) st.frames }
    | none => { st with resetPending := true }) s
  emit { cls := 1, stream := some id, ctx := some (strm s id).ctx } s

/-- The tracker state of a stream is lost now. -/
def loseTracks (id : Nat) (s : State) : State := loseTracksAt id none s

/-- A RESCHANGE picture whose frame ended as a gap, numbered below n, has its loss of the tracker state before the steps of later frames (R247). -/
def settleReschange (id n : Nat) (s : State) : State :=
  let st := strm s id
  match leastBy (fun f : Frame => f.num.getD 0) (st.frames.filter fun f => f.resChange && !f.sealed
      && (match f.result with | some (.gap _) => true | _ => false) && f.num.any fun m => decide (m < n)) with
  | some f =>
    loseTracksAt id (some f.order) (modStrm id (fun st => { st with
      frames := amend (fun g => g.num.any fun m => decide (m < n)) (fun g => { g with resChange := false }) st.frames }) s)
  | none => s

/-- The crops of a batch job have their outcome: computed or corrupt by the valid mask (R240), or all lost with the job (R241). -/
def cropsIn (j : Job) (bad : Bool) (s : State) : State :=
  (List.range j.frames.length).foldl (fun s k =>
    let p := j.frames.getD k (0, 0)
    let st : CropState := if bad then .lost else if j.mask.getD k false then .done else .corrupt
    let mine := fun (x : CropRes) => x.prog == j.prog && x.cand == j.cands.getD k 0 && x.state == .out
    modFrame p.1 p.2 (fun f => { f with crops := amend mine (fun x => { x with state := st }) f.crops }) s) s

/-- A job that recovery cannot mend: its frame gets COMPUTE_FAULT; a SENTINEL job leaves a disagreement instead, an ADAPT job
leaves nothing, a batch outside partition 0 leaves its crops without results, and a TRACK job loses the tracker state (R87, R241,
R247, R415). -/
def loseJob (j : Job) (s : State) : State :=
  match j.role with
  | 3 => dropJob j.id (sentinelFails j s)
  | 4 => dropJob j.id s
  | 1 =>
    if (strm s j.stream).part = 0 then dropJob j.id (failFrames j gapComputeFault s)
    else dropJob j.id (cropsIn j true s)
  | 2 => dropJob j.id (failFrames j gapComputeFault (loseTracks j.stream s))
  | _ => dropJob j.id (failFrames j gapComputeFault s)

/-! ### Core faults (R125, R129, Table 4.6) -/

/-- What a fault says beside its code (R87, R129). -/
structure FaultAt where
  code : Nat
  cause : Nat
  dreg : Option Nat := none
  /-- engine, half, column, entry of a poisoned or failing entry -/
  place : List Nat := []
  /-- the offset of a queued instruction that faults after later ones issued -/
  addr : Option Nat := none
  /-- a remote access failed: no core is queued for test (R378) -/
  fabric : Bool := false
  deriving DecidableEq, Repr

/-- The detail word of Table 5.2. -/
def detailWord (f : FaultAt) : Nat :=
  f.code + 256 * f.cause + (match f.dreg with | some n => 2 ^ 16 * n + 2 ^ 20 | none => 0)

/-- The event of a core fault. -/
def faultEvent (s : State) (c addr : Nat) (j : Job) (f : FaultAt) : Event :=
  { cls := 1, source := 0x01, unit := some c, stream := some j.stream, ctx := some j.ctx,
    frame := (frameOf s j.stream j.frame).bind (·.num), code := f.code, detail := [detailWord f, addr] ++ f.place }

/-- A fault under R87: one re-run elsewhere, then COMPUTE_FAULT; the core is queued for test. A skew in the re-run is a first skew (R61). -/
def engineFault (c ph : Nat) (j : Job) (test : Bool) (s : State) : State :=
  let s := if test then queueTest c ph s else s
  if j.engineRuns = 0 then
    runAgain j (fun j => { j with engineRuns := 1, skewRuns := 0, avoid := if test then c :: j.avoid else j.avoid }) s
  else loseJob j s

/-- A DRAM key lies in a context's global share. -/
def inGlobal (s : State) (c : Ctx) (key : Nat) : Bool :=
  ((offsetOf s c.part key).bind (offsetIn c.area)).any fun x => decide (x < c.globalLen)

/-- The stacks keep no copy of a context's data: its dirty lines reach DRAM, and every later read is served from there (R61; log entry
100). -/
def dropCopies (ctx : Nat) (s : State) : State :=
  match ctxAt s ctx with
  | some c => (List.range 8).foldl (fun s cl =>
      let l := (cluAt s cl).stackLines.filter fun x => inGlobal s c x.1
      dramPuts l (modClu cl (fun k => { k with stackLines := k.stackLines.filter fun x => !inGlobal s c x.1 }) s)) s
  | none => s

/-- What firmware does with a faulted job, by cause (Table 4.6, R61, R87, Table 15.3). -/
def faultedJob (c ph addr : Nat) (j : Job) (f : FaultAt) (s : State) : State :=
  let e := faultEvent s c addr j f
  let s := sentinelFails j s
  match f.code with
  | 0x03 =>
    if f.cause = 1 ∨ f.cause = 2 ∨ f.cause = 3 then
      if j.skewRuns = 0 then runAgain j (fun j => { j with skewRuns := 1 }) (dropCopies j.ctx s)
      else faultContext j.ctx e j.stream (some j.frame) s
    else engineFault c ph j true (countResflt ph (emit e s))
  | 0x04 => if f.fabric then engineFault c ph j false (emit e s) else engineFault c ph j true (countResflt ph (emit e s))
  | 0x05 =>
    let s := emit e s
    if j.haloRuns = 0 then runAgain j (fun j => { j with haloRuns := 1 }) s else loseJob j s
  | _ => faultContext j.ctx e j.stream (some j.frame) s

/-- A core fault: the address and detail are recorded, the part stops, and the job goes to firmware (R125). A band job that stops
stays in its set; a part that is presumed dead or whose job was stopped only stops. -/
def coreFault (e : Env) (f : FaultAt) (s : State) : State :=
  let addr := f.addr.getD (coreAt s e.ph).regs.pc
  let s := modCore e.ph (fun k => { k with fault := some { address := addr, detail := BitVec.ofNat 32 (detailWord f) } }) s
  match e.part.dead || e.part.stopping, jobOf s e.part.job with
  | false, some j =>
    let s := modCore e.ph (fun k => { k with halo := k.halo.filter fun h => h.paired && h.fault.isNone }) s
    takeTestDue e.c e.ph (faultedJob e.c e.ph addr j f (endParts j.id s))
  | _, _ => takeTestDue e.c e.ph (modCore e.ph (fun k => { k with part := none, halo := [] }) s)

/-- The environment of a core whatever its sequencer waits for. -/
def waitingEnv (s : State) (c : Nat) : Option Env :=
  match servedBy s c with
  | none => none
  | some ph =>
    let bare := modCore ph (fun k =>
      { k with part := k.part.map fun p => { p with wait := .none, stopping := false, halted := none }
               halo := k.halo.map fun h => { h with fault := none } }) s
    match envOf bare c, (coreAt s ph).part with
    | some e, some p => some { e with core := coreAt s ph, part := { p with wait := .none } }
    | _, _ => none

/-- What follows once an issued instruction of core c has completed: a queued transfer that has failed faults when every earlier one is
complete, so does a failed remote access (R125); a stopped part goes, with the fault its core met where it has recorded none, and a halted
one is set aside (R103, R119). -/
def settlePart (c : Nat) (s : State) : State :=
  match waitingEnv s c with
  | none => s
  | some e =>
    let k := coreAt s e.ph
    if e.part.stopping then
      let bad := k.halo.findSome? fun h => h.fault.map fun f => ({ address := h.pc, detail := BitVec.ofNat 32 (f.1 + 256 * f.2) } : CoreFault)
      let s := modCore e.ph (fun k => { k with halo := k.halo.filter (fun h => h.fault.isNone), fault := k.fault.orElse fun _ => bad }) s
      match (coreAt s e.ph).halo, (k.part.map (·.wait)).getD .none with
      | [], .none | [], .failing _ _ _ => takeTestDue c e.ph (modCore e.ph (fun k => { k with part := none }) s)
      | _, _ => s
    else match k.halo, (k.part.map (·.wait)).getD .none with
      | h :: _, _ => match h.fault with
        | some (code, cause) => coreFault e { code := code, cause := cause, addr := some h.pc } s
        | none => s
      | [], .failing code cause fabric => coreFault e { code := code, cause := cause, fabric := fabric } s
      | [], .none => match (k.part.bind (·.halted)) with
        | some j => preemptNow e.ph j s
        | none => s
      | [], _ => s

/-- A queued transfer of core c ends with a fault, taken once the earlier ones have completed. -/
def failHalo (c : Nat) (h : Halo) (code cause : Nat) (s : State) : State :=
  match servedBy s c with
  | none => s
  | some ph => settlePart c (modCore ph (fun k => { k with halo := amendFirst (fun x => x == h) (fun x => { x with fault := some (code, cause) }) k.halo }) s)

/-! ### Issue (R95, R112, R125, R128, R130) -/

/-- What an instruction does once it issues. -/
inductive Verdict where
  /-- the instruction faults; the state holds what stands (R125) -/
  | fault (f : FaultAt) (s : State)
  /-- it takes effect and the next instruction follows -/
  | done (s : State)
  /-- it takes effect and control goes to an offset -/
  | jump (s : State) (pc : Nat)
  /-- it is issued but not complete: the sequencer waits, or the part has ended -/
  | hold (s : State)

/-- The upsets that were corrected or refetched, reported as C0 (R80, R93, R96). -/
def noteCorrected (c ph : Nat) (u : List Upset) (s : State) : State :=
  u.foldl (fun s x => match x with
    | .corrected => countEv ph 0x04 1 (emitC0 0x01 c 0 [] s)
    | .refetched => emitC0 0x01 c 0 [] s
    | _ => s) s

/-- An instruction whose fetch from DRAM fails faults with MEMORY (Table 12.2). -/
def fetchLost (u : List Upset) : Bool := u.any fun x => match x with | .fetchUncorrectable => true | _ => false

/-- The MEMORY fault of an uncorrectable read (Table 4.6, entry state 0b101). -/
def memoryFault (s : State) : Verdict := .fault { code := 0x04, cause := 0x05 } s

/-- Issue one instruction on logical core c, once its corrected upsets are reported (R80, R93, R96). A fault is taken once every earlier
instruction, a queued HXCH included, has completed (R125). -/
def issue (c : Nat) (u : List Upset) (s : State) (f : Env → State → Verdict) : Out :=
  .next (match envOf s c with
    | none => s
    | some e =>
      let s' := noteCorrected c e.ph u s
      match (if fetchLost u then memoryFault s' else f e s') with
      | .fault x t => if e.core.halo.isEmpty then coreFault e x t else s
      | .done t => retire e.ph (e.core.regs.pc + 16) t
      | .jump t pc => retire e.ph pc t
      | .hold t => t)

/-- Run the checks of an instruction: the lowest ILLEGAL cause, then ACCESS, then the effect (R128, R130). -/
def checked (l acc : List Check) (s : State) (k : Unit → Verdict) : Verdict :=
  match worst l with
  | some b => .fault { code := 0x01, cause := b.cause, dreg := b.dreg } s
  | none =>
    match acc.find? (fun b => b.bad) with
    | some b => .fault { code := 0x02, cause := b.cause, dreg := b.dreg } s
    | none => k ()

/-- A carrel range, and whether it is written. -/
structure Span where
  lo : Int
  n : Nat
  wr : Bool
  deriving DecidableEq, Repr

/-- A span meets the range of a queued HXCH, at least one of the two writing (Table 4.5). -/
def spanBusy (k : Core) (a : Span) : Bool :=
  k.halo.any fun h =>
    let d := descOf h.desc
    let meets := fun (lo : Int) (n : Nat) => decide (a.lo < lo + n) && decide (lo < a.lo + a.n) && (a.wr || h.recv)
    meets d.base (spanBytes d) || (quantised d.fmt && meets d.hbase (4 * hdrCount d))

/-- The carrel spans of a tensor. -/
def spansOf (d : Desc) (wr : Bool) : List Span :=
  if d.glob then [] else
  { lo := d.base, n := spanBytes d, wr := wr } :: (if quantised d.fmt then [{ lo := d.hbase, n := 4 * hdrCount d, wr := wr }] else [])

/-- An instruction that meets a queued HXCH's carrel range waits: nothing happens yet (Table 4.5). -/
def clearOf (e : Env) (l : List Span) (s : State) (k : Unit → Verdict) : Verdict :=
  if l.any (spanBusy e.core) then .hold s else k ()

/-- An effect that only changes the core's registers. -/
def regsDone (e : Env) (s : State) (f : Regs → Regs) : Verdict :=
  .done (modCore e.ph (fun k => { k with regs := f k.regs }) s)

end Sys2Proof.Machine
end

