-- ==== Sys2Proof/Machine/Flags.lean ====
section
/-! DEFINITION. Machine/Flags.lean: accumulator entry states (R58, R59, R75, R76, R86), the array mode of a format pair (R32, R64), and
the quantiser's counters (R54, R55, R150). -/

namespace Sys2Proof.Machine

/-! ### Accumulator rows -/

/-- Engine n of a core. -/
def engAt (k : Core) (n : Nat) : Engine := if n = 0 then k.e0 else k.e1
/-- Change engine n. -/
def modEng (n : Nat) (f : Engine → Engine) (k : Core) : Core := if n = 0 then { k with e0 := f k.e0 } else { k with e1 := f k.e1 }

/-- The value of column j in a row of an entry. -/
def colVal (r : BitVec 16384) (j : Nat) : Nat := (r.extractLsb' (32 * j) 32).toNat
/-- The state of column j in a row of an entry. -/
def colState (r : BitVec 1536) (j : Nat) : Nat := (r.extractLsb' (3 * j) 3).toNat
/-- A row of values by column, `n` columns from the function and the rest kept. -/
def setCols (r : BitVec 16384) (js : List Nat) (f : Nat → Nat) : BitVec 16384 :=
  js.foldl (fun r j =>
    let m := BitVec.ofNat 16384 (0xFFFFFFFF * 2 ^ (32 * j))
    (r &&& ~~~m) ||| BitVec.ofNat 16384 (f j % 2 ^ 32 * 2 ^ (32 * j))) r
/-- A row of states with some columns changed. -/
def setStates (r : BitVec 1536) (js : List Nat) (f : Nat → Nat) : BitVec 1536 :=
  js.foldl (fun r j =>
    let m := BitVec.ofNat 1536 (7 * 2 ^ (3 * j))
    (r &&& ~~~m) ||| BitVec.ofNat 1536 (f j % 8 * 2 ^ (3 * j))) r

/-- The check bits of a row of entries: seven over each value and state (R75). -/
def checksOf (r : BitVec 16384) (t : BitVec 1536) : BitVec 3584 :=
  BitVec.ofNat 3584 ((List.range 512).foldr (fun j a => (Config.accCheck (colVal r j) (colState t j)).toNat + 128 * a) 0)

/-- Entry n is stored with its check bits; an unlisted entry has those of +0.0 and CLEAN (R75). -/
def sealEntry (n : Nat) (e : Engine) : Engine :=
  { e with accCheck := tset e.accCheck n (checksOf (tget e.acc 0 n) (tget e.accState 0 n)) }

/-- A poisoned entry meets a cause (R76): RESIDUE replaces a skew state, MEMORY replaces every other, the first skew stays. -/
def joinState (old new : Nat) : Nat :=
  if new = 0 then old
  else if old = 5 ∨ old = 6 ∨ old = 7 then old
  else if new = 5 then 5
  else if old = 4 then 4
  else if new = 4 then 4
  else if old = 0 then new else old

/-- Poison columns of an entry with a cause. -/
def poisonCols (e : Engine) (entry : Nat) (js : List Nat) (cause : Nat) : Engine :=
  let r := tget e.accState 0 entry
  sealEntry entry { e with accState := tset e.accState entry (setStates r js fun j => joinState (colState r j) cause) }

/-- The columns of a half, or of the whole engine (R84). -/
def halfCols (half : Nat) : List Nat :=
  match half with
  | 1 => List.range 256
  | 2 => (List.range 256).map (· + 256)
  | _ => List.range 512

/-- The half that holds a column: 1 or 2 in split mode, 0 for the whole engine. -/
def halfOfCol (e : Engine) (j : Nat) : Nat := if e.split then (if j < 256 then 1 else 2) else 0

/-- The tile of a half; the whole engine's tile is h0. -/
def halfOf (e : Engine) (half : Nat) : Half := if half = 2 then e.h1 else e.h0

/-- Condemn a half in split mode, or the whole engine: every entry of its columns is RESIDUE, and stays so for the job's later
accumulations (R86). -/
def condemn (e : Engine) (col : Nat) : Engine :=
  let half := halfOfCol e col
  let js := halfCols half
  let e := (List.range 512).foldl (fun e n => poisonCols e n js 4) e
  match half with
  | 1 => { e with h0 := { e.h0 with condemned := true } }
  | 2 => { e with h1 := { e.h1 with condemned := true } }
  | _ => { e with h0 := { e.h0 with condemned := true }, h1 := { e.h1 with condemned := true } }

/-- The cause that every accumulation into a column carries: condemnation, then the column's own poison (R69, R86). -/
def columnCause (e : Engine) (j : Nat) : Nat :=
  if (if j < 256 then e.h0 else e.h1).condemned then 4 else colState e.colPoison j

/-! ### Array modes (R32, R64) -/

/-- The array modes of Table 2.3. -/
inductive Mode where
  | four | two | binary | a8x4 | fourxa8 | a8xa8
  deriving DecidableEq, Repr

/-- The mode of an activation format and a weight format (Tables 2.3, 3.1). -/
def modeOf (act wt : Nat) : Mode :=
  if act = 6 ∧ wt = 6 then .a8xa8
  else if act = 6 then .a8x4
  else if wt = 6 then .fourxa8
  else if act ≤ 2 ∨ wt ≤ 2 then .four
  else if act = 5 ∧ wt = 5 then .binary
  else .two

/-- The deepest weight tile of a mode (Table 3.1). -/
def modeDepth : Mode → Nat
  | .four => 128
  | .two => 256
  | .binary => 512
  | .a8x4 => 128
  | .fourxa8 => 64
  | .a8xa8 => 64

/-- The most reduction elements a weight format's tile holds (R145). -/
def depthCap (fmt : Nat) : Nat :=
  match fmt with
  | 0 | 1 | 2 => 128
  | 3 | 4 => 256
  | 5 => 512
  | _ => 64

/-! ### Quantiser counters (R54, R150) -/

/-- Add n to a counter by its STAT code; it holds at all ones. -/
def bumpQ (q : QCount) (code n : Nat) : QCount :=
  match code with
  | 0 => { q with sat := satInc q.sat n }
  | 1 => { q with coll := satInc q.coll n }
  | 2 => { q with sclamp := satInc q.sclamp n }
  | 3 => { q with nonfin := satInc q.nonfin n }
  | _ => { q with dqskew := satInc q.dqskew n }

/-- A counter by its STAT code. -/
def readQ (q : QCount) (code : Nat) : Word :=
  match code with
  | 0 => q.sat
  | 1 => q.coll
  | 2 => q.sclamp
  | 3 => q.nonfin
  | _ => q.dqskew

/-- A counter zeroed. -/
def clearQ (q : QCount) (code : Nat) : QCount :=
  match code with
  | 0 => { q with sat := 0 }
  | 1 => { q with coll := 0 }
  | 2 => { q with sclamp := 0 }
  | 3 => { q with nonfin := 0 }
  | _ => { q with dqskew := 0 }

end Sys2Proof.Machine
end

