-- ==== Sys2Proof/Machine/Route.lean ====
section
/-! DEFINITION. Machine/Route.lean: the fabric's routes and detour table (R368 to R370) and the packets a remote access sends
(R374 to R377). -/

namespace Sys2Proof.Machine

/-- Fabric port n. -/
def fabPort (s : State) (n : Nat) : FabPort := tget s.fab.ports {} n
/-- Change a fabric port. -/
def modPort (n : Nat) (f : FabPort → FabPort) (s : State) : State :=
  { s with fab := { s.fab with ports := tset s.fab.ports n (f (fabPort s n)) } }
/-- X of a call number (R364). -/
def callX (c : BitVec 16) : Nat := c.toNat / 256
/-- Y of a call number (R364). -/
def callY (c : BitVec 16) : Nat := c.toNat % 256
/-- The call number of a position. -/
def callAt (x y : Nat) : BitVec 16 := BitVec.ofNat 16 (256 * x + y)
/-- The position reached from (x, y) by port 0 X+, 1 X-, 2 Y+, 3 Y- (R359). -/
def hop (s : State) (x y n : Nat) : Nat × Nat :=
  match n with
  | 0 => ((x + 1) % s.fab.sx, y)
  | 1 => ((x + s.fab.sx - 1) % s.fab.sx, y)
  | 2 => (x, (y + 1) % s.fab.sy)
  | _ => (x, (y + s.fab.sy - 1) % s.fab.sy)

/-- The ports of a device a link may use: two in ring mode, four in torus mode (R359). -/
def fabPorts (s : State) : List Nat := if s.fab.torus then [0, 1, 2, 3] else [0, 1]

/-- The port of dimension order from (x, y) to (xd, yd): X first, a tie going to the + side (R368). -/
def orderPort (s : State) (x y xd yd : Nat) : Option Nat :=
  let dx := (xd + s.fab.sx - x % s.fab.sx) % s.fab.sx
  let dy := (yd + s.fab.sy - y % s.fab.sy) % s.fab.sy
  if dx != 0 then some (if dx ≤ s.fab.sx - dx then 0 else 1)
  else if dy != 0 then some (if dy ≤ s.fab.sy - dy then 2 else 3)
  else none

/-- Whether a device is known at a position: this one, or one in the catalogue. -/
def devicePresent (s : State) (x y : Nat) : Bool :=
  callAt x y == s.fab.call || (tfind s.fab.peers (256 * x + y)).isSome

/-- The other direction of a port's dimension: also the port at the far end of a link (R359). -/
def otherWay (n : Nat) : Nat := if n % 2 = 0 then n + 1 else n - 1

/-- Whether port n of the device at a position carries traffic, by this device's registers or that device's last LINKSTATE. -/
def endClear (s : State) (x y n : Nat) : Bool :=
  if callAt x y == s.fab.call then (fabPort s n).state == 2
  else match tfind s.fab.peers (256 * x + y) with
    | some p => bits p.ports.toNat (4 * n + 3) (4 * n) == 2
    | none => false

/-- Whether the device at a position is present and reports nothing against its port n: a link isolated, draining or down at either end
is not used (R366, R369, R382, R383). -/
def farClear (s : State) (x y n : Nat) : Bool :=
  if callAt x y == s.fab.call then (fabPort s n).state == 2
  else match tfind s.fab.peers (256 * x + y) with
    | some p => !p.reported || bits p.ports.toNat (4 * n + 3) (4 * n) == 2
    | none => false

/-- The link on port n of the device at a position is clear. -/
def linkClear (s : State) (x y n : Nat) : Bool :=
  endClear s x y n && farClear s (hop s x y n).1 (hop s x y n).2 (otherWay n)

/-- The way from (x, y) through port n, and on in the same direction for `k` hops, is clear. -/
def wayClear (s : State) (n : Nat) : Nat → Nat → Nat → Bool
  | 0, _, _ => true
  | k + 1, x, y => linkClear s x y n && wayClear s n k (hop s x y n).1 (hop s x y n).2

/-- Hops along the dimension of port n from (x, y) to a destination. -/
def hopsTo (s : State) (n x y xd yd : Nat) : Nat :=
  match n with
  | 0 => (xd + s.fab.sx - x % s.fab.sx) % s.fab.sx
  | 1 => (x + s.fab.sx - xd % s.fab.sx) % s.fab.sx
  | 2 => (yd + s.fab.sy - y % s.fab.sy) % s.fab.sy
  | _ => (y + s.fab.sy - yd % s.fab.sy) % s.fab.sy

/-- Port n leads from (x, y) all along its dimension to the destination's coordinate. -/
def portClear (s : State) (n x y xd yd : Nat) : Bool := wayClear s n (hopsTo s n x y xd yd) x y

/-- From (x, y) the destination is reached in X and then in Y, each either way round (R369, log entry 97). -/
def reachedFrom (s : State) (x y xd yd : Nat) : Bool :=
  (portClear s 0 x y xd yd || portClear s 1 x y xd yd) && (portClear s 2 xd y xd yd || portClear s 3 xd y xd yd)

/-- Where a destination stands (R369): on its dimension-order port, on a detour (escape, port), or unreachable. -/
inductive Way where
  | straight (port : Nat)
  | detour (escape : Bool) (port : Nat)
  | unreachable
  deriving DecidableEq, Repr

/-- Rule 2 of R369: one hop in Y+, or Y- if Y+ is down, in class 2, when the destination is reached from the new row. -/
def rowDetour (s : State) (x y xd yd : Nat) : Way :=
  if !s.fab.torus then .unreachable else
  let m := if linkClear s x y 2 then 2 else 3
  let q := hop s x y m
  if linkClear s x y m && reachedFrom s q.1 q.2 xd yd then .detour true m else .unreachable

/-- The way of R369 to a destination other than this device. -/
def wayTo (s : State) (xd yd : Nat) : Way :=
  let x := callX s.fab.call
  let y := callY s.fab.call
  if s.fab.call == 0xFFFE || !devicePresent s xd yd then .unreachable else
  match orderPort s x y xd yd with
  | none => .unreachable
  | some n =>
    if !reachedFrom s x y xd yd then rowDetour s x y xd yd
    else if portClear s n x y xd yd then .straight n
    else .detour false (otherWay n)

/-- The detour a destination needs, if any. -/
def detourOf (s : State) (x y : Nat) : Option (Bool × Nat) :=
  if callAt x y == s.fab.call then none
  else match wayTo s x y with
    | .detour e n => some (e, n)
    | _ => none

/-- The detour table of R369: columns whose every row needs one detour, then rows, then single destinations, at most 256. -/
def detourTable (s : State) : List Detour × Bool :=
  let xs := List.range s.fab.sx
  let ys := List.range s.fab.sy
  let col := xs.filterMap fun x =>
    match detourOf s x 0 with
    | some d => if ys.all (fun y => detourOf s x y == some d) then some { escape := d.1, port := d.2, kind := 1, x := x, y := 0 : Detour } else none
    | none => none
  let inCol := fun x => col.any fun d => d.x == x
  let row := ys.filterMap fun y =>
    match detourOf s 0 y with
    | some d =>
      if xs.all (fun x => detourOf s x y == some d) && xs.any (fun x => !inCol x)
      then some { escape := d.1, port := d.2, kind := 2, x := 0, y := y : Detour } else none
    | none => none
  let inRow := fun y => row.any fun d => d.y == y
  let one := xs.flatMap fun x => ys.filterMap fun y =>
    if inCol x || inRow y then none
    else (detourOf s x y).map fun d => { escape := d.1, port := d.2, kind := 0, x := x, y := y : Detour }
  let l := col ++ row ++ one
  (l.take 256, decide (256 < l.length))

/-- The egress of a packet by the detour table, then dimension order; none when the destination is unreachable or this device. -/
def egress (s : State) (dst : BitVec 16) : Option (Nat × Bool) :=
  let x := callX dst
  let y := callY dst
  match s.fab.detours.find? fun d =>
    (d.kind == 0 && d.x == x && d.y == y) || (d.kind == 1 && d.x == x) || (d.kind == 2 && d.y == y) with
  | some d => some (d.port, d.escape)
  | none =>
    match wayTo s x y with
    | .straight n => some (n, false)
    | _ => none

/-- The class of a packet that leaves by a port: escape is 2 and stays 2; a turn into Y returns to 0; crossing a dateline makes
it 1 (R368). `inY` says that the packet already moves in Y. -/
def nextClass (s : State) (cls n : Nat) (escape inY : Bool) : Nat :=
  if cls = 2 || escape then 2
  else
    let cls := if decide (2 ≤ n) && !inY then 0 else cls
    let x := callX s.fab.call
    let y := callY s.fab.call
    let cross := match n with
      | 0 => x + 1 == s.fab.sx
      | 1 => x == 0
      | 2 => y + 1 == s.fab.sy
      | _ => y == 0
    if cross then 1 else cls

/-! ### The bytes of a packet (R7, R362, Table 14.2) -/

/-- Header bytes [27:0] of Table 14.2, every field little-endian. -/
def headerBytes (p : Packet) : List Byte :=
  leBytes 2 p.dst.toNat ++ leBytes 2 p.src.toNat ++ [p.ctrl, p.type, p.ttl, p.rsv7] ++ leBytes 2 p.payload.length ++ leBytes 2 p.txid.toNat
    ++ [p.win, p.rsv13] ++ leBytes 2 p.rlen.toNat ++ leBytes 8 p.offset.toNat ++ leBytes 4 p.pcrc.toNat

/-- The bytes of a packet on the link: the 32-byte header and the payload. -/
def packetBytes (p : Packet) : List Byte := headerBytes p ++ leBytes 4 p.hcrc.toNat ++ p.payload

/-- PCRC of a payload: 0 when there is none. -/
def payloadCrc (b : List Byte) : Word := if b.isEmpty then 0 else BitVec.ofNat 32 (crc32c b)

/-- HCRC is right. -/
def hcrcOk (p : Packet) : Bool := p.hcrc == BitVec.ofNat 32 (crc32c (headerBytes p))
/-- PCRC is right. -/
def pcrcOk (p : Packet) : Bool := p.pcrc == payloadCrc p.payload

/-- The packet with the HCRC of its header. -/
def sealed (p : Packet) : Packet := { p with hcrc := BitVec.ofNat 32 (crc32c (headerBytes p)) }

/-- The CTRL byte of a VC and class (Table 14.2). -/
def ctrlByte (vc cls : Nat) : Byte := BitVec.ofNat 8 (vc + 4 * cls)

/-- A packet that this device originates, before its route is chosen: TTL 64, no reserved bit, CRCs right. -/
def ownPacket (s : State) (dst : BitVec 16) (type vc : Nat) (txid win rlen : Nat) (offset : Nat) (payload : List Byte) : Packet :=
  sealed { dst := dst, src := s.fab.call, ctrl := ctrlByte vc 0, type := BitVec.ofNat 8 type, ttl := 64, rsv7 := 0,
           txid := BitVec.ofNat 16 txid, win := BitVec.ofNat 8 win, rsv13 := 0, rlen := BitVec.ofNat 16 rlen,
           offset := BitVec.ofNat 64 offset, pcrc := payloadCrc payload, hcrc := 0, payload := payload }

/-! ### Buffer credits (R371, R372, Table 14.5) -/

/-- The buffer a packet takes at the next device: 4 * VC + CLASS. -/
def bufferOf (p : Packet) : Nat := 4 * (p.ctrl.toNat % 4) + p.ctrl.toNat / 4 % 4

/-- Size of a buffer of Table 14.5, in 64-byte units: 1 KiB for VC0 and VC1, 8 KiB for VC2 and VC3. -/
def bufferUnits (b : Nat) : Nat := if b < 8 then 16 else 128

/-- The buffer credits a packet needs. -/
def creditsFor (p : Packet) : Nat := ceilDiv (32 + p.payload.length) 64

/-- Credits for the whole packet are held in its buffer behind port n. -/
def hasCredits (s : State) (n : Nat) (p : Packet) : Bool :=
  decide (tget (fabPort s n).used 0 (bufferOf p) + creditsFor p ≤ bufferUnits (bufferOf p))

/-- What waits in a buffer of an input port, in 64-byte units. -/
def occupied (s : State) (input b : Nat) : Nat :=
  ((s.fab.held.filter fun h => h.input == input && bufferOf h.pkt == b).map fun h => creditsFor h.pkt).sum

/-- The input buffer has room for a packet: no sender without credits sends it. Class 3 has no buffer, and its packets are dropped. -/
def roomFor (s : State) (input : Nat) (p : Packet) : Bool :=
  p.ctrl.toNat / 4 % 4 == 3 || decide (occupied s input (bufferOf p) + creditsFor p ≤ bufferUnits (bufferOf p))

/-- A held packet as it leaves by port n: in the class of that hop; one of another device with its TTL one less. -/
def leaving (s : State) (h : HeldPacket) (n : Nat) (escape : Bool) : Packet :=
  let p := h.pkt
  if h.input = 4 then sealed { p with ctrl := ctrlByte (p.ctrl.toNat % 4) (nextClass s (p.ctrl.toNat / 4) n escape false) }
  else sealed { p with ttl := p.ttl - 1, ctrl := ctrlByte (p.ctrl.toNat % 4) (nextClass s (p.ctrl.toNat / 4) n escape (decide (2 ≤ h.input))) }

/-- The packets port n could send next, as (place, input, packet): of each input, VC and class the oldest. -/
def headsAt (s : State) (n : Nat) : List (Nat × Nat × Packet) :=
  let l := (List.zip (List.range s.fab.held.length) s.fab.held).filterMap fun x =>
    (x.2.ways.find? fun w => w.1 == n).map fun w => (x.1, x.2.input, leaving s x.2 n w.2)
  l.filter fun x => !(l.any fun y => decide (y.1 < x.1) && y.2.1 == x.2.1 && bufferOf y.2.2 == bufferOf x.2.2)

/-- The order of service: VC0, VC2, VC1, VC3, then class 2, 1, 0, then the inputs in turn (R372). -/
def serviceRank (s : State) (n : Nat) (x : Nat × Nat × Packet) : Nat :=
  let vc := x.2.2.ctrl.toNat % 4
  let at' := if vc = 1 then 2 else if vc = 2 then 1 else vc
  15 * at' + 5 * (3 - x.2.2.ctrl.toNat / 4 % 4) + (x.2.1 + 4 - tget (fabPort s n).turn 4 (bufferOf x.2.2)) % 5

/-- The packet that port n sends next: the first in service whose credits are held. -/
def nextOut (s : State) (n : Nat) : Option (Nat × Nat × Packet) :=
  ((headsAt s n).filter fun x => hasCredits s n x.2.2).foldl
    (fun b x => match b with
      | some y => if serviceRank s n x < serviceRank s n y then some x else some y
      | none => some x) none

/-- A packet goes out on a port and takes its buffer credits; a forwarded one is counted. -/
def putOut (n input : Nat) (p : Packet) (s : State) : State :=
  let s := modPort n (fun f => { f with used := tmod f.used 0 (bufferOf p) (· + creditsFor p), turn := tset f.turn (bufferOf p) input }) s
  let s := { s with fab := { s.fab with out := s.fab.out ++ [(n, p)] } }
  if input = 4 then s else countEv (94 + n) 0x70 1 { s with fab := { s.fab with fwd := satInc s.fab.fwd } }

/-- The held packets when the one at place i has left by port n; it stays while it has another way to go. -/
def leftBy (l : List HeldPacket) (i n : Nat) : List HeldPacket :=
  (List.zip (List.range l.length) l).filterMap fun x =>
    if x.1 != i then some x.2 else
    let w := x.2.ways.filter fun w => w.1 != n
    if w.isEmpty then none else some { x.2 with ways := w }

/-- Port n sends, at most k packets, while one has its credits and the link is up. -/
def servePort (n : Nat) : Nat → State → State
  | 0, s => s
  | k + 1, s =>
    if (fabPort s n).state < 2 then s else
    match nextOut s n with
    | some (i, input, p) => servePort n k (putOut n input p { s with fab := { s.fab with held := leftBy s.fab.held i n } })
    | none => s

/-- Every port sends what it can. -/
def servePorts (s : State) : State := (List.range 4).foldl (fun s n => servePort n s.fab.held.length s) s

/-- A packet is handed to its egress ports. -/
def handOver (input : Nat) (p : Packet) (ways : List (Nat × Bool)) (s : State) : State :=
  if ways.isEmpty then s
  else servePorts { s with fab := { s.fab with held := s.fab.held ++ [{ input := input, pkt := p, ways := ways }] } }

/-- Route a packet of this device; false when its destination is unreachable. -/
def sendOwn (p : Packet) (s : State) : State × Bool :=
  match egress s p.dst with
  | some w => (handOver 4 p [w] s, true)
  | none => (s, false)

/-- The ways of a held packet when links have changed: those whose link is up; a packet for one device is routed again where its link is
not (R381). -/
def waysNow (s : State) (h : HeldPacket) : List (Nat × Bool) :=
  let up := h.ways.filter fun w => decide (2 ≤ (fabPort s w.1).state)
  if h.pkt.dst == 0xFFFF || decide (h.pkt.type.toNat < 0x10) || up.length == h.ways.length then up else (egress s h.pkt.dst).toList

/-- Held packets follow a change of links or routes; one with no way left is gone, and its source times out (R381). -/
def rerouteHeld (s : State) : State :=
  let keep := fun (h : HeldPacket) => if (waysNow s h).isEmpty then none else some { h with ways := waysNow s h }
  servePorts { s with fab := { s.fab with held := s.fab.held.filterMap keep } }

/-! ### Remote access (R375 to R377) -/

/-- The valid IMPORT windows of a context that meet a range of its global share. -/
def importsMeeting (s : State) (ctx : Nat) (lo : Int) (n : Nat) : List (Nat × Window) :=
  s.fab.wins.filter fun w => w.2.valid && !w.2.exported && w.2.ctx == ctx &&
    decide (lo < (w.2.off.toNat + w.2.len : Nat)) && decide ((w.2.off.toNat : Int) < lo + n)

/-- The IMPORT window that holds a whole range. -/
def importHolding (s : State) (ctx : Nat) (lo : Int) (n : Nat) : Option (Nat × Window) :=
  (importsMeeting s ctx lo n).find? fun w => decide ((w.2.off.toNat : Int) ≤ lo) && decide (lo + n ≤ (w.2.off.toNat + w.2.len : Nat))

/-- Pieces of at most 4,096 bytes of a range, as (start, length). -/
def pieces (lo n : Nat) : List (Nat × Nat) :=
  (List.range (ceilDiv n 4096)).map fun i => (lo + 4096 * i, min 4096 (n - 4096 * i))

/-- Queue the packets of a remote access; `mk` gives each its kind, window offset, length, landing address and data. -/
def queueRemotes (e : Env) (w : Window) (l : List (RemoteKind × Nat × Nat × Nat × List Byte)) (s : State) : State :=
  l.foldl (fun s x =>
    let r : Remote := { txid := s.fab.nextTx, core := e.ph, job := e.part.job, part := e.ctx.part, kind := x.1, peer := w.peer,
                        win := w.peerWin, offset := x.2.1, len := x.2.2.1, land := x.2.2.2.1, data := x.2.2.2.2 }
    { s with fab := { s.fab with remotes := s.fab.remotes ++ [r], nextTx := (s.fab.nextTx + 1) % 65536 } }) s

/-- The packet of a remote access. -/
def remotePacket (s : State) (r : Remote) : Packet :=
  match r.kind with
  | .load => ownPacket s r.peer 0x10 1 r.txid r.win r.len r.offset []
  | .store => ownPacket s r.peer 0x11 3 r.txid r.win 0 r.offset r.data
  | .signal => ownPacket s r.peer 0x12 3 r.txid r.win 0 r.offset []

/-- Charge the fabric bytes of a job's context (R298). -/
def chargeFabric (job n : Nat) (s : State) : State :=
  match jobOf s job with
  | some j => charge j.ctx (fun a => { a with fabricBytes := hold64 (a.fabricBytes + n) }) s
  | none => s

/-- Send one queued packet: it takes a link credit, and its payload is charged (R298, R376). -/
def sendRemote (r : Remote) (s : State) : State :=
  let s := chargeFabric r.job r.data.length (sendOwn (remotePacket s r) s).1
  let s := modPart r.part (fun p => { p with credits := p.credits + 1 }) s
  { s with fab := { s.fab with remotes := amend (fun x => x.txid == r.txid) (fun x => { x with sent := true }) s.fab.remotes } }

/-- Send the next group of up to 16 packets of the part on core `ph`: only when no packet of the last group is out, the whole group
finds credits, and its destination is not held (R370, R376). -/
def sendGroup (ph : Nat) (s : State) : State :=
  let mine := s.fab.remotes.filter fun r => r.core == ph
  if mine.any (fun r => r.sent && !r.answered) then s else
  let g := (mine.filter fun r => !r.sent).take 16
  match g with
  | [] => s
  | r :: _ =>
    if s.fab.heldDst.contains r.peer || decide (256 < (partAt s r.part).credits + g.length) then s
    else g.foldl (fun s r => sendRemote r s) s

/-- The remote reads that fetch a range of the import window, in whole 64-byte lines. -/
def loadPieces (w : Window) (lo : Int) (n : Nat) : List (RemoteKind × Nat × Nat × Nat × List Byte) :=
  let a := (lo.toNat - w.off.toNat) / 64 * 64
  let b := ceilDiv (lo.toNat + n - w.off.toNat) 64 * 64
  (pieces a (b - a)).map fun p => (RemoteKind.load, p.1, p.2, w.off.toNat + p.1, [])

/-- The remote writes of a list of byte runs. -/
def storePieces (w : Window) (l : List (Nat × List Byte)) : List (RemoteKind × Nat × Nat × Nat × List Byte) :=
  l.flatMap fun x => (pieces 0 x.2.length).map fun p =>
    (RemoteKind.store, x.1 + p.1 - w.off.toNat, p.2, 0, (x.2.drop p.1).take p.2)

/-- A byte that a finished remote read fetched. -/
def fetchedByte (l : List Remote) (a : Nat) : Byte :=
  match l.find? fun r => decide (r.land ≤ a) && decide (a < r.land + r.len) with
  | some r => r.data.getD (a - r.land) 0
  | none => 0

end Sys2Proof.Machine
end

