-- ==== Sys2Proof/Machine/Tile.lean ====
section
/-! DEFINITION. Machine/Tile.lean: the tile moves TLD, TST, TCP (R141, R142, R158, R159), the halo exchange HXCH with its transfer
and timeout (R97, R98, R143), and the start of a remote access (R375). -/

namespace Sys2Proof.Machine

/-- A reader of the source's space. -/
abbrev Rd := Nat → Byte

/-- A word through a reader. -/
def rdWord (rd : Rd) (a : Nat) : Nat := leNat ((List.range 4).map fun i => rd (a + i))
/-- The bytes of a block through a reader. -/
def rdBlock (rd : Rd) (d : Desc) (b i1 i2 i3 : Nat) : List Byte :=
  (List.range (blockBytes d.fmt)).map fun i => rd (rowAddr d i1 i2 i3 + b * blockBytes d.fmt + i)

/-- The rows of a tensor. -/
def rows (d : Desc) : List (Nat × Nat × Nat) := positions d

/-- The header a copy writes (R142): the destination's tag, SCALE, ZP and CB of the source, a recomputed CRC, inverted where a
contributing source block failed its check or disagrees. -/
def copiedHdr (body tag : Nat) (bad : Bool) : Nat :=
  let h := sealHdr tag body
  if bad then h % 2 ^ 24 + 2 ^ 24 * (255 - h / 2 ^ 24) else h

/-- A copied block: its codes with the tail beyond the destination's extent replaced by the empty-element code (R159). -/
def copiedCodes (cb : List Byte) (d : Desc) (b h : Nat) (code : Nat → Nat) : List Byte :=
  packCodes d.fmt ((List.range 64).map fun i => if 64 * b + i < d.e0 then code i else emptyCode cb d.fmt h)

/-- The writes of a straight copy of a quantised tensor blocked along axis 0. -/
def copyBlocks (cb : List Byte) (rd : Rd) (u : List Upset) (d t : Desc) : List (Nat × List Byte) :=
  (rows d).flatMap fun (i1, i2, i3) => (List.range (rowBlocks d)).flatMap fun b =>
    let n := hdrIndex t b i1 i2 i3
    let m := hdrIndex d b i1 i2 i3
    let h := rdWord rd (hdrAddr t n)
    let bs := rdBlock rd t b i1 i2 i3
    [(rowAddr d i1 i2 i3 + b * blockBytes d.fmt, copiedCodes cb d b h (codeOf d.fmt bs)),
     (hdrAddr d m, leBytes 4 (copiedHdr h (expTag d m) (skewOf h (expTag t n) (countBad u n)).isSome))]

/-- The writes of a corner turn of a quantised tensor (R141, R142, R158). -/
def turnBlocks (cb : List Byte) (rd : Rd) (u : List Upset) (d t : Desc) : List (Nat × List Byte) :=
  (rows d).flatMap fun (i1, i2, i3) => (List.range (rowBlocks d)).flatMap fun b =>
    let m := hdrIndex d b i1 i2 i3
    let sb := i1 / 64
    let src := fun i0 => hdrIndex t sb i2 i0 i3
    let hdr := fun i0 => rdWord rd (hdrAddr t (src i0))
    let is := (List.range (min 64 (d.e0 - 64 * b))).map fun i => 64 * b + i
    let h := hdr (64 * b)
    let bad := is.any fun i => (skewOf (hdr i) (expTag t (src i)) (countBad u (src i))).isSome || hdr i % 65536 != h % 65536
    [(rowAddr d i1 i2 i3 + b * blockBytes d.fmt,
      copiedCodes cb d b h fun i => codeOf d.fmt (rdBlock rd t sb i2 (64 * b + i) i3) (i1 % 64)),
     (hdrAddr d m, leBytes 4 (copiedHdr h (expTag d m) bad))]

/-- The tail of the last blocks of a tensor blocked along axis 3: the rows beyond its extent, each element the empty-element code of its block's
header (R159, R164, log entry 109). -/
def tailRows (cb : List Byte) (rd : Rd) (d t : Desc) : List (Nat × List Byte) :=
  (List.range (laid3 d - d.e3)).flatMap fun k => (List.range (d.e1 * d.e2)).map fun v =>
    let i1 := v % d.e1
    let i2 := v / d.e1
    let i3 := d.e3 + k
    (rowAddr d i1 i2 i3, leBytes (rowBytes d) ((List.range d.e0).foldr (fun i0 a =>
      emptyCode cb d.fmt (rdWord rd (hdrAddr t (hdrIndex3 t i0 i1 i2 (i3 / 64)))) + 2 ^ elemBits d.fmt * a) 0))

/-- The writes of a straight copy whose codes are taken as they lie: formats without headers, and blocks along axis 3. -/
def copyRows (cb : List Byte) (rd : Rd) (u : List Upset) (d t : Desc) : List (Nat × List Byte) :=
  ((rows d).map fun (i1, i2, i3) =>
    (rowAddr d i1 i2 i3, (List.range (rowBytes d)).map fun i => rd (rowAddr t i1 i2 i3 + i))) ++ tailRows cb rd d t ++
  (if quantised d.fmt then (List.range (hdrCount d)).map fun n =>
      let h := rdWord rd (hdrAddr t n)
      (hdrAddr d n, leBytes 4 (copiedHdr h (expTag d n) (skewOf h (expTag t n) (countBad u n)).isSome))
   else [])

/-- The writes of a corner turn of a format without headers. -/
def turnRows (rd : Rd) (d t : Desc) : List (Nat × List Byte) :=
  let w := elemBits d.fmt / 8
  (rows d).map fun (i1, i2, i3) =>
    (rowAddr d i1 i2 i3, (List.range d.e0).flatMap fun i0 =>
      (List.range w).map fun k => rd (rowAddr t i2 i0 i3 + w * i1 + k))

/-- The writes of a copy from t to d (R141, R142). -/
def copyWrites (cb : List Byte) (rd : Rd) (u : List Upset) (turn : Bool) (d t : Desc) : List (Nat × List Byte) :=
  match quantised d.fmt && !d.rax3, turn with
  | true, false => copyBlocks cb rd u d t
  | true, true => turnBlocks cb rd u d t
  | false, false => copyRows cb rd u d t
  | false, true => turnRows rd d t

/-- The shape rule of a copy (R141): one FMT, equal extents, or the corner turn's shape; blocks along one axis. -/
def shapeOk (turn : Bool) (d t : Desc) : Bool :=
  d.fmt == t.fmt && (!quantised d.fmt || d.rax3 == t.rax3) && d.e3 == t.e3 &&
  (if turn then d.e0 == t.e2 && d.e1 == t.e0 && d.e2 == t.e1 && !d.rax3 && !t.rax3
   else d.e0 == t.e0 && d.e1 == t.e1 && d.e2 == t.e2)

/-- Data and header bytes a copy of a tensor moves. -/
def movedBytes (d : Desc) : Nat := (rows d).length * rowBytes d + (if quantised d.fmt then 4 * hdrCount d else 0)

/-- A poisoned DRAM line under a tensor's rows or headers. -/
def tensorPoisoned (s : State) (e : Env) (d : Desc) : Bool :=
  d.glob && ((rows d).any (fun (i1, i2, i3) => rangePoisoned s e (rowAddr d i1 i2 i3) (rowBytes d)) ||
    (quantised d.fmt && rangePoisoned s e (hdrAddr d 0) (4 * hdrCount d)))

/-- The ranges of a tensor's data and headers. -/
def tensorRanges (d : Desc) : List (Int × Nat) :=
  ((d.base : Int), spanBytes d) :: (if quantised d.fmt then [(d.hbase, 4 * hdrCount d)] else [])

/-- How a global tensor lies to the IMPORT windows: clear of them, wholly inside one, or across an edge (R375). -/
inductive Lies where
  | clear
  | inside (w : Window)
  | across

/-- Where a tensor lies. -/
def liesIn (s : State) (e : Env) (d : Desc) : Lies :=
  if !d.glob then .clear
  else if (tensorRanges d).all (fun r => (importsMeeting s e.part.ctx r.1 r.2).isEmpty) then .clear
  else match importHolding s e.part.ctx d.base (spanBytes d) with
    | some w => if (tensorRanges d).all (fun r => ((importHolding s e.part.ctx r.1 r.2).map (·.1)) == some w.1) then .inside w.2 else .across
    | none => .across

/-- ACCESS for a tensor that may not meet an IMPORT window, or meets its edge (R375). -/
def importCheck (s : State) (e : Env) (n : Nat) (d : Desc) (mayBeInside : Bool) : Check :=
  { cause := 0x02, dreg := some n, bad := match liesIn s e d with
      | .clear => false
      | .inside _ => !mayBeInside
      | .across => true }

/-- Charge a copy to its context (R298). -/
def chargeCopy (e : Env) (d t : Desc) (s : State) : State :=
  let n := movedBytes d
  charge e.part.ctx (fun q =>
    { q with carrelBytes := hold64 (q.carrelBytes + n * (b2n (!d.glob) + b2n (!t.glob)))
             stacksBytes := hold64 (q.stacksBytes + n * (b2n d.glob + b2n t.glob)) }) s

/-- The sequencer waits. -/
def holdPart (e : Env) (w : Wait) (s : State) : State :=
  modCore e.ph (fun k => { k with part := k.part.map fun p => { p with wait := w } }) s

/-- Start a remote access; an unreachable peer answers NAK reason 4 at once, which fails it (R369, R378). -/
def startRemote (e : Env) (w : Window) (op : RemoteOp) (l : List (RemoteKind × Nat × Nat × Nat × List Byte)) (s : State) : Verdict :=
  if (egress s w.peer).isNone then .fault { code := 0x04, cause := 0x05, fabric := true } s
  else .hold (sendGroup e.ph (queueRemotes e w l (holdPart e (.remote op) s)))

/-- An uncorrectable archive read invalidates every tile whose slot it met; a slot runs to the next higher one (R225, R229). -/
def archiveLost (e : Env) (t : Desc) (s : State) : State :=
  match e.maps.head?, reusing e.ctx e.part.prog, jobOf s e.part.job with
  | some m, some r, some j =>
    let top := fun (x : ReuseTile) => ((leastBy id ((r.tiles.map (·.slot)).filter fun y => decide (x.slot < y))).getD r.bytes : Nat)
    let met := fun (x : ReuseTile) => (tensorRanges t).any fun q =>
      decide (q.1 < m.1 + top x) && decide (((m.1 + x.slot : Nat) : Int) < q.1 + q.2)
    let gone := (r.tiles.filter fun x => t.glob && met x).map (·.tile)
    modStrm j.stream (fun st => { st with archive := { st.archive with
      valid := st.archive.valid.filter fun v => v.1 != e.part.prog || !gone.contains v.2.1 } }) s
  | _, _, _ => s

/-- The windows' reads of a tensor. -/
def loadsOf (w : Window) (d : Desc) : List (RemoteKind × Nat × Nat × Nat × List Byte) :=
  (tensorRanges d).flatMap fun r => loadPieces w r.1 r.2

/-- A local copy takes effect. -/
def copyNow (e : Env) (u : List Upset) (turn : Bool) (d t : Desc) (s : State) : State :=
  spaceWrites e d.glob (copyWrites e.ctx.codebooks (spaceByte s e t.glob) u turn d t)
    (chargeCopy e d t s)

/-- The checks a tile move shares: both descriptors, then its shape and spaces. A wrong SPACE and quantised descriptors of unlike RAX raise cause
0x09 as a wrong shape does, a choice of the model (log entry 108). -/
def moveChecks (f : Fields) (uses : Uses) (d t : Desc) (spaceBad turn : Bool) : List Check :=
  { cause := 0x02, bad := stray uses f } :: (descChecks f.ad.toNat d ++ descChecks f.aa.toNat t ++
    [{ cause := 0x09, dreg := some f.ad.toNat, bad := spaceBad || !shapeOk turn d t }])

/-- TLD (R141): copies into the carrel, from the global share, the carrel, or a peer's export through an IMPORT window. -/
def execTld (c : Nat) (f : Fields) (u : List Upset) (s : State) : Out :=
  issue c u s fun e s =>
    let d := descOf (areg e.core.regs f.ad)
    let t := descOf (areg e.core.regs f.aa)
    let turn := f.mod.getLsbD 0
    checked (moveChecks f { mod := 1, ad := true, aa := true } d t d.glob turn)
      [accessCheck e f.ad.toNat d, accessCheck e f.aa.toNat t, importCheck s e f.aa.toNat t true] s fun _ =>
    clearOf e (spansOf d true ++ spansOf t false) s fun _ =>
    match liesIn s e t with
    | .inside w => startRemote e w (.load (areg e.core.regs f.ad) (areg e.core.regs f.aa) turn) (loadsOf w t) s
    | _ => if readLost u || tensorPoisoned s e t then memoryFault (archiveLost e t s) else .done (copyNow e u turn d t s)

/-- TST (R141): copies out of the carrel. -/
def execTst (c : Nat) (f : Fields) (u : List Upset) (s : State) : Out :=
  issue c u s fun e s =>
    let d := descOf (areg e.core.regs f.ad)
    let t := descOf (areg e.core.regs f.aa)
    checked (moveChecks f { ad := true, aa := true } d t (!d.glob || t.glob) false)
      [accessCheck e f.ad.toNat d, importCheck s e f.ad.toNat d true, accessCheck e f.aa.toNat t] s fun _ =>
    clearOf e (spansOf t false) s fun _ =>
    if readLost u then memoryFault s else
    match liesIn s e d with
    | .inside w => startRemote e w .store
        (storePieces w (copyWrites e.ctx.codebooks (spaceByte s e false) u false d t)) (chargeCopy e d t s)
    | _ => .done (copyNow e u false d t s)

/-- TCP (R141): copies within one space. -/
def execTcp (c : Nat) (f : Fields) (u : List Upset) (s : State) : Out :=
  issue c u s fun e s =>
    let d := descOf (areg e.core.regs f.ad)
    let t := descOf (areg e.core.regs f.aa)
    checked (moveChecks f { ad := true, aa := true } d t (d.glob != t.glob) false)
      [accessCheck e f.ad.toNat d, importCheck s e f.ad.toNat d false, accessCheck e f.aa.toNat t,
       importCheck s e f.aa.toNat t false] s fun _ =>
    clearOf e (spansOf d true ++ spansOf t false) s fun _ =>
    if readLost u || tensorPoisoned s e t then memoryFault (archiveLost e t s) else .done (copyNow e u false d t s)

/-! ### Halo exchange (R97, R98, R143) -/

/-- The postings of logical core n's core toward a partner, by direction and port, oldest first: those that still wait for their partner's,
or those matched with one. -/
def postedOn (s : State) (n partner port : Nat) (recv paired : Bool) : List Halo :=
  match servedBy s n with
  | none => []
  | some ph => (coreAt s ph).halo.filter fun h => h.partner == partner && h.port == port && h.recv == recv && h.paired == paired && h.fault.isNone

/-- A posting of HXCH, its fields read. -/
def posting (e : Env) (f : Fields) : Halo where
  pc := e.core.regs.pc
  partner := f.xf.toNat % 4
  port := bits f.xf.toNat 2 2
  recv := f.mod.getLsbD 0
  desc := areg e.core.regs f.ad

/-- Two ends of a halo pair agree in FMT and extents (R143). -/
def haloAgrees (a b : BitVec 256) : Bool :=
  let d := descOf a
  let t := descOf b
  t.fmt == d.fmt && t.e0 == d.e0 && t.e1 == d.e1 && t.e2 == d.e2 && t.e3 == d.e3

/-- A posting of logical core n is matched with its partner's. -/
def pairHalo (n : Nat) (g : Halo) (s : State) : State :=
  match servedBy s n with
  | none => s
  | some ph => modCore ph (fun k => { k with halo := amendFirst (fun x => x == g) (fun x => { x with paired := true }) k.halo }) s

/-- HXCH (R97, R143): posts a send or a receive and goes on; the transfer runs in the tile-move queue. Two ends that disagree in FMT
or extents both end with cause 0x0D, and nothing lands. -/
def execHxch (c : Nat) (w : Fetched) (s : State) : Out :=
  let f := w.fields
  issue c w.upsets s fun e s =>
    let h := posting e f
    let d := descOf h.desc
    checked ({ cause := 0x02, bad := stray { mod := 1, ad := true, xf := 7 } f } :: (descChecks f.ad.toNat d ++
        [{ cause := 0x09, dreg := some f.ad.toNat, bad := d.glob }, { cause := 0x0D, bad := h.partner == c % 4 }])) [accessCheck e f.ad.toNat d] s fun _ =>
    clearOf e (spansOf d h.recv) s fun _ =>
    let post := fun (h : Halo) => modCore e.ph (fun k => { k with halo := k.halo ++ [h] })
    let q := 4 * (c / 4) + h.partner
    match postedOn s q (c % 4) h.port (!h.recv) false with
    | [] => .done (post h s)
    | g :: _ =>
      if haloAgrees h.desc g.desc then .done (pairHalo q g (post { h with paired := true } s))
      else .fault { code := 0x01, cause := 0x0D, dreg := some f.ad.toNat } (failHalo q g 0x01 0x0D s)

/-- A queued HXCH leaves its core's queue. -/
def unpost (ph : Nat) (h : Halo) (s : State) : State :=
  modCore ph (fun k => { k with halo := k.halo.erase h }) s

/-- The writes of a halo landing: the data range, and the header range of a quantised tensor, verbatim (R143). -/
def haloWrites (rd : Rd) (d t : Desc) : List (Nat × List Byte) :=
  ((rows d).map fun (i1, i2, i3) =>
    (rowAddr d i1 i2 i3, (List.range (rowBytes d)).map fun i => rd (rowAddr t i1 i2 i3 + i))) ++
  (if quantised d.fmt then [(hdrAddr d 0, (List.range (4 * hdrCount d)).map fun i => rd (hdrAddr t 0 + i))] else [])

/-- HALO_TRANSFER_DONE (R97): the transfer of sender c's port lands carrel to carrel and both HXCH complete. An uncorrectable read
faults the sender with MEMORY. -/
def execHaloTransferDone (c : Nat) (port : Nat) (u : List Upset) (s : State) : Out :=
  .next (match waitingEnv s c with
    | none => s
    | some e =>
      match e.core.halo.find? fun h => h.port == port && !h.recv && h.paired && h.fault.isNone with
      | none => s
      | some h =>
        let p := 4 * (c / 4) + h.partner
        match (postedOn s p (c % 4) port true true).head?, waitingEnv s p with
        | some g, some ep =>
          if readLost u then failHalo c h 0x04 0x05 s else
          let d := descOf g.desc
          let s := spaceWrites ep false (haloWrites (spaceByte s e false) d (descOf h.desc)) (noteCorrected c e.ph u s)
          let s := charge e.part.ctx (fun a => { a with carrelBytes := hold64 (a.carrelBytes + 2 * movedBytes d) }) s
          settlePart p (settlePart c (unpost ep.ph g (unpost e.ph h s)))
        | _, _ => s)

/-- HALO_TIMEOUT (R98, R143): a posting on core c whose partner has not issued ends with HALO_TIMEOUT, its channel is torn down and
nothing lands. Where the partner issued in the same arbitration, a timeout that wins ends both sides so, and one that loses is not reported
and the transfer proceeds. -/
def execHaloTimeout (c : Nat) (port : Nat) (w : HaloEnd) (s : State) : Out :=
  let recv := w.recv
  .next (match waitingEnv s c with
    | none => s
    | some e =>
      let mine := e.core.halo.filter fun h => h.port == port && h.recv == recv && h.fault.isNone
      match mine.find? fun h => !h.paired with
      | some h => failHalo c h 0x05 0x00 s
      | none =>
        match w.race, mine.getLast? with
        | true, some h =>
          let p := 4 * (c / 4) + h.partner
          match (postedOn s p (c % 4) port (!recv) true).getLast? with
          | some g => failHalo c h 0x05 0x00 (failHalo p g 0x05 0x00 s)
          | none => s
        | _, _ => s)

end Sys2Proof.Machine
end

