-- ==== Sys2Proof/Machine/Array.lean ====
section
/-! DEFINITION. Machine/Array.lean: the array instructions WLD, MMA, MMAT, ACLR, ADRN (R63 to R86, R144 to R147) and the checking
instructions PROOF and RSDCHK (R153, R410). -/

namespace Sys2Proof.Machine

/-! ### Rows of accumulators -/

/-- A row of 512 binary32 values given by column. -/
def rowOf (f : Nat → Nat) : BitVec 16384 :=
  BitVec.ofNat 16384 ((List.range 512).foldr (fun j a => f j % 2 ^ 32 + 2 ^ 32 * a) 0)

/-- A row of 512 entry states given by column. -/
def statesOf (f : Nat → Nat) : BitVec 1536 :=
  BitVec.ofNat 1536 ((List.range 512).foldr (fun j a => f j % 8 + 8 * a) 0)

/-- Add into one entry: each column's products in turn, its state joined with the cause the accumulation carries (R45, R58, R59);
a column without products keeps its value, and columns outside `touched` are not written. -/
def accumulate (n : Nat) (touched : Nat → Bool) (products : Nat → List Nat) (cause : Nat → Nat) (e : Engine) : Engine :=
  let v := tget e.acc 0 n
  let t := tget e.accState 0 n
  sealEntry n { e with
      acc := tset e.acc n (rowOf fun j => if touched j then (products j).foldl (fadd fmt32) (colVal v j) else colVal v j)
      accState := tset e.accState n (statesOf fun j => if touched j then joinState (colState t j) (cause j) else colState t j) }

/-- The engines that a mask names. -/
def engines (mask : Nat) : List Nat := (List.range 2).filter fun n => nbit mask n

/-- Clear a physical bank: +0.0 and CLEAN (R77). -/
def clearBank (b : Nat) (e : Engine) : Engine :=
  let other := fun n : Nat => n / 128 != b
  { e with acc := e.acc.filter (fun p => other p.1), accState := e.accState.filter (fun p => other p.1)
           accCheck := e.accCheck.filter (fun p => other p.1) }

/-- Charge n carrel bytes to the running context (R298). -/
def chargeCarrel (e : Env) (n : Nat) (s : State) : State :=
  charge e.part.ctx (fun q => { q with carrelBytes := hold64 (q.carrelBytes + n) }) s

/-- The physical accumulator entry of a program's entry: the residency's banks begin at its first (R281). -/
def physEntry (e : Env) (n : Nat) : Nat := 128 * e.res.bankBase + n

/-! ### Upsets (R80, R86) -/

/-- Accumulator errors that the instruction's reads of engine n meet: the entry turns to MEMORY (R80). -/
def accUpsets (u : List Upset) (n : Nat) (e : Engine) : Engine :=
  u.foldl (fun e x => match x with
    | .accumulator g entry col => if g = n && decide (entry < 512) && decide (col < 512) then poisonCols e entry [col] 5 else e
    | _ => e) e

/-- Residue faults at these columns: each condemns its half, or under MMAT the whole engine (R83, R86). -/
def condemnAt (whole : Bool) (cols : List Nat) (e : Engine) : Engine :=
  cols.foldl (fun e col => if whole then { condemn { e with split := false } col with split := e.split } else condemn e col) e

/-- The columns of engine n whose residue network is upset. -/
def netUpsets (u : List Upset) (n : Nat) : List Nat :=
  u.filterMap fun x => match x with | .residue g _ col => if g = n && decide (col < 512) then some col else none | _ => none

/-- Columns with an upset residue network in the engines named. -/
def residueCount (u : List Upset) (mask : Nat) : Nat := ((engines mask).map fun n => (netUpsets u n).length).sum

/-- An error in the scaled sum of one block pair (R49). -/
structure Glitch where
  sum : Int := 0
  sig : Int := 0
  exp : Int := 0
  deriving DecidableEq, Repr

/-- What the upsets of an instruction do to the block pair of a vector, column and block of engine n. -/
def glitchOf (u : List Upset) (n v j b : Nat) : Glitch :=
  u.foldl (fun g x => match x with
    | .blockSum e v' j' b' err => if e = n ∧ v' = v ∧ j' = j ∧ b' = b then { g with sum := g.sum + err } else g
    | .scaleProduct e v' j' b' sig exp =>
      if e = n ∧ v' = v ∧ j' = j ∧ b' = b then { g with sig := g.sig + sig, exp := g.exp + exp } else g
    | _ => g) {}

/-- Upsets of stored weights: a bit of a cell flips, and its residue store does not know (R65). -/
def weightUpsets (u : List Upset) (n : Nat) (e : Engine) : Engine :=
  u.foldl (fun e x => match x with
    | .weight g j k bit =>
      let w := elemBits (halfOf e (halfOfCol e j)).fmt
      if g = n ∧ bit < w then
        { e with tile := e.tile.map fun p =>
          if p.1 = 8 * j + k / 64 then (p.1, { p.2 with codes := p.2.codes ^^^ BitVec.twoPow 512 (w * (k % 64) + bit) }) else p }
      else e
    | _ => e) e

/-- The engine as the upsets of an instruction leave it before its first vector. -/
def upsetEngine (u : List Upset) (n : Nat) (e : Engine) : Engine := weightUpsets u n (accUpsets u n e)

/-! ### Fed operands and residues (R43, R49) -/

/-- One operand as a pass takes it: the weight of the pass in the block sum, the operand, and its residue modulo 7. -/
structure Feed where
  w : Nat := 1
  op : Int := 0
  res : Nat := 0
  deriving DecidableEq, Repr

/-- x mod 7 in the range 0 to 6 (R49). -/
def res7 (x : Int) : Nat := (x % 7).toNat

/-- The loader's residue of a code less a zero point, r(c) - r(z) (R49). -/
def resDiff (c z : Nat) : Nat := (c % 7 + 7 - z % 7) % 7

/-- What a code feeds to the passes, one operand a pass, each with the residue that the loader forms apart from it: an A8 code as its two
nibble differences (R43, R49, R64). -/
def feedsOf (cb : List Byte) (fmt h c : Nat) : List Feed :=
  let z := zeroPoint fmt h
  match fmt with
  | 6 => [{ w := 16, op := ((c / 16 : Nat) : Int) - (z / 16 : Nat), res := resDiff (c / 16) (z / 16) },
          { w := 1, op := ((c % 16 : Nat) : Int) - (z % 16 : Nat), res := resDiff (c % 16) (z % 16) }]
  | 0 | 3 => [{ op := fed cb fmt h c, res := resDiff c z }]
  | _ => [{ op := fed cb fmt h c, res := res7 (fed cb fmt h c) }]

/-- The value that the passes of an operand add up to. -/
def feedVal (l : List Feed) : Int := (l.map fun p => (p.w : Int) * p.op).sum

/-- The residue store beside 64 cells: three bits an operand, the low nibble of an A8 operand at 64 and up; rows at or beyond the depth hold 0
(R65, R72). -/
def storeResidues (cb : List Byte) (fmt h : Nat) (live : Nat) (code : Nat → Nat) : BitVec 384 :=
  BitVec.ofNat 384 ((List.range 128).foldr (fun i a =>
    (if i % 64 < live then (((feedsOf cb fmt h (code (i % 64)))[i / 64]?).map (·.res)).getD 0 else 0) + 8 * a) 0)

/-- Change the engines that a mask names. -/
def onEngines (mask : Nat) (f : Nat → Engine → Engine) (k : Core) : Core :=
  (engines mask).foldl (fun k n => modEng n (f n) k) k

/-! ### WLD (R68, R69, R72, R74, R82, R84, R145) -/

/-- The header index of block b of column j of a weight tile. -/
def weightIndex (d : Desc) (j b : Nat) : Nat := if d.sq then sqIndex d b (j / 64) else hdrIndex d b j 0 0

/-- The headers of a weight tile. -/
def weightHdrs (d : Desc) : Nat := if d.sq then rowBlocks d * ceilDiv d.e1 64 else hdrCount d

/-- The cause of block b of column j, 0 when it is accepted. -/
def weightSkew (s : State) (e : Env) (u : List Upset) (d : Desc) (j b : Nat) : Nat :=
  let n := weightIndex d j b
  (skewOf (hdrAt s e d n) (expTag d n) (countBad u n)).getD 0

/-- The cause of a column: the first of its skewed blocks (R69, R76). -/
def weightCause (s : State) (e : Env) (u : List Upset) (d : Desc) (j : Nat) : Nat :=
  (List.range (rowBlocks d)).foldl (fun a b => joinState a (weightSkew s e u d j b)) 0

/-- One block of a tile: a skewed block is not fed, an empty one is not fetched and feeds zero, and the residue store is formed by the loader
(R36, R49, R58, R65). -/
def weightBlock (s : State) (e : Env) (u : List Upset) (d : Desc) (j b : Nat) : WBlock :=
  let h := hdrAt s e d (weightIndex d j b)
  if weightSkew s e u d j b != 0 then { hdr := 0, codes := 0 }
  else if emptyHdr h then { hdr := BitVec.ofNat 32 h, codes := 0 }
  else
    let bs := blockAt s e d b j 0 0
    { hdr := BitVec.ofNat 32 h, codes := BitVec.ofNat 512 (leNat bs)
      residues := storeResidues e.ctx.codebooks d.fmt h (d.e0 - 64 * b) (codeOf d.fmt bs) }

/-- The blocks of a tile loaded at column `at0`. -/
def weightTile (s : State) (e : Env) (u : List Upset) (d : Desc) (at0 : Nat) : Tab WBlock :=
  (List.range d.e1).flatMap fun j => (List.range (rowBlocks d)).map fun b => (8 * (at0 + j) + b, weightBlock s e u d j b)

/-- The data bytes that the loader fetches for a tile: an empty block's are not (R36). -/
def weightFetched (s : State) (e : Env) (d : Desc) : Nat :=
  ((List.range d.e1).map fun j => ((List.range (rowBlocks d)).filter fun b =>
    !emptyHdr (hdrAt s e d (weightIndex d j b))).length * blockBytes d.fmt).sum

/-- The shape rules of R145. -/
def weightShapeBad (d : Desc) (half : Nat) : Bool :=
  d.glob || d.rax3 || !quantised d.fmt || d.e2 != 1 || d.e3 != 1 || decide (depthCap d.fmt < d.e0)
    || decide ((if half = 0 then 512 else 256) < d.e1)
    || (d.sq && (decide (2 < d.fmt) || half != 0 || d.e0 != 128))

/-- The engine after a load: the tile of the whole engine or of one half (R145). -/
def loadTile (half : Nat) (d : Desc) (tile : Tab WBlock) (cause : Nat → Nat) (e : Engine) : Engine :=
  let h : Half := { loaded := true, fmt := d.fmt, depth := d.e0, width := d.e1, tscale := BitVec.ofNat 32 d.tscale }
  let h0 := { h with condemned := e.h0.condemned }
  let h1 := { h with condemned := e.h1.condemned }
  let lost := fun (o : Half) => if e.split then o else { ({} : Half) with condemned := o.condemned }
  let js := halfCols half
  let e := { e with colPoison := setStates e.colPoison js fun j => cause (if half = 2 then j - 256 else j) }
  match half with
  | 1 => { e with h0 := h0, h1 := lost e.h1, split := true, square := false,
                  tile := tile ++ e.tile.filter fun p => decide (2048 ≤ p.1) }
  | 2 => { e with h0 := lost e.h0, h1 := h1, split := true, square := false,
                  tile := (e.tile.filter fun p => decide (p.1 < 2048)) ++ tile }
  | _ => { e with h0 := h0, h1 := h1, split := false, square := d.sq, tile := tile }

/-- The skewed blocks of a weight tile: cause, column and block; a square block stands for its 64 columns. -/
def weightSkews (s : State) (e : Env) (u : List Upset) (d : Desc) : List (Nat × Nat × Nat) :=
  let js := if d.sq then (List.range (ceilDiv d.e1 64)).map (64 * ·) else List.range d.e1
  (js.flatMap fun j => (List.range (rowBlocks d)).map fun b => (weightSkew s e u d j b, j, b)).filter fun x => x.1 != 0

/-- Every skew is counted in the core's counters and logged as a C1 event when the pairing stage records it, with its cause and place; the drain
that meets it later logs none of its own unless it raises C2 (R58, R61, log entry 103). -/
def noteSkews (e : Env) (l : List (Nat × Nat × Nat)) (s : State) : State :=
  l.foldl (fun s x =>
    emit { cls := 1, source := 0x01, unit := some e.c, stream := (jobOf s e.part.job).map (·.stream), ctx := some e.part.ctx,
           frame := (jobOf s e.part.job).bind fun j => (frameOf s j.stream j.frame).bind (·.num), code := 0x03,
           detail := [0x03 + 256 * x.1, e.core.regs.pc, x.2.1, x.2.2] } s) (if l.isEmpty then s else countEv e.ph 0x19 l.length s)

/-- WLD: loads a weight tile into one engine or one half of it. -/
def execWld (c : Nat) (f : Fields) (u : List Upset) (s : State) : Out :=
  issue c u s fun e s =>
    let x := f.xf.toNat
    let eng := x % 4
    let half := bits x 3 2
    let d := descOf (areg e.core.regs f.ad)
    checked ({ cause := 0x02, bad := stray { ad := true, xf := 0xF } f } :: { cause := 0x05, bad := !(eng == 1 || eng == 2) || half == 3 }
        :: (descChecks f.ad.toNat d ++ [{ cause := 0x09, dreg := some f.ad.toNat, bad := weightShapeBad d half }]))
      [{ cause := 0x01, dreg := some f.ad.toNat,
         bad := !(inShare e false d.base (spanBytes d) && inShare e false d.hbase (4 * weightHdrs d)) }] s fun _ =>
    clearOf e [{ lo := d.base, n := spanBytes d, wr := false }, { lo := d.hbase, n := 4 * weightHdrs d, wr := false }] s fun _ =>
    if readLost u then memoryFault s else
    let tile := weightTile s e u d (if half = 2 then 256 else 0)
    let s' := modCore e.ph (modEng (eng - 1) (loadTile half d tile fun j => if j < d.e1 then weightCause s e u d j else 0)) s
    .done (countEv e.ph 0x13 128 (noteSkews e (weightSkews s e u d) (chargeCarrel e (weightFetched s e d + 4 * weightHdrs d) s')))

/-! ### Activation vectors (R71, R73, R111, R146) -/

/-- One activation block as the pairing stage feeds it: its header, its 64 operands with their residues, the cause when it is skewed, and
whether its data was fetched. -/
structure ABlock where
  h : Nat
  ops : List (List Feed)
  cause : Nat := 0
  fetched : Bool := true
  deriving DecidableEq, Repr

/-- Block b of the activation row (i1, i2, i3). -/
def actBlock (s : State) (e : Env) (u : List Upset) (d : Desc) (b i1 i2 i3 : Nat) : ABlock :=
  let n := hdrIndex d b i1 i2 i3
  let h := hdrAt s e d n
  match skewOf h (expTag d n) (countBad u n) with
  | some k => { h := 0, ops := [], cause := k }
  | none =>
    if emptyHdr h then { h := h, ops := [], fetched := false } else
    let bs := blockAt s e d b i1 i2 i3
    { h := h, ops := (List.range 64).map fun i => feedsOf e.ctx.codebooks d.fmt h (codeOf d.fmt bs i) }

/-- The padded block of constant mode: scale 1.0, PCONST in every position (Table 4.4). -/
def constBlock (d : Desc) : ABlock :=
  { h := 0x78, ops := List.replicate 64 [{ op := d.pconst, res := res7 d.pconst }], fetched := false }

/-- The blocks of the activation row (i1, i2, i3). -/
def actRow (s : State) (e : Env) (u : List Upset) (d : Desc) (i1 i2 i3 : Nat) : List ABlock :=
  (List.range (rowBlocks d)).map fun b => actBlock s e u d b i1 i2 i3

/-- Where a position on an axis of extent n is read: its index, or none in padding without a source (Table 4.4). -/
def padIndex (mode n : Nat) (u : Int) : Option Nat :=
  if 0 ≤ u ∧ u < n then some u.toNat
  else match mode with
    | 2 =>
      if n ≤ 1 then some 0 else
      let m := (u % ((2 * n - 2 : Nat) : Int)).toNat
      some (if m < n then m else 2 * n - 2 - m)
    | 3 => some (if u < 0 then 0 else n - 1)
    | _ => none

/-- What a vector reads: a row of the tensor, constant padding, or nothing, in which case it is not issued. -/
inductive VecSrc where
  | row (i1 i2 i3 : Nat)
  | const
  | skipped
  deriving DecidableEq, Repr

/-- The vectors of an MMA in order: entry v of the list accumulates into ENT0 + v (R146). -/
def vectors (d : Desc) (win : Bool) (imm : BitVec 64) : List VecSrc :=
  if !win then (positions d).map fun p => .row p.1 p.2.1 p.2.2 else
  let i := imm.toNat
  let ow := bits i 31 16
  let oh := bits i 47 32
  let ti := bits i 15 8
  let tj := bits i 7 0
  (List.range (ow * oh)).map fun v =>
    let x := v % ow
    let y := v / ow
    let p := padIndex d.pad d.e1 (((x * d.cs1 + tj * d.dl1 : Nat) : Int) - d.pb1)
    let q := padIndex d.pad d.e2 (((y * d.cs2 + ti * d.dl2 : Nat) : Int) - d.pb2)
    match p, q with
    | some a, some b => .row a b 0
    | _, _ => if d.pad = 1 then .const else .skipped

/-- The blocks a vector feeds. -/
def vecBlocks (s : State) (e : Env) (u : List Upset) (d : Desc) : VecSrc → List ABlock
  | .row a b k => actRow s e u d a b k
  | .const => List.replicate (rowBlocks d) (constBlock d)
  | .skipped => []

/-- The bytes a vector's row touches lie in the share. -/
def vecInShare (e : Env) (d : Desc) : VecSrc → Bool
  | .row a b k => inShare e false (rowAddr d a b k) (rowBytes d)
      && inShare e false (hdrAddr d (hdrIndex d 0 a b k)) (4 * rowBlocks d) && decide (0 ≤ d.hbase)
  | _ => true

/-! ### Block products (R43, R44) -/

/-- What a weight block feeds at row i of it: the cells' operand, zero at or beyond the depth, and the residue store's residue (R65, R72). -/
def weightFeed (cb : List Byte) (h : Half) (b : Nat) (w : WBlock) (i : Nat) : List Feed :=
  let l := feedsOf cb h.fmt w.hdr.toNat (w.codes.toNat / 2 ^ (elemBits h.fmt * i) % 2 ^ elemBits h.fmt)
  (List.range l.length).map fun p =>
    { w := (l.getD p {}).w, op := if 64 * b + i < h.depth then (l.getD p {}).op else 0
      res := w.residues.toNat / 2 ^ (3 * (64 * p + i)) % 8 }

/-- The passes of a block pair: the weight of each in the block sum, its sum of 64 products, and what the residue network finds for it (R43, R49,
R64). -/
def passesOf (a w : List (List Feed)) : List (Int × Int × Nat) :=
  let at' := fun (l : List (List Feed)) (i p : Nat) => ((l.getD i []).getD p {} : Feed)
  (List.range (a.headD []).length).flatMap fun p => (List.range (w.headD []).length).map fun q =>
    let l := (List.range 64).map fun i => (at' a i p, at' w i q)
    ((((at' a 0 p).w * (at' w 0 q).w : Nat) : Int), (l.map fun x => x.1.op * x.2.op).sum, (l.map fun x => x.1.res * x.2.res).sum % 7)

/-- The block pair is fed: neither block is empty or skewed (R36, R58). -/
def pairFed (a : ABlock) (hw : Nat) : Bool := !(a.cause != 0 || emptyHdr a.h || emptyHdr hw)

/-- The scaled product of a block sum: sum * (8 + ma)(8 + mw) * 2^((ea - 15) + (ew - 15) - 6), rounded once to binary32. -/
def scaledProduct (ha hw : Nat) (sum : Int) (g : Glitch := {}) : Nat :=
  let p := sum * (((scaleSig ha * scaleSig hw : Nat) : Int) + g.sig)
  fpack fmt32 (decide (p < 0)) p.natAbs (((scaleExp ha + scaleExp hw : Nat) : Int) + g.exp - 36)

/-- The product of a block pair; a pair with an empty or unfed block contributes exactly zero (R36, R58). -/
def pairProduct (a : ABlock) (hw : Nat) (w : List (List Feed)) (g : Glitch := {}) : Nat :=
  if pairFed a hw then scaledProduct a.h hw (((passesOf a.ops w).map fun p => p.1 * p.2.1).sum + g.sum) g else 0

/-- The residue network disagrees on a fed block pair: with a pass's block sum, with the significand product, or one exponent sum with the other
(R49). An error of the sum lies in the last pass. -/
def pairBad (a : ABlock) (hw : Nat) (w : List (List Feed)) (g : Glitch) : Bool :=
  let l := passesOf a.ops w
  pairFed a hw &&
    (((List.range l.length).any fun i =>
        let p := l.getD i (0, 0, 0)
        res7 (p.2.1 + if i + 1 = l.length then g.sum else 0) != p.2.2)
      || res7 (((scaleSig a.h * scaleSig hw : Nat) : Int) + g.sig) != scaleSig a.h % 7 * (scaleSig hw % 7) % 7
      || ((scaleExp a.h + scaleExp hw : Nat) : Int) + g.exp != ((scaleExp a.h + scaleExp hw : Nat) : Int))

/-- What a block of column j feeds: its header and its 64 rows. -/
def columnFeed (cb : List Byte) (g : Engine) (j b : Nat) : Option (Nat × List (List Feed)) :=
  (tfind g.tile (8 * j + b)).map fun w => (w.hdr.toNat, (List.range 64).map (weightFeed cb (halfOf g (halfOfCol g j)) b w))

/-- The block products of a column for a vector, by what its blocks feed. -/
def productsOf (feed : Nat → Option (Nat × List (List Feed))) (gl : Nat → Glitch) (as : List ABlock) : List Nat :=
  (List.range as.length).map fun b =>
    match as[b]?, feed b with
    | some a, some w => pairProduct a w.1 w.2 (gl b)
    | _, _ => 0

/-- How many blocks of a column fail their residue check for a vector. -/
def badPairs (feed : Nat → Option (Nat × List (List Feed))) (gl : Nat → Glitch) (as : List ABlock) : Nat :=
  ((List.range as.length).filter fun b =>
    match as[b]?, feed b with
    | some a, some w => pairBad a w.1 w.2 (gl b)
    | _, _ => false).length

/-- The columns of `cols` that fail for a list of vectors, once for each failing block. -/
def failing (feed : Nat → Nat → Option (Nat × List (List Feed))) (u : List Upset) (eng : Nat) (vecs : List (List ABlock)) (cols : Nat) : List Nat :=
  (List.range vecs.length).flatMap fun v => (List.range cols).flatMap fun j =>
    List.replicate (badPairs (feed j) (glitchOf u eng v j) (vecs.getD v [])) j

/-- The products in the order in which the hardware adds them, which the spec leaves open (R46): ordered by the free values from
index k on. -/
def openOrder (s : State) (k : Nat) (l : List Nat) : List Nat :=
  (sortBy (fun p => p.1) ((List.range l.length).map fun i => ((freeBits s (k + i) 64).toNat, l.getD i 0))).map (·.2)

/-- The cause of an activation vector: its first skewed block. -/
def vecCause (as : List ABlock) : Nat := as.foldl (fun c a => joinState c a.cause) 0

/-- One vector on one engine of an MMA: entry `n`; free values are drawn from index k on. -/
def mmaVector (s : State) (e : Env) (n k : Nat) (gl : Nat → Nat → Glitch) (as : List ABlock) (g : Engine) : Engine :=
  accumulate n (fun _ => true) (fun j => openOrder s (k + 8 * j) (productsOf (columnFeed e.ctx.codebooks g j) (gl j) as))
    (fun j => joinState (vecCause as) (columnCause g j)) g

/-- The residue faults of an MMA on one engine, by column. -/
def mmaFaults (s : State) (e : Env) (u : List Upset) (d : Desc) (vs : List VecSrc) (eng : Nat) (g : Engine) : List Nat :=
  failing (columnFeed e.ctx.codebooks (upsetEngine u eng g)) u eng (vs.map (vecBlocks s e u d)) 512 ++ netUpsets u eng

/-- Every vector of an MMA on one engine; a residue fault condemns its half or the engine (R86). -/
def mmaEngine (s : State) (e : Env) (u : List Upset) (d : Desc) (vs : List VecSrc) (ent0 eng : Nat) (g : Engine) : Engine :=
  condemnAt false (mmaFaults s e u d vs eng g) ((List.range vs.length).foldl (fun g v =>
    match vs.getD v .skipped with
    | .skipped => g
    | src => mmaVector s e (physEntry e (ent0 + v)) (4096 * (512 * eng + v)) (glitchOf u eng v) (vecBlocks s e u d src) g)
      (upsetEngine u eng g))

/-- The halves an MMA uses on an engine: both of a split engine. -/
def usedHalves (g : Engine) : List Half := if g.split then [g.h0, g.h1] else [g.h0]

/-- The formats and shapes of an MMA do not match on an engine (R85, R146). -/
def mmaBad (d : Desc) (g : Engine) : Bool :=
  (usedHalves g).any fun h => h.loaded &&
    (d.e0 != h.depth || decide (modeDepth (modeOf d.fmt h.fmt) < h.depth) || modeOf d.fmt h.fmt != modeOf d.fmt g.h0.fmt && g.h0.loaded)

/-- An engine has no loaded tile, or a half of it has none (R106, R146). -/
def notLoaded (g : Engine) : Bool := (usedHalves g).any fun h => !h.loaded

/-- Skewed activation blocks of a list of vectors: cause, vector and block. -/
def actSkews (vs : List (List ABlock)) : List (Nat × Nat × Nat) :=
  (List.range vs.length).flatMap fun v => (List.range (vs.getD v []).length).filterMap fun b =>
    match (vs.getD v [])[b]? with
    | some a => if a.cause != 0 then some (a.cause, v, b) else none
    | none => none

/-- The carrel bytes an array instruction fetches: the headers of every vector's row and the data of the blocks that are not empty; constant
padding is no fetch (R36). -/
def actFetched (d : Desc) (vs : List VecSrc) (bs : List (List ABlock)) : Nat :=
  4 * rowBlocks d * (vs.filter fun v => match v with | .row _ _ _ => true | _ => false).length
    + (bs.map fun as => (as.filter (·.fetched)).length * blockBytes d.fmt).sum

/-- Count an array instruction's vectors, residue faults and skews, and charge its reads. -/
def countArray (e : Env) (d : Desc) (mask : Nat) (vs : List VecSrc) (bs : List (List ABlock)) (nres : Nat) (s : State) : State :=
  let issued := (vs.filter (· != .skipped)).length
  let s := chargeCarrel e (actFetched d vs bs) s
  let s := (engines mask).foldl (fun s n => countEv e.ph (0x11 + n) issued s) s
  noteSkews e (actSkews bs) (if nres = 0 then s else countEv e.ph 0x18 nres s)

/-- The IMM bits of an MMA. -/
def mmaImm (win : Bool) : BitVec 64 := if win then 0x01FFFFFFFFFFFFFF else 0x01FF000000000000

/-- MMA: accumulates activation vectors through the loaded tiles of the engines named. -/
def execMma (c : Nat) (f : Fields) (u : List Upset) (s : State) : Out :=
  issue c u s fun e s =>
    let mask := f.xf.toNat % 4
    let win := f.mod.getLsbD 0
    let d := descOf (areg e.core.regs f.aa)
    let ent0 := bits f.imm.toNat 56 48
    let ow := bits f.imm.toNat 31 16
    let oh := bits f.imm.toNat 47 32
    let n := if win then ow * oh else d.e1 * d.e2 * d.e3
    let owBad := win && (ow == 0 || decide (512 < ow) || oh == 0 || decide (512 < oh))
    let gs := (engines mask).map (engAt e.core)
    let vs := if owBad || decide (128 * e.prog.accBanks < ent0 + n) then [] else vectors d win f.imm
    checked ({ cause := 0x02, bad := stray { mod := 1, aa := true, xf := 3, imm := mmaImm win } f }
        :: { cause := 0x05, bad := mask == 0 || owBad }
        :: { cause := 0x07, bad := decide (128 * e.prog.accBanks < ent0 + n) }
        :: (descChecks f.aa.toNat d ++
        [{ cause := 0x09, dreg := some f.aa.toNat,
           bad := d.glob || d.rax3 || !quantised d.fmt || (win && d.e3 != 1) || gs.any (mmaBad d) },
         { cause := 0x0A, bad := gs.any notLoaded }]))
      [{ cause := 0x01, dreg := some f.aa.toNat, bad := !vs.all (vecInShare e d) }] s fun _ =>
    clearOf e (spansOf d false) s fun _ =>
    if readLost u then memoryFault s else
    let nres := ((engines mask).map fun n => (mmaFaults s e u d vs n (engAt e.core n)).length).sum
    let s' := modCore e.ph (onEngines mask (mmaEngine s e u d vs ent0)) s
    .done (useFree (4096 * 1024) (countArray e d mask vs (vs.map (vecBlocks s e u d)) nres s'))

/-! ### MMAT (R81 to R83) -/

/-- What column block b feeds to row r: 64 columns under one square header. -/
def rowFeed (cb : List Byte) (g : Engine) (r b : Nat) : Option (Nat × List (List Feed)) :=
  (tfind g.tile (8 * (64 * b) + r / 64)).map fun w0 => (w0.hdr.toNat, (List.range 64).map fun i =>
    match tfind g.tile (8 * (64 * b + i) + r / 64) with
    | some w => weightFeed cb g.h0 (r / 64) w (r % 64)
    | none => [{}])

/-- The cause a transposed accumulation carries: condemnation, else any skewed weight block of the tile, since every row's sum
runs over all columns (log entry 20). -/
def tileCause (g : Engine) : Nat :=
  if g.h0.condemned || g.h1.condemned then 4
  else (List.range 512).foldl (fun a j => joinState a (colState g.colPoison j)) 0

/-- The residue faults of an MMAT, by row. -/
def mmatFaults (s : State) (e : Env) (u : List Upset) (d : Desc) (vs : List VecSrc) (eng : Nat) (g : Engine) : List Nat :=
  failing (rowFeed e.ctx.codebooks (upsetEngine u eng g)) u eng (vs.map (vecBlocks s e u d)) 128 ++ netUpsets u eng

/-- Every vector of an MMAT: row r's sum goes to column r, for r below 128; a residue fault condemns the whole engine (R81, R83). -/
def mmatEngine (s : State) (e : Env) (u : List Upset) (d : Desc) (vs : List VecSrc) (ent0 eng : Nat) (g : Engine) : Engine :=
  condemnAt true (mmatFaults s e u d vs eng g) ((List.range vs.length).foldl (fun g v =>
    let as := vecBlocks s e u d (vs.getD v .skipped)
    accumulate (physEntry e (ent0 + v)) (fun j => decide (j < 128))
      (fun r => openOrder s (4096 * v + 8 * r) (productsOf (rowFeed e.ctx.codebooks g r) (glitchOf u eng v r) as))
      (fun _ => joinState (vecCause as) (tileCause g)) g) (upsetEngine u eng g))

/-- MMAT: the transposed product through a square-block tile. -/
def execMmat (c : Nat) (f : Fields) (u : List Upset) (s : State) : Out :=
  issue c u s fun e s =>
    let mask := f.xf.toNat % 4
    let d := descOf (areg e.core.regs f.aa)
    let ent0 := bits f.imm.toNat 56 48
    let g := engAt e.core (mask - 1)
    let n := d.e1 * d.e2 * d.e3
    let vs := if 128 * e.prog.accBanks < ent0 + n then [] else vectors d false 0
    checked ({ cause := 0x02, bad := stray { aa := true, xf := 3, imm := mmaImm false } f }
        :: { cause := 0x05, bad := !(mask == 1 || mask == 2) }
        :: { cause := 0x07, bad := decide (128 * e.prog.accBanks < ent0 + n) }
        :: (descChecks f.aa.toNat d ++
        [{ cause := 0x09, dreg := some f.aa.toNat, bad := d.glob || d.rax3 || !quantised d.fmt || d.e0 != 512 || g.split
              || (g.h0.loaded && (!g.square || decide (2 < g.h0.fmt))) },
         { cause := 0x0A, bad := notLoaded g }]))
      [{ cause := 0x01, dreg := some f.aa.toNat, bad := !vs.all (vecInShare e d) }] s fun _ =>
    clearOf e (spansOf d false) s fun _ =>
    if readLost u then memoryFault s else
    let nres := ((engines mask).map fun n => (mmatFaults s e u d vs n (engAt e.core n)).length).sum
    let s' := modCore e.ph (onEngines mask (mmatEngine s e u d vs ent0)) s
    .done (useFree (4096 * 512) (countArray e d mask vs (vs.map (vecBlocks s e u d)) nres s'))

/-! ### ACLR (R77) -/

/-- ACLR: clears the program's banks first to last of the engines named. -/
def execAclr (c : Nat) (w : Fetched) (s : State) : Out :=
  let f := w.fields
  issue c w.upsets s fun e s =>
    let x := f.xf.toNat
    let mask := x % 4
    let lo := bits x 3 2
    let hi := bits x 5 4
    checked [{ cause := 0x02, bad := stray { xf := 0x3F } f }, { cause := 0x05, bad := mask == 0 || decide (hi < lo) },
             { cause := 0x07, bad := decide (e.prog.accBanks ≤ hi) }] [] s fun _ =>
      .done (modCore e.ph (onEngines mask fun _ g =>
        (List.range (hi + 1 - lo)).foldl (fun g i => clearBank (e.res.bankBase + lo + i) g) g) s)

/-! ### ADRN (R48, R60, R77, R79, R147) -/

/-- The drained value of an entry's column: scaled by the product of the two per-tensor scales, then converted. -/
def drained (fmt : Nat) (ascale wscale v : Nat) : Nat :=
  let y := fmul fmt32 v (fmul fmt32 ascale wscale)
  match fmt with
  | 0 => y
  | 1 => fcvt fmt32 fmt16 y
  | _ => wrapTo 16 (ftoInt fmt32 (-32767) 32767 y)

/-- The FMT code of an output format. -/
def drainFmt (fmt : Nat) : Nat := match fmt with | 0 => 8 | 1 => 7 | _ => 9

/-- The first poisoned entry a drain of NENT entries meets, by entry and column: (entry, column, state). -/
def firstPoison (g : Engine) (ents cols : List Nat) : Option (Nat × Nat × Nat) :=
  (ents.flatMap fun n => cols.map fun j => (n, j)).findSome? fun (n, j) =>
    let t := colState (tget g.accState 0 n) j
    if t = 0 then none else some (n, j, t)

/-- The columns that ADRN's HALF selects and that lie within the width recorded by WLD (R74, R147): (column of the result, column of the engine).
A selection that does not fit the split state runs by column: a half of an unsplit engine is its columns of the one tile, and the whole of a split
engine both halves' columns (log entry 104). -/
def drainCols (g : Engine) (half : Nat) : List (Nat × Nat) :=
  let col0 := if half = 2 then 256 else 0
  let inWidth := fun (j : Nat) =>
    if g.split then decide (j % 256 < (if j < 256 then g.h0 else g.h1).width) else decide (j < g.h0.width)
  ((halfCols half).filter inWidth).map fun j => (j - col0, j)

/-- ADRN: drains NENT entries of an engine or a half to the carrel or to a vector register. It asks for no loaded tile: it uses the width and the
TSCALE that the last WLD recorded, which PROOF leaves as they were (R147, R153, log entry 104). The event of a drain fault names the entry as the
accumulator numbers it, the residency's first bank added (R87, log entry 104). -/
def execAdrn (c : Nat) (f : Fields) (u : List Upset) (s : State) : Out :=
  issue c u s fun e s =>
    let x := f.xf.toNat
    let eng := x % 4
    let half := bits x 3 2
    let fmt := f.mod.toNat % 4
    let toV := f.mod.getLsbD 2
    let scaled := f.mod.getLsbD 3
    let d := descOf (areg e.core.regs f.ad)
    let a := descOf (areg e.core.regs f.aa)
    let ent0 := bits f.imm.toNat 56 48
    let nent := bits f.imm.toNat 9 0
    let g := accUpsets u (eng - 1) (engAt e.core (eng - 1))
    let cols := (drainCols g half).filter fun j => toV || decide (j.1 < d.e0)
    let ps := (positions d).take nent
    let w : Nat := if fmt = 0 then 4 else 2
    checked ({ cause := 0x02, bad := stray { mod := 0xF, ad := !toV, rd := toV, aa := scaled, xf := 0xF, imm := 0x01FF0000000003FF } f }
        :: { cause := 0x03, bad := toV && fmt == 0 && f.rd.toNat % 2 == 1 }
        :: { cause := 0x05, bad := fmt == 3 || !(eng == 1 || eng == 2) || half == 3 || nent == 0 || decide (512 < nent) || (toV && nent != 1) }
        :: { cause := 0x07, bad := decide (128 * e.prog.accBanks < ent0 + nent) }
        :: ((if toV then [] else descChecks f.ad.toNat d) ++ (if scaled then descChecks f.aa.toNat a else []) ++
        [{ cause := 0x09, dreg := some f.ad.toNat, bad := !toV && (d.glob || (fmt != 3 && d.fmt != drainFmt fmt)) }]))
      (if toV then [] else
        [{ cause := 0x01, dreg := some f.ad.toNat,
           bad := !ps.all fun p => cols.all fun j => inShare e false (rowAddr d p.1 p.2.1 p.2.2 + w * j.1) w }]) s fun _ =>
    clearOf e (if toV then [] else spansOf d true) s fun _ =>
    let s := (modCore e.ph (modEng (eng - 1) fun _ => g) s)
    match firstPoison g ((List.range nent).map fun i => physEntry e (ent0 + i)) (cols.map (·.2)) with
    | some (n, j, t) => .fault { code := 0x03, cause := if 5 ≤ t then 5 else t, place := [eng - 1, b2n (decide (half = 2)), j, n] } s
    | none =>
      let asc := if scaled then a.tscale else 0x3F800000
      let val := fun (i : Nat) (j : Nat × Nat) =>
        drained fmt asc (halfOf g (halfOfCol g j.2)).tscale.toNat (colVal (tget g.acc 0 (physEntry e (ent0 + i))) j.2)
      if toV then
        let old := fun k => vreg e.core.regs k
        let new := fun (n i : Nat) (part : Nat → Nat) =>
          match cols.find? fun j => j.1 == i with | some j => part (val 0 j) | none => velem (old n) i
        regsDone e s fun r =>
          if fmt = 0 then
            setV (f.rd.toNat + 1) (vmake fun i => new (f.rd.toNat + 1) i (· / 65536))
              (setV f.rd.toNat (vmake fun i => new f.rd.toNat i (· % 65536)) r)
          else setV f.rd.toNat (vmake fun i => new f.rd.toNat i id) r
      else
        .done (spaceWrites e false ((List.range ps.length).flatMap fun i =>
            let p := ps.getD i (0, 0, 0)
            cols.map fun j => (rowAddr d p.1 p.2.1 p.2.2 + w * j.1, leBytes w (val i j)))
          (chargeCarrel e (ps.length * w * cols.length) s))

/-! ### PROOF and RSDCHK (R153, R410) -/

/-- Weight operand (r, j) of the proof set. -/
def proofWeight (r j : Nat) : Int := (((5 * r + 3 * j + 1) % 16 : Nat) : Int) - 8
/-- Activation operand r of proof vector v. -/
def proofAct (v r : Nat) : Int := (((7 * v + 11 * r + 2) % 16 : Nat) : Int) - 8
/-- The exact sum of proof vector v in column j. -/
def proofSum (v j : Nat) : Int := ((List.range 128).map fun r => proofAct v r * proofWeight r j).sum
/-- The bytes PROOF feeds its CRC: entries 0 to 63, columns 0 to 511, four bytes each. -/
def proofBytes (res : Nat → Nat → Nat) : List Byte :=
  (List.range 64).flatMap fun v => (List.range 512).flatMap fun j => leBytes 4 (res v j)
/-- The expected CRC-32C of SAF_PROOF, which R410 lets a part compute from the proof set. -/
def safProof : Nat := crc32c (proofBytes fun v j => fofInt fmt32 (proofSum v j))

/-- Whether an upset hits engine n. -/
def hitsEngine (u : List Upset) (n : Nat) : Bool :=
  u.any fun x => match x with
    | .residue g _ _ => g == n
    | .accumulator g _ _ => g == n
    | .weight g _ _ _ => g == n
    | .blockSum g _ _ _ _ => g == n
    | .scaleProduct g _ _ _ _ _ => g == n
    | _ => false

/-- PROOF's CRC on engine n: the proof set's results, or free values where an upset hits the engine (log entry 2). -/
def proofCrc (s : State) (u : List Upset) (n : Nat) : Nat :=
  if hitsEngine u n then (freeBits s n 32).toNat else safProof

/-- The engine after PROOF: the bank cleared and no tile held (R153); the width and TSCALE that a WLD recorded stay for a later drain (log entry
104). -/
def afterProof (bank : Nat) (g : Engine) : Engine :=
  { clearBank bank g with h0 := { g.h0 with loaded := false }, h1 := { g.h1 with loaded := false }, square := false, tile := [], colPoison := 0 }

/-- A proof mismatch (R411, R418): the job's uncommitted frames are untrusted, those committed stand, SAFE_OK goes not-OK for their watched streams,
it is counted
and logged, and the core is queued for test, taking no further job until then. -/
def proofMismatch (c ph : Nat) (j : Job) (s : State) : State :=
  let s := (jobFrames j).foldl (fun s p => modFrame p.1 p.2 (fun x => if x.sealed then x else { x with proofBad := true, untrusted := true }) s) s
  let s := { s with saf := { s.saf with prooffail := satInc s.saf.prooffail } }
  let s := emit { cls := 1, source := 0x01, unit := some c, stream := some j.stream, ctx := some j.ctx,
                  frame := (frameOf s j.stream j.frame).bind (·.num) } s
  let s := (jobFrames j).foldl (fun s p => if watched s p.1 then dirtyStream p.1 s else s) s
  moveQueue c (modCore ph (fun k => { k with testDue := true }) s)

/-- PROOF: runs the proof set on the engines named; s[RD] := 0 on a match and 1 on a mismatch. -/
def execProof (c : Nat) (f : Fields) (u : List Upset) (s : State) : Out :=
  issue c u s fun e s =>
    let x := f.xf.toNat
    let mask := x % 4
    let bank := bits x 3 2
    checked [{ cause := 0x02, bad := stray { rd := true, xf := 0xF } f }, { cause := 0x05, bad := mask == 0 },
             { cause := 0x07, bad := decide (e.prog.accBanks ≤ bank) }] [] s fun _ =>
    let bad := (engines mask).any fun n => proofCrc s u n != safProof
    let s' := useFree 2 ((modCore e.ph (fun k =>
      let k := onEngines mask (fun _ g => afterProof (e.res.bankBase + bank) g) k
      { k with regs := setS f.rd (if bad then 1 else 0) k.regs }) s))
    let s' := (engines mask).foldl (fun s n => countEv e.ph (0x11 + n) 64 (countEv e.ph 0x13 128 s)) s'
    .done (if bad then (match jobOf s' e.part.job with | some j => proofMismatch c e.ph j s' | none => s') else s')

/-- RSDCHK: s[RD] := the columns that failed to report a deliberate residue offset; a column whose residue network an upset
disables does not report. -/
def execRsdchk (c : Nat) (f : Fields) (u : List Upset) (s : State) : Out :=
  issue c u s fun e s =>
    let mask := f.xf.toNat % 4
    checked [{ cause := 0x02, bad := stray { rd := true, xf := 3 } f }, { cause := 0x05, bad := mask == 0 }] [] s fun _ =>
    regsDone e (s) (setS f.rd (BitVec.ofNat 32 (residueCount u mask)))

end Sys2Proof.Machine
end

