-- ==== Sys2Proof/Machine/Pixels.lean ====
section
/-! DEFINITION. Machine/Pixels.lean: frame buffers and the samples in them (R178, R186, R196, R200), and exact arithmetic on samples. -/

namespace Sys2Proof.Machine

/-! ### Regions of a frame buffer (Table 7.4) -/

/-- Bytes of a luma row. -/
def planePitch (e : Envelope) : Nat := (if e.depth = 10 then 2 else 1) * (64 * ceilDiv e.maxW 64)
/-- Offset of the chroma plane. -/
def chromaAt (e : Envelope) : Nat := planePitch e * (64 * ceilDiv e.maxH 64)
/-- Offset of the motion data. -/
def motionAt (e : Envelope) : Nat := chromaAt e + chromaAt e / 2
/-- Bytes of the motion data of a picture. -/
def motionLen (w h : Nat) : Nat := 16 * ceilDiv w 16 * ceilDiv h 16
/-- Offset of the change map. -/
def changeAt (e : Envelope) : Nat := motionAt e + motionLen e.maxW e.maxH
/-- Blocks of a picture. -/
def blockCount (w h : Nat) : Nat := ceilDiv w 64 * ceilDiv h 64
/-- Offset of the taint map. -/
def taintAt (e : Envelope) : Nat := changeAt e + 64 * ceilDiv (ceilDiv (blockCount e.maxW e.maxH) 4) 64
/-- Bytes of a stream's frame buffer. -/
def frameBytes (e : Envelope) : Nat := taintAt e + 64 * ceilDiv (ceilDiv (blockCount e.maxW e.maxH) 8) 64

/-- Values of k bits each, packed little-endian into bytes; unused bits are 0 (R196, R200). -/
def packMap (k : Nat) (l : List Nat) : List Byte :=
  (List.range (ceilDiv (k * l.length) 8)).map fun j =>
    BitVec.ofNat 8 ((List.range (8 / k)).map fun i => l.getD (8 / k * j + i) 0 * 2 ^ (k * i)).sum

/-! ### Samples (R178) -/

/-- Where a picture lies: partition, pointer, the envelope that its pool is sized by, and whether it is P010. -/
structure PicAt where
  part : Nat
  ptr : Nat
  env : Envelope
  ten : Bool

/-- Bytes of a sample. -/
def PicAt.size (a : PicAt) : Nat := if a.ten then 2 else 1

/-- Offset of a sample of plane 0 (luma), 1 (Cb) or 2 (Cr). -/
def PicAt.off (a : PicAt) (plane x y : Nat) : Nat :=
  if plane = 0 then y * planePitch a.env + x * a.size
  else chromaAt a.env + y * planePitch a.env + (2 * x + (plane - 1)) * a.size

/-- A sample of a picture in DRAM. -/
def sampleIn (s : State) (a : PicAt) (plane x y : Nat) : Nat :=
  let v := leNat (dramRead s a.part (a.ptr + a.off plane x y) a.size)
  if a.ten then v / 64 else v

/-- A range of DRAM bytes holds one that reads uncorrectable (R314). -/
def rangeBad (s : State) (p x n : Nat) : Bool := (List.range n).any fun i => (keyOf s p (x + i)).any (dramPoisoned s)

/-- A rectangle of luma samples of a picture, with its chroma, holds a byte that reads uncorrectable. -/
def rectBad (s : State) (a : PicAt) (x y w h : Nat) : Bool :=
  ((List.range h).any fun i => rangeBad s a.part (a.ptr + a.off 0 x (y + i)) (w * a.size))
    || ((List.range (ceilDiv h 2)).any fun i => rangeBad s a.part (a.ptr + a.off 1 (x / 2) (y / 2 + i)) (2 * ceilDiv w 2 * a.size))

/-- The bytes of a sample: P010 holds it in bits [15:6] of a word. -/
def PicAt.bytes (a : PicAt) (v : Nat) : List Byte := if a.ten then leBytes 2 (64 * (v % 1024)) else leBytes 1 v

/-- Write the planes of a w x h picture, sample by sample. -/
def writePlanes (a : PicAt) (w h : Nat) (f : Nat → Nat → Nat → Nat) (s : State) : State :=
  let s := (List.range h).foldl (fun s y =>
    dramWrite a.part (a.ptr + a.off 0 0 y) ((List.range w).flatMap fun x => a.bytes (f 0 x y)) s) s
  (List.range (ceilDiv h 2)).foldl (fun s y =>
    dramWrite a.part (a.ptr + a.off 1 0 y) ((List.range (ceilDiv w 2)).flatMap fun x => a.bytes (f 1 x y) ++ a.bytes (f 2 x y)) s) s

/-! ### Exact samples (R221, R259) -/

/-- A picture of exact samples by channel, x and y; none where a rotated sample falls outside its source. -/
structure Raster where
  w : Nat
  h : Nat
  at' : Nat → Nat → Nat → Option ℚ

/-- An index held within 0 to n - 1. -/
def inside (n : Nat) (i : Int) : Nat := min i.toNat (n - 1)

/-- The two taps of a linear interpolation at position u of n samples. -/
def linearTaps (n : Nat) (u : ℚ) : List (Nat × ℚ) :=
  let i := u.floor
  let t := u - i
  [(inside n i, 1 - t), (inside n (i + 1), t)]

/-- Weight of a bicubic tap at distance d, with a = -0.5. -/
def cubicWeight (d : ℚ) : ℚ :=
  let d := if d < 0 then -d else d
  if d ≤ 1 then (3 / 2) * d * d * d - (5 / 2) * d * d + 1
  else if d < 2 then -(1 / 2) * d * d * d + (5 / 2) * d * d - 4 * d + 2 else 0

/-- The four taps of a bicubic interpolation. -/
def cubicTaps (n : Nat) (u : ℚ) : List (Nat × ℚ) :=
  [-1, 0, 1, 2].map fun k : Int => (inside n (u.floor + k), cubicWeight (u - (u.floor + k)))

/-- The taps of an average over the range from lo to hi of n samples. -/
def areaTaps (n : Nat) (lo hi : ℚ) : List (Nat × ℚ) :=
  (List.range n).filterMap fun (i : Nat) =>
    let part : ℚ := min hi ((i : ℚ) + 1) - max lo (i : ℚ)
    if 0 < part then some (i, part / (hi - lo)) else none

/-- The taps of output sample i of m, resized from n by method 0 bilinear, 1 bicubic, 2 area. -/
def resizeTaps (method n m i : Nat) : List (Nat × ℚ) :=
  let step : ℚ := n / m
  let u : ℚ := (i + 1 / 2) * step - 1 / 2
  if method = 0 then linearTaps n u else if method = 1 then cubicTaps n u else areaTaps n (i * step) ((i + 1) * step)

/-- A weighted sum over two rows of taps; none where a sample of non-zero weight is none. -/
def blend (tx ty : List (Nat × ℚ)) (f : Nat → Nat → Option ℚ) : Option ℚ :=
  (ty.flatMap fun b => tx.map fun a => (a.1, b.1, a.2 * b.2)).foldl (fun (acc : Option ℚ) (t : Nat × Nat × ℚ) =>
    if t.2.2 = 0 then acc else match acc, f t.1 t.2.1 with
      | some v, some x => some (v + t.2.2 * x)
      | _, _ => none) (some 0)

/-- A raster resized to w x h. -/
def Raster.resize (r : Raster) (method w h : Nat) : Raster where
  w := w
  h := h
  at' := fun c x y => blend (resizeTaps method r.w w x) (resizeTaps method r.h h y) (r.at' c)

end Sys2Proof.Machine
end

