-- ==== Sys2Proof/Machine/Vector.lean ====
section
/-! DEFINITION. Machine/Vector.lean: the vector, table and curve instructions (groups 0x5 and 0x6, R90 to R92, R148) and the
quantiser (group 0x7, R51 to R55, R149, R150). -/

namespace Sys2Proof.Machine

/-! ### Elements by type (R90, R148) -/

/-- Element i of a vector operand: a 16-bit element, or an FP32 element of a register pair. -/
def elemOf (ty : Nat) (r : Regs) (n i : Nat) : Nat :=
  if ty = 2 then velem (vreg r n) i + 65536 * velem (vreg r (n + 1)) i else velem (vreg r n) i

/-- Write the elements whose mask bit is 1 of a vector result. -/
def putElems (ty n : Nat) (m : BitVec 512) (g : Nat → Nat) (r : Regs) : Regs :=
  if ty = 2 then
    setV (n + 1) (vwrite m (vreg r (n + 1)) fun i => g i / 65536) (setV n (vwrite m (vreg r n) g) r)
  else setV n (vwrite m (vreg r n) g) r

/-- The binary format of a type. -/
def tyFmt (ty : Nat) : FloatFmt := if ty = 2 then fmt32 else fmt16

/-- An INT16 result, saturated or wrapped (R148). -/
def int16 (sat : Bool) (x : Int) : Nat := wrapTo 16 (if sat then clampI (-32768) 32767 x else x)

/-- The type field's value is reserved, or a register of an FP32 pair is odd. -/
def typeChecks (ty : Nat) (regs : List (BitVec 5)) : List Check :=
  [{ cause := 0x05, bad := ty == 3 }, { cause := 0x03, bad := ty == 2 && regs.any fun n => n.toNat % 2 == 1 }]

/-- The FMT code of a type (Table 5.5). -/
def tyCode (ty : Nat) : Nat := match ty with | 0 => 7 | 1 => 9 | _ => 8

/-- A vector instruction that only changes registers, after its checks; `u` may make a register read fail. -/
def vectorOp (c : Nat) (u : List Upset) (l : List Check) (s : State) (g : Env → Regs → Regs) : Out :=
  issue c u s fun e s => checked l [] s fun _ =>
    if readLost u then memoryFault s else regsDone e s (g e)

/-! ### Arithmetic (0x50 to 0x55) -/

/-- An element-wise instruction of two operands. -/
def twoOp (c : Nat) (f : Fields) (u : List Upset) (hasSat : Bool) (fp : FloatFmt → Nat → Nat → Nat) (int : Int → Int → Int)
    (s : State) : Out :=
  let ty := f.mod.toNat % 4
  vectorOp c u ({ cause := 0x02, bad := stray { mod := if hasSat && ty == 1 then 7 else 3, rd := true, ra := true, rb := true, pm := true } f }
      :: typeChecks ty [f.rd, f.ra, f.rb]) s fun _ r =>
    putElems ty f.rd.toNat (preg r f.pm.toNat) (fun i =>
      let a := elemOf ty r f.ra.toNat i
      let b := elemOf ty r f.rb.toNat i
      if ty = 1 then int16 (f.mod.getLsbD 2) (int (sgn 16 a) (sgn 16 b)) else fp (tyFmt ty) a b) r

/-- VADD. -/
def execVadd (c : Nat) (f : Fields) (u : List Upset) (s : State) : Out := twoOp c f u true fadd (· + ·) s
/-- VSUB. -/
def execVsub (c : Nat) (f : Fields) (u : List Upset) (s : State) : Out := twoOp c f u true fsub (· - ·) s
/-- VMUL. -/
def execVmul (c : Nat) (f : Fields) (u : List Upset) (s : State) : Out := twoOp c f u true fmul (· * ·) s
/-- VMIN: a NaN operand yields the other operand. -/
def execVmin (c : Nat) (f : Fields) (u : List Upset) (s : State) : Out := twoOp c f u false fmin (fun a b => if a < b then a else b) s
/-- VMAX: a NaN operand yields the other operand. -/
def execVmax (c : Nat) (f : Fields) (u : List Upset) (s : State) : Out := twoOp c f u false fmax (fun a b => if a < b then b else a) s

/-- VFMA: RA * RB + RC with one rounding. An INT16 result outside the format is a free value: the spec names neither wrap nor
saturation for it (log entry 21). -/
def execVfma (c : Nat) (f : Fields) (u : List Upset) (s : State) : Out :=
  let ty := f.mod.toNat % 4
  vectorOp c u ({ cause := 0x02, bad := stray { mod := 3, rd := true, ra := true, rb := true, rc := true, pm := true } f }
      :: typeChecks ty [f.rd, f.ra, f.rb, f.rc]) (if ty = 1 then useFree 512 s else s) fun _ r =>
    putElems ty f.rd.toNat (preg r f.pm.toNat) (fun i =>
      let a := elemOf ty r f.ra.toNat i
      let b := elemOf ty r f.rb.toNat i
      let z := elemOf ty r f.rc.toNat i
      if ty = 1 then
        let x := sgn 16 a * sgn 16 b + sgn 16 z
        if -32768 ≤ x ∧ x ≤ 32767 then wrapTo 16 x else (freeBits s i 16).toNat
      else ffma (tyFmt ty) a b z) r

/-! ### Compare, logic, convert (0x56 to 0x58) -/

/-- A comparison by MOD[4:2]; a NaN compares false except NE. -/
def vcmpHolds (ty k a b : Nat) : Bool :=
  let t := tyFmt ty
  let eq := if ty = 1 then a == b else feq t a b
  let lt := fun x y => if ty = 1 then decide (sgn 16 x < sgn 16 y) else flt t x y
  let le := fun x y => if ty = 1 then decide (sgn 16 x ≤ sgn 16 y) else fle t x y
  match k with
  | 0 => eq
  | 1 => !eq
  | 2 => lt a b
  | 3 => le a b
  | 4 => lt b a
  | _ => le b a

/-- VCMP: mask bits := results, where the instruction's mask is 1. -/
def execVcmp (c : Nat) (f : Fields) (u : List Upset) (s : State) : Out :=
  let ty := f.mod.toNat % 4
  let k := bits f.mod.toNat 4 2
  vectorOp c u ({ cause := 0x02, bad := stray { mod := 0x1F, rd := true, ra := true, rb := true, pm := true } f }
      :: badP f.rd :: { cause := 0x05, bad := decide (6 ≤ k) } :: typeChecks ty [f.ra, f.rb]) s fun _ r =>
    let m := preg r f.pm.toNat
    setP f.rd.toNat (pmake fun i =>
      if m.getLsbD i then vcmpHolds ty k (elemOf ty r f.ra.toNat i) (elemOf ty r f.rb.toNat i)
      else (preg r f.rd.toNat).getLsbD i) r

/-- A logic or shift result by MOD[4:2]. -/
def vlogResult (k a b : Nat) : Nat :=
  match k with
  | 0 => a &&& b
  | 1 => a ||| b
  | 2 => a ^^^ b
  | 3 => 65535 - a
  | 4 => a * 2 ^ (b % 16) % 65536
  | 5 => a / 2 ^ (b % 16)
  | _ => wrapTo 16 (sgn 16 a / ((2 ^ (b % 16) : Nat) : Int))

/-- VLOG: bitwise and shift operations, INT16 only. NOT has one operand, and a value in RB is not refused there, a choice of the model (log entry
108). -/
def execVlog (c : Nat) (f : Fields) (u : List Upset) (s : State) : Out :=
  let k := bits f.mod.toNat 4 2
  vectorOp c u [{ cause := 0x02, bad := stray { mod := 0x1F, rd := true, ra := true, rb := true, pm := true } f },
      { cause := 0x05, bad := k == 7 || f.mod.toNat % 4 != 1 }] s fun _ r =>
    putElems 1 f.rd.toNat (preg r f.pm.toNat) (fun i => vlogResult k (elemOf 1 r f.ra.toNat i) (elemOf 1 r f.rb.toNat i)) r

/-- One conversion; INT16 results saturate and NaN gives 0. -/
def convert (src dst x : Nat) : Nat :=
  if src = dst then x
  else if src = 1 then fofInt (tyFmt dst) (sgn 16 x)
  else if dst = 1 then wrapTo 16 (ftoInt (tyFmt src) (-32768) 32767 x)
  else fcvt (tyFmt src) (tyFmt dst) x

/-- VCVT. -/
def execVcvt (c : Nat) (f : Fields) (u : List Upset) (s : State) : Out :=
  let dst := f.mod.toNat % 4
  let src := bits f.mod.toNat 3 2
  vectorOp c u ({ cause := 0x02, bad := stray { mod := 0xF, rd := true, ra := true, pm := true } f }
      :: (typeChecks dst [f.rd] ++ typeChecks src [f.ra])) s fun _ r =>
    putElems dst f.rd.toNat (preg r f.pm.toNat) (fun i => convert src dst (elemOf src r f.ra.toNat i)) r

/-! ### Reduction (0x59) -/

/-- One level of the pairwise tree: elements 2i and 2i + 1 meet; an excluded element leaves the other. R148 fixes the tree and not which
elements pair: the model's choice (log entry 107). -/
def treeLevel (g : Nat → Nat → Nat) : List (Option Nat) → List (Option Nat)
  | some a :: some b :: r => some (g a b) :: treeLevel g r
  | some a :: none :: r => some a :: treeLevel g r
  | none :: x :: r => x :: treeLevel g r
  | l => l

/-- The root of the pairwise tree over 2^n elements. -/
def treeReduce (g : Nat → Nat → Nat) : Nat → List (Option Nat) → Option Nat
  | 0, l => l.head?.join
  | n + 1, l => treeReduce g n (treeLevel g l)

/-- The combination VRED uses, on FP32 bits or on 32-bit two's complement. -/
def redOp (ty k a b : Nat) : Nat :=
  if ty = 1 then
    match k with
    | 0 => wrapTo 32 (sgn 32 a + sgn 32 b)
    | 1 => if sgn 32 a < sgn 32 b then b else a
    | _ => if sgn 32 a < sgn 32 b then a else b
  else
    match k with
    | 0 => fadd fmt32 a b
    | 1 => fmax fmt32 a b
    | _ => fmin fmt32 a b

/-- An element as VRED reduces it: FP32, or sign-extended. -/
def redElem (ty x : Nat) : Nat :=
  if ty = 1 then wrapTo 32 (sgn 16 x) else if ty = 0 then fcvt fmt16 fmt32 x else x

/-- VRED: reduces the masked-on elements to a scalar; with every element masked off the result is a free value (log entry 21). -/
def execVred (c : Nat) (f : Fields) (u : List Upset) (s : State) : Out :=
  let ty := f.mod.toNat % 4
  let k := bits f.mod.toNat 4 2
  vectorOp c u ({ cause := 0x02, bad := stray { mod := 0x1F, rd := true, ra := true, pm := true } f }
      :: { cause := 0x05, bad := decide (3 ≤ k) } :: typeChecks ty [f.ra]) (useFree 1 s) fun _ r =>
    let m := preg r f.pm.toNat
    let l := (List.range 512).map fun i => if m.getLsbD i then some (redElem ty (elemOf ty r f.ra.toNat i)) else none
    setS f.rd (match treeReduce (redOp ty k) 9 l with | some x => BitVec.ofNat 32 x | none => freeBits s 0 32) r

/-! ### Loads, stores, selection, masks (0x5A to 0x5F) -/

/-- The checks of a vector load or store. -/
def vmemChecks (ty : Nat) (n : Nat) (d : Desc) : List Check :=
  descChecks n d ++ [{ cause := 0x09, dreg := some n, bad := d.glob || decide (512 < d.e0) || (ty != 3 && d.fmt != tyCode ty) }]

/-- The bytes of an element in memory. -/
def elemSize (ty : Nat) : Nat := if ty = 2 then 4 else 2

/-- VLD: loads up to 512 elements along axis 0; elements beyond EXT0 take 0. -/
def execVld (c : Nat) (f : Fields) (u : List Upset) (s : State) : Out :=
  let ty := f.mod.toNat % 4
  issue c u s fun e s =>
    let d := descOf (areg e.core.regs f.aa)
    let n := d.e0 * elemSize ty
    checked ({ cause := 0x02, bad := stray { mod := 3, rd := true, aa := true, pm := true } f } ::
        (typeChecks ty [f.rd] ++ vmemChecks ty f.aa.toNat d))
      [{ cause := 0x01, dreg := some f.aa.toNat, bad := !inShare e false d.base n }] s fun _ =>
    clearOf e [{ lo := d.base, n := n, wr := false }] s fun _ =>
    if readLost u then memoryFault s else
    regsDone e ((chargeCarrel e n s)) fun r =>
      putElems ty f.rd.toNat (preg r f.pm.toNat) (fun i =>
        if i < d.e0 then
          leNat ((List.range (elemSize ty)).map fun k => spaceByte s e false (d.base + elemSize ty * i + k))
        else 0) r

/-- VST: stores the masked-on elements below EXT0. -/
def execVst (c : Nat) (f : Fields) (u : List Upset) (s : State) : Out :=
  let ty := f.mod.toNat % 4
  issue c u s fun e s =>
    let d := descOf (areg e.core.regs f.aa)
    let n := d.e0 * elemSize ty
    checked ({ cause := 0x02, bad := stray { mod := 3, ra := true, aa := true, pm := true } f } ::
        (typeChecks ty [f.ra] ++ vmemChecks ty f.aa.toNat d))
      [{ cause := 0x01, dreg := some f.aa.toNat, bad := !inShare e false d.base n }] s fun _ =>
    clearOf e [{ lo := d.base, n := n, wr := true }] s fun _ =>
    if readLost u then memoryFault s else
    let r := e.core.regs
    let m := preg r f.pm.toNat
    let on := (List.range d.e0).filter fun i => m.getLsbD i
    .done (spaceWrites e false (on.map fun i => (d.base + elemSize ty * i, leBytes (elemSize ty) (elemOf ty r f.ra.toNat i)))
      ((chargeCarrel e (elemSize ty * on.length) s)))

/-- VSEL: p[PM] ? RA : RB for every element. -/
def execVsel (c : Nat) (f : Fields) (u : List Upset) (s : State) : Out :=
  vectorOp c u [{ cause := 0x02, bad := stray { rd := true, ra := true, rb := true, pm := true } f }] s fun _ r =>
    setV f.rd.toNat (vmake fun i =>
      if (preg r f.pm.toNat).getLsbD i then velem (vreg r f.ra.toNat) i else velem (vreg r f.rb.toNat) i) r

/-- A scalar converted to a vector type: FP types read it as FP32, INT16 saturates (log entry 22). -/
def broadcast (ty : Nat) (x : Word) : Nat :=
  match ty with
  | 0 => fcvt fmt32 fmt16 x.toNat
  | 1 => int16 true x.toInt
  | _ => x.toNat

/-- VBC. -/
def execVbc (c : Nat) (f : Fields) (u : List Upset) (s : State) : Out :=
  let ty := f.mod.toNat % 4
  vectorOp c u ({ cause := 0x02, bad := stray { mod := 3, rd := true, ra := true, pm := true } f } :: typeChecks ty [f.rd]) s fun _ r =>
    putElems ty f.rd.toNat (preg r f.pm.toNat) (fun _ => broadcast ty (sreg r f.ra)) r

/-- The mask operation of PLOG. -/
def plogResult (k : Nat) (a b : BitVec 512) : BitVec 512 :=
  match k with
  | 0 => a &&& b
  | 1 => a ||| b
  | 2 => a ^^^ b
  | _ => a &&& ~~~b

/-- PLOG: all 512 bits are written. -/
def execPlog (c : Nat) (f : Fields) (u : List Upset) (s : State) : Out :=
  vectorOp c u [{ cause := 0x02, bad := stray { mod := 3, rd := true, ra := true, rb := true } f }, badP f.rd, badP f.ra, badP f.rb] s
    fun _ r => setP f.rd.toNat (plogResult (f.mod.toNat % 4) (preg r f.ra.toNat) (preg r f.rb.toNat)) r

/-- PFIRST: bits 0 to min(s[RA], 512) - 1 set, the rest cleared. -/
def execPfirst (c : Nat) (f : Fields) (u : List Upset) (s : State) : Out :=
  vectorOp c u [{ cause := 0x02, bad := stray { rd := true, ra := true } f }, badP f.rd] s fun _ r =>
    setP f.rd.toNat (BitVec.ofNat 512 (2 ^ min (sreg r f.ra).toNat 512 - 1)) r

/-! ### Curves and tables (0x60 to 0x62) -/

/-- A finite FP16 pattern in units of 2^-24. -/
def fixed24 (x : Nat) : Option Int :=
  match fdec fmt16 x with
  | .fin n m e => some (let a : Int := ((m * 2 ^ (e + 24).toNat : Nat) : Int); if n then -a else a)
  | _ => none

/-- The segment and the offset of step 2 and step 3 of R92 for an input in units of 2^-24. -/
def segment (lo : Int) (w : Nat) (x : Int) : Nat × Nat :=
  let i := (clampI 0 63 ((x - lo) / (w : Int))).toNat
  (i, (clampI 0 w (x - (lo + i * w))).toNat)

/-- The polynomial of a segment in FP32, rounded once to FP16. -/
def segmentValue (curve : List Byte) (i d : Nat) : Nat :=
  let co := fun k => fcvt fmt16 fmt32 (leAt curve (16 + 6 * i + 2 * k) 2)
  let x := fpack fmt32 false d (-24)
  fcvt fmt32 fmt16 (fadd fmt32 (co 0) (fmul fmt32 x (fadd fmt32 (co 1) (fmul fmt32 x (co 2)))))

/-- A curve evaluated at x (R92); `openVal` stands for the result where the curve's LO is no finite number. -/
def curveAt (curve : List Byte) (openVal x : Nat) : Nat :=
  let flags := leAt curve 3 1
  let w := 2 ^ (sgn 8 (leAt curve 2 1) + 24).toNat
  if fisNan fmt16 x then fnan fmt16 x x else
  let x' := if flags % 4 = 0 then x else fabs fmt16 x
  let y := match fixed24 (leAt curve 0 2) with
    | none => openVal
    | some lo =>
      let p := match fixed24 x' with
        | some v => segment lo w v
        | none => if fmt16.signBit ≤ x' then (0, 0) else (63, w)
      segmentValue curve p.1 p.2
  if flags % 2 = 1 && decide (fsign fmt16 x < 0) then fneg fmt16 y else y

/-- VCURVE. -/
def execVcurve (c : Nat) (f : Fields) (u : List Upset) (s : State) : Out :=
  issue c u s fun e s =>
    let k := f.imm.toNat % 16
    checked [{ cause := 0x02, bad := stray { rd := true, ra := true, pm := true, imm := 0xF } f },
             { cause := 0x0E, bad := decide (e.ctx.curves.length ≤ k) }] [] s fun _ =>
    if readLost u then memoryFault s else
    regsDone e ((useFree 1 s)) fun r =>
      putElems 0 f.rd.toNat (preg r f.pm.toNat)
        (fun i => curveAt (e.ctx.curves.getD k []) (freeBits s 0 16).toNat (elemOf 0 r f.ra.toNat i)) r

/-- VLUT: element := element (RA[7:0]) of v[RB]. -/
def execVlut (c : Nat) (f : Fields) (u : List Upset) (s : State) : Out :=
  vectorOp c u [{ cause := 0x02, bad := stray { rd := true, ra := true, rb := true, pm := true } f }] s fun _ r =>
    putElems 1 f.rd.toNat (preg r f.pm.toNat)
      (fun i => velem (vreg r f.rb.toNat) (velem (vreg r f.ra.toNat) i % 256)) r

/-- VEXT: extracts an element to a scalar, or inserts one. -/
def execVext (c : Nat) (f : Fields) (u : List Upset) (s : State) : Out :=
  let ins := f.mod.getLsbD 0
  let k := f.imm.toNat % 512
  vectorOp c u [{ cause := 0x02, bad := stray { mod := 1, rd := true, ra := true, pm := ins, imm := 0x1FF } f }] s fun _ r =>
    if ins then
      putElems 1 f.rd.toNat (preg r f.pm.toNat)
        (fun i => if i = k then (sreg r f.ra).toNat % 65536 else velem (vreg r f.rd.toNat) i) r
    else setS f.rd (BitVec.ofNat 32 (velem (vreg r f.ra.toNat) k)) r

/-! ### Quantising (R51 to R54, R149) -/

/-- p / q to the nearest integer, ties to even. -/
def rneQuot (p q : Nat) : Nat :=
  let k := p / q
  let r := p % q
  if 2 * r < q then k else if q < 2 * r then k + 1 else k + k % 2

/-- x / s rounded, for a finite x = (-1)^neg * m * 2^e and the scale byte of s = sig * 2^(exp - 18). -/
def roundRatio (neg : Bool) (m : Nat) (e : Int) (scale : Nat) : Int :=
  let t := e - ((scaleExp scale : Int) - 18)
  let q := if 0 ≤ t then rneQuot (m * 2 ^ t.toNat) (scaleSig scale) else rneQuot m (scaleSig scale * 2 ^ (-t).toNat)
  if neg then -(q : Int) else q

/-- Twice x / s compared with an odd number of halves: numerator and denominator of 2x / s. -/
def ratio2 (neg : Bool) (m : Nat) (e : Int) (scale : Nat) : Int × Nat :=
  let t := e + 1 - ((scaleExp scale : Int) - 18)
  let p : Nat := if 0 ≤ t then m * 2 ^ t.toNat else m
  (if neg then -(p : Int) else p, if 0 ≤ t then scaleSig scale else scaleSig scale * 2 ^ (-t).toNat)

/-- The scale byte of a positive finite binary32 within 2^-14 to 122,880, to nearest with ties to even mantissa, or rounded up. -/
def scaleByte (up : Bool) (x : Nat) : Nat :=
  match fdec fmt32 x with
  | .fin _ m e =>
    let l := Nat.log2 m
    let t := 8 * (((l : Int) + e + 15).toNat)
    let k := l - 3
    let sig := if 3 ≤ l then (if up then ceilDiv m (2 ^ k) else rneShift m k) else m * 2 ^ (3 - l)
    min (t + sig - 8) 0xFF
  | _ => 0xFF

/-- A block scale held to what E5M3 covers, and whether it was clamped (R54, R149). -/
def clampScale (up : Bool) (x : Nat) : Nat × Bool :=
  if fisNan fmt32 x || decide (fmt32.signBit ≤ x) || flt fmt32 x 0x38800000 then (0x08, true)
  else if flt fmt32 0x47F00000 x then (0xFF, true) else (scaleByte up x, false)

/-- What QNT makes of one in-bounds element: its code, whether it was clamped, and whether it was not finite. -/
structure Coded where
  code : Nat
  sat : Bool
  nonfin : Bool
  deriving DecidableEq, Repr

/-- An integer code clamped to a range. -/
def clampCode (lo hi : Int) (w : Nat) (x : Int) : Coded :=
  { code := wrapTo w (clampI lo hi x), sat := x < lo || hi < x, nonfin := false }

/-- The nearest codebook index for x / s = p / (2 q), the lowest on a tie, clamped beyond half a step of the outer levels. -/
def nearestLevel (cb : List Byte) (k : Nat) (p : Int) (q : Nat) : Coded :=
  let dist := fun j => (p - 2 * level cb k j * q).natAbs
  let hi := (List.range 16).foldl (fun a j => if a < level cb k j then level cb k j else a) (-16)
  let lo := (List.range 16).foldl (fun a j => if level cb k j < a then level cb k j else a) 15
  { code := (leastBy dist (List.range 16)).getD 0,
    sat := decide ((2 * hi + 1) * (q : Int) < p) || decide (p < (2 * lo - 1) * (q : Int)), nonfin := false }

/-- The lowest index of a codebook's extreme level. -/
def extremeLevel (cb : List Byte) (k : Nat) (neg : Bool) : Nat :=
  (leastBy (fun j => ((if neg then level cb k j else -level cb k j) + 16).toNat) (List.range 16)).getD 0

/-- The header fields of a scale, zero point and codebook for a format; ignored fields are zero (R34). -/
def headerBody (fmt scale z cbk : Nat) : Nat :=
  scale + (match fmt with | 0 | 3 | 6 => 256 * z | 2 => 4096 * cbk | _ => 0)

/-- The code of an element already divided by TSCALE (R52, R54). -/
def codeElem (cb : List Byte) (fmt z cbk scale x : Nat) : Coded :=
  match fdec fmt32 x with
  | .nan => { code := emptyCode cb fmt (headerBody fmt scale z cbk), sat := false, nonfin := true }
  | .inf n =>
    { code := match fmt with
        | 0 => if n then 0 else 15
        | 1 => if n then 8 else 7
        | 2 => extremeLevel cb cbk n
        | 3 => if n then 0 else 3
        | 4 => if n then 3 else 1
        | 5 => if n then 1 else 0
        | _ => if n then 0 else 255,
      sat := false, nonfin := true }
  | .fin n m e =>
    let r := roundRatio n m e scale
    match fmt with
    | 0 => clampCode 0 15 4 (r + z)
    | 1 => clampCode (-8) 7 4 r
    | 2 => let p := ratio2 n m e scale; nearestLevel cb cbk p.1 p.2
    | 3 => clampCode 0 3 2 (r + z)
    | 4 => { code := if r ≤ -1 then 3 else if 1 ≤ r then 1 else 0, sat := r < -1 || 1 < r, nonfin := false }
    | 5 => { code := if n && m != 0 then 1 else 0, sat := false, nonfin := false }
    | _ => clampCode 0 255 8 (r + z)

/-- A value in units of 2^-149, exactly; none for what is no finite number. -/
def exact149 (x : Nat) : Option Int :=
  match fdec fmt32 x with
  | .fin n m e => some (if n then -((m * 2 ^ (e + 149).toNat : Nat) : Int) else ((m * 2 ^ (e + 149).toNat : Nat) : Int))
  | _ => none

/-- The least SCALE byte whose value is not below span / k, `span` in units of 2^-149, and whether the quotient lay outside 2^-14 to 122,880 and
was clamped (R35, R51, R54). -/
def blockByte (span k : Nat) : Nat × Bool :=
  let low := decide (span < k * 2 ^ 135)
  match (List.range 248).find? fun i => decide (span ≤ scaleSig (8 + i) * k * 2 ^ (scaleExp (8 + i) + 131)) with
  | some i => (8 + i, low)
  | none => (0xFF, true)

/-- The scale byte, zero point and clamp of a block in block mode (Table 2.9), from its in-bounds elements. The extremes are taken over the numbers:
a NaN is left out, and an infinite extreme takes the largest scale, a choice of the model (R51, log entry 106). -/
def blockScale (fmt : Nat) (xs : List Nat) : Nat × Nat × Bool :=
  let num := xs.filter fun x => !fisNan fmt32 x
  let hi := num.foldl (fun a x => if flt fmt32 a x then x else a) 0
  let lo := num.foldl (fun a x => if flt fmt32 x a then x else a) 0
  let sc := match exact149 hi, exact149 lo with
    | some a, some b => match fmt with
      | 0 => blockByte (a - b).toNat 15
      | 1 => blockByte (max a (-b)).toNat 7
      | 3 => blockByte (a - b).toNat 3
      | _ => blockByte (a - b).toNat 255
    | _, _ => (0xFF, true)
  let top : Int := match fmt with | 0 => 15 | 3 => 3 | _ => 255
  let z := if fmt = 1 then 0 else match fdec fmt32 lo with
    | .fin _ m e => (clampI 0 top (roundRatio false m e sc.1)).toNat
    | _ => top.toNat
  (sc.1, z, sc.2)

/-- What QNT writes for one block: header body, codes, and counts (SAT, COLL, SCLAMP, NONFIN). -/
structure QBlock where
  body : Nat
  codes : List Nat
  sat : Nat := 0
  coll : Nat := 0
  sclamp : Nat := 0
  nonfin : Nat := 0
  deriving DecidableEq, Repr

/-- Quantise one block: 64 elements, none where an element lies outside the tensor or is masked off (R52 to R54). `par` gives
calibrated scale, zero point and codebook; none is block mode. `nonzero`: some in-bounds input is not zero. Whether the block is empty is judged on
the elements already divided by TSCALE, a choice of the model; an input that the division takes to zero counts in COLL (R53, R54, log entry 106). -/
def quantBlock (cb : List Byte) (fmt : Nat) (par : Option (Nat × Nat × Nat)) (nonzero : Bool) (xs : List (Option Nat)) : QBlock :=
  let live := xs.filterMap id
  if live.all (fun x => x % fmt32.signBit == 0) then
    { body := 0, codes := xs.map fun _ => emptyCode cb fmt 0, coll := b2n nonzero }
  else
    let (scale, z, cl, cbk) : Nat × Nat × Bool × Nat := match par with
      | some (x, z, k) => let r := clampScale false x; (r.1, z, r.2, k)
      | none => let r := blockScale fmt live; (r.1, r.2.1, r.2.2, 0)
    let h := headerBody fmt scale z cbk
    let cs := live.map (codeElem cb fmt z cbk scale)
    { body := h
      codes := xs.map fun o => match o with
        | some x => (codeElem cb fmt z cbk scale x).code
        | none => emptyCode cb fmt h
      sat := (cs.filter (·.sat)).length
      coll := b2n (cs.all fun k => fed cb fmt h k.code == 0)
      sclamp := b2n cl
      nonfin := (cs.filter (·.nonfin)).length }

/-- The shape rule of QNT and DQN (R149). -/
def quantShapeBad (d : Desc) : Bool :=
  d.glob || d.rax3 || !quantised d.fmt || decide (512 < d.e0) || d.e1 != 1 || d.e2 != 1 || d.e3 != 1

/-- The largest zero point of a format's code range (Table 2.1). -/
def zeroTop (fmt : Nat) : Nat := match fmt with | 0 | 2 => 15 | 1 => 7 | 3 | 4 => 3 | 5 => 1 | _ => 255

/-- QNT: turns FP16 elements into codes and headers. -/
def execQnt (c : Nat) (f : Fields) (u : List Upset) (s : State) : Out :=
  issue c u s fun e s =>
    let block := f.mod.getLsbD 0
    let d := descOf (areg e.core.regs f.ad)
    let r := e.core.regs
    let p := (sreg r f.rc).toNat
    checked ({ cause := 0x02, bad := stray { mod := 1, ad := true, ra := true, rb := !block, rc := !block, pm := true } f }
        :: { cause := 0x05, bad := !block && (decide (4096 ≤ p) || (d.valid && decide (zeroTop d.fmt < p % 256))) }
        :: (descChecks f.ad.toNat d ++ [{ cause := 0x09, dreg := some f.ad.toNat, bad := quantShapeBad d },
             { cause := 0x0B, bad := block && (d.fmt == 2 || d.fmt == 4 || d.fmt == 5) }]))
      [accessCheck e f.ad.toNat d] s fun _ =>
    clearOf e (spansOf d true) s fun _ =>
    if readLost u then memoryFault s else
    let m := preg r f.pm.toNat
    let x := fun i => fdiv fmt32 (fcvt fmt16 fmt32 (velem (vreg r f.ra.toNat) i)) d.tscale
    let par := if block then none else some ((sreg r f.rb).toNat, p % 256, p / 256 % 16)
    let live := fun i => decide (i < d.e0) && m.getLsbD i
    let q := (List.range (rowBlocks d)).map fun b => quantBlock e.ctx.codebooks d.fmt par
      ((List.range 64).any fun i => live (64 * b + i) && velem (vreg r f.ra.toNat) (64 * b + i) % fmt16.signBit != 0)
      ((List.range 64).map fun i => if live (64 * b + i) then some (x (64 * b + i)) else none)
    let s := spaceWrites e false ((List.range (rowBlocks d)).flatMap fun b =>
      let k := q.getD b { body := 0, codes := [] }
      [(d.base + b * blockBytes d.fmt, packCodes d.fmt k.codes), (hdrAddr d b, leBytes 4 (sealHdr (expTag d b) k.body))])
      ((chargeCarrel e (rowBytes d + 4 * rowBlocks d) s))
    let n := fun (g : QBlock → Nat) => (q.map g).sum
    regsDone e s fun r =>
      let k := bumpQ (bumpQ (bumpQ (bumpQ r.q 0 (n (·.sat))) 1 (n (·.coll))) 2 (n (·.sclamp))) 3 (n (·.nonfin))
      { r with q := k }

/-- TSCALE * s * operand in FP16, rounded once. -/
def dequant (tscale scale : Nat) (op : Int) : Nat :=
  match fdec fmt32 tscale with
  | .fin n m e => fpack fmt16 (n != decide (op < 0)) (m * scaleSig scale * op.natAbs) (e + (scaleExp scale : Int) - 18)
  | _ => 0x7E00

/-- DQN: FP16 elements from codes; a block that fails its check becomes NaN and is counted (R150). -/
def execDqn (c : Nat) (f : Fields) (u : List Upset) (s : State) : Out :=
  issue c u s fun e s =>
    let d := descOf (areg e.core.regs f.aa)
    checked ({ cause := 0x02, bad := stray { rd := true, aa := true } f }
        :: (descChecks f.aa.toNat d ++ [{ cause := 0x09, dreg := some f.aa.toNat, bad := quantShapeBad d }]))
      [accessCheck e f.aa.toNat d] s fun _ =>
    clearOf e (spansOf d false) s fun _ =>
    if readLost u then memoryFault s else
    let bs := (List.range (rowBlocks d)).map fun b => actBlock s e u d b 0 0 0
    let el := fun i =>
      match bs[i / 64]? with
      | none => 0
      | some a =>
        if a.cause != 0 then 0x7E00
        else if d.e0 ≤ i ∨ emptyHdr a.h then 0 else dequant d.tscale a.h (feedVal (a.ops.getD (i % 64) []))
    regsDone e ((chargeCarrel e ((bs.filter (·.fetched)).length * blockBytes d.fmt + 4 * rowBlocks d) s)) fun r =>
      let r := setV f.rd.toNat (vmake el) r
      { r with q := bumpQ r.q 4 (bs.filter fun a => a.cause != 0).length }

/-- STAT: reads a quantiser counter and may clear it (R55). -/
def execStat (c : Nat) (w : Fetched) (s : State) : Out :=
  let f := w.fields
  issue c w.upsets s fun e s =>
    let k := f.xf.toNat % 8
    checked [{ cause := 0x02, bad := stray { mod := 1, rd := true, xf := 7 } f }, { cause := 0x0E, bad := decide (5 ≤ k) }] [] s fun _ =>
    regsDone e s fun r =>
      let v := readQ r.q k
      setS f.rd v (if f.mod.getLsbD 0 then { r with q := clearQ r.q k } else r)

end Sys2Proof.Machine
end

