-- ==== Sys2Proof/Machine/Sync.lean ====
section
/-! DEFINITION. Machine/Sync.lean: post-processing calls (R151, R233 to R236, R286), semaphores and fences (R114 to R118), tallies,
claims and COMMIT (R120 to R124, R152). -/

namespace Sys2Proof.Machine

/-! ### Slots of the shared units (R286) -/

/-- The first free slot at or after `k`, counting on from slot 63 to slot 0. -/
def freeSlot (t : Tab Nat) (k : Nat) : Option Nat :=
  ((List.range 64).map fun i => (k + i) % 64).find? fun n => (tfind t n).isNone

/-- Slots of the 64-slot round: slot to partition, placed for the shares in the order of the partitions. -/
def placeSlots (shares : List Nat) : Tab Nat :=
  (List.range shares.length).foldl (fun t p =>
    let w := shares.getD p 0
    (List.range w).foldl (fun t j => match freeSlot t (64 * j / w) with | some n => tset t n p | none => t) t) []

/-- The partition that is served in slot n, when the partitions in `asks` have requests. -/
def slotFor (shares : List Nat) (n : Nat) (asks : List Nat) : Option Nat :=
  let pass := fun (from' : Nat) => ((List.range 4).map fun i => (from' + i) % 4).find? fun p => asks.contains p
  match tfind (placeSlots shares) n with
  | some 0 => if asks.contains 0 then some 0 else none
  | some p => pass p
  | none => pass 0

/-- The shares of the post-processing unit. -/
def ppShares (s : State) : List Nat := (List.range 4).map fun p => if (partAt s p).present then (partAt s p).ppwin else 0
/-- The shares of the Cellar. -/
def celShares (s : State) : List Nat := (List.range 4).map fun p => if (partAt s p).present then (partAt s p).celwin else 0

/-! ### Box decoding and suppression (R233 to R235) -/

/-- A candidate (Table 9.4); coordinates and score are FP32 bits. -/
structure Cand where
  x0 : Nat
  y0 : Nat
  x1 : Nat
  y1 : Nat
  score : Nat
  cls : Nat
  level : Nat
  anchor : Nat
  pos : Nat
  deriving DecidableEq, Repr

/-- The 32-byte record of a candidate. -/
def candBytes (k : Cand) : List Byte :=
  leBytes 4 k.x0 ++ leBytes 4 k.y0 ++ leBytes 4 k.x1 ++ leBytes 4 k.y1 ++ leBytes 4 k.score ++ leBytes 2 k.cls
    ++ leBytes 1 k.level ++ leBytes 1 k.anchor ++ leBytes 4 k.pos ++ leBytes 4 0

/-- The candidate of a 32-byte record. -/
def candOf (b : List Byte) : Cand where
  x0 := leAt b 0 4
  y0 := leAt b 4 4
  x1 := leAt b 8 4
  y1 := leAt b 12 4
  score := leAt b 16 4
  cls := leAt b 20 2
  level := leAt b 22 1
  anchor := leAt b 23 1
  pos := leAt b 24 4

/-- A box-decode parameter table by its fields (Table 9.3). -/
structure BoxTab where
  free : Bool
  nlev : Nat
  nanch : Nat
  obj : Bool
  agnostic : Bool
  ncls : Nat
  topk : Nat
  maxkeep : Nat
  scoreTh : Nat
  iouTh : Nat
  bytes : List Byte
  deriving DecidableEq, Repr

/-- Read a table. -/
def boxTab (b : List Byte) : BoxTab where
  free := leAt b 0 1 == 1
  nlev := leAt b 1 1
  nanch := leAt b 2 1
  obj := nbit (leAt b 3 1) 0
  agnostic := nbit (leAt b 3 1) 1
  ncls := leAt b 4 2
  topk := leAt b 6 2
  maxkeep := leAt b 8 2
  scoreTh := fcvt fmt16 fmt32 (leAt b 10 2)
  iouTh := fcvt fmt16 fmt32 (leAt b 12 2)
  bytes := b

/-- Stride, width, height and data offset of a level. -/
def BoxTab.stride (t : BoxTab) (l : Nat) : Nat := leAt t.bytes (16 + 16 * l) 2
/-- GW of a level. -/
def BoxTab.gw (t : BoxTab) (l : Nat) : Nat := leAt t.bytes (16 + 16 * l + 2) 2
/-- GH of a level. -/
def BoxTab.gh (t : BoxTab) (l : Nat) : Nat := leAt t.bytes (16 + 16 * l + 4) 2
/-- Byte offset of a level's data. -/
def BoxTab.off (t : BoxTab) (l : Nat) : Nat := leAt t.bytes (16 + 16 * l + 6) 4
/-- Channels of a position and anchor. -/
def BoxTab.ch (t : BoxTab) : Nat := 4 + b2n t.obj + t.ncls
/-- An anchor's width (k = 0) or height (k = 1) in FP32. -/
def BoxTab.anch (t : BoxTab) (l a k : Nat) : Nat := fcvt fmt16 fmt32 (leAt t.bytes (96 + 12 * l + 4 * a + 2 * k) 2)

/-- The exponential of x, both in units of 2^-400, for |x| up to 105: the series of x / 256, squared eight times. -/
def expFix (x : Int) : Int :=
  let one : Int := 2 ^ 400
  let r := x / 256
  let y := ((List.range 60).foldl (fun (a : Int × Int) k => let t := a.2 * r / one / ((k + 1 : Nat) : Int); (a.1 + t, t)) (one, one)).1
  (List.range 8).foldl (fun y _ => y * y / one) y

/-- An FP32 value in units of 2^-400, held to 105 either way. -/
def fix400 (neg : Bool) (m : Nat) (e : Int) : Int :=
  let v := min (floorInt false m (e + 400)) (105 * 2 ^ 400)
  if neg then -v else v

/-- A value given in units of 2^-400 and at least 0 as the unit returns it: any FP32 value v within 2 ulp of it that the implementation
gives, else the nearest (R234, log entry 5). -/
def near2 (t : Int) (v : Nat) : Nat :=
  let ulp : Int := 2 ^ (max ((Nat.log2 t.toNat : Int) - 423) (-149) + 400).toNat
  match fdec fmt32 v with
  | .fin false m e => if decide (floorInt false m (e + 400) - t ≤ 2 * ulp) && decide (t - floorInt false m (e + 400) ≤ 2 * ulp) then v
                      else fpack fmt32 false t.toNat (-400)
  | _ => fpack fmt32 false t.toNat (-400)

/-- The logistic function on FP32 bits, accurate to within 2 ulp (R234). -/
def sig32 (x : Nat) : Nat :=
  match fdec fmt32 x with
  | .fin n m e => near2 (2 ^ 800 / (2 ^ 400 + expFix (fix400 (!n) m e))) (Config.sigma (BitVec.ofNat 32 x)).toNat
  | .inf n => if n then 0 else 0x3F800000
  | .nan => fnan fmt32 x x

/-- The exponential on FP32 bits, accurate to within 2 ulp (R234). -/
def exp32 (x : Nat) : Nat :=
  match fdec fmt32 x with
  | .fin n m e => near2 (expFix (fix400 n m e)) (Config.expo (BitVec.ofNat 32 x)).toNat
  | .inf n => if n then 0 else fmt32.inf
  | .nan => fnan fmt32 x x

/-- The class of highest score with that score, the lowest class on a tie. -/
def bestClass (f : Nat → Nat) (n : Nat) : Nat × Nat :=
  (List.range n).foldl (fun b k => if k = 0 then (0, f 0) else if flt fmt32 b.2 (f k) then (k, f k) else b) (0, 0)

/-- The candidate of a position and anchor; `el` reads the level's elements as FP32. -/
def decodeOne (t : BoxTab) (el : Nat → Nat) (l gx gy a : Nat) : Cand :=
  let at0 := ((gy * t.gw l + gx) * t.nanch + a) * t.ch
  let x := fun k => el (at0 + k)
  let add := fadd fmt32
  let sub := fsub fmt32
  let mul := fmul fmt32
  let i := fun (n : Nat) => fofInt fmt32 n
  let st := i (t.stride l)
  let half := 0x3F000000
  let box : Nat × Nat × Nat × Nat :=
    if t.free then
      (mul (sub (add (i gx) half) (x 0)) st, mul (sub (add (i gy) half) (x 1)) st,
       mul (add (add (i gx) half) (x 2)) st, mul (add (add (i gy) half) (x 3)) st)
    else
      let cx := mul (add (i gx) (sig32 (x 0))) st
      let cy := mul (add (i gy) (sig32 (x 1))) st
      let w := mul (mul (t.anch l a 0) (exp32 (x 2))) half
      let h := mul (mul (t.anch l a 1) (exp32 (x 3))) half
      (sub cx w, sub cy h, add cx w, add cy h)
  let score := fun k =>
    let c := sig32 (x (4 + b2n t.obj + k))
    if t.obj then mul c (sig32 (x 4)) else c
  let b := bestClass score t.ncls
  { x0 := box.1, y0 := box.2.1, x1 := box.2.2.1, y1 := box.2.2.2, score := b.2, cls := b.1, level := l, anchor := a,
    pos := gy * t.gw l + gx }

/-- Candidates in score order, highest first, equal scores in their order. -/
def byScore (l : List Cand) : List Cand := sortBy (fun k => ((2 ^ 33 : Int) - ford fmt32 k.score).toNat) l

/-- Candidates by level, then position, then anchor. -/
def byPlace (l : List Cand) : List Cand := sortBy (fun k => (k.level * 2 ^ 32 + k.pos) * 256 + k.anchor) l

/-- The decoded candidates: those at or above SCORE_TH, at most the TOPK highest, by level, position and anchor (R234). -/
def decodeBoxes (t : BoxTab) (el : Nat → Nat → Nat) : List Cand :=
  let all := (List.range t.nlev).flatMap fun l => (List.range (t.gh l * t.gw l)).flatMap fun p =>
    (List.range t.nanch).map fun a => decodeOne t (el l) l (p % t.gw l) (p / t.gw l) a
  let keep := all.filter fun k => !flt fmt32 k.score t.scoreTh
  if t.topk < keep.length then byPlace ((byScore keep).take t.topk) else keep

/-- The intersection over union of two boxes in FP32; a box of zero area has IoU 0 (R235). -/
def iou (a b : Cand) : Nat :=
  let side := fun (l r : Nat) => let d := fsub fmt32 r l; if flt fmt32 0 d then d else 0
  let area := fun (k : Cand) => fmul fmt32 (side k.x0 k.x1) (side k.y0 k.y1)
  let x := fmul fmt32 (side (fmax fmt32 a.x0 b.x0) (fmin fmt32 a.x1 b.x1)) (side (fmax fmt32 a.y0 b.y0) (fmin fmt32 a.y1 b.y1))
  if area a % fmt32.signBit = 0 ∨ area b % fmt32.signBit = 0 then 0
  else fdiv fmt32 x (fsub fmt32 (fadd fmt32 (area a) (area b)) x)

/-- Greedy suppression of an ordered list, at most n boxes kept (R235). -/
def suppress (t : BoxTab) : Nat → List Cand → List Cand
  | 0, _ => []
  | _, [] => []
  | n + 1, k :: r => k :: suppress t n (r.filter fun x => !((t.agnostic || x.cls == k.cls) && flt fmt32 t.iouTh (iou k x)))

/-- A kept box clipped to the input tensor. -/
def clipBox (t : BoxTab) (k : Cand) : Cand :=
  let most := fun (g : Nat → Nat) => fofInt fmt32 (((((List.range t.nlev).map g).foldl max 0 : Nat)) : Int)
  let w := most fun l => t.gw l * t.stride l
  let h := most fun l => t.gh l * t.stride l
  let cl := fun (hi x : Nat) => if flt fmt32 x 0 then 0 else if flt fmt32 hi x then hi else x
  { k with x0 := cl w k.x0, y0 := cl h k.y0, x1 := cl w k.x1, y1 := cl h k.y1 }

/-- Suppression of a candidate list (R235). -/
def nms (t : BoxTab) (l : List Cand) : List Cand := (suppress t t.maxkeep (byScore (byPlace l))).map (clipBox t)

/-! ### Publishing writes (R114, R123) -/

/-- Write bytes of the global share at CLUSTER scope (into the stacks) or at DEVICE scope (into DRAM). -/
def publish (e : Env) (device : Bool) (a : Nat) (bs : List Byte) (s : State) : State :=
  (List.range bs.length).foldl (fun s i =>
    match globalKey s e (a + i) with
    | none => s
    | some k =>
      let b := bs.getD i 0
      let s := modCore e.ph (fun c => { c with writes := tdrop c.writes k }) s
      if device then dramPut k b (dropLines [k] s)
      else modClu (e.c / 4) (fun c => { c with stackLines := tset c.stackLines k b }) s) s

/-- Several published writes. -/
def publishAll (e : Env) (device : Bool) (l : List (Nat × List Byte)) (s : State) : State :=
  l.foldl (fun s w => publish e device w.1 w.2 s) s

/-! ### PPC (R151, R236, R286) -/

/-- The records a descriptor's range holds. -/
def listRoom (d : Desc) : Nat := spanBytes d / 32

/-- What the unit answers for a call: decode, NMS, or decode then NMS (R151). NMS alone reads the candidate list that AD names: every 32-byte
record of AD's range is a candidate, and AA is neither used nor required to be zero, a choice of the model (log entry 108). -/
def ppcList (s : State) (e : Env) (f : Fields) : List Cand :=
  let fn := f.mod.toNat % 4
  let t := boxTab (e.ctx.boxes.getD (f.imm.toNat % 256) [])
  let a := descOf (areg e.core.regs f.aa)
  let d := descOf (areg e.core.regs f.ad)
  let el := fun l i => fcvt fmt16 fmt32 (leNat ((List.range 2).map fun k => spaceByte s e a.glob (a.base + t.off l + 2 * i + k)))
  let old := (List.range (listRoom d)).map fun r =>
    candOf ((List.range 32).map fun k => spaceByte s e d.glob (d.base + 32 * r + k))
  match fn with
  | 0 => decodeBoxes t el
  | 1 => nms t old
  | _ => nms t (decodeBoxes t el)

/-- A call takes effect: the list becomes visible at CLUSTER scope, s[RD] takes the number of boxes kept, and the frame's count of
kept boxes is recorded. -/
def ppcEffect (e : Env) (f : Fields) (s : State) : State :=
  let d := descOf (areg e.core.regs f.ad)
  let l := ppcList s e f
  let w := (List.range (min l.length (listRoom d))).map fun r => (d.base + 32 * r, ((l[r]?).map candBytes).getD [])
  let s := if d.glob then publishAll e false w s else spaceWrites e false w s
  let s := modCore e.ph (fun k => { k with regs := setS f.rd (BitVec.ofNat 32 l.length) k.regs }) s
  match jobOf s e.part.job with
  | some j => if f.mod.toNat % 4 = 0 then s else (jobFrames j).foldl (fun s p => modFrame p.1 p.2 (fun x => { x with ncand := l.length }) s) s
  | none => s

/-- The bytes of a head's levels lie in the share. -/
def headInShare (e : Env) (a : Desc) (t : BoxTab) : Bool :=
  (List.range t.nlev).all fun l => inShare e a.glob (a.base + t.off l) (2 * t.gw l * t.gh l * t.nanch * t.ch)

/-- PPC: calls the post-processing unit; the call runs in this slot when its partition is served in it, and waits otherwise. -/
def execPpc (c : Nat) (f : Fields) (u : List Upset) (s : State) : Out :=
  issue c u s fun e s =>
    let fn := f.mod.toNat % 4
    let a := descOf (areg e.core.regs f.aa)
    let d := descOf (areg e.core.regs f.ad)
    let k := f.imm.toNat % 256
    checked ({ cause := 0x02, bad := stray { mod := 3, rd := true, aa := true, ad := true, imm := 0xFF } f }
        :: { cause := 0x05, bad := fn == 3 } :: { cause := 0x0E, bad := decide (e.ctx.boxes.length ≤ k) }
        :: (descChecks f.ad.toNat d ++ (if fn = 1 then [] else descChecks f.aa.toNat a ++
          [{ cause := 0x09, dreg := some f.aa.toNat, bad := a.fmt != 7 }])))
      [{ cause := if d.glob then 0x02 else 0x01, dreg := some f.ad.toNat, bad := !inShare e d.glob d.base (spanBytes d) },
       importCheck s e f.ad.toNat d false,
       { cause := if a.glob then 0x02 else 0x01, dreg := some f.aa.toNat,
         bad := fn != 1 && !headInShare e a (boxTab (e.ctx.boxes.getD k [])) },
       { importCheck s e f.aa.toNat a false with bad := fn != 1 && (importCheck s e f.aa.toNat a false).bad }] s fun _ =>
    clearOf e (spansOf d true ++ (if fn = 1 then [] else spansOf a false)) s fun _ =>
    if readLost u then memoryFault s else
    let cl := cluAt s (c / 4)
    let asks := e.ctx.part :: cl.calls.map (·.part)
    if cl.calls.all (fun x => x.part != e.ctx.part) && slotFor (ppShares s) cl.slot asks == some e.ctx.part then
      .done (ppcEffect e f (s))
    else
      .hold (modClu (c / 4) (fun x => { x with calls := x.calls ++ [{ core := c, part := e.ctx.part, f := f }] })
        (holdPart e .ppc (s)))

/-- A suspended call of a core whose part no longer waits for it is dropped; otherwise it takes effect and completes. -/
def finishCall (k : PpcCall) (s : State) : State :=
  match waitingEnv s k.core with
  | some e =>
    if (coreAt s e.ph).part.any fun p => p.wait == .ppc then
      settlePart k.core (retire e.ph ((coreAt s e.ph).regs.pc + 16) (holdPart e .none (ppcEffect e k.f s)))
    else s
  | none => s

/-! ### Semaphores and fences (R114 to R118, R152) -/

/-- An implicit or explicit fence waits for every earlier instruction of the core, a queued HXCH included. -/
def fenced (e : Env) (s : State) (k : Unit → Verdict) : Verdict := if e.core.halo.isEmpty then k () else .hold s

/-- FENCE. A DEVICE fence also waits for the core's remote writes (R377); none is out while the core issues. -/
def execFence (c : Nat) (w : Fetched) (s : State) : Out :=
  let f := w.fields
  issue c w.upsets s fun e s =>
    let k := f.mod.toNat % 4
    checked [{ cause := 0x02, bad := stray { mod := 3 } f }, { cause := 0x05, bad := k == 3 }] [] s fun _ =>
    fenced e s fun _ =>
      .done (match k with
        | 0 => s
        | 1 => fenceCluster e.ph s
        | _ => fenceDevice e.ph s)

/-- SEMW: takes n counts and writes 0, tests once with t = 0, or waits. -/
def execSemw (c : Nat) (w : Fetched) (s : State) : Out :=
  let f := w.fields
  issue c w.upsets s fun e s =>
    let i := f.imm.toNat
    let n := bits i 15 0
    let t := bits i 47 24
    let k := f.xf.toNat % 256
    checked [{ cause := 0x02, bad := stray { rd := true, xf := 0xFF, imm := 0x0000FFFFFF00FFFF } f },
             { cause := 0x05, bad := n == 0 }, { cause := 0x08, bad := decide (e.prog.nsem ≤ k) }] [] s fun _ =>
    let sem := e.res.semBase + k
    let s' := holdPart e (.semw sem n f.rd.toNat) s
    if n ≤ tget (cluAt s (c / 4)).sems 0 sem then .hold (grantOne (c / 4) e.ph s')
    else if t = 0 then regsDone e (countEv e.ph 0x17 1 s) (setS f.rd 1)
    else .hold s'

/-- SEMW_TIMEOUT: the timeout of a waiting SEMW wins: nothing is taken and 1 is written (R118). -/
def execSemwTimeout (c : Nat) (s : State) : Out :=
  .next (match waitingEnv s c with
    | some e =>
      match (coreAt s e.ph).part.map (fun p => p.wait) with
      | some (Wait.semw _ _ rd) =>
        let s := holdPart e .none (modCore e.ph (fun k => { k with regs := setS (BitVec.ofNat 5 rd) 1 k.regs }) s)
        retire e.ph ((coreAt s e.ph).regs.pc + 16) (countEv e.ph 0x17 1 s)
      | _ => s
    | none => s)

/-- The cluster an instruction names: its own, or by MOD[0] and XF[10:8] another (R152). -/
def namedCluster (c : Nat) (f : Fields) : Nat := if f.mod.getLsbD 0 then bits f.xf.toNat 10 8 else c / 4

/-- The XF bits of an instruction that may name a cluster. -/
def remoteXf (f : Fields) (own : BitVec 13) : BitVec 13 := if f.mod.getLsbD 0 then own ||| 0x700 else own

/-- Raise a semaphore's count; the adding job's owner record counts what it gave, and waiters are served (R115, R116). -/
def addSem (cl sem n job : Nat) (s : State) : State :=
  grantSems cl (modClu cl (fun k =>
    { k with sems := tset k.sems sem (tget k.sems 0 sem + n)
             holdings := upsert (fun h => h.1 == sem && h.2.1 == job) (sem, job, heldBy k sem job - n) k.holdings }) s)

/-- SEMS: adds n after an implicit fence; a presumed-dead part's SEMS is dropped and counted (R175). -/
def execSems (c : Nat) (w : Fetched) (s : State) : Out :=
  let f := w.fields
  issue c w.upsets s fun e s =>
    let n := bits f.imm.toNat 15 0
    let k := f.xf.toNat % 256
    let cl := namedCluster c f
    let res := residencyOf s cl e.part.ctx
    let sem := (res.map (·.semBase)).getD 0 + k
    checked [{ cause := 0x02, bad := stray { mod := 1, xf := remoteXf f 0xFF, imm := 0xFFFF } f },
             { cause := 0x05, bad := n == 0 }, { cause := 0x08, bad := decide (e.prog.nsem ≤ k) || res.isNone }] [] s fun _ =>
    fenced e s fun _ =>
    if e.part.dead then .done (countEv (40 + c / 4) 0x23 1 s)
    else if 65535 < tget (cluAt s cl).sems 0 sem + n then .fault { code := 0x06, cause := 0 } s
    else .done (addSem cl sem n e.part.job (if cl = c / 4 then fenceCluster e.ph s else fenceDevice e.ph s))

/-! ### Tallies and claims (R120 to R124) -/

/-- TAKE: returns a tally's value and adds a step, holding at 0xFFFF_FFFF. -/
def execTake (c : Nat) (w : Fetched) (s : State) : Out :=
  let f := w.fields
  issue c w.upsets s fun e s =>
    let d := bits f.imm.toNat 15 0
    let k := f.xf.toNat % 64
    let cl := namedCluster c f
    let res := residencyOf s cl e.part.ctx
    checked [{ cause := 0x02, bad := stray { mod := 1, rd := true, xf := remoteXf f 0x3F, imm := 0xFFFF } f },
             { cause := 0x05, bad := d == 0 }, { cause := 0x08, bad := decide (e.prog.ntally ≤ k) || res.isNone }] [] s fun _ =>
    let t := (res.map (·.tallyBase)).getD 0 + k
    let v := tget (cluAt s cl).tallies 0 t
    regsDone e (modClu cl (fun x => { x with tallies := tset x.tallies t (satInc v d) }) s) (setS f.rd v)

/-- The frame number of a job's frame. -/
def frameNumber (s : State) (j : Job) : Nat := ((frameOf s j.stream j.frame).bind (·.num)).getD 0

/-- The claim of a context, frame number and key; an unlisted claim is FREE. -/
def claimAt (s : State) (ctx frame : Nat) (key : Word) : Option Claim :=
  s.claims.find? fun k => k.ctx == ctx && k.frame == frame && k.key == key

/-- Set a claim's state. -/
def setClaim (ctx frame stream : Nat) (key : Word) (st : ClaimState) (s : State) : State :=
  let c : Claim := { ctx := ctx, frame := frame, stream := stream, key := key, state := st }
  { s with claims := upsert (fun k => k.ctx == ctx && k.frame == frame && k.key == key) c s.claims }

/-- The key of CLAIM and COMMIT: s[RA] + IMM modulo 2^32. -/
def claimKey (e : Env) (f : Fields) : Word := sreg e.core.regs f.ra + f.imm.setWidth 32

/-- CLAIM: wins a FREE or RELEASED claim; a claim beyond CLAIMS faults (R122). On a key whose COMMIT still copies it waits, so that a 0 means
that the copy is visible (R174). A presumed-dead part wins none (log entry 23). -/
def execClaim (c : Nat) (w : Fetched) (s : State) : Out :=
  let f := w.fields
  issue c w.upsets s fun e s =>
    checked [{ cause := 0x02, bad := stray { rd := true, ra := true, imm := 0xFFFFFFFF } f }] [] s fun _ =>
    match jobOf s e.part.job with
    | none => regsDone e s (setS f.rd 0)
    | some j =>
      let n := frameNumber s j
      let key := claimKey e f
      let st := (claimAt s j.ctx n key).map (·.state)
      if !e.part.dead && (match st with | some (ClaimState.publishing _ _) => true | _ => false) then .hold s
      else if !(st == none || st == some .released) || e.part.dead then regsDone e s (setS f.rd 0)
      else if e.prog.claims ≤ e.part.claims then .fault { code := 0x07, cause := 0 } s
      else
        let s := setClaim j.ctx n j.stream key (.won e.part.job e.part.started) s
        let s := modCore e.ph (fun k => { k with part := k.part.map fun p => { p with claims := p.claims + 1 } }) s
        regsDone e s (setS f.rd 1)

/-- COMMIT: publishes a staging range under a claim this part won (R123). A staging range that reads uncorrectable leaves part of
the copy written, as many rows and headers as a free value says, releases the claim, and faults. -/
def execCommit (c : Nat) (f : Fields) (u : List Upset) (s : State) : Out :=
  issue c u s fun e s =>
    let d := descOf (areg e.core.regs f.ad)
    let t := descOf (areg e.core.regs f.aa)
    let device := f.mod.getLsbD 0
    let key := claimKey e f
    checked (moveChecks f { mod := 1, ra := true, ad := true, aa := true, imm := 0xFFFFFFFF } d t (!d.glob || t.glob) false)
      [accessCheck e f.ad.toNat d, importCheck s e f.ad.toNat d true, accessCheck e f.aa.toNat t] s fun _ =>
    clearOf e (spansOf t false) s fun _ =>
    match jobOf s e.part.job with
    | none => .done (countEv (40 + c / 4) 0x23 1 s)
    | some j =>
      let n := frameNumber s j
      let won := match claimAt s j.ctx n key with
        | some k => !e.part.dead && k.state == .won e.part.job e.part.started
        | none => false
      let put := fun st => setClaim j.ctx n j.stream key st
      let l := copyWrites e.ctx.codebooks (spaceByte s e false) u false d t
      if !won then .done (countEv (40 + c / 4) 0x23 1 s)
      else if readLost u then
        memoryFault (useFree 1 (put .released (publishAll e device (l.take ((freeBits s 0 64).toNat % (l.length + 1))) s)))
      else
        match liesIn s e d with
        | .inside w =>
          startRemote e w (.commit key) (storePieces w l)
            (chargeCopy e d t (put (if (egress s w.peer).isNone then .released else .publishing e.part.job e.part.started) s))
        | _ => .done (publishAll e device l ((chargeCopy e d t (put .committed s))))

end Sys2Proof.Machine
end

