-- ==== Sys2Proof/Machine/Cellar.lean ====
section
/-! DEFINITION. Machine/Cellar.lean: the buffer pool manager (R319 to R331), the zero map (R317, R318) and the memory controllers
(R305 to R315). -/

namespace Sys2Proof.Machine

/-! ### Folio buffers -/

/-- The pool buffer of a folio, in bytes (R349). -/
def folioBytes : Nat := 262144

/-- A frame's folio is finished: its staging buffer is drawn; a failed draw gives the gap NO_BUFFER (R322). -/
def finishFolio (id order : Nat) (s : State) : State :=
  match frameOf s id order with
  | some f =>
    if f.result.isSome then putResult id order .folio s
    else
      let (ptr, s) := drawFor 2 (.stream id) (strm s id).owner s
      match ptr with
      | some a => putResult id order .folio (modFrame id order (fun f => { f with folioPtr := some a }) s)
      | none => putResult id order (.gap 4) s
  | none => putResult id order .folio s

/-! ### The commands -/

/-- Serve the waiting draws of the partition that slot n serves (R286). -/
def serveDraws (s : State) : State :=
  let partOf := fun (w : Nat × Owner) => ((poolAt s w.1).map (·.part)).getD 4
  match slotFor (celShares s) s.mem.slot (s.mem.waiting.map partOf) with
  | none => s
  | some p =>
    let mine := s.mem.waiting.filter fun w => partOf w == p
    mine.foldl (fun s w => (drawBuf w.1 w.2 (ownerFn s w.2) false s).2)
      { s with mem := { s.mem with waiting := s.mem.waiting.filter fun w => partOf w != p } }

/-- CELLAR_DRAW: a draw in its partition's slot, else it waits for one (R286, R322). -/
def execCellarDraw (pool : Nat) (owner : Owner) (lost : Bool) (s : State) : Out :=
  .next (match upAt s nocIsland, poolAt s pool with
    | true, some q =>
      if slotFor (celShares s) s.mem.slot [q.part] == some q.part then (drawBuf pool owner (ownerFn s owner) lost s).2
      else { s with mem := { s.mem with waiting := s.mem.waiting ++ [(pool, owner)] } }
    | _, _ => s)

/-- CELLAR_RETURN: a returned pointer, checked (R324). -/
def execCellarReturn (part ptr : Nat) (owner : Owner) (s : State) : Out :=
  .next (if upAt s nocIsland then returnBuf part ptr owner s else s)

/-- QUARANTINE_RECLAIM: the flush markers have returned and the buffer enters the free store (R326). -/
def execQuarantineReclaim (pool ptr : Nat) (s : State) : Out :=
  .next (match upAt s nocIsland, poolAt s pool with
    | true, some q =>
      match q.quarantined.find? fun c => c.1 == ptr with
      | some c => settlePool pool (setPool pool (enterFree ptr c.2 { q with quarantined := q.quarantined.filter (· != c) }) s)
      | none => s
    | _, _ => s)

/-- The buffers that the ownership bitmap shows free and that are absent from ring and cache (R331). -/
def lostPtrs (q : Pool) : List Nat :=
  let known := (q.cache ++ q.store ++ q.quarantined ++ q.wiping).map (·.1) ++ q.held.map (·.1)
  (q.chunks.flatMap fun c => (List.range c.2).map fun i => c.1 + i * q.stride).filter fun x => !known.contains x

/-- CELLAR_REBUILD_DONE: the free store is rebuilt and reported with the pool number; a bitmap line that reads uncorrectable is a C3
fault of the pool's partition, and the pool is made afresh once its buffers have returned (R331). A re-entered pointer has lost the record of its
last owner. -/
def execCellarRebuildDone (pool : Nat) (bitmapBad : Bool) (s : State) : Out :=
  .next (match upAt s nocIsland, poolAt s pool with
    | true, some q =>
      if !q.rebuilding then s
      else if bitmapBad then
        settlePool pool (partFault q.part { source := 0x07, unit := some pool } (setPool pool { q with rebuilding := false, bad := true } s))
      else
        let s := setPool pool ((lostPtrs q).foldl (fun q x => enterFree x 0xFFFF q) { q with rebuilding := false }) s
        emit { cls := 0, part := some q.part, source := 0x07, unit := some pool } s
    | _, _ => s)

/-- Report a DRAM event with its location words, whose layout the spec leaves open (R309, log entry 29). -/
def dramEvent (cls ch : Nat) (s : State) : State :=
  let d := (List.range 3).map fun i => (freeBits s i 32).toNat
  useFree 3 (emit { cls := cls, source := 0x06, unit := some ch, detail := d } s)

/-- A channel answers commands: it is used, has not failed, its clock runs, and the device runs. -/
def channelRuns (s : State) (ch : Nat) : Bool :=
  let c := tget s.mem.channels {} ch
  running s && blockUp s (86 + ch) && decide (ch < 8) && c.used && !c.failed

/-- DRAM_REFRESH: the refresh is issued with what is owed, or postponed while a critical read waits, up to 8 owed (R315). -/
def execDramRefresh (ch rank : Nat) (critical : Bool) (s : State) : Out :=
  .next (if !channelRuns s ch || decide ((tget s.mem.channels {} ch).ranks ≤ rank) then s else
    countEv (86 + ch) 0x42 (b2n (critical && decide (tget (tget s.mem.channels {} ch).owed 0 rank < 8))) (modChan ch (fun c =>
      let o := tget c.owed 0 rank
      let n := if critical then min (o + 1) 8 else 0
      { c with owed := tset c.owed rank n, postMax := max c.postMax n }) s))

/-- DRAM_RETRAIN: one retraining pause of a rank (R315). -/
def execDramRetrain (ch rank : Nat) (s : State) : Out :=
  .next (if !channelRuns s ch || decide ((tget s.mem.channels {} ch).ranks ≤ rank) then s else
    modChan ch (fun c => { c with retrain := satInc c.retrain }) s)

/-- The devices of a rank marked failed. -/
def Channel.erased (c : Channel) (rank : Nat) : Nat := (if rank = 0 then c.erased0 else c.erased1).toNat

/-- Whether an error in one device meets a rank where another device of the same sub-channel is marked failed: the code then detects it and
cannot correct it (R310). -/
def secondFailing (c : Channel) (rank device : Nat) : Bool :=
  (List.range 10).any fun d => 10 * (device / 10) + d != device && nbit (c.erased rank) (10 * (device / 10) + d)

/-- A corrected read of a device: counted, reported, and at 16 within 24 hours the device is marked failed (R309, R310). -/
def correctedRead (ch rank device aged : Nat) (s : State) : State :=
  let s := modChan ch (fun c => { c with ce := satInc c.ce }) s
  let c := tget s.mem.channels {} ch
  if nbit (c.erased rank) device then dramEvent 0 ch s else
  let n := tget c.corrected 0 (20 * rank + device) - aged + 1
  let s := dramEvent 0 ch (modChan ch (fun c => { c with corrected := tset c.corrected (20 * rank + device) n }) s)
  if n < 16 then s else
  let mark := fun (e : BitVec 20) => e ||| BitVec.ofNat 20 (2 ^ device)
  dramEvent 0 ch (modChan ch (fun c =>
    if rank = 0 then { c with erased0 := mark c.erased0 } else { c with erased1 := mark c.erased1 }) s)

/-- A read whose data the code cannot correct: the line is poisoned in the large configuration (R311, R312, R314). -/
def uncorrectableRead (ch line : Nat) (s : State) : State :=
  dramEvent 0 ch (modChan ch (fun c =>
    { c with ue := satInc c.ue, poison := if c.rdimm && !c.poison.contains line then line :: c.poison else c.poison }) s)

/-- DRAM_SCRUB: the scrub reads a line, mends a correctable error, and poisons uncorrectable data in the large configuration
(R309 to R314). An error in a second device of a marked rank is uncorrectable. A granule that is logically zero is not touched. -/
def execDramScrub (ch line : Nat) (err : DramError) (s : State) : Out :=
  .next (
    let c := tget s.mem.channels {} ch
    if !channelRuns s ch || decide (c.gib * 2 ^ 30 ≤ 64 * line) || c.zeroMap.contains (line / 1024) then s else
    match err with
    | .clean => s
    | .corrected rank device aged =>
      if decide (c.ranks ≤ rank) || decide (20 ≤ device) then s
      else if secondFailing c rank device then uncorrectableRead ch line s
      else correctedRead ch rank device aged s
    | .uncorrectable => uncorrectableRead ch line s)

/-- The bytes of a line become unknown data (R312). -/
def scramble (ch line : Nat) (s : State) : State :=
  let d := freeBits s 0 512
  useFree 1 ((List.range 64).foldl (fun s i => dramPut (dramKey ch (64 * line + i)) (d.extractLsb' (8 * i) 8) s) s)

/-- DRAM_ALERT: in the small configuration the request ends with an error response, and a write's line holds unknown data (R312); in
the large one the controller replays, and three failed replays in a row fail the channel with a C3 fault of its owner (R313). -/
def execDramAlert (ch : Nat) (alert : DramAlert) (replays : Nat) (s : State) : Out :=
  .next (
    if !channelRuns s ch then s else
    let c := tget s.mem.channels {} ch
    let s := match alert with
      | .writeCrc _ => modChan ch (fun c => { c with wcrc := satInc c.wcrc }) s
      | .parity => s
    if c.rdimm then
      let n := min replays 3 + (if replays < 3 then 1 else 0)
      let s := modChan ch (fun c => { c with replay := satInc c.replay n }) s
      let s := (List.range n).foldl (fun s _ => dramEvent 0 ch s) s
      if replays < 3 then s
      else partFault c.owner { source := 0x06, unit := some ch } (modChan ch (fun c => { c with failed := true }) s)
    else
      let s := match alert with
        | .writeCrc line => if 64 * line < c.gib * 2 ^ 30 then scramble ch line s else s
        | .parity => s
      dramEvent 0 ch s)

/-- ZERO_MAP_GRANULE: the background pass zeroes the granule whose bit was set first and clears its bit (R318); buffers that waited
for it become free (R328). -/
def execZeroMapGranule (ch : Nat) (s : State) : Out :=
  .next (if !channelRuns s ch then s else
    match (tget s.mem.channels {} ch).zeroMap with
    | g :: _ => settleWiping (settleGranule ch g s)
    | [] => s)

end Sys2Proof.Machine
end

