-- ==== Sys2Proof/Machine/Jobs.lean ====
section
/-! DEFINITION. Machine/Jobs.lean: a frame's jobs from its first FRAME program to its tracker step (R277, R289), the reuse bitmap (R225
to R232), and the start of a job's parts (R103 to R105). -/

namespace Sys2Proof.Machine

/-! ### Footprints (R226) -/

/-- sin or cos of ANGLE units of 1/128 degree, times 2^64, by its series in fixed point (log entry 24). -/
def fixTrig (odd : Bool) (angle : Int) : Int :=
  let one : Int := 2 ^ 64
  let x : Int := angle * 57952155664616982739 / 23040
  let step := fun (t : Int) (k : Nat) => -(t * x / one * x / one) / ((k * (k + 1) : Nat) : Int)
  let r := (List.range 12).foldl (fun (p : Int × Int) i =>
    let t := step p.2 (2 * i + (if odd then 2 else 1))
    (p.1 + t, t)) (if odd then (x, x) else (one, one))
  r.1

/-- A rectangle in fixed point with 64 fraction bits: x0, y0, x1, y1. -/
abbrev Rect := Int × Int × Int × Int

/-- The bounding rectangle of a rectangle turned back by ANGLE about (cx, cy). -/
def unturn (angle cx cy : Int) (r : Rect) : Rect :=
  if angle = 0 then r else
  let one : Int := 2 ^ 64
  let c := fixTrig false angle
  let s := fixTrig true angle
  let pts := [(r.1, r.2.1), (r.2.2.1, r.2.1), (r.1, r.2.2.2), (r.2.2.1, r.2.2.2)].map fun (x, y) =>
    (cx + ((x - cx) * c + (y - cy) * s) / one, cy + ((y - cy) * c - (x - cx) * s) / one)
  let xs := pts.map (·.1)
  let ys := pts.map (·.2)
  (xs.foldl min (xs.headD 0), ys.foldl min (ys.headD 0), xs.foldl max (xs.headD 0), ys.foldl max (ys.headD 0))

/-- A rectangle of the rotated crop carried back through a clockwise quarter rotation; w and h are the crop's sizes before it. -/
def unquarter (k : Nat) (w h : Int) (r : Rect) : Rect :=
  match k with
  | 0 => r
  | 1 => (r.2.1, h - r.2.2.1, r.2.2.2, h - r.1)
  | 2 => (w - r.2.2.1, h - r.2.2.2, w - r.1, h - r.2.1)
  | _ => (w - r.2.2.2, r.1, w - r.2.1, r.2.2.1)

/-- The crop of an entry clipped to a window, as width and height (R221). -/
def cropIn (o : OutEntry) (w h : Nat) : Nat × Nat := (min (o.x0 + o.cw) w - o.x0, min (o.y0 + o.ch) h - o.y0)

/-- An entry with its crop clipped to a window: the area that its resize takes to the tensor (R221). -/
def cropEntry (o : OutEntry) (w h : Nat) : OutEntry := { o with cw := (cropIn o w h).1, ch := (cropIn o w h).2 }

/-- A tensor rectangle [x0, x1) x [y0, y1) carried back to output-window coordinates, all with 64 fraction bits. -/
def toWindow (o : OutEntry) (x0 y0 x1 y1 : Int) : Rect :=
  let one : Int := 2 ^ 64
  let w : Int := o.cw * one
  let h : Int := o.ch * one
  let q := bits o.ops 5 4
  let rw := if q % 2 = 1 then o.ch else o.cw
  let rh := if q % 2 = 1 then o.cw else o.ch
  let sx := fun (x : Int) => x * rw / (max 1 o.ow : Nat)
  let sy := fun (y : Int) => y * rh / (max 1 o.oh : Nat)
  let r := unturn o.angle ((rw : Int) * one / 2) ((rh : Int) * one / 2) (sx x0, sy y0, sx x1, sy y1)
  let r := unquarter q w h r
  let r := if nbit o.ops 3 then (r.1, h - r.2.2.2, r.2.2.1, h - r.2.1) else r
  let r := if nbit o.ops 2 then (w - r.2.2.1, r.2.1, w - r.1, r.2.2.2) else r
  (r.1 + o.x0 * one, r.2.1 + o.y0 * one, r.2.2.1 + o.x0 * one, r.2.2.2 + o.y0 * one)

/-- The blocks of a footprint, rounded outward and clipped to the picture's blocks. -/
def footBlocks (f : Frame) (o : OutEntry) (t : ReuseTile) : List Nat :=
  let one : Int := 2 ^ 64
  let r := toWindow (cropEntry o f.winW f.winH) (t.x0 * one) (t.y0 * one) ((t.x1 + 1) * one) ((t.y1 + 1) * one)
  let b := fun (x : Int) (off : Nat) => (x + off * one) / (64 * one)
  let e := fun (x : Int) (off : Nat) => -(-(x + off * one) / (64 * one)) - 1
  let rows := if f.cols = 0 then 0 else f.change.length / f.cols
  (List.range f.change.length).filter fun k =>
    let x : Int := (k % f.cols : Nat)
    let y : Int := (k / f.cols : Nat)
    decide (0 < rows) && decide (b r.1 f.winX ≤ x) && decide (x ≤ e r.2.2.1 f.winX)
      && decide (b r.2.1 f.winY ≤ y) && decide (y ≤ e r.2.2.2 f.winY)

/-- The staleness limit in effect (R227, R231). -/
def effLimit (s : State) (part : Nat) (r : Reuse) : Nat :=
  let n := if r.limit = 0 then 8 else r.limit
  if 2 ≤ s.pwr.level ∧ part ≠ 0 then 2 * n else n

/-- Whether a tile of a program is reused at a frame (R227). A frame without a picture has no change map and reuses nothing. -/
def reuses (st : Stream) (f : Frame) (n prog : Nat) (t : ReuseTile) : Bool :=
  let num := f.num.getD 0
  match f.outs[t.entry]?, st.archive.valid.find? fun v => v.1 == prog && v.2.1 == t.tile with
  | some o, some v =>
    st.part != 0 && f.globalMotion.isNone && st.archive.ptr.isSome && !f.change.isEmpty
      && (footBlocks f o t).all (fun k => f.change.getD k 3 == 0 && !(f.taint.getD k true))
      && decide (num - v.2.2 < n) && t.tile % n != num % n
  | _, _ => false

/-! ### Programs and eligibility (R277, R288, R289) -/

/-- Indices of a context's programs of a role, in table order. -/
def progsOf (c : Ctx) (role : Nat) : List Nat :=
  (List.range c.progs.length).filter fun i => ((c.progs[i]?).map (·.role)) == some role

/-- The programs that a frame runs one after another: its FRAME programs, then its TRACK programs, each in table order (R277). -/
def chainOf (c : Ctx) : List Nat := progsOf c 0 ++ progsOf c 2

/-- Channels of an output entry's tensor (Table 8.14). -/
def chansOf (o : OutEntry) : Nat := if bits o.colour 1 0 = 3 then 1 else 3

/-- A priority in the order of R288: ADAPT lies below every stream priority. -/
def prioKey (role prio : Nat) : Nat := if role = 4 then 0 else prio + 1

/-- An earlier frame has started a program, or needs it no more; `ended` asks that its job has ended. -/
def progPassed (s : State) (id : Nat) (f : Frame) (c : Ctx) (role prog : Nat) (ended : Bool) : Bool :=
  let job := s.jobs.find? fun k => k.stream == id && k.frame == f.order && k.prog == prog && k.frames.isEmpty
  let run := match job with
    | some k => if ended then k.state == .ended else k.state == .running || k.state == .ended
    | none => false
  f.result.isSome || run ||
  (match role with
   | 3 => job.isNone && (f.stage == .jobs || f.stage == .tracker || f.stage == .finished)
   | _ => job.isNone && decide (((position (· == prog) (chainOf c)).getD 0) < f.prog))

/-- A job is eligible: every earlier frame of its stream has started the program, or ended it where the program reuses tiles (R229,
R289). -/
def eligible (s : State) (j : Job) : Bool :=
  match ctxAt s j.ctx, jobProg s j with
  | some c, some g =>
    !c.faulted && !(partAt s c.part).c3 &&
    (j.role == 1 || j.role == 4 ||
      (match frameOf s j.stream j.frame with
       | some f => (strm s j.stream).frames.all fun e =>
           !(match e.num, f.num with | some a, some b => decide (a < b) | some _, none => true | _, _ => false)
             || progPassed s j.stream e c j.role j.prog (nbit g.flags 1 && j.role == 0)
       | none => false))
  | _, _ => false

/-- The first eligible job of a logical core's queue: by priority, then by admission (R290). -/
def firstEligible (s : State) (c : Nat) : Option Job :=
  leastBy (fun j => (16 - prioKey j.role j.prio) * 2 ^ 64 + j.admitted)
    (s.jobs.filter fun j => j.state == .queued c && eligible s j)

/-- A logical core is free to start a job of partition p: in service, its clock running, no part, no move, no slot and no test. A core queued
for test takes none while a spare is free, or where it serves partition 0 (R88). -/
def coreFree (s : State) (p c : Nat) : Bool :=
  match servedBy s c with
  | some ph =>
    let k := coreAt s ph
    nbit (partAt s p).cores c && k.part.isNone && !k.inSlot && !s.pwr.stopped.contains ph
      && (match (cluAt s (c / 4)).moving with | some m => m.1 != c % 4 | none => true)
      && ((k.health == .inService && !k.testDue) || ((k.health == .queued || k.testDue) && p != 0 && !spareFree s (c / 4)))
  | none => false

/-! ### Creating jobs (R103, R170, R277, R415) -/

/-- A fresh job of a program for a frame. -/
def newJob (s : State) (id : Nat) (st : Stream) (order prog role band : Nat) : Job × State :=
  let (n, s) := takeOrder s
  ({ id := n, ctx := frameCtx s id order, prog := prog, stream := id, frame := order, role := role, band := band,
     prio := st.prio, admitted := order }, s)

/-- Create and queue the jobs of one program for a frame. -/
def makeJobs (id order prog role : Nat) (s : State) : State :=
  let st := strm s id
  let n := if role = 0 then (((ctxAt s (frameCtx s id order)).bind fun c => c.progs[prog]?).map (·.bands)).getD 1 else 1
  (List.range (max 1 n)).foldl (fun s b =>
    let (j, s) := newJob s id st order prog role b
    enqueue j s) s

/-- Every job of a frame has ended: the tracker step is next, or the folio is finished where the context has no tracker. -/
def toTracker (id order : Nat) (s : State) : State :=
  match ctxAt s (frameCtx s id order) with
  | some c =>
    if c.tracker.isEmpty then finishFolio id order (modFrame id order (fun f => { f with zset := some (strm s id).zones }) s)
    else modFrame id order (fun f => { f with stage := .tracker }) s
  | none => s

/-- The frame's next FRAME or TRACK program starts, or its tracker step is next (R277). -/
def nextProgram (id order : Nat) (s : State) : State :=
  match frameOf s id order, ctxAt s (frameCtx s id order) with
  | some f, some c =>
    match (chainOf c)[f.prog]? with
    | some p => makeJobs id order p (((c.progs[p]?).map (·.role)).getD 0) s
    | none => toTracker id order s
  | _, _ => s

/-- A frame whose input tensors are all there begins its jobs; those of the SENTINEL programs are queued beside them (R277). -/
def beginJobs (id order : Nat) (s : State) : State :=
  let s := nextProgram id order (modFrame id order (fun f => { f with stage := .jobs }) s)
  (((ctxAt s (frameCtx s id order)).map fun c => progsOf c 3).getD []).foldl (fun s p => makeJobs id order p 3 s) s

/-! ### Starting parts (R103 to R105, R229) -/

/-- The registers of a part at entry (Table 4.2). -/
def entryRegs (j : Job) (num idx core s5 entry : Nat) : Regs :=
  let w := fun (n : Nat) => BitVec.ofNat 32 n
  { s := [(1, w j.stream), (2, w (num % 2 ^ 32)), (3, w idx), (4, w core), (5, w s5), (6, w (min j.attempt 1))], pc := entry }

/-- An engine at a part's entry: the program's banks clear, no tile, no column poisoned. -/
def entryEngine (bankBase banks : Nat) (g : Engine) : Engine :=
  let g := (List.range banks).foldl (fun g i => clearBank (bankBase + i) g) g
  { g with h0 := {}, h1 := {}, split := false, square := false, tile := [], colPoison := 0 }

/-- The image of a tensor descriptor in global space, over an image that gives the fields it does not name (Table 5.4). -/
def descImage (d : BitVec 256) (t : Desc) : BitVec 256 :=
  [(0, 0, 1), (1, 1, 1), (5, 2, t.fmt), (6, 6, b2n t.rax3), (60, 53, t.borg), (94, 61, t.base),
   (115, 95, (hoffFor t.base t.hbase).getD 0), (129, 116, t.str1 / 32), (143, 130, t.str2 / 32), (159, 144, t.str3 / 32),
   (175, 160, t.e0 - 1), (191, 176, t.e1 - 1), (207, 192, t.e2 - 1), (223, 208, t.e3 - 1)].foldl
    (fun d x => dput d x.1 x.2.1 x.2.2) d

/-- The descriptor of an input tensor at a global offset: planar, BORG 0, its headers at the next multiple of 64 behind its codes (Table 6.3,
R218). -/
def inputDesc (o : OutEntry) (base : Nat) : BitVec 256 :=
  let row := ceilDiv o.ow 64 * blockBytes o.fmt
  let n := chansOf o * o.oh * row
  descImage defaultDesc { descOf defaultDesc with
    fmt := o.fmt, borg := 0, base := base, hbase := base + ceilDiv n 64 * 64, str1 := row, str2 := o.oh * row,
    e0 := o.ow, e1 := o.oh, e2 := chansOf o, e3 := 1 }

/-- The descriptors that firmware hands a program: those of its input tensors, or of slot 0 of its batch (R218, R238; log entry 110). -/
def handed (s : State) (j : Job) (g : Prog) (c : Ctx) : List (BitVec 256) :=
  match j.role, c.batchers[g.aux]?, frameOf s j.stream j.frame with
  | 1, some b, _ => [descImage (Config.layerImage j.ctx b.layer) (slotDesc j.ctx b c.globalLen)]
  | 1, none, _ => []
  | _, _, some f => (List.zip (insOf s c j) f.inputs).filterMap fun x => (f.outs[x.2.1]?).map fun o => inputDesc o x.1.1
  | _, _, none => []

/-- The bytes firmware writes into a job's parameter block (R170, R229, R240): (offset, bytes). -/
def paramBytes (s : State) (j : Job) (g : Prog) (c : Ctx) : List (Nat × List Byte) :=
  let band := if 2 ≤ g.bands then [(0, leBytes 4 j.band ++ leBytes 4 g.bands ++ leBytes 4 0)] else []
  let reuse := match nbit g.flags 1 && j.role == 0, c.reuses[g.aux]? with
    | true, some r =>
      let top := (r.tiles.map (·.tile)).foldl max 0
      [(12, leBytes 4 (((mapsOf s c j).map (·.1)).headD 0)), (64, leBytes (top / 8 + 1) ((r.tiles.filter fun t => !j.reuse.contains t.tile).foldl
        (fun a t => a + 2 ^ t.tile) 0))]
    | _, _ => []
  let mask := if j.role = 1 then [(1024, leBytes (ceilDiv (max 1 j.mask.length) 8)
      ((List.range j.mask.length).foldl (fun a k => a + b2n (j.mask.getD k false) * 2 ^ k) 0))] else []
  let given := handed s j g c
  band ++ reuse ++ mask ++ (List.zip (List.range given.length) given).map fun x => (2048 + 32 * x.1, leBytes 32 x.2.toNat)

/-- Firmware builds the reuse bitmap of a job, marks the tiles to be recomputed invalid, and records the frame's share of reused
tiles (R229, R231, R232). -/
def planReuse (j : Job) (g : Prog) (c : Ctx) (s : State) : Job × State :=
  let st := strm s j.stream
  match nbit g.flags 1 && j.role == 0, c.reuses[g.aux]?, frameOf s j.stream j.frame with
  | true, some r, some f =>
    let keep := r.tiles.filter (reuses st f (effLimit s st.part r) j.prog)
    let redo := (r.tiles.filter fun t => !keep.contains t).map (·.tile)
    let was := if j.attempt = 0 then 0 else r.tiles.length - j.reuse.length
    let s := modStrm j.stream (fun st =>
      { st with archive := { st.archive with valid := st.archive.valid.filter fun v => v.1 != j.prog || !redo.contains v.2.1 } }) s
    let s := modFrame j.stream j.frame (fun f =>
      { f with reused := f.reused - was + keep.length
               reusable := if j.attempt = 0 then f.reusable + r.tiles.length else f.reusable }) s
    ({ j with reuse := redo }, s)
  | _, _, _ => (j, s)

/-- Write a parameter block on a core, as far as the carrel share of n bytes reaches. -/
def writeParams (ph base n : Nat) (l : List (Nat × List Byte)) (s : State) : State :=
  modCore ph (fun k => { k with carrel := l.foldl (fun m x => memWrite 0 m (base + x.1) (x.2.take (n - x.1))) k.carrel }) s

/-- Start one job on its logical cores: tallies and semaphores set (R104), every part at ENTRY with the state of Table 4.2. -/
def startJob (j : Job) (cores : List Nat) (s : State) : State :=
  let cl := (cores.headD 0) / 4
  match ctxAt s j.ctx, jobProg s j, residencyOf s cl j.ctx with
  | some c, some g, some r =>
    let (j, s) := planReuse j g c s
    let num := ((frameOf s j.stream j.frame).bind (·.num)).getD 0
    let s := modClu cl (fun k =>
      let t := (List.range g.ntally).foldl (fun t i => tset t (r.tallyBase + i) (g.tallyInit.getD i 0)) k.tallies
      let m := (List.range g.nsem).foldl (fun t i => tset t (r.semBase + i) 0) k.sems
      { k with tallies := t, sems := m,
               holdings := k.holdings.filter fun h => !(decide (r.semBase ≤ h.1) && decide (h.1 < r.semBase + g.nsem)) }) s
    let ps := paramBytes s j g c
    let base := r.carrelBase
    let s := (List.range cores.length).foldl (fun s i =>
      let lc := cores.getD i 0
      match servedBy s lc with
      | some ph =>
        let (o, s) := takeOrder s
        let part : Part := { job := j.id, idx := i, ctx := j.ctx, prog := j.prog, prio := prioKey j.role j.prio, started := o }
        let regs := entryRegs j num i lc base g.entry
        writeParams ph base (1024 * r.carrelKib) ps (modCore ph (fun k =>
          { k with part := some part, regs := regs, fault := none,
                   e0 := entryEngine r.bankBase g.accBanks k.e0, e1 := entryEngine r.bankBase g.accBanks k.e1 }) s)
      | none => s) s
    let phs := cores.filterMap (servedBy s)
    let s := (jobFrames j).foldl (fun s p => modFrame p.1 p.2 (fun f =>
      if j.role = 3 then { f with sentRan := f.sentRan ++ phs }
      else if j.role = 0 then { f with ran := f.ran ++ phs, adapt := (strm s j.stream).adapt }
      else if j.role = 1 then { f with ran := f.ran ++ phs } else f) s) s
    let s := modStrm j.stream (fun st => { st with lastCore := tset st.lastCore j.prog (cores.headD 0) }) s
    modJob j.id (fun _ => { j with state := .running, cores := cores, ended := [], cluster := cl, head := (strm s j.stream).head }) s
  | _, _, _ => s

/-- Every cluster leaves the parts of a FRAME or BATCH job fewer than G cores on which the frame's SENTINEL part has not run. -/
def shortOfCores (s : State) (j : Job) (g : Prog) (part : Nat) (f : Frame) : Bool :=
  (residentClusters s j.ctx).all fun cl =>
    decide (((coresInClu s part cl).filter fun c => !(servedBy s c).any f.sentRan.contains && !j.avoid.contains c).length < g.gang)

/-- The cores a job may start on: G distinct logical cores of one cluster where its context is resident, all free, none it avoids,
and no pre-empted part of equal or higher priority waiting there (R103, R294); a SENTINEL job shares no physical core with the
frame's FRAME and BATCH parts, which take one that it has used only where the partition leaves them no other (R415). -/
def mayStart (s : State) (j : Job) (g : Prog) (cores : List Nat) : Bool :=
  match ctxAt s j.ctx, cores with
  | some c, c0 :: _ =>
    cores.length == g.gang && cores.eraseDups.length == cores.length
      && cores.all (fun k => k / 4 == c0 / 4 && coreFree s c.part k && !j.avoid.contains k)
      && (residencyOf s (c0 / 4) j.ctx).isSome
      && (cores.filterMap (servedBy s)).all fun ph =>
        (coreAt s ph).saved.all (fun v => decide (v.part.prio < prioKey j.role j.prio))
          && (jobFrames j).all fun p => match frameOf s p.1 p.2 with
            | some f => if j.role = 3 then !f.ran.contains ph
                        else if j.role ≤ 1 then !f.sentRan.contains ph || shortOfCores s j g c.part f else true
            | none => true
  | _, _ => false

/-- A list cut into pieces of n. -/
def chunks (n : Nat) (k : Nat) (l : List Nat) : List (List Nat) := (List.range k).map fun i => (l.drop (n * i)).take n

/-- Start a queued job, or every band job of its frame together (R103, R170). -/
def startQueued (j : Job) (cores : List Nat) (s : State) : State :=
  match jobProg s j with
  | none => s
  | some g =>
    let set := if banded s j then sortBy (fun k => k.band) (bandSet s j) else [j]
    let cs := chunks g.gang set.length cores
    let ok := cores.length == g.gang * set.length
      && (cs.map fun l => (l.headD 0) / 4).eraseDups.length == set.length
      && (List.range set.length).all fun i =>
        match set[i]?, cs[i]? with
        | some k, some l =>
          mayStart s k g l && eligible s k &&
            (match k.state with
             | .queued q => l.contains q && (banded s j || ((firstEligible s q).map (·.id)) == some k.id)
             | _ => false)
        | _, _ => false
    if !ok then s else (List.range set.length).foldl (fun s i =>
      match set[i]?, cs[i]? with
      | some k, some l => startJob k l s
      | _, _ => s) s

/-- JOB_START: firmware starts an eligible job on free cores, or an ADAPT job on a core with nothing else to run, never in partition 0
and not while shedding (R103, R251, R252, R288). -/
def execJobStart (pick : JobPick) (cores : List Nat) (s : State) : Out :=
  .next (if !ready s then s else
    match pick with
    | .queued id => match jobOf s id with
      | some j => startQueued j cores s
      | none => s
    | .adapt id prog =>
      let st := strm s id
      let (j, t) := newJob s id st 0 prog 4 0
      match (ctxAt s st.ctx).bind fun c => c.progs[prog]? with
      | some g =>
        if g.role == 4 && st.part != 0 && st.state == .running && s.pwr.level == 0 && s.pwr.throttle == 0 && mayStart s j g cores
            && cores.all (fun c => queueLen s c == 0 && ((servedBy s c).map fun ph => (coreAt s ph).saved.isEmpty) == some true)
        then startJob j cores { t with jobs := t.jobs ++ [j] }
        else s
      | none => s)

end Sys2Proof.Machine
end

