-- ==== Sys2Proof/Machine/Sched.lean ====
section
/-! DEFINITION. Machine/Sched.lean: what the stewards' firmware does with jobs: END (R103, R409), stealing (R291), pre-emption (R292 to
R294), residency and eviction (R281, R282, R295, R296), core moves (R89), polls (R396), watchdog (R397), slot ends (R286) and the
reorder stall limit (R395). -/

namespace Sys2Proof.Machine

/-! ### END -/

/-- The address of a part's parameter block on its core (log entry 25). -/
def paramBase (s : State) (cl ctx : Nat) : Nat := ((residencyOf s cl ctx).map (·.carrelBase)).getD 0

/-- Bytes of the parameter block of a job's first part. -/
def paramRead (s : State) (j : Job) (o n : Nat) : List Byte :=
  let c := j.cores.headD 0
  match servedBy s c with
  | some ph => memBytes 0 (coreAt s ph).carrel (paramBase s (c / 4) j.ctx + o) n
  | none => []

/-- The reuse tiles a job recomputed are valid at its frame (R229). -/
def validTiles (j : Job) (s : State) : State :=
  let num := ((frameOf s j.stream j.frame).bind (·.num)).getD 0
  modStrm j.stream (fun st => { st with archive := { st.archive with
    valid := (st.archive.valid.filter fun v => v.1 != j.prog || !j.reuse.contains v.2.1) ++ j.reuse.map fun t => (j.prog, t, num) } }) s

/-- What a job's normal end leads to, by role (R252, R277, R415). -/
def afterJob (j : Job) (s : State) : State :=
  match j.role with
  | 0 =>
    let set := bandSet s j
    if set.all (fun k => k.state == .ended) then
      let s := set.foldl (fun s k => dropJob k.id s) s
      nextProgram j.stream j.frame (modFrame j.stream j.frame (fun f => { f with prog := f.prog + 1 }) s)
    else s
  | 1 => dropJob j.id (cropsIn j false s)
  | 2 => nextProgram j.stream j.frame (modFrame j.stream j.frame (fun f => { f with prog := f.prog + 1 }) (dropJob j.id s))
  | 3 =>
    let m := BitVec.ofNat 64 (leNat (paramRead s j 512 8))
    dropJob j.id (modFrame j.stream j.frame (fun f =>
      { f with sentinel := some (if f.sentinel = none ∨ f.sentinel = some (some m) then some m else none) }) s)
  | _ => dropJob j.id (modStrm j.stream (fun st => { st with adapt := min (st.adapt + 1) 65535, head := st.head + 1 }) s)

/-- A job ends when its last part has ended: holdings go back with a C1 event (R118), it is charged as ended, its tiles are valid
(R229), and a band set that must run again does so (R170). -/
def endJob (j : Job) (s : State) : State :=
  let s := if hasHolding s j.id then
      emit { cls := 1, stream := some j.stream, ctx := some j.ctx, frame := (frameOf s j.stream j.frame).bind (·.num) }
        (returnHoldings j.id s)
    else s
  let s := charge j.ctx (fun a => { a with ended := hold64 (a.ended + 1) }) (validTiles j s)
  let s := modJob j.id (fun k => { k with state := .ended }) s
  if (bandSet s j).any (fun k => k.wantRerun) && banded s j then settleBands j s else afterJob j s

/-- The proofs that the steward issues when a part of a partition 0 context ends: bank 0 of the part's own share, both engines (R409). -/
def endProofs (e : Env) (j : Job) (u : List Upset) (s : State) : State :=
  if e.ctx.part ≠ 0 then s else
  let bad := [0, 1].any fun n => proofCrc s u n != safProof
  let s := useFree 2 (modCore e.ph (onEngines 3 fun _ g => afterProof e.res.bankBase g) s)
  let s := [0, 1].foldl (fun s n => countEv e.ph (0x11 + n) 64 (countEv e.ph 0x13 128 s)) s
  if bad then proofMismatch e.c e.ph j s else s

/-- END: the part ends once every issued instruction has completed; a band job that leaves 5 in word 2 of its parameter block counts
as faulted with HALO_TIMEOUT (R171). -/
def execEndPart (c : Nat) (f : Fields) (u : List Upset) (s : State) : Out :=
  issue c u s fun e s =>
    checked [{ cause := 0x02, bad := stray {} f }] [] s fun _ =>
    fenced e s fun _ =>
    let gone := fun (s : State) => modCore e.ph (fun k => { k with part := none }) s
    match e.part.dead, jobOf s e.part.job with
    | false, some j =>
      let word2 := leNat (memBytes 0 e.core.carrel (e.res.carrelBase + 8) 4)
      if 2 ≤ e.prog.bands ∧ word2 = 5 then
        .hold (takeTestDue c e.ph (faultedJob c e.ph e.core.regs.pc j { code := 0x05, cause := 0 } (endParts j.id s)))
      else
        let s := retire e.ph (e.core.regs.pc + 16) (gone s)
        let s := endProofs e j u (releaseClaims j.id (some e.part.started) s)
        let s := takeTestDue c e.ph (modJob j.id (fun k => { k with ended := k.ended ++ [e.part.idx] }) s)
        .hold (match jobOf s j.id with
          | some j => if j.ended.length = e.prog.gang then endCensus e.ph 4 (endCensus (40 + c / 4) 4 (endJob j s)) else s
          | none => s)
    | _, _ => .hold (takeTestDue c e.ph (gone s))

/-! ### STEAL (R291) -/

/-- The groups of clusters in the order in which core c searches them: its own, the others of its die, the other die; lowest number first. -/
def stealOrder (c : Nat) : List (List Nat) :=
  let cl := c / 4
  [[cl], (List.range 8).filter fun k => k / 4 == cl / 4 && k != cl, (List.range 8).filter fun k => k / 4 != cl / 4]

/-- The first job of a queue that core c may steal: eligible, not banded, its context resident in c's cluster, room for its gang. -/
def stealable (s : State) (c q : Nat) : Option Job :=
  match firstEligible s q with
  | some j =>
    match ctxAt s j.ctx, jobProg s j with
    | some d, some g =>
      if !banded s j && (residencyOf s (c / 4) j.ctx).isSome && !j.avoid.contains c
          && (g.gang == 1 || decide (g.gang ≤ ((coresInClu s d.part (c / 4)).filter (coreFree s d.part)).length))
      then some j else none
    | _, _ => none
  | none => none

/-- STEAL: a free core with an empty queue takes the first eligible job of the longest queue of its partition in the first group of clusters
that has one, the lowest cluster on a tie. -/
def execSteal (c : Nat) (s : State) : Out :=
  let p := partOfCore s c
  .next (if !ready s || queueLen s c != 0 || !coreFree s p c then s else
    let pick := (stealOrder c).findSome? fun g =>
      (leastBy (fun q => 2 ^ 32 - queueLen s q)
        ((g.flatMap (coresInClu s p)).filter fun q => q != c && (stealable s c q).isSome)).bind (stealable s c)
    match pick with
    | none => s
    | some j =>
      let far := j.cluster != c / 4
      let s := modJob j.id (fun j => { j with state := .queued c, cluster := c / 4 }) s
      noteBlocked j.ctx j.cluster (countEv (40 + c / 4) (if far then 0x25 else 0x24) 1 s))

/-! ### Pre-emption (R119, R292 to R294) -/

/-- The running parts of a partition in a cluster with priority below p, lowest first, then the one started last: (core, part). -/
def victims (s : State) (part cl p : Nat) : List (Nat × Part) :=
  let l := (coresInClu s part cl).filterMap fun c => (servedBy s c).bind fun ph =>
    (coreAt s ph).part.bind fun v => if v.prio < p && v.fenced.isNone && v.halted.isNone && !v.dead && !v.stopping then some (ph, v) else none
  sortBy (fun x => x.2.prio * 2 ^ 64 + (2 ^ 64 - 1 - x.2.started)) l

/-- Request pre-emption of one part: one that holds nothing stops issue at once and is set aside when its queue is empty; any other is fenced
(R119, R293). -/
def requestPreempt (job : Nat) (v : Nat × Part) (s : State) : State :=
  if !hasHolding s v.2.job && !hasCredit s v.2.job then endFence v.1 job s
  else modCore v.1 (fun k => { k with part := k.part.map fun p => { p with fenced := some job } }) s

/-- A job already waits for a part that it pre-empts. -/
def preempting (s : State) (job : Nat) : Bool :=
  s.cores.any fun k => (k.2.part.any fun p => p.fenced == some job || p.halted == some job) || k.2.saved.any fun v => v.byJob == job && !v.done

/-- PREEMPT: a ready job without a free core in any cluster where its context is resident pre-empts G parts of lower priority in one
cluster, chosen by R292; a band job looks in its own cluster (R170). -/
def execPreempt (job : Nat) (s : State) : Out :=
  .next (match ready s, jobOf s job with
    | true, some j =>
      match ctxAt s j.ctx, jobProg s j, j.state with
      | some d, some g, .queued _ =>
        let cls := (residentClusters s j.ctx).filter fun cl => (cluAt s cl).inService && (!banded s j || cl == j.cluster)
        let busy := cls.all fun cl => (coresInClu s d.part cl).all fun c => !coreFree s d.part c
        let sets := (cls.map fun cl => (cl, (victims s d.part cl (prioKey j.role j.prio)).take g.gang)).filter fun x => x.2.length == g.gang
        if !busy || !eligible s j || preempting s job then s else
        match leastBy (fun x => match x.2.head? with
            | some v => v.2.prio * 2 ^ 64 + (2 ^ 64 - 1 - v.2.started)
            | none => 0) sets with
        | some (cl, vs) =>
          let home := ((coresInClu s d.part cl).find? fun c => servedBy s c == (vs.head?).map (·.1)).getD (4 * cl)
          let s := modJob job (fun k => { k with state := .queued home, cluster := cl }) s
          vs.foldl (fun s v => requestPreempt job v s) s
        | none => s
      | _, _, _ => s
    | _, _ => s)

/-- Bytes of the save area (R119). -/
def saveBytes : Nat := 139264

/-- Bit n of an engine's weight tile, counted through the 512 bits of each column's cells; no tile and an empty cell hold 0 (R63, R64). -/
def tileBit (g : Engine) (n : Nat) : Bool :=
  let h := halfOf g (halfOfCol g (n / 512))
  let w := 64 * elemBits h.fmt
  match tfind g.tile (8 * (n / 512) + n % 512 / w) with
  | some b => b.codes.getLsbD (n % 512 % w)
  | none => false

/-- Header n of an engine's weight tile: eight a column (R119). -/
def tileHeader (g : Engine) (n : Nat) : Nat := ((tfind g.tile n).map (·.hdr.toNat)).getD 0

/-- Byte i of the save area of a pre-empted part (R119): both engines' tiles, their headers, v0 to v31, and the control area. The order of
the bits and headers inside a tile's range is open (log entry 26), and so is the control area's layout: its bytes are free values. -/
def saveByte (s : State) (v : Saved) (i : Nat) : Byte :=
  let eng := fun (n : Nat) => if n = 0 then v.e0 else v.e1
  if i < 65536 then
    BitVec.ofNat 8 ((List.range 8).foldr (fun t a => b2n (tileBit (eng (i / 32768)) (Config.savedBit (8 * (i % 32768) + t) % 262144)) + 2 * a) 0)
  else if i < 98304 then
    let k := i - 65536
    BitVec.ofNat 8 (tileHeader (eng (k / 16384)) (Config.savedHeader (k % 16384 / 4) % 4096) / 2 ^ (8 * (k % 4)))
  else if i < 131072 then ((vreg v.regs ((i - 98304) / 1024)).extractLsb' (8 * ((i - 98304) % 1024)) 8)
  else (freeBits s ((i - 131072) / 64) 512).extractLsb' (8 * (i % 64)) 8

/-- The save area written into a carrel at lo. -/
def saveArea (s : State) (v : Saved) (lo : Nat) (m : List Host.Cell) : List Host.Cell :=
  let new := (List.range saveBytes).filterMap fun i =>
    let b := saveByte s v i
    if b = 0 then none else some (lo + i, b)
  m.filter (fun c => decide (c.1 < lo)) ++ new ++ m.filter (fun c => decide (lo + saveBytes ≤ c.1))

/-- PREEMPT_SAVE_DONE: the save area of core c's pre-empted part is written at the top of its share, and the pre-emptor's part starts
once every core of its gang is saved (R119, R292). -/
def execPreemptSaveDone (c : Nat) (s : State) : Out :=
  .next (match ready s, servedBy s c with
    | true, some ph =>
      match (coreAt s ph).saved.find? fun v => !v.done with
      | none => s
      | some v =>
        let r := residencyOf s (c / 4) v.part.ctx
        let top := (r.map fun r => r.carrelBase + 1024 * r.carrelKib).getD saveBytes
        let s := modCore ph (fun k =>
          { k with carrel := saveArea s v (top - saveBytes) k.carrel,
                   saved := k.saved.map fun w => if w.part.started == v.part.started then { w with done := true } else w }) s
        let s := useFree 128 (charge v.part.ctx (fun a => { a with carrelBytes := hold64 (a.carrelBytes + saveBytes) }) s)
        match jobOf s v.byJob with
        | none => s
        | some j =>
          match jobProg s j, j.state with
          | some g, .queued _ =>
            let mine := ((List.range 4).map (4 * (c / 4) + ·)).filter fun n => match servedBy s n with
              | some q => (coreAt s q).part.isNone && (coreAt s q).saved.any fun w => w.byJob == v.byJob && w.done
              | none => false
            if !banded s j && mine.length = g.gang && mayStart s j g mine then startJob j mine s else s
          | _, _ => s
    | _, _ => s)

/-- HOLD_LIMIT_EXPIRY: the wait of a fenced part on core c runs out before its last release: its job is aborted (R293, R294). -/
def execHoldLimitExpiry (c : Nat) (s : State) : Out :=
  .next (match ready s, servedBy s c with
    | true, some ph =>
      match (coreAt s ph).part with
      | some p => if p.fenced.isSome then abortJob p.job s else s
      | none => s
    | _, _ => s)

/-- Restore what a save area holds: registers, tiles, column poison and condemnation; accumulators stayed in place (R119). -/
def restorePart (v : Saved) (k : Core) : Core :=
  { k with
      part := some v.part
      regs := v.regs
      e0 := { v.e0 with acc := k.e0.acc, accState := k.e0.accState, accCheck := k.e0.accCheck }
      e1 := { v.e1 with acc := k.e1.acc, accState := k.e1.accState, accCheck := k.e1.accCheck }
      saved := k.saved.filter fun w => w.part.started != v.part.started }

/-- PART_RESUME: a pre-empted part resumes on its own core when the core is free of higher-priority work; on a core whose island was
reset its job is aborted instead (R89, R294). -/
def execPartResume (c : Nat) (s : State) : Out :=
  .next (match ready s, servedBy s c with
    | true, some ph =>
      let k := coreAt s ph
      match leastBy (fun v => (16 - v.part.prio) * 2 ^ 64 + v.part.started) (k.saved.filter (·.done)) with
      | none => s
      | some v =>
        if k.part.isSome || k.inSlot || s.pwr.stopped.contains ph
            || (match firstEligible s c with | some j => decide (v.part.prio < prioKey j.role j.prio) | none => false) then s
        else if k.wiped then abortJob v.part.job s
        else charge v.part.ctx (fun a => { a with carrelBytes := hold64 (a.carrelBytes + saveBytes) }) (modCore ph (restorePart v) s)
    | _, _ => s)

/-! ### Residency (R281, R282, R503) -/

/-- The largest need of a context's programs. -/
def most (c : Ctx) (f : Prog → Nat) : Nat := (c.progs.map f).foldl max 0

/-- The lowest place of n among [0, cap) clear of the used spans. -/
def place (used : List (Nat × Nat)) (n cap : Nat) : Option Nat :=
  leastBy id ((0 :: used.map fun u => u.1 + u.2).filter fun b =>
    decide (b + n ≤ cap) && used.all fun u => decide (b + n ≤ u.1) || decide (u.1 + u.2 ≤ b) || n == 0)

/-- The residency a context would take in a cluster, with its slot; none where a slot or a share is missing. Carrel shares and banks lie on
the cores of the context's partition, so only that partition's residencies compete for them; semaphores and tallies are the cluster's
(R281). -/
def fitResidency (s : State) (id : Nat) (c : Ctx) (cl : Nat) : Option (Nat × Residency) :=
  let k := cluAt s cl
  let rs := k.residencies.map (·.2)
  let p := partAt s c.part
  let mine := rs.filter fun r => r.part == c.part
  let kib := most c (·.carrelKib)
  let banks := most c (·.accBanks)
  let nsem := most c (·.nsem)
  let ntal := most c (·.ntally)
  let slot := ((List.range 4).find? fun n => (tfind k.residencies n).isNone && (match k.evicting with | some e => e.1 != n | none => true))
  if !k.inService || (coresInClu s c.part cl).isEmpty || decide (p.slots.getD cl 0 ≤ mine.length)
      || decide (p.ways.getD cl 0 < (mine.map (·.ways)).sum + c.ways) then none else
  match slot, place (mine.map fun r => (r.carrelBase, 1024 * r.carrelKib)) (1024 * kib) (4096 * 1024),
        place (mine.map fun r => (r.bankBase, r.banks)) banks 4, place (rs.map fun r => (r.semBase, r.nsem)) nsem 256,
        place (rs.map fun r => (r.tallyBase, r.ntally)) ntal 64 with
  | some n, some cb, some bb, some sb, some tb =>
    some (n, { ctx := id, part := c.part, carrelBase := cb, carrelKib := kib, bankBase := bb, banks := banks, ways := c.ways,
               semBase := sb, nsem := nsem, tallyBase := tb, ntally := ntal, blockedAt := s.order })
  | _, _, _, _, _ => none

/-- The waiting jobs of a context go to queues once it is resident somewhere (R290). -/
def queueWaiting (ctx : Nat) (s : State) : State :=
  (s.jobs.filter fun j => j.ctx == ctx && j.state == .waiting && j.role != 4).foldl (fun s j => enqueue j s) s

/-- A context takes a slot: its carrel shares are loaded from its own written-back copy, or written with zeros (R282, R296). -/
def makeResident (cl slot : Nat) (r : Residency) (s : State) : State :=
  let copies := ((ctxAt s r.ctx).map (·.written)).getD []
  let s := (List.range 4).foldl (fun s n =>
    match servedBy s (4 * cl + n) with
    | some ph =>
      let old := ((copies.find? fun w => w.1 == cl && w.2.1 == n).map (·.2.2)).getD []
      let lo := r.carrelBase
      let hi := r.carrelBase + 1024 * r.carrelKib
      modCore ph (fun k =>
        let keep := k.carrel.filter fun x => !(decide (lo ≤ x.1) && decide (x.1 < hi))
        { k with carrel := old.foldl (fun m x => memSet 0 m (lo + x.1) x.2) keep }) s
    | none => s) s
  let s := { s with ctxs := tmap s.ctxs fun i c => if i = r.ctx then { c with written := c.written.filter fun w => w.1 != cl } else c }
  let (o, s) := takeOrder s
  let n := ((List.range 4).filter fun n => (servedBy s (4 * cl + n)).isSome).length * 1024 * r.carrelKib
  let s := charge r.ctx (fun a =>
    { a with carrelBytes := hold64 (a.carrelBytes + n), dramBytes := hold64 (a.dramBytes + (if copies.any fun w => w.1 == cl then n else 0)) }) s
  queueWaiting r.ctx (modClu cl (fun k => { k with residencies := tset k.residencies slot { r with blockedAt := o } }) s)

/-- The crop reservations of a residency, 2 to 4 buffers per BATCH program (Table 12.4, R323). -/
def reserveCrops (cl slot id : Nat) (c : Ctx) (s : State) : Option State :=
  (progsOf c 1).foldl (fun s i => s.bind fun s =>
    match (c.progs[i]?).bind fun g => c.batchers[g.aux]? with
    | some b => reserve c.part 3 (b.target * slotBytes id b) (.residency cl slot i) 2 4 s
    | none => some s) (some s)

/-- A residency is formed, unless a share or a crop reservation is missing (R281, R282, R323). -/
def formResidency (id cl : Nat) (c : Ctx) (s : State) : State :=
  match fitResidency s id c cl with
  | some (n, r) => match reserveCrops cl n id c s with
    | some s => makeResident cl n r s
    | none => s
  | none => s

/-- The crop owners of a residency end (R322). -/
def dropCrops (cl slot : Nat) (c : Ctx) (s : State) : State :=
  (progsOf c 1).foldl (fun s i => releaseOwner (.residency cl slot i) s) s

/-- Resident in every cluster of CLUSTERS that has room, lowest first (R282). -/
def settleResidency (id : Nat) (s : State) : State :=
  (List.range 8).foldl (fun s cl =>
    match ctxAt s id with
    | some c => if nbit c.clusters cl && (residencyOf s cl id).isNone then formResidency id cl c s else s
    | none => s) s

/-! ### Eviction (R295, R296) -/

/-- A residency is blocked: no job of its context is queued, running or pre-empted in the cluster. -/
def residencyBlocked (s : State) (cl ctx : Nat) : Bool :=
  !s.jobs.any fun j => j.ctx == ctx && j.cluster == cl && (j.state == .running || match j.state with | .queued _ => true | _ => false)

/-- The eligible jobs of a partition that wait for a residency in a cluster: their contexts are resident in no cluster that they may use. -/
def waitingJobs (s : State) (p cl : Nat) : List Job :=
  s.jobs.filter fun j => j.state == .waiting && eligible s j && !(List.range 32).any (mayUse s j) &&
    (match ctxAt s j.ctx with
     | some c => c.part == p && nbit c.clusters cl && (residencyOf s cl j.ctx).isNone
     | none => false)

/-- The contexts of a partition that wait in a cluster, the first to be served first: by the highest priority of their waiting jobs, then
by how long they have waited, which is the age of the oldest of those jobs (log entry 19). -/
def waitingCtxs (s : State) (p cl : Nat) : List Nat :=
  let js := waitingJobs s p cl
  let key := fun (w : Nat) =>
    let mine := js.filter fun j => j.ctx == w
    (16 - (mine.map fun j => prioKey j.role j.prio).foldl max 0) * 2 ^ 64 + ((mine.map (·.id)).min?).getD 0
  sortBy key ((js.map (·.ctx)).eraseDups)

/-- The first waiting context takes a residency where there is room for one (R282, R295). -/
def serveWaiting (p cl : Nat) (s : State) : State :=
  match (waitingCtxs s p cl).head? with
  | some w => match ctxAt s w with
    | some c => formResidency w cl c s
    | none => s
  | none => s

/-- Write back a residency: each core's carrel share into the context's copy, and its dirty lines to DRAM (R296). -/
def writeBack (cl : Nat) (r : Residency) (s : State) : State :=
  match ctxAt s r.ctx with
  | none => s
  | some c =>
    let lo := r.carrelBase
    let hi := r.carrelBase + 1024 * r.carrelKib
    let cells := (List.range 4).filterMap fun n => (servedBy s (4 * cl + n)).map fun ph =>
      (cl, n, ((coreAt s ph).carrel.filter fun x => decide (lo ≤ x.1) && decide (x.1 < hi)).map fun x => (x.1 - lo, x.2))
    let s := (List.range 4).foldl (fun s n => match servedBy s (4 * cl + n) with | some ph => fenceCluster ph s | none => s) s
    let dirty := (cluAt s cl).stackLines.filter fun x => inGlobal s c x.1
    let s := modClu cl (fun k => { k with stackLines := k.stackLines.filter fun x => !dirty.contains x }) s
    let s := dramPuts dirty s
    let n := cells.length * 1024 * r.carrelKib
    charge r.ctx (fun a => { a with dramBytes := hold64 (a.dramBytes + n), carrelBytes := hold64 (a.carrelBytes + n) })
      { s with ctxs := tset s.ctxs r.ctx { c with written := (c.written.filter fun w => w.1 != cl) ++ cells } }

/-- EVICTION: a waiting context that has room takes it. Without room, and with every residency of the partition's slots in the cluster blocked,
the steward evicts the residency blocked longest, then the smallest share, then the lowest id; never one of partition 0. -/
def execEviction (cl part : Nat) (s : State) : Out :=
  .next (if !ready s || decide (8 ≤ cl) then s else
    let k := cluAt s cl
    let mine := k.residencies.filter fun r => r.2.part == part
    if k.evicting.isSome then s
    else if ((waitingCtxs s part cl).head?.bind fun w => (ctxAt s w).bind fun c => fitResidency s w c cl).isSome then serveWaiting part cl s
    else if part == 0 || mine.isEmpty || !mine.all (fun r => residencyBlocked s cl r.2.ctx) then s else
    match waitingCtxs s part cl, leastBy (fun r => (r.2.blockedAt * 2 ^ 16 + r.2.carrelKib) * 2 ^ 16 + r.2.ctx) mine with
    | w :: _, some r =>
      let s := writeBack cl r.2 s
      let s := match ctxAt s r.2.ctx with | some c => dropCrops cl r.1 c s | none => s
      let s := modClu cl (fun k => { k with residencies := tdrop k.residencies r.1, evicting := some (r.1, r.2.ctx, w) }) s
      { s with streams := tmap s.streams fun _ st => if st.ctx == r.2.ctx && st.home == some cl then { st with home := none } else st }
    | _, _ => s)

/-- EVICTION_DONE: the write-back has completed and the waiting context takes the slot and its shares. -/
def execEvictionDone (cl : Nat) (s : State) : Out :=
  .next (match ready s, (cluAt s cl).evicting with
    | true, some (_, _, w) =>
      let s := modClu cl (fun k => { k with evicting := none }) s
      match ctxAt s w with
      | some c => formResidency w cl c s
      | none => s
    | _, _ => s)

/-! ### Core moves (R88, R89) and polls (R396) -/

/-- Reset a core's island: its SRAM is wiped, its part is gone, and a census begins (R440, R485). -/
def resetCore (ph : Nat) (s : State) : State :=
  let s := modCore ph (fun k =>
    { k with part := none, regs := {}, e0 := {}, e1 := {}, carrel := [], writes := [], halo := [], fault := none, wiped := true }) s
  resetIsland ph s

/-- A logical core that left service regains it on a spare that a repair has restored: nothing of it can be copied (R16, R89). -/
def regainCore (c : Nat) (s : State) : State :=
  let cl := cluAt s (c / 4)
  match decide (c < 32) && cl.inService && cl.standin.isNone && cl.moving.isNone && cl.testing.isNone, cl.spare with
  | true, some sp =>
    let s := modCore (5 * (c / 4) + sp) (fun k => { k with carrel := [], regs := {}, e0 := {}, e1 := {}, writes := [], saved := [], wiped := false }) s
    modClu (c / 4) (fun k => { k with phys := tset k.phys (c % 4) sp, standin := some (c % 4) }) s
  | _, _ => s

/-- CORE_MOVE: at a job boundary, a core queued for test hands its logical identity to the cluster's spare, and the carrel copy
begins. With no core of the cluster queued, the core untested longest moves for its periodic test (R451). Pre-empted parts are
settled first: they run to their end where they may, or are aborted (R89). -/
def execCoreMove (c : Nat) (s : State) : Out :=
  .next (match ready s, servedBy s c with
    | true, none => regainCore c s
    | true, some ph =>
      let cl := cluAt s (c / 4)
      let s := takeTestDue c ph (if (coreAt s ph).part.any (·.dead) then resetCore ph s else s)
      let k := coreAt s ph
      let p0 := partOfCore s c == 0
      let mates := ((List.range 4).map (4 * (c / 4) + ·)).filterMap (servedBy s)
      let due := k.health == .inService && istOf s != 0 && s.pwr.level == 0
        && mates.all (fun q => (coreAt s q).health == .inService && decide (k.lastTest ≤ (coreAt s q).lastTest))
      match cl.spare with
      | some sp =>
        if k.part.isSome || k.inSlot || cl.moving.isSome || cl.standin.isSome || cl.testing.isSome || !(k.health == .queued || due) then s
        else
          let aborts := k.wiped || (p0 && k.health == .queued)
          if !k.saved.isEmpty && !aborts then s
          else
            let s := k.saved.foldl (fun s v => abortJob v.part.job s) s
            modClu (c / 4) (fun x => { x with moving := some (c % 4, ph, 5 * (c / 4) + sp) }) (fenceCluster ph s)
      | none => s
    | _, _ => s)

/-- CARREL_COPY_DONE: the copy ends and the logical core runs on its new physical core; a wiped or unreadable carrel arrives as zeros, and so
does every line that reads uncorrectable; accumulators and weights are not carried over (R89). -/
def execCarrelCopyDone (x : CopyEnd) (s : State) : Out :=
  let c := x.core
  .next (match (cluAt s (c / 4)).moving with
    | some (n, old, new) =>
      if n != c % 4 || !ready s then s else
      let o := coreAt s old
      let left := if o.wiped || x.unreadable then [] else o.carrel.filter fun y => !x.lost.contains (y.1 / 64)
      let s := modCore new (fun k => { k with carrel := left, regs := {}, e0 := {}, e1 := {},
                                              writes := [], saved := [], wiped := false }) s
      let s := modCore old (fun k => { k with wiped := false, carrel := [] }) s
      modClu (c / 4) (fun k => { k with moving := none, phys := tset k.phys n (new - 5 * (c / 4)), standin := some n }) s
    | none => s)

/-- Fault a job whose part on core c is presumed dead: the part stays behind as dead, its claims released; the job's other parts
stop; the core is queued for test; the job runs again on other cores, once (R87, R396). -/
def presumeDead (c ph : Nat) (p : Part) (s : State) : State :=
  let s := modCore ph (fun k => { k with part := some { p with dead := true, wait := .none }, halo := [] }) s
  match (if p.stopping then none else jobOf s p.job) with
  | none => s
  | some j =>
    let s := emit { cls := 1, source := 0x10, unit := some c, stream := some j.stream, ctx := some j.ctx,
                    frame := (frameOf s j.stream j.frame).bind (·.num) } (endParts j.id s)
    engineFault c ph j true (sentinelFails j s)

/-- STEWARD_POLL: a core that answers is left alone, unless it reports 25,000,000 cycles without an issue and nothing pending; one
silent for 1,000,000 steward cycles is presumed dead. A poll that finds a presumed-dead part resets its island; a remote access that waits
for link credits takes them once they are there. -/
def execStewardPoll (c : Nat) (reply : PollReply) (s : State) : Out :=
  .next (match ready s, servedBy s c with
    | true, some ph =>
      let k := coreAt s ph
      match k.part with
      | none => s
      | some p =>
        if p.dead then resetCore ph s
        else
          let waits := !k.halo.isEmpty || match p.wait with | .none => false | .ppc => false | _ => true
          let dead := match reply with
            | .answered n => decide (25000000 ≤ n) && !waits
            | .silent n => decide (1000000 ≤ n)
          if dead then presumeDead c ph p s else sendGroup ph s
    | _, _ => s)

/-- Withdraw a cluster: its four logical cores leave service and every partition with a core there takes C3 (R17, R397). -/
def withdrawCluster (cl : Nat) (s : State) : State :=
  let ps := (List.range 4).filter fun p => (partAt s p).present && !(coresInClu s p cl).isEmpty
  let s := modClu cl (fun k => { k with inService := false }) s
  ps.foldl (fun s p => faultPartition p { source := 0x10 } s) s

/-- The batch queues of a cluster are lost: their crops have no result, as after a failed batch job (R241), and their buffers
return. -/
def dropBatches (cl : Nat) (s : State) : State :=
  let l := (cluAt s cl).batches
  let s := modClu cl (fun k => { k with batches := [] }) s
  l.foldl (fun s b =>
    let part := ((ctxAt s b.ctx).map (·.part)).getD 4
    let s := b.slots.foldl (fun s x =>
      if part = 0 then
        (match frameOf s x.stream x.frame with
         | some f => if f.result.isNone then putResult x.stream x.frame (.gap gapComputeFault) s else s
         | none => s)
      else modFrame x.stream x.frame (fun f => { f with
        crops := amend (fun y => y.prog == b.prog && y.cand == x.cand && y.state == .out) (fun y => { y with state := .lost }) f.crops }) s) s
    match b.buf with
    | some a => giveBack part a.1 a.2 s
    | none => s) s

/-- STEWARD_WATCHDOG: every job of the cluster is aborted, the feature archives of its streams are invalid, and the island is reset
with its residencies restored; a second expiry within a second withdraws the cluster (R397). -/
def execStewardWatchdog (cl : Nat) (second : Bool) (s : State) : Out :=
  .next (if !ready s || decide (8 ≤ cl) || !(cluAt s cl).inService then s else
    let js := s.jobs.filter fun j => j.cluster == cl && j.state != .waiting
    let s := dropBatches cl (js.foldl (fun s j => abortJob j.id s) s)
    let s := { s with streams := tmap s.streams fun _ st =>
        if st.home == some cl then { st with archive := { st.archive with valid := [] } } else st }
    let s := modClu cl (fun k =>
      { k with sems := [], holdings := [], tallies := [], stackLines := [], calls := [], evicting := none,
               expiries := k.expiries + 1 }) s
    let s := resetIsland (40 + cl) s
    if second && decide (2 ≤ (cluAt s cl).expiries) then withdrawCluster cl s else s)

/-! ### Slots and the stall limit (R286, R395) -/

/-- Serve the waiting calls of the partition that the post-processing unit's present slot serves, the first to arrive. -/
def servePost (cl : Nat) (s : State) : State :=
  let k := cluAt s cl
  match slotFor (ppShares s) k.slot (k.calls.map (·.part)) with
  | none => s
  | some p =>
    match k.calls.find? fun x => x.part == p with
    | none => s
    | some x => finishCall x (modClu cl (fun k => { k with calls := k.calls.erase x }) s)

/-- SLOT_END: the present slot of a shared unit ends; what waits is served in the next slot that its partition owns or is passed. -/
def execSlotEnd (unit : SharedUnit) (s : State) : Out :=
  .next (if !ready s then s else
    match unit with
    | .post cl =>
      if 8 ≤ cl then s else
      let live := fun (x : PpcCall) => match servedBy s x.core with
        | some ph => (coreAt s ph).part.any fun p => p.wait == .ppc
        | none => false
      let s := modClu cl (fun k => { k with calls := k.calls.filter live }) s
      servePost cl (modClu cl (fun k => { k with slot := (k.slot + 1) % 64 }) s)
    | .cellar => serveDraws { s with mem := { s.mem with slot := (s.mem.slot + 1) % 64 } })

/-- The oldest unsealed frame of a stream: unnumbered frames come last. -/
def oldestFrame (st : Stream) : Option Frame :=
  leastBy (fun f => match f.num with | some n => n | none => 2 ^ 64 + f.pts) (st.frames.filter fun f => !f.sealed)

/-- REORDER_STALL_LIMIT: while a later frame holds a finished result and the oldest unsealed frame has none, its jobs are aborted; a
ready-tensor frame that still waits for tensors gets LOST_INPUT (R395). -/
def execReorderStallLimit (stream : Nat) (s : State) : Out :=
  .next (if !ready s then s else
    let st := strm s stream
    match oldestFrame st with
    | none => s
    | some f =>
      let later := st.frames.any fun g => g.order != f.order && !g.sealed && g.result.isSome
      if f.result.isSome || !later then s
      else if f.stage == .tensors then putResult stream f.order (.gap 1) s
      else
        let js := s.jobs.filter fun j => j.stream == stream && (jobFrames j).contains (stream, f.order)
        let s := js.foldl (fun s j => abortJob j.id s) s
        match frameOf s stream f.order with
        | some g => if g.result.isNone then putResult stream f.order (.gap gapAborted) s else s
        | none => s)

end Sys2Proof.Machine
end

