-- ==== Sys2Proof/Machine/Tracker.lean ====
section
/-! DEFINITION. Machine/Tracker.lean: the tracker step of a frame (R242 to R247), its object records (Table 9.9), and the zones
(R248, R249). All of the filter is FP32, each operation rounded once (log entry 32). -/

namespace Sys2Proof.Machine

/-! ### The Kalman filter (R242) -/

/-- FP32 sum, difference and product. -/
def kadd (x y : Nat) : Nat := fadd fmt32 x y
/-- FP32 difference. -/
def ksub (x y : Nat) : Nat := fsub fmt32 x y
/-- FP32 product. -/
def kmul (x y : Nat) : Nat := fmul fmt32 x y

/-- Element k of a list of FP32 words. -/
def kget (l : List Word) (k : Nat) : Nat := (l.getD k 0).toNat

/-- The words of n values. -/
def kmake (n : Nat) (f : Nat → Nat) : List Word := (List.range n).map fun i => BitVec.ofNat 32 (f i)

/-- The prediction over dt: x' = F x and P' = F P F^T + Q, where F adds dt times each velocity to its position (R242). -/
def predict (dt qp qv : Nat) (t : Track) : Track :=
  let p := fun (i j : Nat) => kget t.cov (8 * i + j)
  let up := fun (i j : Nat) =>
    if i < 4 ∧ j < 4 then kadd (kadd (p i j) (kmul dt (kadd (p i (j + 4)) (p (i + 4) j)))) (kmul (kmul dt dt) (p (i + 4) (j + 4)))
    else if i < 4 then kadd (p i j) (kmul dt (p (i + 4) j))
    else if j < 4 then kadd (p i j) (kmul dt (p i (j + 4)))
    else p i j
  let noise := fun (i : Nat) => kmul (if i < 4 then qp else qv) dt
  { t with
    x := kmake 8 fun i => if i < 4 then kadd (kget t.x i) (kmul dt (kget t.x (i + 4))) else kget t.x i
    cov := kmake 64 fun k => if k / 8 = k % 8 then kadd (up (k / 8) (k % 8)) (noise (k / 8)) else up (k / 8) (k % 8) }

/-- A factorisation of the 4 x 4 innovation matrix: row i of the unit lower factor, and the diagonal. -/
abbrev Ldl := List (List Nat) × List Nat

/-- The next row of the factorisation. -/
def ldlRow (m : Nat → Nat → Nat) (f : Ldl) (i : Nat) : Ldl :=
  let row := (List.range i).foldl (fun row j =>
    let dots := (List.range j).map fun k => kmul (kmul (row.getD k 0) ((f.1.getD j []).getD k 0)) (f.2.getD k 0)
    row ++ [fdiv fmt32 (dots.foldl ksub (m i j)) (f.2.getD j 0)]) []
  let d := ((List.range i).map fun k => kmul (kmul (row.getD k 0) (row.getD k 0)) (f.2.getD k 0)).foldl ksub (m i i)
  (f.1 ++ [row], f.2 ++ [d])

/-- The factorisation; the matrix is positive definite when every diagonal term is above 0. -/
def ldl (m : Nat → Nat → Nat) : Ldl := (List.range 4).foldl (ldlRow m) ([], [])

/-- Solve y S = r for a row r of four values. -/
def ldlSolve (f : Ldl) (r : Nat → Nat) : List Nat :=
  let l := fun (i j : Nat) => (f.1.getD i []).getD j 0
  let z := (List.range 4).foldl (fun z i => z ++ [((List.range i).map fun k => kmul (l i k) (z.getD k 0)).foldl ksub (r i)]) []
  let w := (List.range 4).map fun i => fdiv fmt32 (z.getD i 0) (f.2.getD i 0)
  (List.range 4).foldl (fun y n =>
    let i := 3 - n
    let v := ((List.range n).map fun k => kmul (l (3 - k) i) (y.getD (n - 1 - k) 0)).foldl ksub (w.getD i 0)
    v :: y) []

/-- The update with a measurement of cx, cy, w, h and noise variance r2 on each; with an innovation matrix that is not positive
definite the position is set to the measurement (R242). -/
def kalman (r2 : Nat) (z : List Nat) (t : Track) : Track :=
  let p := fun (i j : Nat) => kget t.cov (8 * i + j)
  let f := ldl fun i j => if i = j then kadd (p i j) r2 else p i j
  if f.2.all fun d => flt fmt32 0 d then
    let k := (List.range 8).map fun i => ldlSolve f (p i)
    let g := fun (i n : Nat) => (k.getD i []).getD n 0
    let y := (List.range 4).map fun n => ksub (z.getD n 0) (kget t.x n)
    { t with
      x := kmake 8 fun i => ((List.range 4).map fun n => kmul (g i n) (y.getD n 0)).foldl kadd (kget t.x i)
      cov := kmake 64 fun c => ((List.range 4).map fun n => kmul (g (c / 8) n) (p n (c % 8))).foldl ksub (p (c / 8) (c % 8)) }
  else
    { t with
      x := kmake 8 fun i => if i < 4 then z.getD i 0 else kget t.x i
      cov := kmake 64 fun c =>
        let i := c / 8
        let j := c % 8
        if i < 4 ∧ j < 4 then (if i = j then r2 else 0) else if i < 4 ∨ j < 4 then 0 else p i j }

/-! ### The tracker table (Table 9.6) -/

/-- A tracker table by its fields; thresholds and weights in FP32. -/
structure TrackTab where
  init : Nat
  optimal : Bool
  kConfirm : Nat
  kLost : Nat
  maxAge : Nat
  birth : Nat
  high : Nat
  iouGate : Nat
  embGate : Nat
  wIou : Nat
  wEmb : Nat
  qPos : Nat
  qVel : Nat
  rMeas : Nat
  rows : List Byte

/-- The fields of a tracker table. -/
def trackTab (b : List Byte) : TrackTab :=
  let h := fun (o : Nat) => fcvt fmt16 fmt32 (leAt b o 2)
  { init := leAt b 1 1, optimal := leAt b 2 1 == 1, kConfirm := leAt b 3 1, kLost := leAt b 4 1, maxAge := leAt b 6 2,
    birth := h 8, high := h 10, iouGate := h 12, embGate := h 14, wIou := h 16, wEmb := h 18,
    qPos := leAt b 20 4, qVel := leAt b 24 4, rMeas := leAt b 28 4, rows := b.drop 64 }

/-! ### Boxes -/

/-- The corners of a state's box in FP32. -/
def boxOf (x : List Word) : Cand :=
  let half := fun (v : Nat) => kmul v 0x3F000000
  { x0 := ksub (kget x 0) (half (kget x 2)), y0 := ksub (kget x 1) (half (kget x 3)),
    x1 := kadd (kget x 0) (half (kget x 2)), y1 := kadd (kget x 1) (half (kget x 3)),
    score := 0, cls := 0, level := 0, anchor := 0, pos := 0 }

/-- A detection mapped to output-window pixels through its output entry (R243). -/
def mapDet (o : OutEntry) (d : Det) : Cand :=
  let r := toWindow o (fixOf d.x0.toNat) (fixOf d.y0.toNat) (fixOf d.x1.toNat) (fixOf d.y1.toNat)
  { x0 := ofFix r.1, y0 := ofFix r.2.1, x1 := ofFix r.2.2.1, y1 := ofFix r.2.2.2,
    score := d.score.toNat, cls := d.cls, level := 0, anchor := 0, pos := 0 }

/-- A box as the measurement cx, cy, w, h. -/
def measure (b : Cand) : List Nat :=
  [kmul (kadd b.x0 b.x1) 0x3F000000, kmul (kadd b.y0 b.y1) 0x3F000000, ksub b.x1 b.x0, ksub b.y1 b.y0]

/-- A box lies wholly outside a window of w by h pixels (R245). -/
def outside (w h : Nat) (b : Cand) : Bool :=
  let one : Int := 2 ^ 64
  decide (fixOf b.x1 ≤ 0) || decide ((w : Int) * one ≤ fixOf b.x0) || decide (fixOf b.y1 ≤ 0) || decide ((h : Int) * one ≤ fixOf b.y0)

/-- A box in window pixels, in units of 2^-64, overlaps a tainted block of the frame. -/
def overTaint (f : Frame) (x0 y0 x1 y1 : Int) : Bool :=
  let one : Int := 2 ^ 64
  (List.range f.taint.length).any fun k =>
    let bx : Int := ((64 * (k % max 1 f.cols) : Nat) : Int) - (f.winX : Int)
    let by' : Int := ((64 * (k / max 1 f.cols) : Nat) : Int) - (f.winY : Int)
    f.taint.getD k false && decide (x0 < (bx + 64) * one) && decide (bx * one < x1)
      && decide (y0 < (by' + 64) * one) && decide (by' * one < y1)

/-! ### Association (R243) -/

/-- The elements of an embedding in FP32: an A8 code is worth its operand times its block's scale (R30, R35). -/
def embValues (e : Emb) : List Nat :=
  (List.zip (List.range e.elems.length) e.elems).map fun x =>
    match e.headers[x.1 / 64]? with
    | some h =>
      let v := fed [] 6 h.toNat (x.2.toNat % 256) * (if emptyHdr h.toNat then 0 else (scaleSig h.toNat : Int))
      fpack fmt32 (decide (v < 0)) v.natAbs ((scaleExp h.toNat : Int) - 18)
    | none => fcvt fmt16 fmt32 x.2.toNat

/-- The cosine of two embeddings in FP32; 0 where one is missing. -/
def cosine (a b : Emb) : Nat :=
  if a.elems.isEmpty || b.elems.isEmpty then 0 else
  let dot := fun (u v : List Nat) => (List.zipWith (fun p q => kmul p q) u v).foldl kadd 0
  let u := embValues a
  let v := embValues b
  fdiv fmt32 (dot u v) (kmul (fsqrt fmt32 (dot u u)) (fsqrt fmt32 (dot v v)))

/-- A candidate pair: track index, detection index, cost. -/
structure Pair where
  track : Nat
  det : Nat
  cost : Nat
  deriving DecidableEq, Repr

/-- The pair of a track with predicted box and a detection, where it is a candidate. -/
def pairOf (t : TrackTab) (i : Nat) (tr : Track) (j : Nat) (d : Det) (box : Cand) : Option Pair :=
  let u := iou (boxOf tr.x) box
  let c := if d.emb.elems.isEmpty then 0 else cosine tr.emb d.emb
  let one := 0x3F800000
  if tr.cls == d.cls && fle fmt32 t.iouGate u
      && (d.emb.elems.isEmpty || t.wEmb % fmt32.signBit == 0 || fle fmt32 t.embGate c)
  then some { track := i, det := j, cost := kadd (kmul t.wIou (ksub one u)) (kmul t.wEmb (ksub one c)) }
  else none

/-- The place of a cost in ascending order. -/
def costKey (c : Nat) : Nat := (ford fmt32 c + 2 ^ 32).toNat

/-- Accept pairs in order, skipping those with a member already matched. -/
def acceptPairs : List Pair → List Pair → List Pair
  | done, [] => done
  | done, p :: r => if done.any fun q => q.track == p.track || q.det == p.det then acceptPairs done r else acceptPairs (done ++ [p]) r

/-- Greedy mode: ascending cost, then track, then detection. -/
def greedy (l : List Pair) : List Pair :=
  acceptPairs [] (sortBy (fun p => (costKey p.cost * 2 ^ 20 + p.track) * 2 ^ 20 + p.det) l)

/-- The exact cost of a pair in units of 2^-149; an infinity ranks beyond every sum. -/
def exactCost (c : Nat) : Int :=
  match fdec fmt32 c with
  | .fin n m e => floorInt n m (e + 149)
  | .inf n => if n then -(2 ^ 320) else 2 ^ 320
  | .nan => 2 ^ 320

/-- A matching ranks above another with fewer pairs, or as many at a higher total cost. -/
def betterMatch (a b : List Pair) : Bool :=
  let cost := fun (l : List Pair) => (l.map fun p => exactCost p.cost).sum
  decide (b.length < a.length) || (a.length == b.length && decide (cost a < cost b))

/-- Optimal mode over the tracks in order: most pairs, then least total cost; the first found in the order of the (track, detection)
sequences stands. -/
def optimal (l : List Pair) (used : List Nat) : List Nat → List Pair
  | [] => []
  | i :: rest =>
    let opts := l.filter fun p => p.track == i && !used.contains p.det
    let all := (opts.map fun p => p :: optimal l (p.det :: used) rest) ++ [optimal l used rest]
    all.foldl (fun best m => if betterMatch m best then m else best) (all.headD [])

/-! ### Events (R245) -/

/-- What the events of one frame do to a track. -/
structure Step where
  t : Track
  report : Bool := false
  gone : Bool := false
  updated : Bool := false

/-- One event through the state table: next state, UPDATE, CLEAR_COUNTS, DELETE; REPORT marks the track. -/
def applyEvent (tab : TrackTab) (z : Option (List Nat)) (a : Step) (e : Nat) : Step :=
  if a.gone then a else
  let b := (tab.rows.getD (8 * a.t.state + e) 0).toNat
  let t := { a.t with state := b % 8 }
  let t := match nbit b 4 && !a.updated, z with
    | true, some m => kalman (kmul tab.rMeas tab.rMeas) m t
    | _, _ => t
  let t := if nbit b 7 then { t with hits := 0, misses := 0 } else t
  { t := t, report := a.report || nbit b 5, gone := nbit b 6, updated := a.updated || nbit b 4 }

/-- The counts and match of a track's frame, and the events it meets in order. -/
def eventsOf (tab : TrackTab) (f : Frame) (t : Track) (d : Option Det) : Track × List Nat :=
  let u := match d with
    | some d => { t with hits := min (t.hits + 1) 65535, misses := 0, age := min (t.age + 1) 65535,
                         emb := if d.emb.elems.isEmpty then t.emb else d.emb,
                         conf := BitVec.ofNat 16 (fcvt fmt32 fmt16 d.score.toNat) }
    | none => { t with hits := 0, misses := min (t.misses + 1) 65535, age := min (t.age + 1) 65535 }
  let prim := match d with
    | some d => if fle fmt32 tab.high d.score.toNat then 2 else 0
    | none => 1
  let box := boxOf t.x
  let ev := fun (p : Bool) (e : Nat) => if p then [e] else []
  (u, [prim] ++ ev (u.hits == tab.kConfirm && u.hits != t.hits) 3 ++ ev (u.misses == tab.kLost && u.misses != t.misses) 4
    ++ ev (outside f.winW f.winH box) 5 ++ ev (overTaint f (fixOf box.x0) (fixOf box.y0) (fixOf box.x1) (fixOf box.y1)) 6
    ++ ev (u.age == tab.maxAge && u.age != t.age) 7)

/-- A new track of a detection. -/
def birthOf (tab : TrackTab) (id : Nat) (d : Det) (box : Cand) : Track :=
  let r2 := kmul tab.rMeas tab.rMeas
  let z := measure box
  { id := id, cls := d.cls, state := tab.init, x := kmake 8 fun i => z.getD i 0,
    cov := kmake 64 fun c => if c / 8 = c % 8 then (if c / 8 < 4 then r2 else tab.qVel) else 0,
    emb := d.emb, conf := BitVec.ofNat 16 (fcvt fmt32 fmt16 d.score.toNat) }

/-! ### Object records (Table 9.9) -/

/-- A coordinate with 2 fraction bits, held to 16 bits. -/
def quarter (x : Nat) : Nat := (ftoInt fmt32 0 65535 (kmul x 0x40800000)).toNat

/-- The thin heads of a context: its BATCH programs, those that write attributes, those that compute embeddings. -/
structure Heads where
  all : List Nat := []
  attr : List Nat := []
  emb : List Nat := []

/-- The heads of a context. -/
def headsOf (id : Nat) (c : Ctx) : Heads where
  all := progsOf c 1
  attr := (progsOf c 1).filter (Config.attrProg id)
  emb := (progsOf c 1).filter (Config.embProg id)

/-- A crop of kept box k of a frame, for one of these programs, is in a state. -/
def cropIs (f : Frame) (ps : List Nat) (k : Nat) (st : CropState) : Bool :=
  f.crops.any fun x => ps.contains x.prog && x.cand == k && x.state == st

/-- Every one of these programs has computed kept box k. -/
def headsRan (f : Frame) (ps : List Nat) (k : Nat) : Bool :=
  ps.all fun p => f.crops.any fun x => x.prog == p && x.cand == k && x.state == .done

/-- A detection that the tracker meets: which kept box it is, whether a crop of it was corrupt, and its ATTRST: no attribute head, valid, input
fault, or not computed (R240, R241, Table 9.9). -/
structure HeadedDet where
  det : Det
  fault : Bool
  attrst : Nat

/-- Detection k of a frame as its thin heads left it: without an embedding unless every embedding head computed it (R240, R241). -/
def headedDet (f : Frame) (h : Heads) (k : Nat) (d : Det) : HeadedDet where
  det := if h.emb.isEmpty || headsRan f h.emb k then d else { d with emb := {} }
  fault := cropIs f h.all k .corrupt
  attrst := if h.attr.isEmpty then 0 else if cropIs f h.attr k .corrupt then 2 else if headsRan f h.attr k then 1 else 3

/-- The record of an object. -/
def recordOf (f : Frame) (h : Heads) (d : Option HeadedDet) (id cls : Nat) (conf : BitVec 16) (box : Cand) (state age misses vx vy : Nat)
    (born : Bool) (attr : BitVec 128) : ObjRec :=
  let q := fun (x : Nat) => (quarter x : Int) * 2 ^ 62
  let a := match d with
    | some d => d.attrst
    | none => if h.attr.isEmpty then 0 else 3
  { track := id, cls := cls, conf := conf, x0 := quarter box.x0, y0 := quarter box.y0, x1 := quarter box.x1, y1 := quarter box.y1,
    tstate := state,
    rflags := b2n (d.any (·.fault)) + 2 * b2n (d.isNone)
      + 4 * b2n (overTaint f (q box.x0) (q box.y0) (q box.x1) (q box.y1)) + 8 * b2n born,
    age := age, misses := misses, attrst := a, attr := if a = 1 then attr else 0,
    emb := match d with | some d => d.det.emb | none => {},
    vx := BitVec.ofNat 16 (fcvt fmt32 fmt16 vx), vy := BitVec.ofNat 16 (fcvt fmt32 fmt16 vy) }

/-- The record of a track. -/
def trackRecord (f : Frame) (heads : Heads) (d : Option HeadedDet) (t : Track) (born : Bool) (attr : BitVec 128) : ObjRec :=
  recordOf f heads d t.id t.cls t.conf (boxOf t.x) t.state t.age t.misses (kget t.x 4) (kget t.x 5) born attr

/-! ### Zones (R249) -/

/-- A point, in units of one eighth of a pixel. -/
abbrev Pt := Int × Int

/-- Twice the signed area of a triangle. -/
def cross (a b c : Pt) : Int := (b.1 - a.1) * (c.2 - a.2) - (b.2 - a.2) * (c.1 - a.1)

/-- A point lies on a segment. -/
def onSegment (p a b : Pt) : Bool :=
  cross a b p == 0 && decide (min a.1 b.1 ≤ p.1) && decide (p.1 ≤ max a.1 b.1) && decide (min a.2 b.2 ≤ p.2) && decide (p.2 ≤ max a.2 b.2)

/-- The edges of a polygon. -/
def edges (l : List Pt) : List (Pt × Pt) := List.zip l (l.drop 1 ++ l.take 1)

/-- A point lies inside a polygon: even-odd rule, a point on an edge counts inside. -/
def inPolygon (l : List Pt) (p : Pt) : Bool :=
  (edges l).any (fun e => onSegment p e.1 e.2) ||
  ((edges l).filter fun e =>
    let lo := if e.1.2 ≤ e.2.2 then e.1 else e.2
    let hi := if e.1.2 ≤ e.2.2 then e.2 else e.1
    decide (lo.2 ≤ p.2) && decide (p.2 < hi.2) && decide (0 < cross lo hi p)).length % 2 == 1

/-- Two segments share a point. -/
def segmentsMeet (a b c d : Pt) : Bool :=
  let opp := fun (x y : Int) => (decide (0 < x) && decide (y < 0)) || (decide (x < 0) && decide (0 < y))
  (opp (cross a b c) (cross a b d) && opp (cross c d a) (cross c d b))
    || onSegment c a b || onSegment d a b || onSegment a c d || onSegment b c d

/-- A box and a polygon share a point. -/
def boxMeets (l : List Pt) (x0 y0 x1 y1 : Int) : Bool :=
  let cs : List Pt := [(x0, y0), (x1, y0), (x1, y1), (x0, y1)]
  (l.any fun p => decide (x0 ≤ p.1) && decide (p.1 ≤ x1) && decide (y0 ≤ p.2) && decide (p.2 ≤ y1))
    || cs.any (inPolygon l) || (edges cs).any fun a => (edges l).any fun b => segmentsMeet a.1 a.2 b.1 b.2

/-- A record counts for a zone. -/
def zoneCounts (z : Zone) (r : ObjRec) : Bool :=
  decide (z.cbase ≤ r.cls) && decide (r.cls < z.cbase + 64) && z.classes.getLsbD (r.cls - z.cbase)
    && fle fmt16 z.minconf.toNat r.conf.toNat && (r.track == 0 || nbit z.states r.tstate)

/-- The polygon of a zone in eighths of a pixel. -/
def zonePoly (z : Zone) : List Pt := z.verts.map fun v => (8 * (v.1 : Int), 8 * (v.2 : Int))

/-- A counted record occupies a zone. -/
def occupies (z : Zone) (r : ObjRec) : Bool :=
  let l := zonePoly z
  zoneCounts z r && (match z.anchor with
    | 0 => inPolygon l ((r.x0 + r.x1 : Nat), (2 * r.y1 : Nat))
    | 1 => inPolygon l ((r.x0 + r.x1 : Nat), (r.y0 + r.y1 : Nat))
    | _ => boxMeets l (2 * r.x0 : Nat) (2 * r.y0 : Nat) (2 * r.x1 : Nat) (2 * r.y1 : Nat))

/-- A counted record warns for a zone. -/
def warns (z : Zone) (r : ObjRec) : Bool :=
  let g : Int := 8 * z.warn
  zoneCounts z r && !occupies z r
    && boxMeets (zonePoly z) ((2 * r.x0 : Nat) - g) ((2 * r.y0 : Nat) - g) ((2 * r.x1 : Nat) + g) ((2 * r.y1 : Nat) + g)

/-- Evaluate a stream's zones on a frame's records. -/
def evalZones (zs : List Zone) (f : Frame) : Frame :=
  let mask := fun (p : Zone → Bool) => BitVec.ofNat 64 ((zs.filter p).foldl (fun a z => a ||| 2 ^ z.zone) 0)
  { f with
    recs := f.recs.map fun r => { r with zones := mask fun z => occupies z r }
    zocc := mask fun z => f.recs.any (occupies z)
    zwarn := mask fun z => f.recs.any (warns z)
    zcount := zs.map fun z => (z.zone, min (f.recs.filter (occupies z)).length 255)
    zset := some zs }

/-! ### Fitting the buffer (R253) -/

/-- The bytes of an embedding in the blob: FP16 elements, or A8 block headers and then the codes (Table 9.9). -/
def embBlob (e : Emb) : List Byte :=
  if e.headers.isEmpty then e.elems.flatMap fun x => leBytes 2 x.toNat
  else (e.headers.flatMap fun h => leBytes 4 h.toNat) ++ e.elems.map fun x => x.setWidth 8

/-- The blob bytes of an embedding. -/
def embBytes (r : ObjRec) : Nat := ceilDiv (embBlob r.emb).length 64 * 64

/-- Place the embeddings in the blob while the folio still fits its buffer, dropping the last ones; the bytes taken so far come along. -/
def placeEmbs (room : Nat) : Nat → List ObjRec → List ObjRec
  | _, [] => []
  | at', r :: rest =>
    if r.emb.elems.isEmpty then r :: placeEmbs room at' rest
    else if at' + embBytes r ≤ room then { r with embOff := some at' } :: placeEmbs room (at' + embBytes r) rest
    else { r with emb := {}, embOff := none } :: placeEmbs room room rest

/-- Order the records, keep at most 1,024 by dropping from the highest track id downward, and place the embeddings; the flag says that
something was dropped. -/
def fitRecords (l : List ObjRec) : List ObjRec × Bool :=
  let tracked := sortBy (fun r => r.track) (l.filter fun r => r.track != 0)
  let free := (l.filter fun r => r.track == 0).take 1024
  let kept := tracked.take (1024 - free.length) ++ free
  let out := placeEmbs (folioBytes - 64 - 64 * kept.length) 0 kept
  (out, decide (kept.length < l.length)
    || (List.zip kept out).any fun p => !p.1.emb.elems.isEmpty && p.2.emb.elems.isEmpty)

/-! ### The step -/

/-- What a tracker step leaves: live tracks, records, and the detections that none matched. -/
structure Tracked where
  live : List Track
  recs : List ObjRec
  rest : List (HeadedDet × Cand)
  degraded : Bool

/-- Predict, associate and apply events (R242 to R245). -/
def associate (tab : TrackTab) (f : Frame) (heads : Heads) (dt : Nat) (tracks : List Track) (dets : List (HeadedDet × Cand))
    (attr : Nat → BitVec 128) : Tracked :=
  let ts := tracks.map (predict dt tab.qPos tab.qVel)
  let it := List.zip (List.range ts.length) ts
  let jd := List.zip (List.range dets.length) dets
  let pairs := it.flatMap fun a => jd.filterMap fun b => pairOf tab a.1 a.2 b.1 b.2.1.det b.2.2
  let fits := decide (ts.length ≤ 128) && decide (dets.length ≤ 128)
  let m := if tab.optimal && fits then optimal pairs [] (List.range ts.length) else greedy pairs
  let outs := it.map fun a =>
    let d : Option (HeadedDet × Cand) := (m.find? fun p => p.track == a.1).bind fun p => dets[p.det]?
    let e := eventsOf tab f a.2 (d.map fun (x : HeadedDet × Cand) => x.1.det)
    let z := d.map fun (x : HeadedDet × Cand) => measure x.2
    (e.2.foldl (applyEvent tab z) { t := e.1 }, d.map fun (x : HeadedDet × Cand) => x.1)
  { live := (outs.filter fun o => !o.1.gone).map (·.1.t)
    recs := (List.zip (List.range outs.length) outs).filterMap fun o =>
      if o.2.1.report then some (trackRecord f heads o.2.2 o.2.1.t false (attr o.1)) else none
    rest := (jd.filter fun b => !(m.any fun p => p.det == b.1)).map (·.2)
    degraded := tab.optimal && !fits }

/-- The births of a step: (live tracks, records, next id, ids ran out, DEGRADED). -/
structure Births where
  live : List Track
  recs : List ObjRec
  next : Nat
  out : Bool
  degraded : Bool

/-- One unmatched detection: a birth when it scores at least BIRTH, or an untracked report at 1,024 tracks or with no id left (R242,
R246). -/
def bearOne (tab : TrackTab) (f : Frame) (heads : Heads) (attr : Nat → BitVec 128) (b : Births) (x : HeadedDet × Cand) : Births :=
  let due := fle fmt32 tab.birth x.1.det.score.toNat
  let full := decide (1024 ≤ b.live.length)
  let none' := decide (0xFFFFFFFF < b.next)
  let a := attr b.recs.length
  if due && !full && !none' then
    let t := birthOf tab b.next x.1.det x.2
    { b with live := b.live ++ [t], next := b.next + 1, recs := b.recs ++ [trackRecord f heads (some x.1) t true a] }
  else if (due && full) || none' then
    let r := recordOf f heads (some x.1) 0 x.1.det.cls (BitVec.ofNat 16 (fcvt fmt32 fmt16 x.1.det.score.toNat)) x.2 0 0 0 0 0 false a
    { b with recs := b.recs ++ [r], degraded := true, out := b.out || none' }
  else b

/-- The time step from the previous analysed frame, held to 0.001 to 2 s. -/
def timeStep (prev : Option Nat) (pts : Nat) : Nat :=
  match prev with
  | none => 0x3A83126F
  | some p =>
    let d := fdiv fmt32 (fofInt fmt32 ((pts : Int) - (p : Int))) (fofInt fmt32 90000)
    if flt fmt32 d 0x3A83126F then 0x3A83126F else if flt fmt32 0x40000000 d then 0x40000000 else d

/-- The frame whose tracker step is next: the earliest in the stage, with every earlier frame's result there. -/
def trackerFrame (st : Stream) : Option Frame :=
  match oldestFrame { st with frames := st.frames.filter fun f => f.result.isNone } with
  | some f => if f.stage == .tracker && !(f.crops.any fun x => x.state == .out) then some f else none
  | none => none

/-- The entry that maps the whole window to itself. -/
def wholeWindow (f : Frame) : OutEntry where
  x0 := 0
  y0 := 0
  cw := f.winW
  ch := f.winH
  ow := f.winW
  oh := f.winH
  ops := 0
  colour := 0
  angle := 0
  fmt := 0
  zp := 0
  scale := 0
  fill := 0
  mean := []
  invstd := []

/-- A step of the tracker on a frame, with its records, zones and flags. -/
def trackFrame (id entry : Nat) (dets : List Det) (f : Frame) (c : Ctx) (s : State) : State :=
  let st := strm s id
  let tab := trackTab c.tracker
  let heads := headsOf f.ctx c
  let attr := fun (i : Nat) => freeBits s i 128
  let o := (f.outs[entry]?).getD (wholeWindow f)
  let ds := (List.zip (List.range dets.length) dets).map fun d => (headedDet f heads d.1 d.2, mapDet (cropEntry o f.winW f.winH) d.2)
  let a := associate tab f heads (timeStep st.trackPts f.pts) st.tracks ds attr
  let b := a.rest.foldl (bearOne tab f heads attr)
    { live := a.live, recs := a.recs, next := st.nextTrack, out := false, degraded := a.degraded }
  let (recs, cut) := fitRecords b.recs
  let lacks := (List.range dets.length).any fun k => !headsRan f heads.all k
  let low := f.degraded || b.degraded || cut || lacks
  let f := evalZones st.zones { f with recs := recs, ntrk := b.live.length, degraded := low }
  let s := useFree (st.tracks.length + dets.length) s
  let s := modFrame id f.order (fun _ => f) s
  let first := b.out && !st.tracksOut
  let s := modStrm id (fun st =>
    { st with tracks := b.live, nextTrack := b.next, trackPts := some f.pts, tracksOut := st.tracksOut || b.out }) s
  let s := if first then emit { cls := 1, stream := some id, ctx := some f.ctx, frame := f.num } s else s
  finishFolio id f.order s

/-- TRACKER_STEP: the tracker step of a stream's next analysed frame. `entry` is the output entry its detections are mapped through;
`lost` says that reading the tracker state met an uncorrectable error (R247). -/
def execTrackerStep (stream entry : Nat) (dets : List Det) (lost : Bool) (s : State) : Out :=
  .next (
    let next := trackerFrame (strm s stream)
    match ready s, next, next.bind fun f => ctxAt s f.ctx with
    | true, some f, some c =>
      if c.tracker.isEmpty then s else
      let s := settleReschange stream (f.num.getD 0) s
      let s := if lost || f.resChange then loseTracks stream s else s
      match frameOf s stream f.order with
      | some f => trackFrame stream entry dets f c s
      | none => s
    | _, _, _ => s)

end Sys2Proof.Machine
end

