-- ==== Sys2Proof/Machine/Streams.lean ====
section
/-! DEFINITION. Machine/Streams.lean: stream blocks and envelopes (R182, R220, R299), admission (R190, R206, R350), the frame buffers
(R186, R187, R260, R261), the output order and frame numbers (R190, R181), and a clip's taking of pictures (R260, R262). -/

namespace Sys2Proof.Machine

/-! ### Blocks -/

/-- An output entry by its 32 bytes (Table 8.14). -/
def outOf (b : List Byte) : OutEntry where
  x0 := leAt b 0 2
  y0 := leAt b 2 2
  cw := leAt b 4 2
  ch := leAt b 6 2
  ow := leAt b 8 2
  oh := leAt b 10 2
  ops := leAt b 12 1
  colour := leAt b 13 1
  angle := sgn 16 (leAt b 14 2)
  fmt := leAt b 16 1
  zp := leAt b 17 1
  scale := leAt b 18 1
  fill := leAt b 19 1
  mean := (List.range 3).map fun i => BitVec.ofNat 16 (leAt b (20 + 2 * i) 2)
  invstd := (List.range 3).map fun i => BitVec.ofNat 16 (leAt b (26 + 2 * i) 2)

/-- An output entry has every field in its range (R220, Table 8.14). -/
def goodEntry (o : OutEntry) : Bool :=
  let top := if o.fmt = 0 then 15 else 255
  o.x0 % 2 == 0 && o.y0 % 2 == 0 && o.cw % 2 == 0 && o.ch % 2 == 0
    && decide (16 ≤ o.cw) && decide (o.cw ≤ 8192) && decide (16 ≤ o.ch) && decide (o.ch ≤ 8192)
    && decide (16 ≤ o.ow) && decide (o.ow ≤ 4096) && decide (16 ≤ o.oh) && decide (o.oh ≤ 4096)
    && bits o.ops 1 0 != 3 && bits o.ops 7 6 == 0 && bits o.colour 7 4 == 0
    && decide (-5760 ≤ o.angle) && decide (o.angle ≤ 5760) && (o.fmt == 0 || o.fmt == 6)
    && decide (o.zp ≤ top) && decide (o.fill ≤ top) && bits o.scale 7 3 != 0
    && !(bits o.ops 1 0 == 2 && (decide (o.cw < o.ow) || decide (o.ch < o.oh)))


/-- The output entries of a stream block. -/
def outsOf (b : List Byte) : List OutEntry := (List.range (leAt b 6 1)).map fun i => outOf (slice b (128 + 32 * i) 32)

/-- The envelope of a stream block. -/
def envOfBlock (b : List Byte) : Envelope where
  codec := leAt b 16 1
  depth := leAt b 17 1
  maxW := leAt b 18 2
  maxH := leAt b 20 2
  maxRefs := leAt b 22 1
  maxRate := leAt b 24 4

/-- An envelope is in the ranges of Table 7.3. -/
def goodEnv (e : Envelope) : Bool :=
  decide (e.codec < 4) && (e.depth == 8 || (e.depth == 10 && e.codec != 1 && e.codec != 3))
    && decide (16 ≤ e.maxW) && decide (e.maxW ≤ 8192) && decide (16 ≤ e.maxH) && decide (e.maxH ≤ 4320)
    && decide (e.maxRefs ≤ if e.codec = 2 then 8 else 16) && (e.codec == 3 || decide (1 ≤ e.maxRefs))
    && decide (100 ≤ e.maxRate) && decide (e.maxRate ≤ 480000)

/-! ### Access units (R185) -/

/-- The longest access unit in bytes (R185). -/
def auLimit (e : Envelope) : Nat := 125 * e.maxRate / 4

/-! ### Levels and admission (R181, R206, R350, R358) -/

/-- A partition pauses: every one but 0 at level 3, all at level 4 (Table 17.2). -/
def pausedPart (s : State) (p : Nat) : Bool := (p != 0 && decide (3 ≤ s.pwr.level)) || decide (4 ≤ s.pwr.level)

/-- Level 2 sheds the odd frames of a stream (Table 17.2). -/
def shedsOdd (s : State) (st : Stream) : Bool := decide (2 ≤ s.pwr.level) && st.part != 0 && decide (st.prio < shedPrioOf s)

/-- A lost host link stops admission outside partition 0 (R358). -/
def linkStops (s : State) (st : Stream) : Bool := s.host.linkLost && st.part != 0

/-- A stream admits frames now, its backlog apart. -/
def admits (s : State) (st : Stream) : Bool := st.state == .running && !pausedPart s st.part && !linkStops s st

/-- The path a record or access unit of a presentation time takes: true for the host path (R224). `ra` says that a sequence may start
with its picture. -/
def onHost (st : Stream) (pts : Nat) (ra : Bool) : Bool :=
  if st.hostPath then decide (st.bound ≤ pts)
  else if !st.switching then false
  else match st.tstar with
    | some t => decide (pts < t)
    | none => !(decide (st.bound ≤ pts) && ra)

/-- A picture that a switch to the device path makes the first: its PTS is T*, and a PATH_SWITCH event reports it (R224). -/
def noteSwitch (id pts : Nat) (ra : Bool) (s : State) : State :=
  let st := strm s id
  if st.switching && !st.hostPath && st.tstar.isNone && ra && decide (st.bound ≤ pts) then
    emit { type := 5, source := 0x08, stream := some id, ctx := some st.ctx, detail := [pts % 2 ^ 32, pts / 2 ^ 32] }
      (modStrm id (fun st => { st with tstar := some pts }) s)
  else s

/-! ### Reconfiguration at an admitted frame (R224, R300, R228, R247) -/

/-- Invalidate every tile of a stream's archive (R228). -/
def dropTiles (id : Nat) (s : State) : State := modStrm id (fun st => { st with archive := { st.archive with valid := [] } }) s

/-- Apply the parts of a waiting STREAM_RECONF that CHANGE marks. The path and its boundary T judge records and packets from the slip
on (log entry 34). -/
def applyConf (id : Nat) (s : State) : State :=
  let st := strm s id
  if st.nextConf.isEmpty then s else
  let b := st.nextConf
  let ch := leAt b 8 2
  let e := envOfBlock b
  let s := modStrm id (fun st =>
    { st with
      nextConf := []
      env := if nbit ch 0 then e else st.env
      outs := if nbit ch 1 then outsOf b else st.outs
      prio := if nbit ch 4 then leAt b 4 1 else st.prio
      ctx := if nbit ch 5 then leAt b 2 2 else st.ctx
      home := if nbit ch 5 then none else st.home
      lastCore := if nbit ch 5 then [] else st.lastCore }) s
  let s := if nbit ch 0 then setLimits 1 (.stream id) (e.maxRefs + 2) (e.maxRefs + 18 + st.hold) s else s
  let s := if nbit ch 1 || nbit ch 2 || nbit ch 5 then dropTiles id s else s
  if nbit ch 1 || nbit ch 5 then loseTracks id s else s

/-- Admit a frame (R190): it takes its order and, from a watched stream, the cycle of R406; a waiting reconfiguration takes effect with
it, and a loss of tracks that no frame has reported yet falls on it. -/
def admitFrame (id : Nat) (f : Frame) (s : State) : State :=
  let s := applyConf id s
  let (o, s) := takeOrder s
  modStrm id (fun st =>
    { st with frames := st.frames ++ [{ f with order := o, ctx := st.ctx, outs := st.outs, trackReset := st.resetPending }], resetPending := false,
              admittedCount := st.admittedCount + 1,
              highPts := some (max (st.highPts.getD 0) f.pts) }) s

/-! ### Frame buffers (R187, R260, R261) -/

/-- A frame buffer is still needed. -/
def bufNeeded (b : FrameBuf) : Bool :=
  b.reference || !b.slots.isEmpty || decide (0 < b.waitingOutput) || decide (0 < b.reading) || decide (0 < b.clips) || decide (0 < b.holdLeft)

/-- Return the frame buffers that nothing needs (R187). -/
def settleBufs (id : Nat) (s : State) : State :=
  let st := strm s id
  let out := st.bufs.filter fun b => !bufNeeded b
  let s := modStrm id (fun st => { st with bufs := st.bufs.filter bufNeeded }) s
  out.foldl (fun s b => giveBack st.part b.ptr (.stream id) s) s

/-- Change one frame buffer. -/
def modBuf (id ptr : Nat) (f : FrameBuf → FrameBuf) (s : State) : State :=
  modStrm id (fun st => { st with bufs := amend (fun b => b.ptr == ptr) f st.bufs }) s

/-- A clip yields a picture it has not encoded: it codes it as MISSING (R261). -/
def yieldPicture (ptr : Nat) (k : Clip) : Clip :=
  { k with ready := k.ready.map fun r => if r.src == .pic ptr then { r with src := .missing } else r }

/-- Release one buffer for the decoder: the oldest picture held only by the hold, else the oldest held otherwise only by clips that
have not encoded it (R261). -/
def releaseHeld (id : Nat) (s : State) : Option State :=
  let st := strm s id
  let bare := fun (b : FrameBuf) => !b.reference && b.slots.isEmpty && b.waitingOutput == 0 && b.reading == 0
  match leastBy (fun b : FrameBuf => b.pts) (st.bufs.filter fun b => bare b && b.clips == 0),
        leastBy (fun b : FrameBuf => b.pts) (st.bufs.filter bare) with
  | some b, _ => some (settleBufs id (modBuf id b.ptr (fun b => { b with holdLeft := 0 }) s))
  | none, some b =>
    let s := { s with clips := s.clips.map fun k => if k.stream == id then yieldPicture b.ptr k else k }
    some (settleBufs id (modBuf id b.ptr (fun b => { b with clips := 0, holdLeft := 0 }) s))
  | none, none => none

/-- Draw a frame buffer, releasing held pictures first where that helps (R261). -/
def drawFrame (id : Nat) : Nat → State → Option Nat × State
  | 0, s => drawFor 1 (.stream id) (strm s id).owner s
  | n + 1, s =>
    match drawFor 1 (.stream id) (strm s id).owner s with
    | (some p, s) => (some p, s)
    | (none, _) => match releaseHeld id s with
      | some t => drawFrame id n t
      | none => (none, s)

/-- The frame buffer at a pointer. -/
def bufAt (st : Stream) (ptr : Nat) : Option FrameBuf := st.bufs.find? fun b => b.ptr == ptr

/-! ### Pre-processing load (R222, R223) -/

/-- NoC cycles of one output of a picture. -/
def outCost (o : OutEntry) (w h : Nat) : Nat :=
  let c := cropIn o w h
  let inA := if c.1 < 16 ∨ c.2 < 16 then 0 else c.1 * c.2
  ceilDiv (max inA (o.ow * o.oh)) (if o.angle = 0 ∧ bits o.ops 1 0 ≠ 1 then 4 else 2)

/-- NoC cycles of a frame's pre-processing. -/
def frameCost (f : Frame) : Nat := (f.outs.map fun o => outCost o f.winW f.winH).sum

/-- Units of a partition in service. -/
def ppUnits (s : State) (p : Nat) : List Nat := (List.range 8).filter fun u => nbit (partAt s p).ppu u && (tget s.ppus {} u).inService

/-- Recompute the load hint of a partition (R223). -/
def noteLoad (p : Nat) (s : State) : State :=
  let q := (s.streams.map fun x => if x.2.part = p then
    ((x.2.frames.filter fun f => f.stage == .preproc).map frameCost).sum else 0).sum
  let u := (ppUnits s p).length
  { s with ppload := tset s.ppload p (if u = 0 then 255 else min 255 (q / (u * 75000)), u) }

/-! ### Clips (R259 to R263, R272, R273) -/

/-- Encoder core n. -/
def encAt (s : State) (n : Nat) : Enc := tget s.encs {} n
/-- Change encoder core n. -/
def modEnc (n : Nat) (f : Enc → Enc) (s : State) : State := { s with encs := tset s.encs n (f (encAt s n)) }

/-- A clip is the one a function names. -/
def Clip.is (k : Clip) (fn : Nat) (id : Word) : Bool := k.fn == fn && k.id == id
/-- An open clip by its function and tag. -/
def clipOf (s : State) (fn : Nat) (id : Word) : Option Clip := s.clips.find? fun k => k.is fn id && !k.ended
/-- Change an open clip. -/
def modClip (fn : Nat) (id : Word) (f : Clip → Clip) (s : State) : State :=
  { s with clips := amend (fun k => k.is fn id && !k.ended) f s.clips }

/-- Bytes of the index area (R272). -/
def indexArea (maxPic : Nat) : Nat := ceilDiv (64 + 32 * maxPic) 4096 * 4096

/-- Write bytes of a clip to its host buffer and charge them; a lost link drops them (R358). -/
def clipWrite (k : Clip) (at' : Nat) (bs : List Byte) (s : State) : State :=
  let s := charge (strm s k.stream).ctx (fun a => { a with pcieBytes := hold64 (a.pcieBytes + bs.length) }) s
  if s.host.linkUp then hostWrite (k.haddr + at') bs s else s

/-- The clip index header (Table 10.6); its CRC covers its last 16 bytes, the entries and the bitstream. -/
def clipHeader (k : Clip) (status : Nat) : List Byte :=
  let flags := b2n k.truncatedFlag + 2 * b2n k.early + 4 * b2n k.faultFlag + 8 * b2n k.thumb
  leBytes 4 0x50494C43 ++ leBytes 2 k.stream ++ leBytes 2 status ++ leBytes 4 k.id.toNat ++ leBytes 2 flags ++ leBytes 2 0
    ++ leBytes 8 k.firstPts ++ leBytes 8 k.lastPts ++ leBytes 4 k.coded ++ leBytes 4 k.bytes ++ leBytes 2 k.w ++ leBytes 2 k.h
    ++ leBytes 4 (crc32c (leBytes 16 0 ++ k.entries ++ k.bits)) ++ leBytes 16 0

/-- A clip lets go of the buffers it holds, its working set and its encoder core. -/
def releaseClip (k : Clip) (s : State) : State :=
  let s := k.ready.foldl (fun s r => match r.src with
    | .pic p => settleBufs k.stream (modBuf k.stream p (fun b => { b with clips := b.clips - 1 }) s)
    | _ => s) s
  let s := match k.buf with | some p => giveBack k.part p (.partition k.part) s | none => s
  { s with encs := tmap s.encs fun _ e => if e.clip == some (k.fn, k.id) then { e with state := if e.state = 1 then 0 else e.state, clip := none } else e }

/-- A clip ends with a status: its index header is written with MAGIC last, then CLIP_DONE (R263, R273). -/
def endClip (k : Clip) (status : Nat) (s : State) : State :=
  let h := clipHeader k status
  let s := clipWrite k 0 (slice h 0 4) (clipWrite k 4 (h.drop 4) s)
  let s := releaseClip k s
  let s := match k.core with | some e => modEnc e (fun e => { e with clips := satInc e.clips }) s | none => s
  let s := modClip k.fn k.id (fun k => { k with ended := true, core := none, ready := [], entries := [], bits := [] }) s
  emit { type := 3, source := 0x04, unit := k.core, stream := some k.stream, ctx := some (strm s k.stream).ctx,
         detail := [k.id.toNat, status] } s

/-- A clip has coded every picture of its range, or every picture that came within WAIT (R263). -/
def clipDone (k : Clip) : Bool := !k.ended && k.closed && k.ready.isEmpty && (decide (0 < k.coded) || k.timedOut)

/-- The status of a clip that is done. -/
def doneStatus (k : Clip) : Nat := if k.timedOut then 0x21 else 0

/-- End every clip of a stream that is complete. -/
def settleClips (id : Nat) (s : State) : State :=
  (s.clips.filter fun k => k.stream == id && clipDone k).foldl (fun s k => endClip k (doneStatus k) s) s

/-- End every open clip of a stream ABORTED (R303). -/
def abortClips (id : Nat) (s : State) : State :=
  (s.clips.filter fun k => k.stream == id && !k.ended).foldl (fun s k => endClip k 0x20 s) s

/-- A running clip takes a picture; a thumb takes one. -/
def takePic (k : Clip) (r : ClipPic) : Clip := { k with ready := k.ready ++ [r], closed := k.closed || k.thumb }

/-- A clip that is running takes a frame of a presentation time; a thumb takes only a picture (R262, R274). -/
def clipTakes (k : Clip) (id pts : Nat) (src : ClipSrc) : Bool :=
  k.stream == id && !k.ended && !k.closed && decide (k.first ≤ pts) && decide (pts ≤ k.last) && !(k.thumb && src == .gap)

/-- A numbered frame goes to the clips that want it; one at or past END ends a clip's range (R260, R262, R263). -/
def offerClips (id : Nat) (f : Frame) (num : Nat) (src : ClipSrc) (s : State) : State :=
  if !(s.clips.any fun k => k.stream == id && !k.ended) then s else
  let (o, s) := takeOrder s
  let r : ClipPic := { pts := f.pts, num := num, arrived := o, src := src, winW := f.winW, winH := f.winH, concealed := f.concealed }
  let n := (s.clips.filter fun k => clipTakes k id f.pts src).length
  let s := { s with clips := s.clips.map fun k =>
    let k := if clipTakes k id f.pts src then takePic k r else k
    if k.stream == id && decide (k.last ≤ f.pts) then { k with closed := true } else k }
  settleClips id (match src with
  | .pic p => modBuf id p (fun b => { b with clips := b.clips + n }) s
  | _ => s)

/-- What a clip learns of an object record. -/
def recBox (r : ObjRec) : ClipBox := { cls := r.cls, x0 := r.x0, y0 := r.y0, x1 := r.x1, y1 := r.y1 }

/-- The folio of a frame is sealed: the clips that code the frame learn its records' boxes (R269). -/
def tellClips (id num : Nat) (gap : Bool) (boxes : List ClipBox) (s : State) : State :=
  let s := modStrm id (fun st => { st with bufs := st.bufs.map fun b =>
    if b.num = num ∧ b.waitingOutput = 0 then { b with folio := some (gap, boxes) } else b }) s
  { s with clips := s.clips.map fun k => if k.stream == id && !k.ended then
      { k with ready := k.ready.map fun r => if r.num = num then { r with folio := some (gap, boxes) } else r } else k }

/-! ### Media cores (R203) -/

/-- Media core n. -/
def mediaAt (s : State) (n : Nat) : Media := tget s.media {} n
/-- Change media core n. -/
def modMedia (n : Nat) (f : Media → Media) (s : State) : State := { s with media := tset s.media n (f (mediaAt s n)) }

/-- Where a frame buffer of a stream lies: its pool is sized by the envelope at STREAM_OPEN (R186). -/
def picAt (st : Stream) (b : FrameBuf) : PicAt := { part := st.part, ptr := b.ptr, env := st.env0, ten := b.ten }

/-! ### The change map and global motion (R200 to R202) -/

/-- Every inter prediction of a block is from the preceding picture alone. -/
def fromPreceding (prec : Nat) (b : BlockFact) : Bool := b.areas.all fun a => a.moves.all fun m => m.1 == prec + 1
/-- A vector is zero. -/
def still (m : Nat × Int × Int) : Bool := m.2.1 == 0 && m.2.2 == 0
/-- A coding block carries a residual or non-zero motion. -/
def Area.active (a : Area) : Bool := a.residual || !a.moves.all still

/-- The change-map value of a block by the decode order of the preceding picture (Table 7.7); `all3` holds for a picture whose every block is
unknown. -/
def changeOf (all3 : Bool) (prec : Option Nat) (tainted : Bool) (b : BlockFact) : Nat :=
  match prec with
  | none => 3
  | some p =>
    if tainted || b.intra || all3 then 3
    else if fromPreceding p b && !(b.areas.any Area.active) && !b.loopFiltered then 0
    else if fromPreceding p b && decide (((b.areas.filter Area.active).map (·.samples)).sum ≤ 1024)
        && b.areas.all (fun a => a.moves.all fun m => decide (m.2.1.natAbs ≤ 64) && decide (m.2.2.natAbs ≤ 64)) then 1
    else 2

/-- Sixteenths of a luma sample rounded to whole samples, half up. -/
def wholeMotion (m : Int) : Int := (m + 8) / 16

/-- A block's dominant motion: the whole-sample vector from the preceding picture that covers the most luma samples (R202). -/
def dominant (prec : Nat) (b : BlockFact) : Option (Int × Int) :=
  let vs := b.areas.flatMap fun a => (a.moves.filter fun m => m.1 == prec + 1).map fun m => ((wholeMotion m.2.1, wholeMotion m.2.2), a.samples)
  let cover := fun (v : Int × Int) => ((vs.filter fun x => x.1 == v).map (·.2)).sum
  (leastBy (fun x : (Int × Int) × Nat => 2 ^ 32 - cover x.1) vs).map (·.1)

/-- The non-zero motion that more than half of the blocks share (R202). -/
def sharedMotion (prec : Nat) (facts : List BlockFact) (change : List Nat) : Option (Int × Int) :=
  let ms := (List.zip facts change).filterMap fun x => if x.2 = 3 then none else dominant prec x.1
  ms.find? fun m => m != (0, 0) && decide (facts.length < 2 * (ms.filter (· == m)).length)

/-- The vector of AV1 global motion parameters at the centre of a w x h picture, in whole luma samples (R202). -/
def warpMotion (p : List Int) (w h : Nat) : Int × Int :=
  let g := fun i => p.getD i 0
  let round := fun (v : Int) => (v + 32768) / 65536
  (round ((g 2 - 65536) * (w / 2 : Nat) + g 3 * (h / 2 : Nat) + g 0), round (g 4 * (w / 2 : Nat) + (g 5 - 65536) * (h / 2 : Nat) + g 1))

/-- A block predicts from a reference. -/
def usesRef (r : Nat) (b : BlockFact) : Bool := b.areas.any fun a => a.moves.any fun m => m.1 == r

/-- The global motion of a picture: AV1's, where a reference of more than half of the blocks has parameters that are not the identity, else the
motion that more than half of the blocks share (R202). -/
def globalOf (prec : Option Nat) (b : FrameBuf) (change : List Nat) : Option (Int × Int) :=
  match b.warps.find? fun w => decide (b.facts.length < 2 * (b.facts.filter (usesRef w.1)).length) with
  | some w => some (warpMotion w.2 b.width b.height)
  | none => prec.bind fun p => sharedMotion p b.facts change

/-! ### Output order and frame numbers (R190, R181, R199, R201) -/

/-- The windows of two pictures in a row differ. -/
def windowMoved (st : Stream) (f : Frame) : Bool :=
  match st.lastWin with
  | some w => w != (f.winX, f.winY, f.winW, f.winH)
  | none => false

/-- A picture that is output counts on the core that decoded it (Table 7.10). -/
def countOutput (f : Frame) (s : State) : State :=
  match f.core with
  | some n => modMedia n (fun m =>
      { m with conc := satInc m.conc (b2n f.concealed), partialCount := satInc m.partialCount (b2n f.partialPic) }) s
  | none => s

/-- The change values of a buffer that is output after the picture in force: every block is unknown after a gap (Table 7.7). -/
def changesOf (st : Stream) (b : FrameBuf) : List Nat :=
  if b.facts.isEmpty then b.taint.map fun _ => 3
  else (List.zip b.taint b.facts).map fun x => changeOf (b.unknown || st.afterGap) st.lastPic x.1 x.2

/-- A picture leaves the decoder: its change map is complete and it goes to pre-processing, unless level 2 sheds it (R181, R199 to R202, R228,
R260). -/
def outputPicture (id : Nat) (f : Frame) (num ptr : Nat) (s : State) : State :=
  let st := strm s id
  let less := fun (b : FrameBuf) => { b with waitingOutput := b.waitingOutput - 1 }
  match shedsOdd s st && num % 2 == 1, bufAt st ptr with
  | false, some b =>
    let s := if f.resChange || windowMoved st f then dropTiles id s else s
    let change := changesOf st b
    let s := dramWrite st.part (ptr + changeAt st.env0) (packMap 2 change) s
    let s := modFrame id f.order (fun f =>
      { f with stage := .preproc, change := change, taint := b.taint, ten := b.ten,
               globalMotion := if st.afterGap then globalOf none b change else globalOf st.lastPic b change }) s
    let s := modStrm id (fun st =>
      { st with afterGap := false, lastPic := some b.refreshed, lastWin := some (f.winX, f.winY, f.winW, f.winH),
                bufs := st.bufs.map fun b =>
                  if b.ptr = ptr then { less b with reading := b.reading + 1, change := change, holdLeft := st.hold, num := num, pts := f.pts,
                                                    winX := f.winX, winY := f.winY, winW := f.winW, winH := f.winH, concealed := f.concealed }
                  else { b with holdLeft := b.holdLeft - 1 } }) s
    noteLoad st.part (settleBufs id (offerClips id f num (.pic ptr) (countOutput f s)))
  | _, _ =>
    let s := modStrm id (fun st => { st with afterGap := true }) (putResult id f.order (.gap 5) s)
    settleBufs id (offerClips id f num .gap (modBuf id ptr less s))

/-- A frame of ready tensors is complete. -/
def tensorsIn (f : Frame) : Bool := decide (0 < f.count) && f.tensors.length == f.count

/-- A frame takes the next frame number in output order and goes on. -/
def outputFrame (id order : Nat) (s : State) : State :=
  match frameOf s id order with
  | none => s
  | some f =>
    let num := (strm s id).nextNum
    let s := modStrm id (fun st => { st with nextNum := num + 1 }) (modFrame id order (fun f => { f with num := some num }) s)
    if f.result.isSome then offerClips id f num .gap (modStrm id (fun st => { st with afterGap := true }) s)
    else match f.buf with
      | some p => outputPicture id f num p s
      | none =>
        let st := strm s id
        if shedsOdd s st && num % 2 == 1 then offerClips id f num .gap (putResult id order (.gap 5) s)
        else
          let s := offerClips id f num .gap s
          if tensorsIn f then beginJobs id order s else s

/-- The reorder depth of a sequence: for AVC 0 in Constrained Baseline and max_num_ref_frames where the VUI omits it, 0 for AV1 and JPEG, which
output in decode order (R190). -/
def reorderOf (h : SeqHdr) : Nat :=
  if h.codec = 0 then h.stated.getD 0
  else if h.codec = 1 then (if h.profile = .constrainedBaseline then 0 else h.stated.getD h.refs)
  else 0

/-- The frames to number next, in order; none when nothing can be released yet. `drain` says that no later picture comes. -/
def nextOutputs (st : Stream) (drain : Bool) : List Nat :=
  let un := st.frames.filter fun f => f.num.isNone
  let waits := fun (f : Frame) => f.stage == .access && f.result.isNone
  let byPts := fun (l : List Frame) => (sortBy (fun f : Frame => f.pts) l).map fun f => f.order
  let held := fun (f : Frame) => st.switching && !st.hostPath && !st.lastSeen && f.result.isNone && !f.bypass
    && (match st.tstar with | some t => decide (t ≤ f.pts) | none => false)
  match un.find? fun f => f.bypass with
  | some b =>
    let before := un.filter fun f => decide (f.order < b.order)
    if before.any (fun f => waits f || held f) then [] else byPts before ++ [b.order]
  | none =>
    if un.any held then [] else
    if drain && !un.any waits then byPts un else
    let pics := un.filter fun f => f.stage == .reorder && f.result.isNone
    let depth := (st.seq.map reorderOf).getD 0
    if pics.length ≤ depth then [] else
    match leastBy (fun f : Frame => f.pts) pics with
    | some p => byPts (un.filter fun f => f.result.isSome && decide (f.pts < p.pts)) ++ [p.order]
    | none => []

/-- Release frames from the decoder in output order (R190). -/
def releaseOutput (id : Nat) (drain : Bool) : Nat → State → State
  | 0, s => s
  | n + 1, s =>
    match nextOutputs (strm s id) drain with
    | [] => s
    | l => releaseOutput id drain n (l.foldl (fun s o => outputFrame id o s) s)

/-- Release what may be released now; a stream that drains releases everything. -/
def settleOutput (id : Nat) (s : State) : State :=
  let st := strm s id
  releaseOutput id (st.state == .draining || st.state == .paused) (st.frames.length + 1) s

/-- A picture that starts a sequence flushes everything before it. -/
def flushBefore (id order : Nat) (s : State) : State :=
  let l := (strm s id).frames.filter fun f => f.num.isNone && decide (f.order < order)
  (sortBy (fun f : Frame => f.pts) l).foldl (fun s f => outputFrame id f.order s) s

/-- Sealed folios of a stream that await delivery (R350). -/
def backlog (st : Stream) : Nat := (st.frames.filter fun f => f.sealed).length

/-- Admission stops at 1,024 and resumes below 512 folios awaiting delivery (R350). -/
def settleBacklog (id : Nat) (s : State) : State :=
  modStrm id (fun st => { st with blocked := if 1024 ≤ backlog st then true else if backlog st < 512 then false else st.blocked }) s

/-- An access unit or FEED refused for the backlog counts in the folio ring (R350). -/
def refuseBacklog (id : Nat) (s : State) : State := ringDrop (strm s id).ring s

end Sys2Proof.Machine
end

