-- ==== Sys2Proof/Machine/Bitstream.lean ====
section
/-! DEFINITION. Machine/Bitstream.lean: the NAL units and OBUs of an access unit as Table 7.2 and R190 sort them. The byte layouts are those
of H.264, H.265 and AV1, which R176 names (log entry 9). -/

namespace Sys2Proof.Machine

/-! ### Units of an access unit -/

/-- A leb128 number and its length in bytes. -/
def leb : Nat → List Byte → Option (Nat × Nat)
  | 0, _ => none
  | _ + 1, [] => none
  | n + 1, x :: r => if x.toNat < 128 then some (x.toNat, 1) else (leb n r).map fun v => (x.toNat % 128 + 128 * v.1, v.2 + 1)

/-- What stands between the start codes of a byte stream; `cur` is the piece in hand, last byte first. -/
def splitStream : List Byte → List Byte → List (List Byte)
  | a :: b :: c :: r, cur => if a = 0 ∧ b = 0 ∧ c = 1 then cur.reverse :: splitStream r [] else splitStream (b :: c :: r) (a :: cur)
  | a :: r, cur => splitStream r (a :: cur)
  | [], cur => [cur.reverse]

/-- The NAL units of a byte stream. -/
def nalUnits (b : List Byte) : List (List Byte) :=
  (((splitStream b []).drop 1).map fun u => (u.reverse.dropWhile (· == 0)).reverse).filter fun u => !u.isEmpty

/-- The OBUs of a temporal unit in the low-overhead format. -/
def splitObus : Nat → List Byte → List (List Byte)
  | 0, _ => []
  | n + 1, b =>
    if b.isEmpty then [] else
    let k := if nbit (leAt b 0 1) 2 then 2 else 1
    match (if nbit (leAt b 0 1) 1 then leb 8 (b.drop k) else none) with
    | some (l, j) => b.take (k + j + l) :: splitObus n (b.drop (k + j + l))
    | none => [b]

/-- The type of an OBU (AV1). -/
def obuType (b : List Byte) : Nat := leAt b 0 1 / 8 % 16

/-- The units of an access unit by its codec: 0 HEVC, 1 AVC, 2 AV1; a JPEG picture is one. -/
def unitsOf (codec : Nat) (b : List Byte) : List (List Byte) :=
  if codec < 2 then nalUnits b else if codec = 2 then splitObus b.length b else [b]

/-! ### What Table 7.2 discards -/

/-- The bits of a NAL unit's payload, emulation prevention bytes removed; `zeros` counts the zero bytes before. -/
def payloadBits : Nat → List Byte → List Bool
  | _, [] => []
  | zeros, b :: r =>
    if zeros = 2 ∧ b = 3 then payloadBits 0 r
    else (List.range 8).map (fun i => nbit b.toNat (7 - i)) ++ payloadBits (if b = 0 then min 2 (zeros + 1) else 0) r

/-- An exponential Golomb number, and the bits after it. -/
def golomb (l : List Bool) : Nat × List Bool :=
  let z := (l.takeWhile (!·)).length
  let r := l.drop (z + 1)
  (2 ^ z - 1 + (r.take z).foldl (fun a b => 2 * a + b2n b) 0, r.drop z)

/-- Skip n exponential Golomb numbers. -/
def skipGolomb (n : Nat) (l : List Bool) : List Bool := (List.range n).foldl (fun l _ => (golomb l).2) l

/-- An AVC picture parameter set has slice groups or redundant pictures. -/
def refusedPps (u : List Byte) : Bool :=
  let l := (skipGolomb 2 (payloadBits 0 (u.drop 1))).drop 2
  let g := golomb l
  decide (0 < g.1) || (skipGolomb 3 ((skipGolomb 2 g.2).drop 3)).getD 2 false

/-- Table 7.2 discards a unit: AVC NAL unit types 14, 15 and 20 and refused picture parameter sets, HEVC layers above the base layer, and AV1
OBUs outside operating point 0. -/
def discardedUnit (codec opIdc : Nat) (u : List Byte) : Bool :=
  let h := leAt u 0 1
  if codec = 0 then decide (0 < h % 2 * 32 + leAt u 1 1 / 8)
  else if codec = 1 then [14, 15, 20].contains (h % 32) || (h % 32 == 8 && refusedPps u)
  else if codec = 2 then
    let x := leAt u 1 1
    nbit h 2 && opIdc != 0 && obuType u != 1 && obuType u != 2 && !(nbit opIdc (x / 32) && nbit opIdc (8 + x / 8 % 4))
  else false

/-- The units of an access unit that are decoded. -/
def decodedUnits (codec opIdc : Nat) (b : List Byte) : List (List Byte) := (unitsOf codec b).filter fun u => !discardedUnit codec opIdc u

/-! ### Parameter sets (R190) -/

/-- A unit is a parameter set or a sequence header. -/
def isSet (codec : Nat) (u : List Byte) : Bool :=
  let h := leAt u 0 1
  if codec = 0 then [32, 33, 34].contains (h / 2 % 64)
  else if codec = 1 then [7, 8].contains (h % 32)
  else codec == 2 && obuType u == 1

/-- Keep the parameter sets of an access unit for the pictures that follow. -/
def keepSets (id : Nat) (b : List Byte) (s : State) : State :=
  modStrm id (fun st =>
    let l := (decodedUnits st.env.codec ((st.seq.map (·.opIdc)).getD 0) b).filter (isSet st.env.codec)
    { st with sets := (st.sets.filter fun u => !l.contains u) ++ l }) s

end Sys2Proof.Machine
end

