-- ==== Sys2Proof/Machine/Video.lean ====
section
/-! DEFINITION. Machine/Video.lean: the media cores (R176 to R203). -/

namespace Sys2Proof.Machine

/-- Media cores of a partition that are neither withdrawn nor under test. -/
def mediaIn (s : State) (p : Nat) : List Nat :=
  (List.range 32).filter fun n => nbit (partAt s p).media n && decide ((mediaAt s n).state < 2)

/-- Return a frame's access-unit buffer. -/
def returnAu (id order : Nat) (s : State) : State :=
  match frameOf s id order with
  | some f => match f.auPtr with
    | some a => giveBack (strm s id).part a (.stream id) (modFrame id order (fun f => { f with auPtr := none, auSize := 0 }) s)
    | none => s
  | none => s

/-- An admitted frame yields no picture: it takes its gap, its access unit returns, and the output order goes on (R190, R195). -/
def noPicture (id order reason : Nat) (s : State) : State :=
  settleOutput id (putResult id order (.gap reason) (returnAu id order s))

/-! ### Sequence headers (R183, R184) -/

/-- The profiles, chroma formats and bit depths of Table 7.1 by codec, and the highest level, times ten. -/
def supported (h : SeqHdr) : Bool :=
  match h.codec with
  | 0 => [Profile.main, .main10, .mainStill].contains h.profile && h.chroma == 1 && (h.depth == 8 || h.depth == 10)
  | 1 => [Profile.constrainedBaseline, .main, .high].contains h.profile && h.chroma == 1 && h.depth == 8 && h.framesOnly
  | 2 => h.profile == .main && decide (h.chroma ≤ 1) && (h.depth == 8 || h.depth == 10) && !h.largeScale
  | _ => h.profile == .baseline && decide (h.chroma ≤ 3) && h.depth == 8

/-- A level lies above Table 7.1. -/
def levelAbove (h : SeqHdr) : Bool :=
  match h.codec with
  | 0 => decide (61 < h.level)
  | 1 => decide (52 < h.level)
  | 2 => decide (60 < h.level)
  | _ => false

/-- The gap reason of a refused header: the first that applies (R183); none for a conforming one. -/
def headerRefusal (e : Envelope) (h : SeqHdr) : Option Nat :=
  if h.codec ≠ e.codec then some 3
  else if !supported h || decide (8192 < h.width) || decide (4320 < h.height) then some 2
  else if levelAbove h then some 3
  else if e.maxW < h.width ∨ e.maxH < h.height ∨ e.depth < h.depth ∨ (h.codec < 2 ∧ e.maxRefs < h.refs) then some 3
  else none

/-- Take a sequence header: a refused one is counted, reported and in force until a conforming one comes; a conforming one starts a
sequence, whose first picture is RESCHANGE when its size or depth is new (R184, R199). -/
def takeHeader (id core : Nat) (h : SeqHdr) (s : State) : State :=
  let st := strm s id
  match headerRefusal st.env h with
  | some r =>
    let s := modMedia core (fun m => { m with envref := satInc m.envref }) (modStrm id (fun st => { st with refused := some r }) s)
    emit { cls := 1, source := 0x03, unit := some core, stream := some id, ctx := some st.ctx, code := r,
           detail := [h.width, h.height, h.refs, h.level] } s
  | none =>
    let moved := match st.seq with
      | some o => o.width != h.width || o.height != h.height || o.depth != h.depth
      | none => false
    modStrm id (fun st => { st with seq := some h, started := st.started && st.refused.isNone, refused := none,
                                    resChange := st.resChange || moved }) s

/-- Count the bytes of an access unit in its second of presentation time; a second counts once it exceeds MAX_RATE, on the core the unit was
placed on, or on the partition's lowest for a unit that no core takes (R185, R203, log entry 112). -/
def countRate (id : Nat) (core : Option Nat) (pts len : Nat) (s : State) : State :=
  let st := strm s id
  let n := pts / 90000
  let was := tget st.rate (0, false) n
  let total := was.1 + len
  let exceeds := decide (1000 * st.env.maxRate < 8 * total)
  let core := core.getD ((((List.range 32).filter fun n => nbit (partAt s st.part).media n)).headD 0)
  let s := if exceeds && !was.2 then modMedia core (fun m => { m with rate := satInc m.rate }) s else s
  modStrm id (fun st => { st with rate := tset st.rate n (total, exceeds || was.2) }) s

/-! ### Starting a picture (R180, R181, R189, R195) -/

/-- The frame of a stream that is next in decode order, when no core decodes for the stream. -/
def nextToDecode (s : State) (id : Nat) : Option Frame :=
  if s.media.any fun m => m.2.state == 1 && m.2.stream == id then none
  else leastBy (fun f : Frame => f.order) ((strm s id).frames.filter fun f => f.stage == .access && f.result.isNone)

/-- A frame may run on a media core: a retry takes another core where the partition has one (R198). -/
def mayRunOn (s : State) (p core : Nat) (f : Frame) : Bool := !(f.lastMedia == some core && decide (1 < (mediaIn s p).length))

/-- The stream of a partition whose picture a media core decodes next: by priority, then by arrival of the access unit (R180). -/
def nextDecoded (s : State) (p core : Nat) : Option (Nat × Frame) :=
  let l := s.streams.filterMap fun x =>
    if x.2.part = p then ((nextToDecode s x.1).filter (mayRunOn s p core)).map fun f => (x.1, f) else none
  leastBy (fun x => (8 - (strm s x.1).prio) * 2 ^ 64 + x.2.order) l

/-- The number a picture takes when the output process would release it as soon as it is decoded. -/
def fixedNumber (st : Stream) (f : Frame) : Option Nat :=
  let un := st.frames.filter fun g => g.num.isNone
  let pics := un.filter fun g => g.stage == .reorder && g.result.isNone
  if pics.length < (st.seq.map reorderOf).getD 0 || pics.any (fun g => decide (g.pts < f.pts)) then none
  else some (st.nextNum + (un.filter fun g => g.result.isSome && decide (g.pts < f.pts)).length)

/-- The bytes of a frame's access unit in its buffer. -/
def auBytes (s : State) (st : Stream) (f : Frame) : List Byte :=
  match f.auPtr with
  | some a => dramRead s st.part a f.auSize
  | none => []

/-- A media core takes a picture into the buffer it drew, or finds none (R189). -/
def drawPicture (id core order : Nat) (s : State) : State :=
  match drawFrame id (strm s id).bufs.length s with
  | (some p, s) => modMedia core (fun m => { m with state := 1, stream := id, order := order, buf := some p }) s
  | (none, s) => noPicture id order 4 (modMedia core (fun m =>
      { m with nobuf := satInc m.nobuf, state := 0, stream := 0x7FF, buf := none }) s)

/-- The gap reason of an access unit whose headers show that it yields no picture: a refused sequence, no picture data beside loss marks, a
region of which none can be decoded, or a picture before the first that may start the sequence (R184, Table 7.6). -/
def headGap (st : Stream) (f : Frame) (head : AuHead) : Option Nat :=
  match st.refused with
  | some r => some r
  | none =>
    if !f.hasPicture then some 1
    else if head.failure.isSome || (!st.started && !head.randomAccess) then some 2 else none

/-- Place a frame on a media core: headers and rate are judged there; a frame that yields no picture or that level 2 sheds is not decoded and
takes no buffer; a frame that shows an existing picture needs none. -/
def placeFrame (id core : Nat) (f : Frame) (hdr : Option SeqHdr) (head : AuHead) (s : State) : State :=
  let s := if f.attempts = 0 then
      let s := keepSets id (auBytes s (strm s id) f) (countRate id (some core) f.pts f.auLen s)
      match hdr with | some h => takeHeader id core h s | none => s
    else s
  let s := modMedia core (fun m => { m with codec := (strm s id).env.codec, randomAccess := head.randomAccess, reference := head.reference,
                                            shows := head.shows }) s
  let st := strm s id
  match headGap st f head with
  | some r =>
    noPicture id f.order r (if head.failure = some .parameterSet then modStrm id (fun st => { st with resume := true }) s else s)
  | none =>
    if shedsOdd s st && !head.reference && (fixedNumber st f).any (fun n => n % 2 == 1) then noPicture id f.order 5 s
    else if head.shows.isSome then modMedia core (fun m => { m with state := 1, stream := id, order := f.order, buf := none }) s
    else drawPicture id core f.order s

/-- DECODE_START: firmware starts the next picture of the partition's streams, by priority and then by arrival, on an idle media core of
the partition; a retry runs on another core where the partition has one (R180, R198). -/
def execDecodeStart (stream core : Nat) (hdr : Option SeqHdr) (head : AuHead) (s : State) : Out :=
  .next (
    let st := strm s stream
    let free := upAt s (48 + core) && (mediaIn s st.part).contains core && (mediaAt s core).state == 0 && !pausedPart s st.part
    match free, nextDecoded s st.part core with
    | true, some (id, f) => if id = stream then placeFrame stream core f hdr head s else s
    | _, _ => s)

/-! ### References (R188, R192, R193) -/

/-- A reference goes by its slot in AV1 and by its presentation time otherwise. -/
def refBuf (st : Stream) (name : Nat) : Option FrameBuf :=
  st.bufs.find? fun b => if st.env.codec = 2 then b.slots.contains name else b.reference && b.pts == name

/-- The substitute of a reference that was never received: the reference picture nearest its presentation time, the earlier on a tie (R193). -/
def substitute (st : Stream) (pts : Nat) : Option FrameBuf :=
  leastBy (fun b : FrameBuf => if b.pts ≤ pts then 2 * (pts - b.pts) else 2 * (b.pts - pts) + 1)
    (st.bufs.filter fun b => b.reference || !b.slots.isEmpty)

/-- The buffer that stands for a reference of a picture; none for the device-wide mid-grey picture. -/
def standIn (st : Stream) (p : PicFact) (name : Nat) : Option FrameBuf :=
  match refBuf st name with
  | some b => some b
  | none => substitute st (((p.named.find? fun n => n.1 == name).map (·.2)).getD 0)

/-- Mid-grey in the stream's format. -/
def midGrey (st : Stream) : Nat := if st.env.depth = 10 then 512 else 128

/-- A sample of a reference, or of what stands for it; beyond its edges the nearest sample. -/
def refSample (s : State) (st : Stream) (p : PicFact) (name plane x y : Nat) : Nat :=
  match standIn st p name with
  | some b =>
    let half := fun (n : Nat) => if plane = 0 then n else ceilDiv n 2
    sampleIn s (picAt st b) plane (min x (half b.width - 1)) (min y (half b.height - 1))
  | none => midGrey st

/-! ### Damage (R185, R191, R194) -/

/-- Where the decoder stands in the data of a picture: decoding, looking for a resume point, or done with it (Table 7.5). -/
inductive Walk where
  | going
  | seeking
  | stopped
  deriving DecidableEq, Repr

/-- Reading the access unit or a reference for coding unit i ends uncorrectable. -/
def unitBad (s : State) (st : Stream) (f : Frame) (p : PicFact) (i lo hi : Nat) : Bool :=
  f.auPtr.any (fun a => rangeBad s st.part (a + lo) (hi - lo))
    || p.blocks.any fun b => b.reads.any fun r => r.unit == i && (standIn st p r.ref).any fun k => rectBad s (picAt st k) r.x r.y r.w r.h

/-- One coding unit: loss marks before it and damage in it stop decoding, which resumes where Table 7.5 says; a unit that does not lie wholly
before the end of the data is not decoded. `a` holds the walk, the end of the data read, and whether each unit before was decoded. -/
def walkUnit (s : State) (st : Stream) (f : Frame) (p : PicFact) (a : Walk × Nat × List Bool) (x : CodeUnit) : Walk × Nat × List Bool :=
  let miss := fun (w : Walk) (e : Nat) => (w, e, a.2.2 ++ [false])
  match x.data with
  | none => miss (if a.1 = .stopped then .stopped else .seeking) a.2.1
  | some (lo, hi) =>
    let w := if a.1 = .going ∧ f.lossMarks.any (fun m => decide (a.2.1 ≤ m) && decide (m ≤ lo)) then .seeking else a.1
    if f.auSize < hi ∨ w = .stopped ∨ (w = .seeking ∧ !x.entry) then miss w hi
    else match x.damage with
      | some .syntaxError => miss .seeking hi
      | some .address => miss .stopped hi
      | none => if unitBad s st f p a.2.2.length lo hi then miss .going hi else (.going, hi, a.2.2 ++ [true])

/-- Which coding units of a picture are decoded, in decode order. -/
def unitsDecoded (s : State) (st : Stream) (f : Frame) (p : PicFact) : List Bool :=
  (p.units.foldl (walkUnit s st f p) (Walk.going, 0, [])).2.2

/-- The luma sample at x, y lies in a decoded unit. -/
def covered (p : PicFact) (ok : List Bool) (x y : Nat) : Bool :=
  (List.zip p.units ok).any fun u => u.2 && decide (u.1.x ≤ x) && decide (x < u.1.x + u.1.w) && decide (u.1.y ≤ y) && decide (y < u.1.y + u.1.h)

/-- Resumptions: a decoded unit after one that was not, and the first unit of a picture after damage that resumes there. -/
def resumptions (open' : Bool) (ok : List Bool) : Nat :=
  ((List.zip ((!open') :: ok) ok).filter fun x => !x.1 && x.2).length

/-- The data of a picture ends before its area is filled (R194). -/
def endsShort (f : Frame) (ok : List Bool) : Bool := f.truncated || !ok.getLastD true

/-! ### Samples (R178, R192) -/

/-- A coded sample in 4:2:0 at the coded depth: chroma of 4:2:2 and 4:4:4 is averaged, rounding half up, and a monochrome picture's is the
middle value. -/
def codedIn420 (h : SeqHdr) (c : Nat → Nat → Nat → Nat) (plane x y : Nat) : Nat :=
  let v := fun (x y : Nat) => c plane x y % 2 ^ h.depth
  let y1 := min (2 * y + 1) (h.height - 1)
  let x1 := min (2 * x + 1) (h.width - 1)
  if plane = 0 ∨ h.chroma = 1 then v x y
  else if h.chroma = 0 then 2 ^ (h.depth - 1)
  else if h.chroma = 2 then (v x (2 * y) + v x y1 + 1) / 2
  else (v (2 * x) (2 * y) + v x1 (2 * y) + v (2 * x) y1 + v x1 y1 + 2) / 4

/-- A sample of the picture as it is written: decoded, or concealed at zero motion from the picture's first reference, or mid-grey. -/
def pictureSample (s : State) (st : Stream) (h : SeqHdr) (p : PicFact) (ok : List Bool) (units : List (List Byte)) (plane x y : Nat) : Nat :=
  let k := if plane = 0 then 1 else 2
  if covered p ok (k * x) (k * y) then
    let v := codedIn420 h (Config.codedSample st.env.codec st.sets units (refSample s st p)) plane x y
    if st.env.depth = 10 ∧ h.depth = 8 then 4 * v else v
  else match p.first with
    | some r => refSample s st p r plane x y
    | none => midGrey st

/-! ### Taint (R196) -/

/-- Some sample of block k is concealed. -/
def blockConcealed (h : SeqHdr) (p : PicFact) (ok : List Bool) (k : Nat) : Bool :=
  let c := ceilDiv h.width 64
  let x0 := 64 * (k % c)
  let y0 := 64 * (k / c)
  !(List.range (min 64 (h.height - y0))).all fun y => (List.range (min 64 (h.width - x0))).all fun x => covered p ok (x0 + x) (y0 + y)

/-- Motion compensation reads a tainted block of a reference, or a substitute. -/
def readsTaint (st : Stream) (r : RefRead) : Bool :=
  match refBuf st r.ref with
  | none => true
  | some b =>
    let c := ceilDiv b.width 64
    (List.range b.taint.length).any fun k => b.taint.getD k false
      && decide (64 * (k % c) < r.x + r.w) && decide (r.x < 64 * (k % c) + 64) && decide (64 * (k / c) < r.y + r.h) && decide (r.y < 64 * (k / c) + 64)

/-- Spread taint through intra prediction until it rests: block by block at most as often as there are blocks. -/
def spreadTaint (blocks : List BlockFact) : Nat → List Bool → List Bool
  | 0, t => t
  | n + 1, t => spreadTaint blocks n ((List.zip t blocks).map fun x => x.1 || x.2.intraReads.any fun k => t.getD k false)

/-- Taint of the picture's blocks in order (R196): concealed, predicted from a tainted or substituted reference block, or intra
predicted from a tainted block of the picture. -/
def taintOf (st : Stream) (h : SeqHdr) (p : PicFact) (ok : List Bool) : List Bool :=
  let own := (List.range (blockCount h.width h.height)).map fun k =>
    blockConcealed h p ok k || (p.blocks.getD k {}).reads.any (readsTaint st)
  spreadTaint ((List.range own.length).map fun k => p.blocks.getD k {}) own.length own

/-! ### A completed picture (R187, R188, R190 to R202) -/

/-- The reference marks after a picture (R187): AV1 slots the picture refreshes leave other buffers; otherwise the kept references. -/
def markRefs (av1 : Bool) (p : PicFact) (b : FrameBuf) : FrameBuf :=
  if av1 then { b with slots := b.slots.filter fun k => !p.slots.contains k }
  else { b with reference := p.keeps.contains b.pts, longTerm := p.longTerm.contains b.pts }

/-- An AV1 refresh that would leave more than MAX_REFS buffers marked releases one of those buffers before it: the one in the fewest slots, the
longest ago refreshed (R188); the count is of the slots emptied. -/
def trimSlots (refs : Nat) (p : PicFact) (l : List FrameBuf) : List FrameBuf × Nat :=
  let stay := l.filter fun b => !(markRefs true p b).slots.isEmpty
  if stay.length + b2n (!p.slots.isEmpty) ≤ refs then (l, 0) else
  match leastBy (fun b : FrameBuf => b.slots.length * 2 ^ 64 + b.refreshed) stay with
  | some b => (amend (fun x => x.ptr == b.ptr) (fun x => { x with slots := [] }) l, b.slots.length)
  | none => (l, 0)

/-- The cycles of a picture on a media core (R179). -/
def decodeCycles (p : PicFact) : Nat := 6400 + max (ceilDiv (2 * p.samples) 3) (ceilDiv p.bits 2)

/-- The sequence header in force. -/
def seqOf (st : Stream) : SeqHdr :=
  st.seq.getD { codec := st.env.codec, profile := .other, chroma := 1, depth := st.env.depth, width := st.env.maxW, height := st.env.maxH,
                refs := 0, stated := none, level := 0, framesOnly := true, largeScale := false, opIdc := 0, winX := 0, winY := 0,
                winW := st.env.maxW, winH := st.env.maxH }

/-- The facts of a block with its references by decode order plus one, 0 for a substitute. -/
def resolveFact (st : Stream) (b : BlockFact) : BlockFact :=
  { b with areas := b.areas.map fun a => { a with moves := a.moves.map fun m => (((refBuf st m.1).map (·.refreshed + 1)).getD 0, m.2) } }

/-- Write a picture into its buffer: samples, motion data and taint map (Table 7.4); the change map is written at output, when the preceding
picture is known. -/
def writePicture (st : Stream) (h : SeqHdr) (f : Frame) (a : PicAt) (p : PicFact) (ok taint : List Bool) (s : State) : State :=
  let units := decodedUnits st.env.codec h.opIdc (auBytes s st f)
  let t := writePlanes a h.width h.height (pictureSample s st h p ok units) s
  let t := dramWrite a.part (a.ptr + motionAt a.env) ((List.range (motionLen h.width h.height)).map (Config.motionByte st.env.codec units)) t
  dramWrite a.part (a.ptr + taintAt a.env) (packMap 1 (taint.map b2n)) t

/-- A frame has its picture: it waits for its output. -/
def waitOutput (id order ptr core : Nat) (conc short : Bool) (s : State) : State :=
  let h := seqOf (strm s id)
  modFrame id order (fun f =>
    { f with stage := .reorder, buf := some ptr, concealed := conc, partialPic := short, resChange := (strm s id).resChange,
             winX := h.winX, winY := h.winY, winW := h.winW, winH := h.winH, cols := ceilDiv h.width 64, core := some core }) s

/-- A picture is decoded into its buffer: samples and maps, marks, counters; a shown picture waits for its output, and after an AV1 frame that is
not shown the core goes on with the access unit. -/
def keepPicture (core id : Nat) (f : Frame) (ptr : Nat) (p : PicFact) (ok : List Bool) (s : State) : State :=
  let m := mediaAt s core
  let s := if m.randomAccess then flushBefore id f.order s else s
  let (serial, s) := takeOrder s
  let st := strm s id
  let h := seqOf st
  let av1 := st.env.codec == 2
  let taint := taintOf st h p ok
  let short := endsShort f ok
  let conc := short || taint.any fun t => t
  let lost := (p.named.filter fun n => (refBuf st n.1).isNone).length
  let r (x : Nat × List Int) := (((refBuf st x.1).map (·.refreshed + 1)).getD 0, x.2)
  let buf : FrameBuf :=
    { ptr := ptr, pts := f.pts, reference := m.reference && !av1, longTerm := p.longTerm.contains f.pts && !av1,
      slots := if av1 then p.slots else [], refreshed := serial, waitingOutput := b2n (!p.hidden), reading := 0, taint := taint, change := [],
      width := h.width, height := h.height, ten := st.env.depth == 10, facts := p.blocks.map (resolveFact st), warps := p.warps.map r,
      unknown := st.resChange || (p.leading && decide (0 < lost)) || st.env.codec == 3 }
  let (bufs, cut) := if av1 then trimSlots st.env.maxRefs p st.bufs else (st.bufs, 0)
  let s := writePicture st h f (picAt st buf) p ok taint s
  let s := if p.hidden then s else waitOutput id f.order ptr core conc short s
  let s := modStrm id (fun st => { st with bufs := bufs.map (markRefs av1 p) ++ [buf], started := true, resChange := false,
                                           resume := !ok.getLastD true }) s
  let s := modMedia core (fun m =>
    { m with pict := satInc m.pict, resync := satInc m.resync (resumptions st.resume ok), subst := satInc m.subst (lost + cut) }) s
  let s := charge f.ctx (fun a => { a with mediaCycles := hold64 (a.mediaCycles + decodeCycles p) }) s
  let s := countEv (48 + core) 0x30 1 s
  if p.hidden then
    drawPicture id core f.order (modMedia core (fun m => { m with randomAccess := false }) (settleBufs id s))
  else settleOutput id (settleBufs id (returnAu id f.order s))

/-- AV1 show_existing_frame: the picture in a slot waits for its output once more, and a key frame refreshes the slots (R190); an empty slot has
no picture to show (log entry 113). -/
def showPicture (core id : Nat) (f : Frame) (slot : Nat) (p : PicFact) (s : State) : State :=
  let st := strm s id
  match refBuf st slot with
  | some b =>
    let s := if (mediaAt s core).randomAccess then flushBefore id f.order s else s
    let s := waitOutput id f.order b.ptr core (b.taint.any fun t => t) false s
    let s := modStrm id (fun st => { st with
      bufs := (st.bufs.map (markRefs true p)).map fun x =>
        if x.ptr = b.ptr then { x with waitingOutput := x.waitingOutput + 1, slots := x.slots ++ p.slots } else x
      started := true, resChange := false }) s
    let s := modMedia core (fun m => { m with pict := satInc m.pict }) s
    settleOutput id (settleBufs id (returnAu id f.order (countEv (48 + core) 0x30 1 s)))
  | none => noPicture id f.order 2 s

/-- PICTURE_DECODED: a media core completes its picture (R190 to R202); a picture of which no unit can be decoded gives DECODE_FAIL, and a
completion after the watchdog won is discarded and counted (R198). -/
def execPictureDecoded (core : Nat) (pic : PicFact) (s : State) : Out :=
  .next (
    let m := mediaAt s core
    if !upAt s (48 + core) || decide (32 ≤ core) then s
    else if m.state ≠ 1 then
      (if 0 < m.lateDue then modMedia core (fun m => { m with lateDue := m.lateDue - 1, wdlate := satInc m.wdlate }) s else s)
    else
      let s := correctMemories 0x03 core (48 + core) pic.corrected
        (endCensus (48 + core) 4 (modMedia core (fun m => { m with state := 0, stream := 0x7FF, buf := none, fails := 0 }) s))
      let st := strm s m.stream
      match frameOf s m.stream m.order, m.buf, m.shows with
      | some f, none, some k => if f.result.isSome then s else showPicture core m.stream f k pic s
      | some f, some p, _ =>
        let ok := unitsDecoded s st f pic
        if f.result.isSome then giveBack st.part p (.stream m.stream) s
        else if ok.any fun b => b then keepPicture core m.stream f p pic ok s
        else noPicture m.stream f.order 2 (giveBack st.part p (.stream m.stream) s)
      | _, _, _ => s)

/-! ### Media-core faults (R198) -/

/-- MEDIA_WATCHDOG: the watchdog or a memory fault wins: the result is discarded, the buffer quarantined, the island reset; the frame
is decoded once more, and a core that fails twice in a row is withdrawn. -/
def execMediaWatchdog (core : Nat) (_memory : Bool) (s : State) : Out :=
  .next (
    let m := mediaAt s core
    if !upAt s (48 + core) || decide (32 ≤ core) || m.state ≠ 1 then s else
    let st := strm s m.stream
    let s := match m.buf with | some p => quarantineBuf st.part p s | none => s
    let gone := decide (1 ≤ m.fails)
    let s := modMedia core (fun m =>
      { m with state := if gone then 2 else 0, stream := 0x7FF, buf := none, wdog := min (m.wdog + 1) 255, fails := m.fails + 1,
               lateDue := m.lateDue + 1 }) s
    let s := resetIsland (48 + core) s
    let s := emit { cls := 1, source := 0x03, unit := some core, stream := some m.stream, ctx := some st.ctx } s
    let s := if !gone then s else
      let s := emit { cls := 0, part := some st.part, source := 0x03, unit := some core } s
      if (mediaIn s st.part).isEmpty then faultPartition st.part { source := 0x03, unit := some core } s else s
    match frameOf s m.stream m.order with
    | some f =>
      if f.result.isSome then s
      else if 1 ≤ f.attempts then noPicture m.stream f.order 2 s
      else modFrame m.stream f.order (fun f => { f with attempts := f.attempts + 1, lastMedia := some core }) s
    | none => s)

end Sys2Proof.Machine
end

