-- ==== Sys2Proof/Machine/ClipSource.lean ====
section
/-! DEFINITION. Machine/ClipSource.lean: what an encoder core codes: the clip picture, its regions and its masked source (R259, R269, R270,
R274). -/

namespace Sys2Proof.Machine

/-- Samples of a picture by plane, x and y. -/
abbrev Sampler := Nat → Nat → Nat → Nat

/-- The mean of samples, rounded half up. -/
def meanOf (l : List Nat) : Nat := if l.isEmpty then 0 else (2 * l.sum + l.length) / (2 * l.length)

/-- A sample in 8 bits (R259). -/
def eightBit (ten : Bool) (v : Nat) : Nat := if ten then min 255 ((v + 2) / 4) else v

/-- Luma samples per sample of a plane, along a side. -/
def planeStep (plane : Nat) : Nat := if plane = 0 then 1 else 2

/-- The output window of a picture in 8-bit samples (R259). -/
def windowSample (s : State) (st : Stream) (b : FrameBuf) : Sampler := fun plane x y =>
  eightBit b.ten (sampleIn s (picAt st b) plane (b.winX / planeStep plane + x) (b.winY / planeStep plane + y))

/-- The samples divided by n along each side with area averaging. -/
def shrinkBy (n : Nat) (f : Sampler) : Sampler := fun plane x y =>
  meanOf ((List.range n).flatMap fun j => (List.range n).map fun i => f plane (n * x + i) (n * y + j))

/-- The least CAP of a clip picture (R271). -/
def leastCap (d : Nat × Nat) : Nat := 1024 + 4 * (ceilDiv d.1 64 * ceilDiv d.2 64)

/-! ### Regions (R269) -/

/-- The records whose class the clip selects. -/
def selected (k : Clip) (l : List ClipBox) : List ClipBox :=
  l.filter fun b => decide (k.dcbase ≤ b.cls) && decide (b.cls < k.dcbase + 64) && nbit k.dclass.toNat (b.cls - k.dcbase)

/-- The region of a record: its box rounded outward and grown by MARGIN, in output-window pixels. -/
def derived (k : Clip) (qpoff : Int) (privacy : Bool) (b : ClipBox) : Region :=
  { x0 := b.x0 / 4 - k.margin, y0 := b.y0 / 4 - k.margin, x1 := ceilDiv b.x1 4 + k.margin - 1, y1 := ceilDiv b.y1 4 + k.margin - 1,
    qpoff := qpoff, privacy := privacy }

/-- The common bounding rectangle of two regions, with the first one's QPOFF. -/
def joinRegions (a b : Region) : Region :=
  { a with x0 := min a.x0 b.x0, y0 := min a.y0 b.y0, x1 := max a.x1 b.x1, y1 := max a.y1 b.y1 }

/-- Privacy regions that do not fit among 16 are merged with the last privacy region that fits, or where none fits with the last region,
which then masks (log entry 116). -/
def mergeRest (l rest : List Region) : List Region :=
  match rest with
  | [] => l
  | _ =>
    let places := (List.range l.length).filter fun i => (l[i]?).any (·.privacy)
    let at' := (places.getLast?).getD (l.length - 1)
    (List.zip (List.range l.length) l).map fun x => if x.1 = at' then { rest.foldl joinRegions x.2 with privacy := true } else x.2

/-- The regions of a picture in order, in output-window pixels; whether the whole picture is masked for want of a folio; and the QP regions
dropped. -/
def regionsOf (k : Clip) (folio : Option (Bool × List ClipBox)) : List Region × Bool × Nat :=
  let gap := folio.any (·.1)
  let recs := selected k ((folio.map (·.2)).getD [])
  let priv := if k.derivePriv then recs.map (derived k 0 true) else []
  let room := 16 - k.regions.length
  let l := mergeRest (k.regions ++ priv.take room) (priv.drop room)
  let qp := if k.deriveQp then recs.map (derived k k.dqp false) else []
  (l ++ qp.take (16 - l.length), k.derivePriv && gap, qp.length - (16 - l.length))

/-- A region scaled to the clip picture and rounded outward. -/
def scaleRegion (n : Nat) (r : Region) : Region := { r with x0 := r.x0 / n, y0 := r.y0 / n, x1 := r.x1 / n, y1 := r.y1 / n }

/-- A region meets the rectangle of w x h samples at x, y. -/
def Region.meets (r : Region) (x y w h : Nat) : Bool :=
  decide (r.x0 < x + w) && decide (x ≤ r.x1) && decide (r.y0 < y + h) && decide (y ≤ r.y1)

/-- The QPOFF of a rectangle: the lowest-numbered region's (R270). -/
def qpOffset (l : List Region) (x y w h : Nat) : Int := ((l.find? fun r => r.meets x y w h).map (·.qpoff)).getD 0

/-- A QP with its offset, clamped to 0 to 51 (R270). -/
def ctuQp (base : Nat) (l : List Region) (x y : Nat) : Nat := (clampI 0 51 ((base : Int) + qpOffset l x y 64 64)).toNat

/-! ### Masking (R270) -/

/-- The source with every mosaic cell that meets a privacy region replaced by its mean, in all three planes; `whole` masks every cell. -/
def mosaicked (w h cell : Nat) (whole : Bool) (l : List Region) (f : Sampler) : Sampler := fun plane x y =>
  let k := planeStep plane
  let c := cell / k
  let cx := x / c * c
  let cy := y / c * c
  if whole || (l.any fun r => r.privacy && r.meets (k * cx) (k * cy) cell cell) then
    meanOf ((List.range (min c (ceilDiv h k - cy))).flatMap fun j => (List.range (min c (ceilDiv w k - cx))).map fun i => f plane (cx + i) (cy + j))
  else f plane x y

/-- The masked source of a clip picture. -/
def clipSource (s : State) (k : Clip) (r : ClipPic) (b : FrameBuf) : Sampler :=
  let g := regionsOf k r.folio
  mosaicked k.w k.h (2 ^ k.mosaic) g.2.1 (g.1.map (scaleRegion (2 ^ k.scale)))
    (shrinkBy (2 ^ k.scale) (windowSample s (strm s k.stream) b))

/-! ### Thumbs (R274) -/

/-- The rectangle of a thumb in the output window: region 0's, or the whole window. -/
def thumbRect (k : Clip) (w h : Nat) : Region :=
  match k.regions with
  | g :: _ => { g with x1 := min g.x1 (w - 1), y1 := min g.y1 (h - 1) }
  | [] => { x0 := 0, y0 := 0, x1 := w - 1, y1 := h - 1, qpoff := 0, privacy := false }

/-- A sample of a thumb: the masked window, cropped and scaled to the thumb's size by area averaging. -/
def thumbSource (s : State) (k : Clip) (r : ClipPic) (b : FrameBuf) : Sampler := fun plane x y =>
  let g := regionsOf k r.folio
  let f := mosaicked b.winW b.winH (2 ^ k.mosaic) g.2.1 g.1 (windowSample s (strm s k.stream) b)
  let q := thumbRect k b.winW b.winH
  let n := planeStep plane
  let src : Raster := { w := ceilDiv (q.x1 + 1 - q.x0) n, h := ceilDiv (q.y1 + 1 - q.y0) n,
                        at' := fun c x y => some (f c (q.x0 / n + x) (q.y0 / n + y)) }
  ((((src.resize 2 (ceilDiv k.w n) (ceilDiv k.h n)).at' plane x y).getD 0 + 1 / 2).floor).toNat

/-- The luma quantisation table of Annex K of ITU-T T.81, by rows. -/
def annexLuma : List Nat :=
  [16, 11, 10, 16, 24, 40, 51, 61] ++ [12, 12, 14, 19, 26, 58, 60, 55] ++ [14, 13, 16, 24, 40, 57, 69, 56]
    ++ [14, 17, 22, 29, 51, 87, 80, 62] ++ [18, 22, 37, 56, 68, 109, 103, 77] ++ [24, 35, 55, 64, 81, 104, 113, 92]
    ++ [49, 64, 78, 87, 103, 121, 120, 101] ++ [72, 92, 95, 98, 112, 100, 103, 99]

/-- Its chroma table. -/
def annexChroma : List Nat :=
  [17, 18, 24, 47] ++ List.replicate 4 99 ++ [18, 21, 26, 66] ++ List.replicate 4 99 ++ [24, 26, 56] ++ List.replicate 5 99
    ++ [47, 66] ++ List.replicate 38 99

/-- An entry of a quantisation table for QUALITY. -/
def scaledEntry (quality e : Nat) : Nat :=
  let f : ℚ := if quality < 50 then 5000 / quality else (200 - 2 * quality : Nat)
  max 1 (min 255 ((e * f / 100 + 1 / 2).floor.toNat))

/-- The JPEG file of a thumb. -/
def thumbFile (key : Config.CodeKeys) (s : State) (k : Clip) (r : ClipPic) (b : FrameBuf) : List Byte :=
  Config.jpegFile key.file k.w k.h (annexLuma.map (scaledEntry k.quality)) (annexChroma.map (scaledEntry k.quality)) (thumbSource s k r b)

end Sys2Proof.Machine
end

