-- ==== Sys2Proof/Machine/Rings.lean ====
section
/-! DEFINITION. Machine/Rings.lean: doorbells, ring control, the taking of slips and their receipts, and MSI-X (R337 to R347, R353,
R354, R400). -/

namespace Sys2Proof.Machine

/-! ### Taking slips (R346, R400) -/

/-- The state byte of a receipt (R301). -/
def stateCode : SState → Nat
  | .closed => 0
  | .opened => 1
  | .running => 2
  | .paused => 3
  | .draining => 4
  | .faulted => 5

/-- A taken slip is complete: its status, the stream's state and the RESULT go into its receipt. -/
def slipDone (ring id status : Nat) (result : BitVec 256) (s : State) : State :=
  modRing ring (fun r => { r with taken := amend (fun t => t.id == id) (fun t =>
    { t with done := some (status, (match t.stream with | some i => stateCode (strm s i).state | none => 0xFF), result) }) r.taken }) s

/-- What a slip names: the stream of its receipt, what orders it (R346), the partition and the context that R400 tests, and whether it
is a CANCEL. -/
structure Named where
  stream : Option Nat := none
  keys : List Nat := []
  part : Option Nat := none
  ctx : Option Nat := none
  cancel : Bool := false

/-- Opcodes that take turns with every other slip (R346). -/
def turnOps : List Nat := [0x0C, 0x0D, 0x10, 0x11, 0x12]

/-- A slip must wait for its predecessors on the ring (R346). -/
def mustWait (r : Ring) (op : Nat) (keys : List Nat) : Bool :=
  let run := r.taken.filter fun t => t.done.isNone
  (op == 0x0E && !r.taken.isEmpty)
    || run.any fun t => turnOps.contains op || turnOps.contains t.opcode || t.keys.any keys.contains

/-- The device takes the next slip of ring n: the link is up, slips are taken at this stage, the ring holds one, its receipt ring has
room, and no predecessor holds it (R346, R358, R443, R446). A stream whose STREAM_CLOSE is not complete, and a context whose swap or
removal is not, hold their slips too. -/
def mayTake (s : State) (n op : Nat) (w : Named) : Bool :=
  let r := ringAt s n
  s.host.linkUp && !s.pwr.resetting && (s.pwr.stage == 7 || s.pwr.stage == 8)
    && r.enable && r.kind == 0 && r.head != r.tail && !(ringAt s r.pair).full && !mustWait r op w.keys
    && !(w.stream.any fun i => (strm s i).closing.isSome)
    && !(s.ctxs.any fun c => c.2.leaving.isSome && w.keys.contains (4096 + c.1))

/-- The conditions of Table 15.11, then the life cycle (Table 18.8) and SHUT (R446): the status with which they refuse a slip. -/
def refusal (s : State) (n op : Nat) (w : Named) : Option Nat :=
  if s.varMis && ! [0x0F, 0x10, 0x12].contains op then some 0x30
  else if s.err.c4 && !(op == 0x0F && n == 0) then some 0x30
  else if s.host.linkLost && n != 0 then some 0x30
  else if (w.part.any fun p => (partAt s p).c3) && ! [0x07, 0x02, 0x0A, 0x0F, 0x0E].contains op && !w.cancel then some 0x12
  else if [0x03, 0x08].contains op && (w.ctx.any fun c => (ctxAt s c).any fun d => d.faulted) then some 0x12
  else if s.nv.lcs == 0 && ! [0x0F, 0x12].contains op then some 0x30
  else if s.pwr.stage == 8 && ! [0x0F, 0x10, 0x11, 0x12].contains op then some 0x12
  else none

/-- What a slip's own rules answer: a status and a RESULT, or none while it runs on; its argument is the slip's number. -/
abbrev SlipRule := Nat → State → Option (Nat × BitVec 256) × State

/-- A rule that only answers a status. -/
def answer (status : Nat) : SlipRule := fun _ s => (some (status, 0), s)

/-- Take the next slip of a ring and judge it. -/
def takeSlip (n op : Nat) (tag : Word) (w : Named) (rule : SlipRule) (s : State) : State :=
  if !mayTake s n op w then s else
  let (id, s) := takeOrder s
  let r := ringAt s n
  let t : Taken := { id := id, seq := r.seq, opcode := op, tag := tag, stream := w.stream, keys := w.keys }
  let s := setRing n { r with head := (r.head + 1) % r.size, seq := (r.seq + 1) % 2 ^ 32, taken := r.taken ++ [t] } s
  match refusal s n op w with
  | some st => slipDone n id st 0 s
  | none =>
    match rule id s with
    | (some a, s) => slipDone n id a.1 a.2 s
    | (none, s) => s

/-- The device reports a failed read by AER as an advisory non-fatal error (R347). -/
def adviseAer (s : State) : State := { s with host := { s.host with advisory := satInc s.host.advisory } }

/-- A rule behind a read that failed other than by its timeout. -/
def failedRead : SlipRule := fun _ s => (some (0x10, 0), adviseAer s)

/-- A slip's block, or the status of the failed read (R347). -/
def withBlock (b : HostRead) (k : List Byte → SlipRule) : SlipRule :=
  match b with
  | .data bs => k bs
  | .timeout => answer 0x21
  | .failed => failedRead

/-- The bytes of a read, none where it failed. -/
def readBytes (b : HostRead) : List Byte := match b with | .data bs => bs | _ => []

/-- Which fields an opcode uses: TARGET, ADDR and LEN with the alignment of ADDR, and how many bytes of ARGS (Table 13.5). -/
structure SlipUses where
  target : Bool := false
  align : Nat := 0
  args : Nat := 0

/-- The common field checks of R343: no reserved bit, an id in TARGET, unused fields zero, ADDR aligned. -/
def goodFields (u : SlipUses) (x : SlipIn) : Bool :=
  !x.rsv && (if u.target then decide (x.target.toNat < 1024) else x.target == 0)
    && (if u.align = 0 then x.addr == 0 && x.len == 0 else x.addr.toNat % u.align == 0)
    && decide (x.args.toNat < 2 ^ (8 * u.args))

/-- A rule behind the field checks. -/
def fieldsThen (ok : Bool) (rule : SlipRule) : SlipRule := if ok then rule else answer 0x10

/-- The function that sends a slip. -/
def sender (s : State) (x : SlipIn) : Nat := (ringAt s x.ring).owner

/-! ### Receipts (Table 13.8) -/

/-- The bytes of a receipt below PHASE. -/
def receiptBytes (n : Nat) (t : Taken) (d : Nat × Nat × BitVec 256) : List Byte :=
  leBytes 2 d.1 ++ leBytes 1 t.opcode ++ leBytes 1 d.2.1 ++ leBytes 4 t.tag.toNat ++ leBytes 4 t.seq ++ leBytes 2 n ++ leBytes 2 0
    ++ leBytes 32 d.2.2.toNat ++ leBytes 15 0

/-- The oldest taken slip of a slip ring is complete and its receipt goes to the paired ring (R346). A receipt ring that is no longer
enabled takes none. -/
def putReceipt (ring : Nat) (s : State) : State :=
  let r := ringAt s ring
  let p := ringAt s r.pair
  match s.host.linkUp && decide (ring < 4096), r.taken with
  | true, t :: rest =>
    match t.done with
    | some d =>
      if !p.enable || p.kind != 1 then setRing ring { r with taken := rest } s
      else if p.full then s
      else ringPut r.pair (receiptBytes ring t d) (setRing ring { r with taken := rest } s)
    | none => s
  | _, _ => s

/-- RECEIPT_WRITE. -/
def execReceiptWrite (ring : Nat) (s : State) : Out := .next (putReceipt ring s)

/-! ### Doorbells (R341, R342) -/

/-- Count a refused doorbell or enable. -/
def badDoorbell (n : Nat) (s : State) : State := modRing n (fun r => { r with baddb := satInc r.baddb }) s

/-- Entries from index a up to b on a ring. -/
def Ring.span (r : Ring) (a b : Nat) : Nat := (b + r.size - a) % r.size

/-- A HEAD doorbell takes effect: consumed entries free their folio area, and entries left over get a further message (R349, R353). -/
def moveHead (n new : Nat) (s : State) : State :=
  let r := ringAt s n
  let used := r.span r.head new
  let r := { r with head := new, unannounced := min r.unannounced (r.span new r.tail),
                    spans := r.spans.filter fun x => decide (used ≤ r.span r.head x.1),
                    merges := if new = r.tail then [] else r.merges }
  let s := setRing n r s
  driveInta (if new = r.tail then s else announce n s)

/-- A doorbell of the ring's owner (R341, R342). -/
def ringBell (n : Nat) (value : Word) (s : State) : State :=
  let r := ringAt s n
  let i := value.toNat
  if !r.enable || decide (r.size ≤ i) then badDoorbell n s
  else if r.kind = 0 then setRing n { r with tail := i } s
  else if r.span r.head r.tail < r.span i r.tail then badDoorbell n s
  else moveHead n i s

/-- A function reaches its own ring's slot and doorbell page (R333). -/
def ownsRing (s : State) (fn n : Nat) : Bool := s.host.linkUp && blockUp s 85 && decide (n < 4096) && fnPresent s fn && (ringAt s n).owner == fn

/-- DOORBELL: the host moves its index of a ring; slips with an opcode that Table 13.5 does not list and that stand at the front are
taken and complete with BAD_SLIP, and so do those whose entry could not be read (R341 to R343, R347). -/
def execDoorbell (fn ring : Nat) (value : Word) (unknown : List RawSlip) (s : State) : Out :=
  .next (if !ownsRing s fn ring then s else
    (unknown.filter fun u => u.unread || u.opcode == 0 || decide (0x12 < u.opcode.toNat)).foldl
      (fun s u => if u.unread then takeSlip ring 0 0 {} failedRead s else takeSlip ring u.opcode.toNat u.tag {} (answer 0x10) s)
      (ringBell ring value s))

/-- PCIE_COMPLETION_TIMEOUT: the read of a slip entry or of its block loses to its timeout; the late completion is discarded and counted
(R347). -/
def execPcieCompletionTimeout (ring : Nat) (slip : Option RawSlip) (s : State) : Out :=
  .next (if 4096 ≤ ring then s else
    let u := slip.getD { opcode := 0, tag := 0 }
    if !mayTake s ring u.opcode.toNat {} then s else
    let s := { s with host := { s.host with lateCpl := satInc s.host.lateCpl } }
    takeSlip ring u.opcode.toNat u.tag {} (answer 0x21) s)

/-! ### Ring control (R339, R340) -/

/-- The fields a RING_CFG write gives an idle ring: an s out of range and the fixed KIND and PAIR of rings 0 to 2 stay (R339, R472). -/
def cfgFields (n : Nat) (value : Word) (r : Ring) : Ring :=
  let v := value.toNat
  let kind := if n < 3 then r.kind else bits v 30 29
  { r with kind := kind, s := if bits v 28 25 ≤ 10 then bits v 28 25 else r.s,
           pair := if n < 3 then r.pair else if kind = 0 ∨ bits v 23 12 = 0 then bits v 23 12 else r.pair, vector := bits v 10 0 }

/-- An enable of ring n is refused (R340). -/
def refusesEnable (s : State) (r : Ring) : Bool :=
  let p := ringAt s r.pair
  r.base == 0 || decide (msixVectors r.owner ≤ r.vector)
    || (r.kind == 0 && !(p.enable && p.kind == 1 && p.owner == r.owner))
    || (r.kind == 2 && (decide (r.folioLast < r.folioFirst) || decide (r.areaSz < 16) || decide (16384 < r.areaSz)))

/-- Setting ENABLE starts the ring anew (R340). -/
def startRing (r : Ring) : Ring :=
  { r with enable := true, head := 0, tail := 0, phase := true, seq := 0, unannounced := 0, merges := [], areaNext := 0, spans := [] }

/-- Clearing the ENABLE of ring n is ignored: an enabled slip ring names it, or it is the folio ring of an open stream (R340). -/
def keepsRing (s : State) (n : Nat) (r : Ring) : Bool :=
  (r.kind == 1 && s.host.rings.any fun q => q.2.enable && q.2.kind == 0 && q.2.pair == n)
    || (r.kind == 2 && s.streams.any fun t => t.2.state != .closed && t.2.ring == n)

/-- The RING_CFG value of a ring. -/
def Ring.cfg (r : Ring) : Nat := (if r.enable then 2 ^ 31 else 0) + r.kind * 2 ^ 29 + r.s * 2 ^ 25 + r.pair * 2 ^ 12 + r.vector

/-- A write of RING_CFG (R340). -/
def writeRingCfg (n : Nat) (value : Word) (s : State) : State :=
  let r := ringAt s n
  let on := nbit value.toNat 31
  if r.enable then
    let same := (value &&& 0x7EFFF7FF).toNat == r.cfg - 2 ^ 31
    if on || !same || keepsRing s n r then s
    else driveInta (setRing n { r with enable := false, unannounced := 0, merges := [] } s)
  else
    let r := cfgFields n value r
    if !on then setRing n r s
    else if refusesEnable s r then badDoorbell n (setRing n r s)
    else setRing n (startRing r) s

/-- BAR0 offset of a register of ring n. -/
def ringReg (n off : Nat) : Nat := 0x400000 + 0x400 * n + off

/-- A register of a word is written: its parity matches again (R476). -/
def rewrite (off : Nat) (s : State) : State := { s with err := { s.err with parity := s.err.parity.filter (· != off) } }

/-- RING_ENABLE: a RING_CFG write with ENABLE 1 (R340). -/
def execRingEnable (fn ring : Nat) (value : Word) (s : State) : Out :=
  .next (if !ownsRing s fn ring || !nbit value.toNat 31 then s else writeRingCfg ring value (rewrite (ringReg ring 8) s))

/-- RING_DISABLE: a RING_CFG write with ENABLE 0 (R340). -/
def execRingDisable (fn ring : Nat) (value : Word) (s : State) : Out :=
  .next (if !ownsRing s fn ring || nbit value.toNat 31 then s else writeRingCfg ring value (rewrite (ringReg ring 8) s))

/-! ### MSI-X (R353) -/

/-- MSIX_MODERATION_EXPIRY: TIME has passed since the oldest unannounced entry of a ring; TIME 0 waits for COUNT alone (R353). -/
def execMsixModerationExpiry (ring : Nat) (s : State) : Out :=
  .next (
    let r := ringAt s ring
    if s.host.linkUp && decide (ring < 4096) && r.enable && r.kind != 0 && r.modTime != 0 && decide (0 < r.unannounced) then announce ring s
    else s)

/-- Send the pending messages of a function that its masks no longer hold (R353). -/
def sendPending (f : Nat) (s : State) : State :=
  let g := fnAt s f
  if !g.msixEnable || g.fnMask then s else
  let go := g.pendingVec.filter g.unmasked.contains
  go.foldl (fun s v => sendMsix f v s) (modFn f (fun g => { g with pendingVec := g.pendingVec.filter fun v => !go.contains v }) s)

/-- MSIX_UNMASK: the host unmasks a vector, with its configuration space as it then is, and a pending message is sent (R353). -/
def execMsixUnmask (fn vector : Nat) (cfg : PciCfg) (s : State) : Out :=
  .next (if !s.host.linkUp || !fnPresent s fn || decide (msixVectors fn ≤ vector) then s else
    let s := modFn fn (fun g => { g with msixEnable := cfg.msixEnable, fnMask := cfg.fnMask,
                                         intxDisable := fn == 0 && cfg.intxDisable,
                                         unmasked := if g.unmasked.contains vector then g.unmasked else vector :: g.unmasked }) s
    let s := if fn = 0 then { s with host := { s.host with numVfs := min cfg.numVfs 31, bar2Size := max 28 (min cfg.bar2Size 36) } } else s
    driveInta (sendPending fn s))

end Sys2Proof.Machine
end

