-- ==== Sys2Proof/Machine/Contexts.lean ====
section
/-! DEFINITION. Machine/Contexts.lean: context images, loading, replacing and removing contexts (R276 to R282, R503). -/

namespace Sys2Proof.Machine

/-! ### Sections (R276, Tables 11.1 and 11.2) -/

/-- A section entry. -/
structure Sect where
  type : Nat
  count : Nat
  len : Nat
  off : Nat
  deriving DecidableEq, Repr

/-- Section entry k of an image. -/
def sectAt (img : List Byte) (k : Nat) : Sect where
  type := leAt img (256 + 16 * k) 2
  count := leAt img (258 + 16 * k) 2
  len := leAt img (260 + 16 * k) 4
  off := leAt img (264 + 16 * k) 8

/-- The sections of an image. -/
def sectsOf (img : List Byte) : List Sect := (List.range (leAt img 6 2)).map (sectAt img)

/-- The section of a type. -/
def sectOf (img : List Byte) (t : Nat) : Option Sect := (sectsOf img).find? fun x => x.type == t

/-- The bytes of the section of a type, empty where the image has none. -/
def sectBytes (img : List Byte) (t : Nat) : List Byte :=
  match sectOf img t with
  | some x => slice img x.off x.len
  | none => []

/-- The COUNT of the section of a type. -/
def sectCount (img : List Byte) (t : Nat) : Nat := ((sectOf img t).map (·.count)).getD 0

/-- A section's COUNT and LENGTH agree with Table 11.2; the reuse tables' sum is judged with the tables. -/
def goodSect (global : Nat) (x : Sect) : Bool :=
  match x.type with
  | 1 => decide (1 ≤ x.count) && decide (x.count ≤ 256) && x.len == 16 * x.count
  | 2 => x.count == 0
  | 3 => x.count == 0 && decide (x.len ≤ global)
  | 4 => x.count == 1 && x.len == 256
  | 5 => decide (x.count ≤ 16) && x.len == 400 * x.count
  | 6 => x.count == 1 && x.len == 128
  | 7 => decide (x.count ≤ 16) && x.len == 160 * x.count
  | 8 => decide (x.count ≤ 256)
  | 9 => decide (x.count ≤ 256) && x.len == 16 * x.count
  | _ => false

/-- Two sections share no byte. -/
def apart (x y : Sect) : Bool := x.len == 0 || y.len == 0 || decide (x.off + x.len ≤ y.off) || decide (y.off + y.len ≤ x.off)

/-- Every pair of a list satisfies p. -/
def pairs (p : Sect → Sect → Bool) : List Sect → Bool
  | [] => true
  | x :: r => r.all (p x) && pairs p r

/-- The image header and its section table follow Tables 11.1 and 11.2 (R276). -/
def goodHead (ilen : Nat) (img : List Byte) : Bool :=
  let n := leAt img 6 2
  let global := leAt img 16 8
  let l := sectsOf img
  leAt img 0 4 == 0x58434541 && leAt img 4 2 == 1 && decide (1 ≤ n) && decide (n ≤ 16)
    && leAt img 8 8 == ilen && ilen % 64 == 0 && decide (ilen ≤ 2 ^ 32) && img.length == ilen
    && global % 4096 == 0 && decide (global ≤ 2 ^ 34) && zeroRange img 24 40 && zeroRange img 128 128
    && leAt img 64 64 == (Config.shake256 (img.drop 512)).toNat && zeroRange img (256 + 16 * n) (16 * (16 - n))
    && l.all (fun x => goodSect global x && x.off % 64 == 0 && decide (512 ≤ x.off) && decide (x.off + x.len ≤ ilen))
    && pairs (fun x y => x.type != y.type && apart x y) l
    && (sectOf img 1).isSome && (sectOf img 2).isSome

/-! ### Tables of an image -/

/-- A codebook table by R41. -/
def goodCodebooks (b : List Byte) : Bool := b.all fun x => bits x.toNat 7 5 == if nbit x.toNat 4 then 7 else 0

/-- A curve by R91. -/
def goodCurve (b : List Byte) : Bool :=
  let w := sgn 8 (leAt b 2 1)
  decide (-24 ≤ w) && decide (w ≤ 15) && decide (leAt b 3 1 < 4) && zeroRange b 4 12

/-- A tracker table by R244. -/
def goodTracker (b : List Byte) : Bool :=
  let n := leAt b 0 1
  decide (1 ≤ n) && decide (n ≤ 8) && decide (leAt b 1 1 < n) && decide (leAt b 2 1 ≤ 1) && leAt b 3 1 != 0 && leAt b 4 1 != 0
    && leAt b 5 1 == 0 && leAt b 6 2 != 0 && zeroRange b 32 32
    && (List.range (8 * n)).all fun i => decide (leAt b (64 + i) 1 % 8 < n) && !nbit (leAt b (64 + i) 1) 3

/-- An FP16 value lies from 0 to 1. -/
def unitFp16 (x : Nat) : Bool := decide (x ≤ 0x3C00) || x == 0x8000

/-- A box-decode table by R233. -/
def goodBoxes (b : List Byte) : Bool :=
  let free := leAt b 0 1
  decide (free ≤ 1) && decide (1 ≤ leAt b 1 1) && decide (leAt b 1 1 ≤ 5)
    && decide (1 ≤ leAt b 2 1) && decide (leAt b 2 1 ≤ if free = 1 then 1 else 3) && decide (leAt b 3 1 < 4)
    && decide (1 ≤ leAt b 4 2) && decide (leAt b 4 2 ≤ 1024) && decide (1 ≤ leAt b 6 2) && decide (leAt b 6 2 ≤ 4096)
    && decide (1 ≤ leAt b 8 2) && decide (leAt b 8 2 ≤ 1024) && unitFp16 (leAt b 10 2) && unitFp16 (leAt b 12 2)
    && zeroRange b 14 2 && (List.range 5).all (fun l => zeroRange b (26 + 16 * l) 6) && zeroRange b 156 4

/-- A batcher record by Table 11.4. -/
def goodBatcher (b : List Byte) : Bool :=
  let w := leAt b 2 2
  decide (leAt b 0 2 ≤ 512) && (w == 0 || (decide (100 ≤ w) && decide (w ≤ 20000))) && decide (1 ≤ leAt b 4 1) && decide (leAt b 4 1 ≤ 16)
    && decide (1 ≤ leAt b 5 1) && decide (leAt b 5 1 ≤ 16) && zeroRange b 8 8

/-- A batcher record; 0 selects its defaults. -/
def batcherOf (b : List Byte) : Batcher where
  target := if leAt b 0 2 = 0 then 256 else leAt b 0 2
  window := if leAt b 2 2 = 0 then 2000 else leAt b 2 2
  rh := leAt b 4 1
  rw := leAt b 5 1
  layer := leAt b 6 1
  entry := leAt b 7 1

/-- An entry of a reuse table (Table 9.1). -/
def reuseTile (b : List Byte) : ReuseTile where
  tile := leAt b 0 2
  entry := leAt b 2 1
  x0 := leAt b 4 2
  y0 := leAt b 6 2
  x1 := leAt b 8 2
  y1 := leAt b 10 2
  slot := leAt b 12 4

/-- A list of numbers without repeats. -/
def distinct (l : List Nat) : Bool := l.eraseDups.length == l.length

/-- A reuse table by R225. -/
def goodReuse (b : List Byte) (r : Reuse) : Bool :=
  decide (1 ≤ leAt b 0 2) && decide (leAt b 0 2 ≤ 4096) && decide (leAt b 2 2 ≤ 30) && r.bytes % 64 == 0
    && r.tiles.all (fun t => decide (t.tile ≤ 4095) && decide (t.x0 ≤ t.x1) && decide (t.y0 ≤ t.y1) && t.slot % 64 == 0 && decide (t.slot < r.bytes))
    && distinct (r.tiles.map (·.tile)) && distinct (r.tiles.map (·.slot))
    && (List.range (leAt b 0 2)).all fun i => leAt b (11 + 16 * i) 1 == 0

/-- The reuse table that starts a byte list. -/
def reuseOf (b : List Byte) : Reuse where
  limit := if leAt b 2 2 = 0 then 8 else leAt b 2 2
  bytes := leAt b 4 4
  tiles := (List.range (leAt b 0 2)).map fun i => reuseTile (slice b (8 + 16 * i) 16)

/-- n reuse tables laid end to end that fill a section exactly; none where one breaks R225. -/
def reusesOf : Nat → List Byte → Option (List Reuse)
  | 0, b => if b.isEmpty then some [] else none
  | n + 1, b =>
    let k := 8 + 16 * leAt b 0 2
    let r := reuseOf (b.take k)
    if b.length < k ∨ !goodReuse b r then none else (reusesOf n (b.drop k)).map (r :: ·)

/-- The i-th record of n bytes of a section. -/
def recordsOf (n : Nat) (b : List Byte) : List (List Byte) := (List.range (b.length / n)).map fun i => slice b (n * i) n

/-! ### Programs (R101, Tables 4.1 and 11.3) -/

/-- A program header is in the ranges of Table 4.1; `n` is the image's length and `part0` says that its context is to run in partition
0. -/
def goodProgram (part0 : Bool) (n : Nat) (h : List Byte) : Bool :=
  let flags := leAt h 6 2
  let off := leAt h 8 4
  let len := leAt h 12 4
  let tallies := leAt h 24 1
  leAt h 0 4 == 0x48544541 && leAt h 4 2 == 1 && decide (flags < 8) && off % 16 == 0 && decide (64 ≤ off)
    && len % 16 == 0 && decide (16 ≤ len) && decide (len ≤ 1048576) && decide (off + len ≤ n)
    && leAt h 16 4 % 16 == 0 && decide (leAt h 16 4 < len) && decide (1 ≤ leAt h 20 2) && decide (leAt h 20 2 ≤ 100)
    && decide (1 ≤ leAt h 22 1) && decide (leAt h 22 1 ≤ 4) && decide (leAt h 23 1 ≤ 64) && decide (tallies ≤ 16)
    && decide (1 ≤ leAt h 25 1) && decide (leAt h 25 1 ≤ 4) && decide (leAt h 26 2 ≤ 4096)
    && decide (1 ≤ leAt h 28 4) && decide (leAt h 28 4 ≤ 4096)
    && (if tallies = 0 then leAt h 32 4 == 0 else decide (leAt h 32 4 + 4 * tallies ≤ n)) && zeroRange h 40 24
    && (!part0 || flags == 1)

/-- Program table entry k of an image, with its program image. -/
def progBytes (img : List Byte) (k : Nat) : List Byte × List Byte :=
  let e := slice (sectBytes img 1) (16 * k) 16
  (e, slice (sectBytes img 2) (leAt e 4 4) (leAt e 8 4))

/-- A program table entry and its program follow Tables 11.3 and 4.1, and name records that exist. -/
def goodEntryOf (part0 : Bool) (img : List Byte) (k : Nat) : Bool :=
  let (e, p) := progBytes img k
  let role := leAt e 0 1
  let bands := leAt e 1 1
  let aux := leAt e 2 1
  decide (role ≤ 4) && decide (1 ≤ bands) && decide (bands ≤ if role = 0 then 8 else 1) && leAt e 3 1 == 0 && zeroRange e 12 4
    && leAt e 4 4 % 64 == 0 && decide (leAt e 4 4 + leAt e 8 4 ≤ ((sectOf img 2).map (·.len)).getD 0)
    && decide (64 ≤ leAt e 8 4) && goodProgram part0 (leAt e 8 4) p
    && (if role = 1 then decide (aux < sectCount img 9)
        else if role = 0 ∧ nbit (leAt p 6 2) 1 then decide (aux < sectCount img 8) else aux == 0xFF)

/-- Program k of an image that lies at an offset of its context's area. -/
def progAt (img : List Byte) (imageAt k : Nat) : Prog :=
  let (e, p) := progBytes img k
  { role := leAt e 0 1, bands := leAt e 1 1, aux := leAt e 2 1, flags := leAt p 6 2, codeLen := leAt p 12 4, entry := leAt p 16 4,
    holdUs := leAt p 20 2, gang := leAt p 22 1, nsem := leAt p 23 1, ntally := leAt p 24 1, accBanks := leAt p 25 1,
    claims := leAt p 26 2, carrelKib := leAt p 28 4, cycleEst := leAt p 36 4,
    tallyInit := (List.range (leAt p 24 1)).map fun i => BitVec.ofNat 32 (leAt p (leAt p 32 4 + 4 * i) 4),
    codeAt := imageAt + ((sectOf img 2).map (·.off)).getD 0 + leAt e 4 4 + leAt p 8 4 }

/-- Every section of an image holds well-formed tables (Table 11.6, first row). -/
def goodImage (part0 : Bool) (img : List Byte) : Bool :=
  (List.range (sectCount img 1)).all (goodEntryOf part0 img) && goodCodebooks (sectBytes img 4)
    && (recordsOf 400 (sectBytes img 5)).all goodCurve && ((sectOf img 6).isNone || goodTracker (sectBytes img 6))
    && (recordsOf 160 (sectBytes img 7)).all goodBoxes && (reusesOf (sectCount img 8) (sectBytes img 8)).isSome
    && (recordsOf 16 (sectBytes img 9)).all goodBatcher

/-! ### Load blocks (Table 11.5) -/

/-- A load block follows Table 11.5. -/
def goodLoad (b : List Byte) : Bool :=
  decide (leAt b 0 2 < 1024) && decide (leAt b 2 1 < 4) && decide (2 ≤ leAt b 4 1) && decide (leAt b 4 1 ≤ 16) && decide (leAt b 5 1 ≤ 1)
    && zeroRange b 6 2 && leAt b 8 8 % 4096 == 0 && zeroRange b 24 40

/-- The definition that a load block and its image give, placed in an area: the global share first, then the image. -/
def ctxOf (owner : Nat) (area : List (Nat × Nat)) (b img : List Byte) : Ctx where
  owner := owner
  part := leAt b 2 1
  clusters := leAt b 3 1
  ways := leAt b 4 1
  ilen := leAt b 16 8
  globalLen := leAt img 16 8
  area := area
  progs := (List.range (sectCount img 1)).map (progAt img (leAt img 16 8))
  codebooks := sectBytes img 4
  curves := recordsOf 400 (sectBytes img 5)
  tracker := sectBytes img 6
  boxes := recordsOf 160 (sectBytes img 7)
  reuses := (reusesOf (sectCount img 8) (sectBytes img 8)).getD []
  batchers := (recordsOf 16 (sectBytes img 9)).map batcherOf

/-- The clusters of a mask in which a partition has a core in service. -/
def usableClusters (s : State) (p mask : Nat) : List Nat :=
  (List.range 8).filter fun cl => nbit mask cl && !(coresInClu s p cl).isEmpty

/-- A context could be resident in a cluster where its partition holds nothing else (R503). -/
def fitsAlone (s : State) (c : Ctx) (cl : Nat) : Bool :=
  c.progs.all (fun g => decide (g.gang ≤ (coresInClu s c.part cl).length)) && decide (c.ways ≤ (partAt s c.part).ways.getD cl 0)

/-! ### Defining and discarding (R279, R280, R296) -/

/-- Work of a context is still under way: a job, or an admitted frame that is to run under it (R280, R303). -/
def ctxBusy (s : State) (id : Nat) : Bool :=
  s.jobs.any (fun j => j.ctx == id) || s.streams.any fun t => t.2.frames.any fun f => f.ctx == id && f.result.isNone

/-- The background pass has cleared every granule that an area meets, and those before it on the channel: a granule is not handed over before
its bit is clear (R318). -/
def clearGranules (p : Nat) (area : List (Nat × Nat)) (s : State) : State :=
  let k := granuleSpan s p
  let met := fun (g : Nat) => area.any fun a => decide (g * k < a.1 + a.2) && decide (a.1 < (g + 1) * k)
  settleWiping ((partChannels s p).foldl (fun s m =>
    let z := (tget s.mem.channels {} m).zeroMap
    (z.take (z.length - (z.reverse.takeWhile fun g => !met g).length)).foldl (fun s g => settleGranule m g s) s) s)

/-- An area goes to a function: granules that wait for the zero map are waited for, and what another function held there last is wiped (R318,
R325, R441). -/
def takeArea (p : Nat) (area : List (Nat × Nat)) (f : Nat) (s : State) : State :=
  area.foldl (fun s a => if lastFnOf s p a.1 a.2 = f then s else wipeRange p a.1 a.2 s) (clearGranules p area s)

/-- Write bytes from byte x of an area on. -/
def writeArea (p : Nat) : List (Nat × Nat) → Nat → List Byte → State → State
  | [], _, _, s => s
  | g :: r, x, bs, s =>
    if g.2 ≤ x then writeArea p r (x - g.2) bs s
    else writeArea p r 0 (bs.drop (g.2 - x)) (dramWrite p (g.1 + x) (bs.take (g.2 - x)) s)

/-- Drop every line of an area that the stacks or the cores still hold. -/
def dropAreaLines (p : Nat) (area : List (Nat × Nat)) (s : State) : State :=
  let held := fun (key : Nat) => area.any fun a => keyIn s p a.1 a.2 key
  { s with
    clusters := tmap s.clusters fun _ k => { k with stackLines := k.stackLines.filter fun c => !held c.1 }
    cores := tmap s.cores fun _ k => { k with writes := k.writes.filter fun c => !held c.1 } }

/-- Free the image and the global share of a definition. -/
def freeCtx (c : Ctx) (s : State) : State :=
  c.area.foldl (fun s a => freeExtent c.part a.1 a.2 c.owner s) (dropAreaLines c.part c.area s)

/-- The residencies of a context end. -/
def dropResidencies (id : Nat) (c : Ctx) (s : State) : State :=
  (List.range 8).foldl (fun s cl =>
    ((cluAt s cl).residencies.filter fun r => r.2.ctx == id).foldl (fun s r =>
      modClu cl (fun k => { k with residencies := tdrop k.residencies r.1, batches := k.batches.filter fun b => b.ctx != id })
        (dropCrops cl r.1 c s)) s) s

/-- A definition is discarded with its residencies, share, account, archives and tracker states (R280, R228, R247). -/
def discardCtx (id : Nat) (s : State) : State :=
  match ctxAt s id with
  | none => s
  | some c =>
    let s := freeCtx c (dropResidencies id c s)
    let s := (s.streams.filter fun t => t.2.ctx == id && t.2.state != .closed).foldl (fun s t => loseTracks t.1 (dropTiles t.1 s)) s
    { s with ctxs := tdrop s.ctxs id, accounts := tdrop s.accounts id, claims := s.claims.filter (fun k => k.ctx != id),
             streams := tmap s.streams fun _ st => if st.ctx = id then { st with home := none, lastCore := [] } else st }

/-- Clear the fabric windows that p picks (R374, R385). -/
def clearWindows (p : Window → Bool) (s : State) : State :=
  { s with fab := { s.fab with wins := tmap s.fab.wins fun _ w => if w.valid && p w then { w with valid := false } else w } }

/-- A context is removed: its definition is discarded, its windows are cleared (R374), and the Spigot bindings of its streams are released
(R423). -/
def removeCtx (id : Nat) (s : State) : State :=
  clearWindows (fun w => w.ctx == id) (unbind (fun b => (strm s b.1).ctx == id) (discardCtx id s))

/-- A definition comes into force: its account starts at zero and it becomes resident where it fits (R282, R297). -/
def defineCtx (id : Nat) (c : Ctx) (s : State) : State :=
  settleResidency id { s with ctxs := tset s.ctxs id c, accounts := tset s.accounts id {} }

/-- The swap of R280, or the removal that a CONTEXT_EVICT asked for, once the last job has ended; a removal releases the Spigot bindings
of the context's streams (R423). -/
def swapCtx (id : Nat) (s : State) : State :=
  match tfind s.nextCtxs id with
  | some c => defineCtx id c { (discardCtx id s) with nextCtxs := tdrop s.nextCtxs id }
  | none =>
    let part := ((ctxAt s id).map (·.part)).getD 4
    (residentClusters s id).foldl (fun s cl => serveWaiting part cl s) (settleC3 (removeCtx id s))

/-- Swap or remove now, or leave the receipt until the context's work has ended. -/
def swapWhenIdle (id ring slip : Nat) (s : State) : Option (Nat × BitVec 256) × State :=
  if ctxBusy s id then
    (none, { s with ctxs := tmap s.ctxs fun i c => if i = id then { c with leaving := some (ring, slip) } else c })
  else (some (0, 0), swapCtx id s)

/-! ### CONTEXT_LOAD and CONTEXT_EVICT (Table 11.6) -/

/-- A RUNNING or DRAINING stream names the context. -/
def ctxInUse (s : State) (id : Nat) : Bool :=
  s.streams.any fun t => t.2.ctx == id && (t.2.state == .running || t.2.state == .draining)

/-- The first status of Table 11.6 that refuses a load; none where it is accepted. -/
def loadRefusal (s : State) (owner : Nat) (b img : List Byte) : Option Nat :=
  let id := leAt b 0 2
  let p := leAt b 2 1
  let cls := usableClusters s p (leAt b 3 1)
  let old := ctxAt s id
  if !goodLoad b || !goodHead (leAt b 16 8) img || !goodImage (p == 0) img then some 0x10
  else if !(partAt s p).present || cls.isEmpty || old.any (fun c => c.owner != owner) then some 0x11
  else if (old.isSome && !nbit (leAt b 5 1) 0) || old.any (fun c => c.part != p) || ctxInUse s id then some 0x12
  else if decide (((freeGaps s p).map (·.2)).sum < leAt img 16 8 + leAt b 16 8) || !cls.any (fitsAlone s (ctxOf owner [] b img)) then some 0x13
  else none

/-- A load that passes the checks: the image and the weights are copied, M4 is extended (R459), and the definition comes into force, or waits for
the old
one's last job (R279, R280). -/
def loadCtx (ring owner : Nat) (b img : List Byte) : SlipRule := fun slip s =>
  match loadRefusal s owner b img with
  | some st => (some (st, 0), s)
  | none =>
    let id := leAt b 0 2
    let c := ctxOf owner (carve (leAt img 16 8 + leAt b 16 8) (freeGaps s (leAt b 2 1))) b img
    let s := takeArea c.part c.area owner s
    let s := writeArea c.part c.area 0 (sectBytes img 3) (writeArea c.part c.area c.globalLen img s)
    let s := extendM 4 (slice b 0 2 ++ slice img 64 64) { s with sec := { s.sec with nload := s.sec.nload + 1 } }
    if (ctxAt s id).isSome then swapWhenIdle id ring slip { s with nextCtxs := tset s.nextCtxs id c }
    else (some (0, 0), defineCtx id c s)

/-- The key by which slips naming a context are ordered (R346). -/
def ctxKey (id : Nat) : Nat := 4096 + id

/-- CONTEXT_LOAD. -/
def execContextLoad (x : SlipIn) (s : State) : Out :=
  .next (
    let b := slice (readBytes x.block) 0 64
    let named : Named := match x.block with
      | .data _ => { keys := [ctxKey (leAt b 0 2)], part := some (leAt b 2 1) }
      | _ => {}
    takeSlip x.ring 0x01 x.tag named (fieldsThen (goodFields { align := 64 } x && x.len == 64)
      (withBlock x.block fun _ => withBlock x.extra fun img => loadCtx x.ring (sender s x) b img)) s)

/-- A CONTEXT_EVICT of a context that its owner has defined and no running stream names (R280). -/
def evictCtx (ring owner id : Nat) : SlipRule := fun slip s =>
  match ctxAt s id with
  | none => (some (0x11, 0), s)
  | some c =>
    if c.owner ≠ owner then (some (0x11, 0), s)
    else if ctxInUse s id then (some (0x12, 0), s)
    else swapWhenIdle id ring slip s

/-- CONTEXT_EVICT. -/
def execContextEvict (x : SlipIn) (s : State) : Out :=
  .next (
    let id := x.target.toNat
    takeSlip x.ring 0x02 x.tag { keys := [ctxKey id], part := (ctxAt s id).map (·.part) }
      (fieldsThen (goodFields { target := true } x) (evictCtx x.ring (sender s x) id)) s)

/-- CONTEXT_REPLACE_SWAP: the last job of a definition that a slip replaces or removes has ended: the swap, then the receipt (R280). -/
def execContextReplaceSwap (ctx : Nat) (s : State) : Out :=
  .next (match ready s, (ctxAt s ctx).bind (·.leaving) with
    | true, some (ring, slip) => if ctxBusy s ctx then s else slipDone ring slip 0 0 (swapCtx ctx s)
    | _, _ => s)

end Sys2Proof.Machine
end

