-- ==== Sys2Proof/Machine/Search.lean ====
section
/-! DEFINITION. Machine/Search.lean: the encoder's motion search (R267, Table 10.4; log entry 117). -/

namespace Sys2Proof.Machine

/-- A luma sample of a w x h picture; beyond its edges the nearest sample. -/
def lumaAt (w h : Nat) (f : Sampler) (x y : Int) : Nat := f 0 (inside w x) (inside h y)

/-- Luma at 1/n of the resolution. -/
def lumaLevel (w h n : Nat) (f : Sampler) (x y : Int) : Nat :=
  meanOf ((List.range n).flatMap fun j => (List.range n).map fun i => lumaAt w h f (n * x + i) (n * y + j))

/-- The taps of HEVC's luma interpolation at k quarters of a sample, from three samples before to four after. -/
def quarterTaps (k : Nat) : List Int :=
  match k with
  | 0 => [0, 0, 0, 64, 0, 0, 0, 0]
  | 1 => [-1, 4, -10, 58, 17, -5, 1, 0]
  | 2 => [-1, 4, -11, 40, 40, -11, 4, -1]
  | _ => [0, 1, -5, 17, 58, -10, 4, -1]

/-- A tap sum over eight samples about position 0. -/
def tapSum (k : Nat) (f : Int → Int) : Int := ((List.zip (List.range 8) (quarterTaps k)).map fun t => t.2 * f ((t.1 : Int) - 3)).sum

/-- Luma at a position in quarter samples. -/
def quarterAt (w h : Nat) (f : Sampler) (x y : Int) : Nat :=
  let row := fun (j : Int) => tapSum (x % 4).toNat fun i => (lumaAt w h f (x / 4 + i) (y / 4 + j) : Nat)
  (clampI 0 255 ((tapSum (y % 4).toNat row + 2048) / 4096)).toNat

/-- The sum of absolute differences of n x n samples at x, y against a reference read through `ref`. -/
def sad (n : Nat) (cur ref : Int → Int → Nat) (x y : Int) : Nat :=
  ((List.range n).flatMap fun j => (List.range n).map fun i =>
    ((cur (x + i) (y + j) : Int) - (ref i j : Nat)).natAbs).sum

/-- The square of vectors within r of a vector, by rows. -/
def around (r : Nat) (v : Int × Int) : List (Int × Int) :=
  (List.range (2 * r + 1)).flatMap fun j => (List.range (2 * r + 1)).map fun i => (v.1 + (i : Int) - r, v.2 + (j : Int) - r)

/-- The least-cost vector of a list: SAD plus lambda times the vector's coded bits; `unit` is its size in quarter samples. -/
def bestVector (qp : Nat) (unit : Int) (cost : Int × Int → Nat) (l : List (Int × Int)) : Int × Int :=
  (leastBy (fun v => 256 * cost v + Config.lambda qp * Config.vectorBits (unit * v.1) (unit * v.2)) l).getD (0, 0)

/-- The largest horizontal vector by which the 16 columns from x read only columns below `limit`, interpolation reach included; the block lies
beyond the limit where no restriction holds (R268). -/
def restrict (limit x : Nat) (v : Int) : Int :=
  let reach := fun (v : Int) => (x : Int) + 16 + v / 4 + (if v % 4 = 0 then 0 else 4)
  if limit < x + 16 ∨ reach v ≤ limit then v else min (v / 4) ((limit : Int) - x - 16) * 4

/-- A vector in quarter samples within ±146.75 samples and the restriction of R268. -/
def clipVector (limit x : Nat) (v : Int × Int) : Int × Int := (restrict limit x (clampI (-587) 587 v.1), clampI (-587) 587 v.2)

/-- The four stages for the 16 x 16 block at x, y; `seeds` are the vectors of the left and above CTUs, in quarter samples. -/
def searchBlock (w h qp limit : Nat) (src ref : Sampler) (seeds : List (Int × Int)) (x y : Nat) : Int × Int :=
  let stage := fun (n : Nat) (l : List (Int × Int)) =>
    bestVector qp (4 * n) (fun v => sad (16 / n) (lumaLevel w h n src) (fun i j => lumaLevel w h n ref ((x / n : Nat) + v.1 + i) ((y / n : Nat) + v.2 + j))
      (x / n : Nat) (y / n : Nat)) l
  let v0 := stage 16 (around 8 (0, 0) ++ [(0, 0)] ++ seeds.map fun v => (v.1 / 64, v.2 / 64))
  let v1 := stage 4 (around 4 (4 * v0.1, 4 * v0.2))
  let v2 := stage 1 (around 2 (4 * v1.1, 4 * v1.2))
  let v3 := bestVector qp 1 (fun v => sad 16 (lumaAt w h src) (fun i j => quarterAt w h ref (4 * ((x : Int) + i) + v.1) (4 * ((y : Int) + j) + v.2)) x y)
    (around 3 (4 * v2.1, 4 * v2.2))
  clipVector limit x v3

/-- The vectors of the 16 blocks of the CTU at x, y, by rows. -/
def searchCtu (w h qp limit : Nat) (src ref : Sampler) (seeds : List (Int × Int)) (x y : Nat) : List (Int × Int) :=
  (List.range 16).map fun k => searchBlock w h qp limit src ref seeds (x + 16 * (k % 4)) (y + 16 * (k / 4))

/-- The vectors of CTU row r, CTU by CTU; `above` holds the row before. -/
def searchRow (w h limit : Nat) (qps : List Nat) (src ref : Sampler) (above : List (List (Int × Int))) (r : Nat) : List (List (Int × Int)) :=
  (List.range (ceilDiv w 64)).foldl (fun l c =>
    let seeds := ((l.getLast?).bind List.getLast?).toList ++ ((above[c]?).bind List.getLast?).toList
    l ++ [searchCtu w h (qps.getD c 0) limit src ref seeds (64 * c) (64 * r)]) []

end Sys2Proof.Machine
end

