-- ==== Sys2Proof/Machine/Encoder.lean ====
section
/-! DEFINITION. Machine/Encoder.lean: the encoder cores and the pictures of a clip (R262 to R275). -/

namespace Sys2Proof.Machine

/-- Encoder cores of a partition that are neither withdrawn nor under test. -/
def encsIn (s : State) (p : Nat) : List Nat :=
  (List.range 4).filter fun n => nbit (partAt s p).enc n && decide ((encAt s n).state < 2)

/-- The partition of an encoder core. -/
def partOfEnc (s : State) (n : Nat) : Option Nat := (List.range 4).find? fun p => (partAt s p).present && nbit (partAt s p).enc n

/-- Clips on an encoder core. -/
def clipsOn (s : State) (n : Nat) : List Clip := s.clips.filter fun k => k.core == some n && !k.ended

/-- The next picture of a clip is ready: it waits for its folio where regions derive from it (R269). -/
def headReady (k : Clip) : Option ClipPic :=
  match k.ready with
  | r :: _ => if (k.deriveQp || k.derivePriv) && r.folio.isNone then none else some r
  | [] => none

/-- The longer side made `side`, the other by its ratio; a ratio without a whole result is open (R274, log entry 37). -/
def thumbSize (s : State) (side w h : Nat) : Nat × Nat :=
  let other := fun (a b : Nat) => if b * side % a = 0 then b * side / a else (freeBits s 0 16).toNat % (side + 1)
  if h ≤ w then (side, if w = 0 then side else other w h) else (other h w, side)

/-- The size of the clip picture: a window scaled with each side rounded down to even, or a thumb's longer side (R259, R274). -/
def clipSize (s : State) (k : Clip) (r : ClipPic) : Nat × Nat :=
  let st := strm s k.stream
  let w := if r.winW ≠ 0 then (r.winW, r.winH) else match st.lastWin with
    | some (_, _, w, h) => (w, h)
    | none => (st.env.maxW, st.env.maxH)
  if k.thumb then
    match k.regions with
    | g :: _ => thumbSize s k.tside (g.x1 + 1 - g.x0) (g.y1 + 1 - g.y0)
    | [] => thumbSize s k.tside w.1 w.2
  else (w.1 / 2 ^ k.scale / 2 * 2, w.2 / 2 ^ k.scale / 2 * 2)

/-- ENCODE_START: an encoder core takes the oldest clip that waits for one, while it runs fewer than 8, and starts the
earliest-arrived ready picture among its clips; at shed level 1 and above it starts none (R264). -/
def execEncodeStart (core : Nat) (s : State) : Out :=
  .next (
    match upAt s (80 + core) && decide (core < 4) && (encAt s core).state == 0 && s.pwr.level == 0, partOfEnc s core with
    | true, some p =>
      let s := match leastBy (fun k : Clip => k.order) (s.clips.filter fun k => k.part == p && k.core.isNone && !k.ended),
                     decide ((clipsOn s core).length < 8) with
        | some k, true => modClip k.fn k.id (fun k => { k with core := some core }) s
        | _, _ => s
      match leastBy (fun k : Clip => ((headReady k).map (·.arrived)).getD 0) ((clipsOn s core).filter fun k => (headReady k).isSome) with
      | some k =>
        let s := match headReady k, k.coded with
          | some r, 0 =>
            let d := clipSize s k r
            useFree 1 (modClip k.fn k.id (fun k => { k with w := d.1, h := d.2 }) s)
          | _, _ => s
        modEnc core (fun e => { e with state := 1, clip := some (k.fn, k.id) }) s
      | none => s
    | _, _ => s)

/-! ### Coding a picture (R266 to R271) -/

/-- The rows of a slice under its cap (R271, Table 10.5): from row r on they are capped once S + 2 C (R - r) reaches CAP. `f` codes a row from
what the rows before left, the bytes so far and whether the row is capped; a capped row takes at most 2 C bytes, and a row of the IDR
picture leaves the reserve of the rows after it. -/
def codeRows {α : Type} (idr : Bool) (cap c n : Nat) (f : α → Nat → Nat → Bool → α × List Byte) (head : List Byte) (a0 : α) :
    Nat → α × List Byte × Option Nat
  | 0 => (a0, head, none)
  | r + 1 =>
    let (a, b, first) := codeRows idr cap c n f head a0 r
    let capped := first.isSome || decide (cap ≤ b.length + 2 * c * (n - r))
    let (a, row) := f a r b.length capped
    let row := if capped then row.take (2 * c) else if idr then row.take (cap - b.length - 2 * c * (n - r - 1)) else row
    (a, b ++ row, if first.isNone && capped then some r else first)

/-- How a picture comes out: its slice, flag bits of its entry below SWEEP_COMPLETE, FIRSTCAP, whether its sweep position must be coded
again, whether it was replaced, the QPs of its coded CTUs, and its reconstruction (R262, R271). -/
structure CodedPic where
  slice : List Byte
  flags : Nat
  firstCap : Nat := 255
  missed : Bool := false
  replaced : Bool := false
  qps : List Nat := []
  recon : List Byte := []

/-- The reconstructed picture of a clip as samples. -/
def reconAt (k : Clip) : Sampler := fun plane x y =>
  let cw := ceilDiv k.w 2
  let ch := ceilDiv k.h 2
  (if plane = 0 then k.recon.getD (y * k.w + x) 0 else k.recon.getD (k.w * k.h + (plane - 1) * cw * ch + y * cw + x) 0).toNat

/-- A reconstruction from its samples. -/
def reconBytes (w h : Nat) (f : Nat → Nat → Nat → Byte) : List Byte :=
  let plane := fun (p w h : Nat) => (List.range h).flatMap fun y => (List.range w).map fun x => f p x y
  plane 0 w h ++ plane 1 (ceilDiv w 2) (ceilDiv h 2) ++ plane 2 (ceilDiv w 2) (ceilDiv h 2)

/-- The bits a picture aims at: CBR's RATE over its PTS interval; VBR is bounded by MAXRATE over it. -/
def aimBits (k : Clip) (r : ClipPic) : Nat :=
  (if k.vbr then k.maxRate else k.rate) * 1000 * (if k.coded = 0 then 0 else r.pts - k.lastPts) / 90000

/-- Columns of a sweep position (R268). -/
def sweepWidth (k : Clip) : Nat := ceilDiv (ceilDiv k.w 64) k.refresh

/-- A CTU column belongs to the sweep position in hand. -/
def inSweep (k : Clip) (c : Nat) : Bool := decide (k.sweep * sweepWidth k ≤ c) && decide (c < (k.sweep + 1) * sweepWidth k)

/-- Code one CTU row: its QPs, forced intra CTUs and vectors, then its bytes. The rows before it are in `l`. -/
def codeRow (key : Config.CodeKeys) (k : Clip) (r : ClipPic) (regions : List Region) (src : Sampler) (l : List Config.RowTask) (row sum : Nat) (capped : Bool) :
    List Config.RowTask × List Byte :=
  let idr := k.coded == 0
  let cols := ceilDiv k.w 64
  let base := Config.rowQp key.qps k.vbr (aimBits k r) k.hrd row sum % 52
  let qps := (List.range cols).map fun c => if capped then 51 else ctuQp base regions (64 * c) (64 * row)
  let limit := if idr then 0 else 64 * (k.sweep * sweepWidth k)
  let task : Config.RowTask :=
    { idr := idr, row := row, capped := capped, qps := qps, refreshed := limit
      intra := (List.range cols).map fun c => idr || (!capped && inSweep k c)
      vectors := if idr || capped then [] else
        searchRow k.w k.h limit qps src (reconAt k) ((l.getLast?.map (·.vectors)).getD []) row }
  (l ++ [task], Config.rowBits key.rows task src (reconAt k))

/-- Code a clip's next picture from its masked source: an IDR picture is never replaced, and a P picture without source, or one that passes CAP,
is an all-skip picture, which fits within the least CAP. -/
def codePicture (key : Config.CodeKeys) (k : Clip) (r : ClipPic) (regions : List Region) (src : Option Sampler) : CodedPic :=
  let c := ceilDiv k.w 64
  let n := ceilDiv k.h 64
  let idr := k.coded == 0
  let marks := b2n idr + 8 * b2n k.again + 16 * b2n (r.src == .gap) + 32 * b2n (r.src == .missing)
  let hasCols := decide (k.sweep * sweepWidth k < c)
  let skip := fun (flags : Nat) (replaced : Bool) =>
    { slice := (Config.skipSlice key.repl k.w k.h k.coded).take (leastCap (k.w, k.h)), flags := flags, missed := hasCols, replaced := replaced,
      recon := k.recon : CodedPic }
  if !idr && src.isNone then skip marks false else
  let f := src.getD fun _ _ _ => 128
  let (tasks, slice, first) := codeRows idr (if src.isNone then 0 else k.cap) c n (codeRow key k r regions f)
    (Config.sliceHead key.headers k.w k.h idr k.coded) [] n
  if !idr && decide (k.cap < slice.length) then skip (marks + 4) true
  else { slice := slice, flags := marks + 2 * b2n first.isSome, firstCap := first.getD 255, missed := !idr && first.isSome && hasCols,
         qps := tasks.flatMap (·.qps), recon := reconBytes k.w k.h (Config.reconSample key.rows tasks f (reconAt k)) }

/-- What stands before a picture's slice: parameter sets before the IDR picture, and a recovery point SEI before the first picture of each
sweep (R266, R268). -/
def headOf (key : Config.CodeKeys) (k : Clip) : List Byte :=
  let peak := 1000 * (if k.vbr then k.maxRate else k.rate)
  if k.coded = 0 then Config.parameterSets key.headers { width := k.w, height := k.h, tick := k.tick, bitRate := peak, buffer := peak }
  else if k.sweep = 0 && !k.again then Config.recoverySei key.headers 0 (k.refresh - 1) else []

/-- The index entry of a coded picture (Table 10.7). The mean QP of a picture without coded CTUs is open, and so is a count of dropped regions
beyond its field (log entry 37). -/
def clipEntry (s : State) (k : Clip) (r : ClipPic) (o : CodedPic) (total : Nat) : List Byte :=
  let g := regionsOf k r.folio
  let last := decide (0 < k.coded) && !o.missed && k.sweep + 1 == k.refresh
  let flags := o.flags + 64 * b2n g.2.1 + 128 * b2n r.concealed + 256 * b2n last
  let dropped := if g.2.2 ≤ 255 then g.2.2 else (freeBits s 0 8).toNat
  let qp := if o.qps.isEmpty then (freeBits s 1 8).toNat else meanOf o.qps
  leBytes 8 r.pts ++ leBytes 8 r.num ++ leBytes 4 k.bytes ++ leBytes 4 total ++ leBytes 2 flags ++ leBytes 1 o.firstCap
    ++ leBytes 1 qp ++ leBytes 1 (if k.coded = 0 then 0 else k.sweep) ++ leBytes 1 dropped ++ leBytes 2 0

/-- The encoder lets the source picture of a clip go. -/
def dropSource (k : Clip) (r : ClipPic) (s : State) : State :=
  match r.src with
  | .pic p => settleBufs k.stream (modBuf k.stream p (fun b => { b with clips := b.clips - 1 }) s)
  | _ => s

/-- A coded picture joins its clip; a thumb has no index entry (R272). -/
def keepCoded (core : Nat) (k : Clip) (r : ClipPic) (o : CodedPic) (bits : List Byte) (s : State) : State :=
  let e := if k.thumb then [] else clipEntry s k r o bits.length
  let y := k.w * k.h
  let drained := (if k.vbr then k.maxRate else k.rate) * 1000 * (if k.coded = 0 then 0 else r.pts - k.lastPts) / 90000
  let s := clipWrite k (64 + 32 * k.coded) e (clipWrite k (indexArea k.maxPic + k.bytes) bits (useFree 2 s))
  let s := charge (strm s k.stream).ctx (fun a => { a with encoderCycles := hold64 (a.encoderCycles +
    (if k.thumb then 12000 + 3 * y else 12000 + 2 * y + (if o.replaced then 10000 else 0))) }) s
  let s := modEnc core (fun n =>
    { n with pict := satInc n.pict, capped := satInc n.capped (b2n (nbit o.flags 1)), skiprepl := satInc n.skiprepl (b2n o.replaced),
             refrep := satInc n.refrep (b2n o.missed), missing := satInc n.missing (b2n (r.src == .missing)) }) s
  let s := countEv (80 + core) 0x30 1 s
  let s := modClip k.fn k.id (fun k =>
    { k with ready := k.ready.drop 1, coded := k.coded + 1, bytes := k.bytes + bits.length, attempts := 0,
             firstPts := if k.coded = 0 then r.pts else k.firstPts, lastPts := r.pts, again := o.missed,
             sweep := if k.coded = 0 ∨ o.missed then k.sweep else (k.sweep + 1) % k.refresh,
             recon := o.recon, hrd := k.hrd + 8 * bits.length - drained,
             entries := k.entries ++ e, bits := k.bits ++ bits }) s
  let s := dropSource k r s
  match clipOf s k.fn k.id with
  | some k => if clipDone k then endClip k (doneStatus k) s
              else if k.maxPic ≤ k.coded && !k.thumb then endClip { k with truncatedFlag := true } 0 s else s
  | none => s

/-- The buffer of a picture to be coded. -/
def sourceBuf (s : State) (k : Clip) (r : ClipPic) : Option FrameBuf :=
  match r.src with
  | .pic p => bufAt (strm s k.stream) p
  | _ => none

/-- What a clip's picture comes out as, and its bytes in the bitstream area: a thumb's JPEG file, or parameter sets, SEI and slice. -/
def codedBytes (s : State) (k : Clip) (r : ClipPic) (key : Config.CodeKeys) : CodedPic × List Byte :=
  if k.thumb then ({ slice := [], flags := 0 }, ((sourceBuf s k r).map (thumbFile key s k r)).getD [])
  else
    let o := codePicture key k r ((regionsOf k r.folio).1.map (scaleRegion (2 ^ k.scale))) ((sourceBuf s k r).map (clipSource s k r))
    (o, headOf key k ++ o.slice)

/-- ENCODE_DONE: an encoder core finishes the picture in hand and writes its entry and bitstream; a picture that would overflow the
host buffer ends the clip unwritten, and a completion after the watchdog won is discarded (R263 to R273). -/
def execEncodeDone (core rows repl headers qps : Nat) (last : CodeEnd) (s : State) : Out :=
  .next (
    let n := encAt s core
    if !upAt s (80 + core) || decide (4 ≤ core) then s
    else if n.state ≠ 1 then
      (if 0 < n.lateDue then modEnc core (fun e => { e with lateDue := e.lateDue - 1, wdlate := satInc e.wdlate }) s else s)
    else
      let s := correctMemories 0x04 core (80 + core) last.corrected
        (endCensus (80 + core) 4 (modEnc core (fun e => { e with state := 0, clip := none }) s))
      match n.clip.bind fun c => clipOf s c.1 c.2 with
      | some k => match k.ready.head? with
        | some r =>
          let c := codedBytes s k r ⟨rows, repl, headers, qps, last.file⟩
          if k.hlen < indexArea k.maxPic + k.bytes + c.2.length then endClip { k with truncatedFlag := true } 0 s
          else keepCoded core k r c.1 c.2 s
        | none => s
      | none => s)

/-- ENCODER_WATCHDOG: the watchdog or a memory fault wins: the picture is discarded, the clip's working set quarantined and
the island reset; the clip moves to another core of the partition that runs fewer than 8 clips, or waits for one, with a fresh working set and codes
the picture again, and a second failure
ends it ABORTED with FAULT (R265, R326). -/
def execEncoderWatchdog (core : Nat) (_memory : Bool) (s : State) : Out :=
  .next (
    let n := encAt s core
    if !upAt s (80 + core) || decide (4 ≤ core) || n.state ≠ 1 then s else
    let s := modEnc core (fun e => { e with state := 0, clip := none, wdog := min (e.wdog + 1) 255, lateDue := e.lateDue + 1 }) s
    let s := resetIsland (80 + core) s
    match n.clip.bind fun c => clipOf s c.1 c.2 with
    | some k =>
      let s := emit { cls := 1, source := 0x04, unit := some core, stream := some k.stream, ctx := some (strm s k.stream).ctx } s
      let s := match k.buf with | some p => quarantineBuf k.part p s | none => s
      if 1 ≤ k.attempts then endClip { k with faultFlag := true, buf := none } 0x20 s
      else
        let (buf, s) := drawFor 5 (.partition k.part) k.fn s
        let others := (encsIn s k.part).filter (· != core)
        let free := leastBy (fun e => (clipsOn s e).length) (others.filter fun e => decide ((clipsOn s e).length < 8))
        modClip k.fn k.id (fun k =>
          { k with attempts := k.attempts + 1, core := if others.isEmpty then some core else free, buf := buf }) s
    | none => s)

/-- CLIP_WAIT_EXPIRY: no further picture in range came within WAIT; the pictures that did come are coded, and the clip ends TIMEOUT; WAIT is
suspended at shed level 1 and above (R263). -/
def execClipWaitExpiry (fn : Nat) (clip : Word) (s : State) : Out :=
  .next (match upAt s nocIsland && s.pwr.level == 0, clipOf s fn clip with
    | true, some k =>
      if k.closed && (decide (0 < k.coded) || !k.ready.isEmpty) then s
      else settleClips k.stream (modClip fn clip (fun k => { k with closed := true, timedOut := true }) s)
    | _, _ => s)

end Sys2Proof.Machine
end

