-- ==== Sys2Proof/Machine/Folio.lean ====
section
/-! DEFINITION. Machine/Folio.lean: folios, their commit and seal, the verdicts of Spigot-bound zones, and delivery (R250, R253 to R256,
R349, R406 to R408, R415 to R418). -/

namespace Sys2Proof.Machine

/-! ### Bytes (Tables 9.8 and 9.9) -/

/-- The 64 bytes of an object record. -/
def recBytes (r : ObjRec) : List Byte :=
  leBytes 4 r.track ++ leBytes 2 r.cls ++ leBytes 2 r.conf.toNat ++ leBytes 2 r.x0 ++ leBytes 2 r.y0 ++ leBytes 2 r.x1 ++ leBytes 2 r.y1
    ++ leBytes 8 r.zones.toNat ++ leBytes 1 r.tstate ++ leBytes 1 r.rflags ++ leBytes 2 r.age ++ leBytes 2 r.misses
    ++ leBytes 2 r.attrst ++ leBytes 16 r.attr.toNat ++ leBytes 4 (r.embOff.getD 0xFFFFFFFF) ++ leBytes 2 r.emb.elems.length
    ++ leBytes 1 (if r.emb.elems.isEmpty then 0 else if r.emb.headers.isEmpty then 7 else 6) ++ [0] ++ leBytes 2 r.vx.toNat ++ leBytes 2 r.vy.toNat ++ leBytes 4 0

/-- The embedding blob: each embedding padded to 64 bytes. -/
def blobOf (l : List ObjRec) : List Byte :=
  l.flatMap fun r => if r.embOff.isSome then slice (embBlob r.emb) 0 (embBytes r) else []

/-- The gap reason of a frame; none for a folio. -/
def gapOf (f : Frame) : Option Nat := match f.result with | some (.gap r) => some r | _ => none

/-- The share of reused tiles (R232). -/
def reuseField (f : Frame) : Nat := if f.reusable = 0 then 0 else 65535 * f.reused / f.reusable

/-- Header bytes [63:8] of a folio or gap folio. -/
def folioTail (id : Nat) (f : Frame) (blob : Nat) : List Byte :=
  let num := f.num.getD 0
  match gapOf f with
  | some r => leBytes 2 id ++ leBytes 2 (32 + 16 * b2n f.trackReset) ++ leBytes 1 r ++ leBytes 3 0 ++ leBytes 8 num ++ leBytes 8 f.pts
      ++ leBytes 32 0
  | none =>
    let flags := b2n f.concealed + 2 * b2n f.partialPic + 4 * b2n f.untrusted + 8 * b2n f.degraded + 16 * b2n f.trackReset
    leBytes 2 id ++ leBytes 2 flags ++ leBytes 2 0 ++ leBytes 2 f.recs.length ++ leBytes 8 num ++ leBytes 8 f.pts ++ leBytes 4 blob
      ++ leBytes 2 (reuseField f) ++ leBytes 2 f.adapt ++ leBytes 2 f.ctx ++ leBytes 2 f.ncand ++ leBytes 2 f.ntrk
      ++ leBytes 2 (f.recs.filter fun r => nbit r.rflags 0).length ++ leBytes 8 f.zocc.toNat ++ leBytes 8 f.zwarn.toNat

/-- The whole folio of a frame (R253 to R255). -/
def folioOf (id : Nat) (f : Frame) : List Byte :=
  let recs := if (gapOf f).isSome then [] else f.recs
  let blob := blobOf recs
  let rest := folioTail id f blob.length ++ recs.flatMap recBytes ++ blob
  let kind := if (gapOf f).isSome then 0xC6 else 0xC5
  leBytes 4 (kind + 256 * (f.num.getD 0 % 2 ^ 24)) ++ leBytes 4 (crc32c rest) ++ rest

/-! ### What a seal lets go on -/

/-- A DRAINING stream whose admitted frames are all sealed goes to OPEN (R302). -/
def settleDrain (id : Nat) (s : State) : State :=
  let st := strm s id
  if st.state == .draining && st.frames.all (·.sealed) then
    emit { type := 2, source := 0x10, stream := some id, ctx := some st.ctx, code := 1 }
      (modStrm id (fun st => { st with state := .opened }) s)
  else s

/-- What a watch entry keeps of its stream's frames ends with the session (R416, R424). -/
def forgetWatch (id : Nat) (s : State) : State :=
  { s with saf := { s.saf with watches := tmap s.saf.watches fun _ w =>
    if w.stream == id then { w with clean := 0, lastClean := true, silenced := false, window := [] } else w } }

/-- A stream's flow, bindings, archive, tracker state, zones and buffers are released; buffers of sealed folios stay until their delivery
(R303). -/
def releaseStream (id : Nat) (s : State) : State :=
  let st := strm s id
  let keep := st.frames.filterMap fun f => if f.sealed then f.folioPtr else none
  let s := forgetWatch id (unbind (fun b => b.1 == id) s)
  let s := { s with flows := match st.flow with | some n => tdrop s.flows n | none => s.flows }
  let o := Owner.stream id
  let s := (List.range 64).foldl (fun s n =>
    match poolAt s n with
    | none => s
    | some q =>
      let back := q.held.filter fun h => h.2.1 == o && !keep.contains h.1
      if back.isEmpty && !(q.reserves.any fun r => r.owner == o) then s else
      let q := { q with held := q.held.filter (fun h => !back.contains h), reserves := q.reserves.filter fun r => r.owner != o }
      settlePool n (setPool n (back.foldl (fun q h => enterFree h.1 h.2.2 q) q) s)) s
  modStrm id (fun st =>
    { ({} : Stream) with owner := st.owner, part := st.part, ctx := st.ctx, ring := st.ring, frames := st.frames.filter (·.sealed),
                         sealedNum := none }) s

/-- A closed stream whose last frame is sealed is released, and its STREAM_CLOSE completes (R303). -/
def settleClose (id : Nat) (s : State) : State :=
  let st := strm s id
  match st.closing with
  | some c => if st.frames.all (·.sealed) then slipDone c.1 c.2 0 0 (settleC3 (releaseStream id s)) else s
  | none => s

/-- What a taken FENCE still waits for (R352). -/
def fenceStep (s : State) (t : Taken) : Taken :=
  match t.awaits, t.done with
  | some l, none =>
    let l := l.filter fun x => (frameOf s x.1 x.2).isSome
    if l.isEmpty then { t with awaits := none, done := some (0, 0xFF, 0) } else { t with awaits := some l }
  | _, _ => t

/-- A FENCE whose frames have all left the device completes (R352). -/
def settleFence (s : State) : State :=
  { s with host := { s.host with rings := tmap s.host.rings fun _ r =>
      { r with taken := r.taken.map (fenceStep s) } } }

/-- A sealed frame leaves the device: its folio buffer returns, admission may resume, and a FENCE may complete (R349, R350, R352). -/
def dropFolio (id : Nat) (f : Frame) (s : State) : State :=
  let s := match f.folioPtr with | some p => giveBack (strm s id).part p (.stream id) s | none => s
  settleFence (settleBacklog id (modStrm id (fun st => { st with frames := st.frames.filter fun g => g.order != f.order }) s))

/-! ### The commit decision (R406, R408, R415, R416) -/

/-- The next frame of a stream to commit: the lowest number not sealed, with a result in its place (R254). -/
def nextCommit (st : Stream) : Option Frame :=
  match oldestFrame st with
  | some f => if f.result.isSome && f.num.isSome then some f else none
  | none => none

/-- The SENTINEL jobs of a frame. -/
def sentinelJobs (s : State) (id order : Nat) : List Job := s.jobs.filter fun j => j.role == 3 && j.stream == id && j.frame == order

/-- Firmware can place a SENTINEL job on a physical core that ran no FRAME or BATCH part of the frame (R415). -/
def canPlace (s : State) (j : Job) (f : Frame) : Bool :=
  (coresIn s (strm s j.stream).part).any fun c =>
    (residencyOf s (c / 4) j.ctx).isSome && (match servedBy s c with | some ph => !f.ran.contains ph | none => false)

/-- The commit of a watched stream's frame waits for its SENTINEL job, unless none could be placed (R415). -/
def sentinelHolds (s : State) (id : Nat) (f : Frame) : Bool :=
  watched s id && (gapOf f).isNone && (sentinelJobs s id f.order).any fun j => j.state == .running || canPlace s j f

/-- The zone set of a frame: the one it was evaluated with, or the stream's where it was not evaluated (R248). -/
def zonesOf (s : State) (id : Nat) (f : Frame) : List Zone := f.zset.getD (strm s id).zones

/-- The zones of a frame that are enabled and Spigot-bound, as a mask. -/
def boundMask (s : State) (id : Nat) (f : Frame) : BitVec 64 :=
  BitVec.ofNat 64 (((zonesOf s id f).filter fun z => z.enabled && z.bound).foldl (fun a z => a ||| 2 ^ z.zone) 0)

/-- The diverse checker disagrees on a frame that is no gap folio: its mask differs, there is none, or a FRAME or BATCH part had to take
the core that it ran on (R415). -/
def disagrees (s : State) (id : Nat) (f : Frame) : Bool :=
  (gapOf f).isNone && (match f.sentinel with
    | some (some m) => m &&& boundMask s id f != f.zocc &&& boundMask s id f || f.ran.any f.sentRan.contains
    | _ => true)

/-- The zone word [31:8] of one verdict (R250, R421). -/
def verdictWord (s : State) (id zone : Nat) (f : Frame) (old : BitVec 24) : BitVec 24 :=
  let st := strm s id
  let gap := (gapOf f).isSome
  let n := if gap then 0 else ((f.zcount.find? fun c => c.1 == zone).map (·.2)).getD 0
  let on := ((zonesOf s id f).find? fun z => z.zone == zone).any (·.enabled)
  let flags := b2n (decide (1 ≤ n)) + 2 * b2n (!gap && f.zwarn.getLsbD zone) + 4 * b2n (gap || st.state != .running)
    + 8 * b2n (f.untrusted || !watched s id) + 16 * b2n (!on)
  BitVec.ofNat 24 ((old.toNat / 65536 + 1) % 256 * 65536 + flags * 256 + n)

/-- A binding (Spigot index, (stream, zone)) that a frame's verdicts reach: its zone set binds that zone to that index. A gap folio was
evaluated with no set and reaches every binding of its stream (R248, R250). -/
def reaches (s : State) (id : Nat) (f : Frame) (b : Nat × Nat × Nat) : Bool :=
  b.2.1 == id && ((gapOf f).isSome || (zonesOf s id f).any fun z => z.bound && z.zone == b.2.2 && z.spigot == b.1)

/-- Commit one verdict for every Spigot-bound zone of a frame, each with the next sequence (R250, R388). -/
def commitVerdicts (id : Nat) (f : Frame) (s : State) : State :=
  let mine := s.saf.bound.filter (reaches s id f)
  mine.foldl (fun s b =>
    countEv 99 0x90 1 { s with saf := { s.saf with zones := tset s.saf.zones b.1 (verdictWord s id b.2.2 f (zoneWord s b.1)) } }) s

/-- SAFE_OK may be OK: armed, partition 0 not in C3, below level 4, and every watched stream RUNNING, not silent, with CLEAN_N clean
commits (R418). -/
def safeOk (s : State) : Bool :=
  s.saf.arm && !s.saf.held && !(partAt s 0).c3 && decide (s.pwr.level < 4)
    && s.saf.watches.all fun w => !w.2.en || ((strm s w.2.stream).state == .running && (strm s w.2.stream).part == 0 && !w.2.silenced
      && decide (s.saf.cleanN ≤ w.2.clean))

/-- SAFE_OK returns to OK at a commit: A starts high (R417, R418). -/
def settleOk (s : State) : State :=
  if safeOk s && !s.saf.ok then
    { s with saf := { s.saf with ok := true, lineA := true, lineB := false, statusSeq := s.saf.statusSeq + 1 } }
  else s

/-- Change the watch entry of a stream. -/
def modWatch (id : Nat) (f : Watch → Watch) (s : State) : State :=
  { s with saf := { s.saf with watches := tmap s.saf.watches fun _ w => if w.en && w.stream == id then f w else w } }

/-- Step 1: a frame of a watched stream beyond its BUDGET becomes a gap folio LATE (R406). -/
def judgeDeadline (id cycle : Nat) (f : Frame) (s : State) : Frame × State :=
  match watchOf s id with
  | some n =>
    if 200 * (tget s.saf.watches {} n).budget < cycle - f.admitted then
      ({ f with result := some (.gap 6), late := true }, { s with saf := { s.saf with lateCount := satInc s.saf.lateCount } })
    else (f, s)
  | none => (f, s)

/-- Steps 2 and 3: proofs and the diverse checker, whose disagreements count in the stream's window (R408, R415, R416). -/
def judgeTrust (id : Nat) (f : Frame) (s : State) : Frame × State :=
  let d := disagrees s id f
  let s := modWatch id (fun w => { w with window := (d :: w.window).take s.saf.w }) s
  let s := if d then
      emit { cls := 1, source := 0x0B, stream := some id, ctx := some f.ctx, frame := f.num }
        { s with saf := { s.saf with disagree := satInc s.saf.disagree } }
    else s
  ({ f with untrusted := f.proofBad || d }, s)

/-- Step 5: a clean commit counts, any other sets the count back and SAFE_OK goes not-OK (R408, R418). -/
def judgeClean (id : Nat) (f : Frame) (s : State) : State :=
  let clean := (gapOf f).isNone && !f.untrusted
  let s := modWatch id (fun w => { w with lastClean := clean, silenced := false, timer := (strm s id).state == .running }) s
  if clean then settleOk (modWatch id (fun w => { w with clean := w.clean + 1 }) s) else dirtyStream id s

/-- After a decision that disagreed, K disagreements within the last W frames are C3 in partition 0 (R416). -/
def judgeWindow (id : Nat) (s : State) : State :=
  match watchOf s id with
  | some n =>
    let w := (tget s.saf.watches {} n).window
    if w.headD false && decide (s.saf.k ≤ (w.filter (·)).length) then faultPartition 0 { source := 0x0B, stream := some id } s else s
  | none => s

/-- The seal of a frame, with which its claims end (R121, R254). -/
def sealFrame (id : Nat) (f : Frame) (s : State) : State :=
  let (o, s) := takeOrder (dropClaims id (fun n => f.num == some n) s)
  let st := strm s id
  let n := (folioOf id f).length
  let gap := (gapOf f).isSome
  let f := { f with sealed := true, sealOrder := o, ring := st.ring }
  let s := modStrm id (fun st => { st with frames := amend (fun g => g.order == f.order) (fun _ => f) st.frames, sealedNum := f.num }) s
  let s := charge st.ctx (fun a => { a with dramBytes := hold64 (a.dramBytes + if gap then 0 else n) }) s
  let s := settleBacklog id (tellClips id (f.num.getD 0) gap (if gap then [] else f.recs.map recBox) s)
  if s.host.linkLost then
    dropFolio id f { s with host := { s.host with discFolios := satInc s.host.discFolios } }
  else s

/-- A SENTINEL job that no core could take is dropped, which leaves a disagreement (R415). -/
def dropSentinel (id order : Nat) (s : State) : State := (sentinelJobs s id order).foldl (fun s j => dropJob j.id s) s

/-- Commit one frame (R254, R408). -/
def commitFrame (id cycle : Nat) (f : Frame) (s : State) : State :=
  let w := watched s id && !s.saf.held
  let f := if (sentinelJobs s id f.order).isEmpty then f else { f with sentinel := some none }
  let s := dropSentinel id f.order s
  let (f, s) := if w then judgeDeadline id cycle f s else (f, s)
  let (f, s) := if w then judgeTrust id f s else ({ f with untrusted := f.proofBad }, s)
  let s := if s.saf.held then s else commitVerdicts id f s
  let s := if w then judgeWindow id (judgeClean id f s) else s
  let s := settleReschange id (f.num.getD 0 + 1) s
  let f := if f.resChange && (gapOf f).isSome then { f with trackReset := f.trackReset || ((frameOf s id f.order).any (·.trackReset)) } else f
  settleClose id (settleDrain id (sealFrame id f s))

/-- FOLIO_COMMIT: the next finished folio or gap folio of a stream is committed and sealed, its predecessor being sealed; level 4 stops
commits, and a watched frame waits for its SENTINEL job (R254, R408, R415, R439). -/
def execFolioCommit (stream cycle : Nat) (s : State) : Out :=
  .next (match ready s && decide (s.pwr.level < 4), nextCommit (strm s stream) with
    | true, some f => if sentinelHolds s stream f then s else commitFrame stream cycle f s
    | _, _ => s)

/-! ### Delivery (R348 to R350) -/

/-- The folio ring entry of Table 13.9 below PHASE. -/
def folioEntry (id : Nat) (f : Frame) (off n : Nat) : List Byte :=
  leBytes 2 id ++ leBytes 1 (if (gapOf f).isSome then 0xC6 else 0xC5) ++ [0] ++ leBytes 8 (f.num.getD 0) ++ leBytes 8 f.pts
    ++ leBytes 4 off ++ leBytes 4 n ++ leBytes 35 0

/-- The next sealed frame of a ring: folios of one ring are delivered in sealing order (R349). -/
def firstOnRing (s : State) (ring : Nat) : Option (Nat × Frame) :=
  leastBy (fun p => p.2.sealOrder) (s.streams.flatMap fun t => (t.2.frames.filter fun f => f.sealed && f.ring == ring).map fun f => (t.1, f))

/-- The offset in the area of a ring at which n bytes go; none while that space is occupied (R349). -/
def areaOffset (r : Ring) (n : Nat) : Option Nat :=
  let a := ceilDiv r.areaNext 64 * 64
  let off := if r.areaSz * 65536 < a + n then 0 else a
  if r.spans.all fun x => decide (off + n ≤ x.2.1) || decide (x.2.1 + x.2.2 ≤ off) then some off else none

/-- FOLIO_DELIVERY: a stream's oldest sealed folio goes to its folio ring: its bytes, its SEAL, its ring entry (R349). -/
def execFolioDelivery (stream : Nat) (s : State) : Out :=
  .next (
    match leastBy (fun f : Frame => f.sealOrder) ((strm s stream).frames.filter (·.sealed)) with
    | none => s
    | some f =>
      let r := ringAt s f.ring
      let first := (firstOnRing s f.ring).any fun p => p.1 == stream && p.2.order == f.order
      if !running s || !s.host.linkUp || s.host.linkLost || !r.enable || r.kind != 2 || r.full || !first then s else
      let b := folioOf stream f
      match areaOffset r b.length with
      | none => s
      | some off =>
        let at' := r.area.toNat + off
        let s := hostWrite at' (slice b 0 4) (hostWrite (at' + 4) (b.drop 4) s)
        let s := setRing f.ring { r with spans := r.spans ++ [(r.tail, off, b.length)], areaNext := off + b.length } s
        let s := ringPut f.ring (folioEntry stream f off b.length) s
        let s := charge f.ctx (fun a => { a with pcieBytes := hold64 (a.pcieBytes + b.length) }) s
        dropFolio stream f s)

end Sys2Proof.Machine
end

