-- ==== Sys2Proof/Machine/Ingest.lean ====
section
/-! DEFINITION. Machine/Ingest.lean: the Ethernet ports, the flow table, RTP depacketisation and the host packet rings (R204 to
R217). -/

namespace Sys2Proof.Machine

/-! ### Ports and host packet rings (R205, R215 to R217) -/

/-- Port n. -/
def portAt (s : State) (n : Nat) : Port := tget s.ports {} n
/-- Change port n. -/
def modEth (n : Nat) (f : Port → Port) (s : State) : State := { s with ports := tset s.ports n (f (portAt s n)) }

/-- BAR0 offset of a register of port n. -/
def ethReg (n off : Nat) : Nat := 0x070000 + 0x100 * n + off

/-- A configuration register of port n has a parity mismatch: its host rings are disabled and no unicast address matches (Table 19.1). -/
def portMarred (s : State) (n : Nat) : Bool := s.err.parity.any fun o => decide (ethReg n 0 ≤ o) && decide (o < ethReg n 0x100)

/-- Entries of a host packet ring (R215). -/
def PktRing.entries (r : PktRing) : Nat := 2 ^ (6 + r.size.toNat % 8)

/-- A host packet ring has a posted entry. -/
def posted (s : State) (n : Nat) (r : PktRing) : Bool := nbit r.size.toNat 31 && r.head != r.tail && !portMarred s n && s.host.linkUp

/-- The ring after the device has consumed and written an entry. -/
def PktRing.advance (r : PktRing) : PktRing :=
  { r with head := (r.head + 1) % r.entries, written := r.written + 1, unannounced := r.unannounced + 1 }

/-- A frame for a port waits among the commands: its ring has not gone idle (log entry 80). -/
def frameWaits (s : State) (n : Nat) : Bool := s.pending.any fun c => match c with | .ethFrameReceive p _ _ => p == n | _ => false

/-- The message of a host receive ring: at most one per 8 entries, or when the ring goes idle (R216). -/
def announceRx (n : Nat) (s : State) : State :=
  let r := (portAt s n).rx
  if decide (8 ≤ r.unannounced) || (decide (0 < r.unannounced) && !frameWaits s n) then
    sendMsix 0 r.vec (modEth n (fun p => { p with rx := { p.rx with unannounced := 0 } }) s)
  else s

/-- Deliver a frame to the host receive ring of its port: the data, the entry, the message (R216). `owner` is the stream of a
host-path match. -/
def toHost (n : Nat) (frame : List Byte) (owner : Option Nat) (entry : HostRead) (s : State) : State :=
  let r := (portAt s n).rx
  let drop := modEth n (fun p => { p with hrxdrop := satInc p.hrxdrop }) s
  match entry with
  | .data e =>
    if !posted s n r || decide (leAt e 8 2 < frame.length) then drop else
    let flags := 1 + 2 * n + 4 * b2n owner.isSome
    let out := slice e 0 10 ++ leBytes 2 frame.length ++ leBytes 2 (owner.getD 0xFFFF) ++ leBytes 1 flags ++ [0]
    let s := hostWrite (r.base.toNat + 16 * r.head) out (hostWrite (leAt e 0 8) frame s)
    let s := modEth n (fun p => { p with rx := p.rx.advance, hrxpkt := satInc p.hrxpkt }) s
    driveInta (announceRx n s)
  | _ => drop

/-- Deliver frames, each with the port it came by, to the host receive rings; `entries` are the ring entries that the device reads for them. -/
def framesToHost (owner : Option Nat) (l : List (Nat × List Byte)) (entries : List HostRead) (s : State) : State :=
  (List.zip l (entries ++ List.replicate l.length .failed)).foldl (fun s x => toHost x.1.1 x.1.2 owner x.2 s) s

/-- ETH_LINK_CHANGE: a port's link comes up after auto-negotiation as KR4/CR4 (1) or KR2/CR2 (2), or goes down (R204). -/
def execEthLinkChange (port : Nat) (up : Bool) (kind : Nat) (s : State) : Out :=
  .next (if !upAt s 98 || decide (2 ≤ port) then s
    else if !up then modEth port (fun p => { p with pstat := 0 }) s
    else if kind = 1 ∨ kind = 2 then modEth port (fun p => { p with pstat := 1 + 2 * kind }) s else s)

/-- A transmit entry is in range: LEN 60 to 9,212 and no reserved bit set (R217). -/
def goodTx (e : List Byte) : Bool :=
  decide (60 ≤ leAt e 8 2) && decide (leAt e 8 2 ≤ 9212) && bits (leAt e 10 1) 7 1 == 0 && zeroRange e 12 4

/-- ETH_TRANSMIT: the transmitter takes the next entry of a port's transmit ring, reads its frame and sends it with the FCS, or
refuses it (R217). -/
def execEthTransmit (port : Nat) (entry frame : HostRead) (s : State) : Out :=
  .next (
    let r := (portAt s port).tx
    match upAt s 98 && decide (port < 2) && posted s port r, entry with
    | true, .data e =>
      let done := fun (status : Nat) (s : State) =>
        let s := hostWrite (r.base.toNat + 16 * r.head) (slice e 0 11 ++ leBytes 1 status ++ slice e 12 4) s
        driveInta (sendMsix 0 r.vec (modEth port (fun p => { p with tx := p.tx.advance }) s))
      let out := leAt e 10 1 % 2
      match goodTx e, frame with
      | true, .data b =>
        if nbit (portAt s out).pstat 0 then
          let x := slice b 0 (leAt e 8 2)
          done 1 (modEth out (fun p => { p with sent := p.sent ++ [x ++ leBytes 4 (crc32e x)], txfrm := satInc p.txfrm }) s)
        else s
      | _, _ => done 3 s
    | _, _ => s)

/-- A write of PF0 reaches the device: the word's parity is written with it (R333, R476). -/
def pf0Write (fn off : Nat) (f : State → State) (s : State) : State :=
  if fn = 0 ∧ s.host.linkUp then f { s with err := { s.err with parity := s.err.parity.filter (· != off) } } else s

/-- RXTAIL: the driver posts receive entries (R215). -/
def execRxtail (fn port : Nat) (value : Word) (s : State) : Out :=
  .next (if 2 ≤ port ∨ !(running s && blockUp s 98) then s else pf0Write fn (ethReg port 0x1C) (fun s =>
    driveInta (modEth port (fun p => { p with rx := { p.rx with tail := value.toNat % 4096 % p.rx.entries, written := 0 } }) s)) s)

/-- TXTAIL: the driver posts transmit entries (R215). -/
def execTxtail (fn port : Nat) (value : Word) (s : State) : Out :=
  .next (if 2 ≤ port ∨ !(running s && blockUp s 98) then s else pf0Write fn (ethReg port 0x3C) (fun s =>
    driveInta (modEth port (fun p => { p with tx := { p.tx with tail := value.toNat % 4096 % p.tx.entries, written := 0 } }) s)) s)

/-! ### Reading a frame (R205, R207) -/

/-- The ones'-complement sum of a byte list folded to 16 bits. -/
def fold16 (bs : List Byte) : Nat :=
  let x := onesSum bs
  let y := x / 65536 + x % 65536
  y / 65536 + y % 65536

/-- What a frame is: discarded, for the host ring, or a datagram with the match bytes of its flow key (Table 8.3) and its payload. -/
inductive Seen where
  | bad
  | host
  | udp (key : List Byte) (payload : List Byte)
  deriving DecidableEq, Repr

/-- Judge a UDP datagram: its length against the IP length and its checksum (R205). `pseudo` is the pseudo header without the length,
`v6` says that a zero checksum fails, and `len` is the IP length. -/
def seeUdp (v6 : Bool) (pseudo key : List Byte) (len : Nat) (u : List Byte) : Seen :=
  let n := beAt u 4 2
  let ck := beAt u 6 2
  if len < 8 ∨ u.length < len ∨ n ≠ len then .bad
  else
    let u := u.take len
    let ok := if ck = 0 then !v6 else fold16 (pseudo ++ [0, 17] ++ slice u 4 2 ++ u) == 65535
    if ok then .udp (key ++ slice u 0 4) (u.drop 8) else .bad

/-- An address of the flow key. -/
def keyAddr (a : List Byte) : List Byte := slice a 0 16

/-- Judge an IP packet (R205, R207). -/
def seeIp (etype : Nat) (b : List Byte) : Seen :=
  if etype = 0x0800 then
    let h := 4 * (leAt b 0 1 % 16)
    if leAt b 0 1 / 16 ≠ 4 ∨ h < 20 ∨ b.length < h then .bad
    else if fold16 (b.take h) ≠ 65535 then .bad
    else if leAt b 9 1 ≠ 17 ∨ beAt b 6 2 % 16384 ≠ 0 then .host
    else seeUdp false (slice b 12 8) (keyAddr (slice b 12 4) ++ keyAddr (slice b 16 4)) (beAt b 2 2 - h) (b.drop h)
  else if etype = 0x86DD then
    if leAt b 6 1 ≠ 17 ∨ leAt b 0 1 / 16 ≠ 6 then .host
    else seeUdp true (slice b 8 32) (slice b 8 32) (beAt b 4 2) (b.drop 40)
  else .host

/-- The match bytes of a flow key: bytes [37:0] and the IPv6 flag (Table 8.3). -/
def matchPart (key : List Byte) : List Byte := slice key 0 38 ++ [BitVec.ofNat 8 (leAt key 38 1 % 2)]

/-- Judge a received frame, FCS included (R205, R207); a datagram's match bytes take its tag. -/
def seeFrame (mac : Nat) (marred : Bool) (b : List Byte) : Seen :=
  let n := b.length
  let body := b.take (n - 4)
  let unicast := leAt b 0 1 % 2 == 0
  if n < 64 ∨ 9216 < n then .bad
  else if leAt b (n - 4) 4 ≠ crc32e body then .bad
  else if unicast && (marred || leAt b 0 6 != mac) then .bad
  else
    let tagged := beAt b 12 2 == 0x8100
    let etype := if tagged then beAt b 16 2 else beAt b 12 2
    if tagged && (etype == 0x8100 || etype == 0x88A8) then .host
    else match seeIp etype (body.drop (if tagged then 18 else 14)) with
      | .udp k p =>
        let vlan := if tagged then beAt b 14 2 % 4096 + 4096 else 0
        .udp (slice k 0 36 ++ leBytes 2 vlan ++ [if etype = 0x86DD then 1 else 0]) p
      | x => x

/-- The flow that a datagram matches. -/
def flowOf (s : State) (m : List Byte) : Option (Nat × Nat) :=
  (s.flows.find? fun f => matchPart f.2.1 == m).map fun f => (f.1, f.2.2)

/-! ### RTP packets (R209, R214) -/

/-- The RTP packet of a datagram, padding, CSRC list and extension removed; none for a packet that R209 discards as BADRTP. -/
def rtpOf (pt : Nat) (b : List Byte) : Option Rtp :=
  let b0 := leAt b 0 1
  let h := 12 + 4 * (b0 % 16)
  let start := if nbit b0 4 then h + 4 + 4 * beAt b (h + 2) 2 else h
  let pad := if nbit b0 5 then leAt b (b.length - 1) 1 else 0
  if b0 / 64 ≠ 2 ∨ leAt b 1 1 % 128 ≠ pt ∨ b.length < start + pad ∨ (nbit b0 5 ∧ pad = 0) then none
  else some { seq := beAt b 2 2, ts := beAt b 4 4, marker := nbit (leAt b 1 1) 7, ssrc := beAt b 8 4,
              payload := slice b start (b.length - start - pad) }

/-- The extended timestamp of a packet as it arrives, on either path (R214, R224). -/
def arrivalPts (d : Depack) (ts : Nat) : Nat :=
  match d.clock with
  | none => ts
  | some (t, p) => wrapTo 64 ((p : Int) + sgn 32 (ts + 2 ^ 32 - t))

/-- The presentation time of an access unit that begins with an RTP timestamp (R214). -/
def ptsOf (d : Depack) (ts : Nat) : Nat :=
  match d.base with
  | none => ts
  | some (t, p) => if d.relocked then (p + 1) % 2 ^ 64 else wrapTo 64 ((p : Int) + sgn 32 (ts + 2 ^ 32 - t))

/-! ### Payload formats (R212, R213, Table 8.5) -/

/-- A piece of a NAL unit or OBU: whether it starts there, whether it ends there, and its bytes. -/
abbrev Piece := Bool × Bool × List Byte

/-- Units with a two-byte length before each; none where a length runs past the end. -/
def sizedUnits : Nat → List Byte → Option (List Piece)
  | 0, _ => none
  | n + 1, b =>
    if b.isEmpty then some []
    else
      let l := beAt b 0 2
      if b.length < 2 + l ∨ l = 0 then none
      else (sizedUnits n (b.drop (2 + l))).map fun r => (true, true, slice b 2 l) :: r

/-- The pieces of an H.264 payload. -/
def avcPieces (b : List Byte) : Option (List Piece) :=
  let h := leAt b 0 1
  let t := h % 32
  let fu := leAt b 1 1
  if b.isEmpty then none
  else if 1 ≤ t ∧ t ≤ 23 then some [(true, true, b)]
  else if t = 24 then sizedUnits b.length (b.drop 1)
  else if t = 28 ∧ 2 ≤ b.length then
    let hdr := if nbit fu 7 then [BitVec.ofNat 8 (h / 32 * 32 + fu % 32)] else []
    some [(nbit fu 7, nbit fu 6, hdr ++ b.drop 2)]
  else none

/-- The pieces of an H.265 payload; a PACI packet has none. -/
def hevcPieces (b : List Byte) : Option (List Piece) :=
  let h := leAt b 0 1
  let t := h / 2 % 64
  let fu := leAt b 2 1
  if b.length < 2 then none
  else if t < 48 then some [(true, true, b)]
  else if t = 48 then sizedUnits b.length (b.drop 2)
  else if t = 49 ∧ 3 ≤ b.length then
    let hdr := if nbit fu 7 then [BitVec.ofNat 8 (h / 128 * 128 + 2 * (fu % 64) + h % 2), b.getD 1 0] else []
    some [(nbit fu 7, nbit fu 6, hdr ++ b.drop 3)]
  else if t = 50 then some []
  else none

/-- The leb128 bytes of a number. -/
def lebOf : Nat → Nat → List Byte
  | 0, _ => []
  | n + 1, x => if x < 128 then [BitVec.ofNat 8 x] else BitVec.ofNat 8 (x % 128 + 128) :: lebOf n (x / 128)

/-- The OBU elements of an AV1 payload below its aggregation header: `w` elements, the last without a length, or with 0 as many as
there are. -/
def av1Elements : Nat → Nat → List Byte → Option (List (List Byte))
  | 0, _, _ => none
  | n + 1, w, b =>
    if w = 1 then some [b]
    else if b.isEmpty then (if w = 0 then some [] else none)
    else match leb 8 b with
      | some (l, k) =>
        if b.length < k + l then none
        else (av1Elements n (w - 1) (b.drop (k + l))).map fun r => slice b k l :: r
      | none => none

/-- Fill an OBU element list: the first continues where Z is set, the last goes on where Y is. -/
def av1Marks (z y : Bool) : List (List Byte) → List Piece
  | [] => []
  | [x] => [(!z, !y, x)]
  | x :: r => (!z, true, x) :: av1Marks false y r

/-- The pieces of an AV1 payload; the payload format forbids temporal delimiters and tile lists in it. -/
def av1Pieces (b : List Byte) : Option (List Piece) :=
  let a := leAt b 0 1
  let w := bits a 5 4
  if b.length < 2 then none else
  match (if w = 0 then av1Elements (b.length + 1) 0 (b.drop 1) else av1Elements 4 w (b.drop 1)) with
  | some l =>
    let ps := av1Marks (nbit a 7) (nbit a 6) l
    if ps.any fun (x : Piece) => x.1 && (x.2.2.isEmpty || obuType x.2.2 == 2 || obuType x.2.2 == 8) then none else some ps
  | none => none

/-- The pieces of a payload by its format: 0 H.264, 1 H.265, 2 AV1 (Table 8.3); none for a refused packet, such as one of H.265 that carries
DONL or DOND. -/
def piecesOf (fmt : Nat) (b : List Byte) : Option (List Piece) :=
  if fmt = 0 then avcPieces b
  else if fmt = 1 then (if Config.carriesDon b then none else hevcPieces b)
  else av1Pieces b

/-- An OBU in the low-overhead format, with obu_size present. -/
def obuOut (b : List Byte) : List Byte :=
  let h := leAt b 0 1
  let n := if nbit h 2 then 2 else 1
  let body := b.drop n
  let body := if nbit h 1 then (match leb 8 body with | some (l, k) => (body.drop k).take l | none => []) else body
  BitVec.ofNat 8 (if nbit h 1 then h else h + 2) :: (slice b 1 (n - 1) ++ lebOf 8 body.length ++ body)

/-- A whole unit carries coded picture data. -/
def codedPicture (fmt : Nat) (u : List Byte) : Bool :=
  let h := leAt u 0 1
  if fmt = 0 then decide (1 ≤ h % 32) && decide (h % 32 ≤ 5)
  else if fmt = 1 then decide (h / 2 % 64 < 32)
  else [3, 4, 6, 7, 8].contains (obuType u)

/-- A unit begins a picture with which a sequence may start: an IDR picture, an IRAP picture or a key frame (R224). -/
def startsSequence (fmt : Nat) (u : List Byte) : Bool :=
  let h := leAt u 0 1
  if fmt = 0 then h % 32 == 5
  else if fmt = 1 then decide (16 ≤ h / 2 % 64) && decide (h / 2 % 64 ≤ 23)
  else (obuType u == 3 || obuType u == 6) && leAt u (if nbit h 2 then 2 else 1) 1 / 32 == 0

/-- A packet shows that its access unit is a random-access one; AV1 marks the first packet of a coded video sequence by N. -/
def packetStarts (fmt : Nat) (b : List Byte) : Bool :=
  (fmt == 2 && nbit (leAt b 0 1) 3) || ((piecesOf fmt b).getD []).any fun x => x.1 && startsSequence fmt x.2.2

/-! ### Access units (R212) -/

/-- A loss at the present place of the access unit: an open unit is discarded whole, and one loss mark takes its place. -/
def loseHere (d : Depack) : Depack :=
  { d with lossMarks := d.lossMarks ++ [d.bytes.length], fragment := [], inFragment := false, skip := true, lossBefore := false }

/-- A whole unit is written for the decoder: after a start code, or as an OBU with its size. -/
def writeUnit (fmt : Nat) (u : List Byte) (d : Depack) : Depack :=
  { d with bytes := d.bytes ++ (if fmt = 2 then obuOut u else [0, 0, 0, 1] ++ u), hasPicture := d.hasPicture || codedPicture fmt u,
           fragment := [], inFragment := false, skip := false }

/-- Join one piece. -/
def joinPiece (fmt : Nat) (d : Depack) (x : Piece) : Depack :=
  let d := if x.1 && d.inFragment then loseHere d else d
  if !x.1 && !d.inFragment then (if d.skip then d else loseHere d)
  else
    let u := if x.1 then x.2.2 else d.fragment ++ x.2.2
    if x.2.1 then writeUnit fmt u d else { d with fragment := u, inFragment := true, skip := false }

/-- Change a stream's depacketiser. -/
def modDep (id : Nat) (f : Depack → Depack) (s : State) : State := modStrm id (fun st => { st with dep := f st.dep }) s
/-- Change a stream's ingest counts. -/
def modCnt (id : Nat) (f : IngestCount → IngestCount) (s : State) : State := modStrm id (fun st => { st with cnt := f st.cnt }) s

/-- Admit an access unit as a frame: it is cut at the limit of R185 and written into the buffer drawn for it, without which it gets NO_BUFFER
(R190, R212); a stream whose backlog is full refuses it (R350). -/
def admitAu (id : Nat) (f : Frame) (bytes : List Byte) (s : State) : State :=
  let st := strm s id
  if !admits s st then s
  else if st.blocked then refuseBacklog id s
  else
    let s := applyConf id s
    let st := strm s id
    let kept := bytes.take (auLimit st.env)
    let f := { f with auLen := bytes.length, truncated := decide (kept.length < bytes.length) }
    match drawFor 0 (.stream id) st.owner s with
    | (some p, s) => admitFrame id { f with auPtr := some p, auSize := kept.length } (dramWrite st.part p kept s)
    | (none, s) =>
      let s := countRate id none f.pts f.auLen (admitFrame id f s)
      match (strm s id).frames.getLast? with
      | some g => noPicture id g.order 4 s
      | none => s

/-- An access unit without picture data or loss mark is not admitted; its parameter sets are kept and its bytes count in its second (R185,
R190). -/
def keepUnit (id pts : Nat) (bytes : List Byte) (s : State) : State := keepSets id bytes (countRate id none pts bytes.length s)

/-- The access unit in progress ends: an unfinished unit or a loss before its marker is marked in it, and it is admitted when it holds
coded picture data or a loss mark (R190, R212). -/
def closeAu (id cycle : Nat) (s : State) : State :=
  let d := (strm s id).dep
  if !d.opened then s else
  let d := if d.lossBefore || d.inFragment then loseHere d else d
  let s := modDep id (fun _ => { d with opened := false, bytes := [], lossMarks := [], hasPicture := false, skip := false }) s
  let pts := (d.base.map (·.2)).getD 0
  if d.hasPicture || !d.lossMarks.isEmpty then
    admitAu id { pts := pts, order := 0, admitted := cycle, lossMarks := d.lossMarks, hasPicture := d.hasPicture } d.bytes s
  else keepUnit id pts d.bytes s

/-- A packet is delivered in sequence (R212, R213); a refused one is counted and treated as lost. -/
def deliver (id cycle fmt : Nat) (p : Rtp) (s : State) : State :=
  match piecesOf fmt p.payload with
  | none => modCnt id (fun c => { c with unsupp := c.unsupp + 1 }) (modDep id (fun d => { d with lossBefore := true }) s)
  | some ps =>
    let s := modCnt id (fun c => { c with delivered := c.delivered + 1 }) s
    let s := if (strm s id).dep.base.any fun b => b.1 == p.ts then s else closeAu id cycle s
    let s := modDep id (fun d =>
      let d := if d.opened then d else
        { d with opened := true, base := some (p.ts, ptsOf d p.ts), clock := some (p.ts, ptsOf d p.ts), relocked := false,
                 bytes := if fmt = 2 then [0x12, 0] else [] }
      ps.foldl (joinPiece fmt) (if d.lossBefore then loseHere d else d)) s
    if p.marker then closeAu id cycle s else s

/-! ### The reorder window (R209 to R211, Table 8.4) -/

/-- Deliver or declare lost every number below the target, in order. -/
def passTo (id cycle fmt target : Nat) : Nat → State → State
  | 0, s => s
  | n + 1, s =>
    let d := (strm s id).dep
    if d.next = target then s else
    let up := fun (d : Depack) => { d with next := (d.next + 1) % 65536, held := d.held.filter fun h => h.seq != d.next }
    match d.held.find? fun h => h.seq == d.next with
    | some h => passTo id cycle fmt target n (deliver id cycle fmt h (modDep id up s))
    | none =>
      passTo id cycle fmt target n
        (modCnt id (fun c => { c with lost := c.lost + 1 }) (modDep id (fun d => { up d with lossBefore := true }) s))

/-- Deliver the held packets that continue the sequence. -/
def drainHeld (id cycle fmt : Nat) : Nat → State → State
  | 0, s => s
  | n + 1, s =>
    let d := (strm s id).dep
    match d.held.find? fun h => h.seq == d.next with
    | some h =>
      drainHeld id cycle fmt n (deliver id cycle fmt h
        (modDep id (fun d => { d with next := (d.next + 1) % 65536, held := d.held.filter fun g => g.seq != h.seq }) s))
    | none => s

/-- Distance of a sequence number from N. -/
def seqAhead (d : Depack) (seq : Nat) : Nat := (seq + 65536 - d.next) % 65536

/-- Deliver every held packet, the numbers missing between them declared lost. -/
def flushHeld (id cycle fmt : Nat) (s : State) : State :=
  let d := (strm s id).dep
  match (d.held.map fun h => seqAhead d h.seq).max? with
  | some k => passTo id cycle fmt ((d.next + k + 1) % 65536) (k + 1) s
  | none => s

/-- Deliver a packet as number N. -/
def deliverNext (id cycle fmt : Nat) (p : Rtp) (s : State) : State :=
  deliver id cycle fmt p (modDep id (fun d => { d with next := (p.seq + 1) % 65536 }) s)

/-- Place a packet by Table 8.4. -/
def placePacket (id cycle fmt : Nat) (p : Rtp) (s : State) : State :=
  let d := (strm s id).dep
  let k := seqAhead d p.seq
  if k = 0 then drainHeld id cycle fmt 64 (deliverNext id cycle fmt p s)
  else if k ≤ 63 then
    if d.held.any fun h => h.seq == p.seq then modCnt id (fun c => { c with dup := c.dup + 1 }) s
    else modDep id (fun d => { d with held := d.held ++ [p] }) s
  else if k ≤ 3000 then
    let s := passTo id cycle fmt ((p.seq + 65536 - 63) % 65536) 3000 s
    drainHeld id cycle fmt 64 (modDep id (fun d => { d with held := d.held ++ [p] }) s)
  else if 65436 ≤ k then modCnt id (fun c => { c with late := c.late + 1 }) s
  else modDep id (fun d => { d with probe := some p }) s

/-- A packet of the locked SSRC: after a probe it resynchronises the stream or discards the probe (Table 8.4). -/
def lockedPacket (id cycle fmt : Nat) (p : Rtp) (s : State) : State :=
  match (strm s id).dep.probe with
  | none => placePacket id cycle fmt p s
  | some q =>
    let s := modDep id (fun d => { d with probe := none }) s
    if p.seq = (q.seq + 1) % 65536 then
      let s := modDep id (fun d => { d with lossBefore := true }) (flushHeld id cycle fmt s)
      deliverNext id cycle fmt p (deliverNext id cycle fmt q s)
    else placePacket id cycle fmt p (modCnt id (fun c => { c with badseq := c.badseq + 1 }) s)

/-- Two packets of another SSRC in sequence re-lock the stream (R209). -/
def relock (id cycle fmt : Nat) (q p : Rtp) (s : State) : State :=
  let s := closeAu id cycle (flushHeld id cycle fmt s)
  let lost := (strm s id).dep.probe.isSome
  let s := modCnt id (fun c => { c with ssrcchg := c.ssrcchg + 1, badseq := c.badseq + b2n lost }) s
  let s := modDep id (fun d => { d with ssrc := some p.ssrc, rival := none, probe := none, relocked := d.base.isSome, lossBefore := false }) s
  deliverNext id cycle fmt p (deliverNext id cycle fmt q s)

/-- The depacketiser takes a datagram (R209). -/
def takeDatagram (id cycle : Nat) (key b : List Byte) (s : State) : State :=
  let fmt := bits (leAt key 38 1) 2 1
  let d := (strm s id).dep
  match rtpOf (leAt key 39 1 % 128) b with
  | none => modCnt id (fun c => { c with badrtp := c.badrtp + 1 }) s
  | some p =>
    match d.ssrc with
    | none => placePacket id cycle fmt p (modDep id (fun d => { d with ssrc := some p.ssrc, next := p.seq }) s)
    | some x =>
      if p.ssrc = x then lockedPacket id cycle fmt p (modDep id (fun d => { d with rival := none }) s)
      else match d.rival with
        | some q =>
          if q.ssrc = p.ssrc ∧ p.seq = (q.seq + 1) % 65536 then relock id cycle fmt q p s
          else modDep id (fun d => { d with rival := some p }) s
        | none => modDep id (fun d => { d with rival := some p }) s

/-- The flow key of a stream. -/
def keyOfStream (s : State) (id : Nat) : Option (List Byte) := ((strm s id).flow.bind fun n => tfind s.flows n).map (·.1)

/-- RTP_PACKET: the oldest datagram that waits at a stream's depacketiser is checked and placed (R209 to R214). -/
def execRtpPacket (stream cycle : Nat) (s : State) : Out :=
  .next (
    let st := strm s stream
    match upAt s 98, st.dep.fifo, keyOfStream s stream with
    | true, b :: r, some key =>
      let s := modDep stream (fun d => { d with fifo := r }) s
      if pausedPart s st.part then modCnt stream (fun c => { c with shed := c.shed + 1 }) s
      else if st.state ≠ .running then modCnt stream (fun c => { c with notrun := c.notrun + 1 }) s
      else takeDatagram stream cycle key b s
    | _, _, _ => s)

/-- RTP_HOLD_EXPIRY: the packet held longest has waited HOLD: every missing number below it is lost, and the packets that follow are
delivered (R210, R211). -/
def execRtpHoldExpiry (stream cycle : Nat) (s : State) : Out :=
  .next (
    let st := strm s stream
    match upAt s 98 && st.state == .running, st.dep.held, keyOfStream s stream with
    | true, h :: _, some key =>
      let fmt := bits (leAt key 38 1) 2 1
      drainHeld stream cycle fmt 64 (passTo stream cycle fmt h.seq 64 s)
    | _, _, _ => s)

/-! ### Receiving (R206, R207, Table 8.2) -/

/-- Queue datagrams for the depacketiser. -/
def toDepack (id : Nat) (l : List (List Byte)) (s : State) : State := modDep id (fun d => { d with fifo := d.fifo ++ l }) s

/-- The packets of the access unit being watched go to the host; `n` of the entries serve them. -/
def peekToHost (id : Nat) (entries : List HostRead) (s : State) : State :=
  let l := (strm s id).peek
  framesToHost (some id) (l.map fun x => (x.1, x.2.1)) entries (modStrm id (fun st => { st with peek := [] }) s)

/-- A packet at or above T on the way to the device path: the packets of its access unit wait until one shows a random-access picture, which
makes its time T*, or the unit ends and they go to the host (R224, log entry 35). -/
def watchPacket (n id fmt pts : Nat) (p : Rtp) (frame payload : List Byte) (entries : List HostRead) (s : State) : State :=
  let l := (strm s id).peek
  let ended := decide (pts ≠ arrivalPts (strm s id).dep p.ts)
  let s := if ended then peekToHost id entries s else s
  let entries := if ended then entries.drop l.length else entries
  let s := modStrm id (fun st => { st with peek := st.peek ++ [(n, frame, payload)],
                                           dep := { st.dep with clock := some (p.ts, arrivalPts st.dep p.ts) } }) s
  if packetStarts fmt p.payload then
    let s := noteSwitch id (arrivalPts (strm s id).dep p.ts) true s
    modStrm id (fun st => { st with peek := [] }) (toDepack id ((strm s id).peek.map (·.2.2)) s)
  else if p.marker then peekToHost id entries s
  else s

/-- A matched datagram goes where Table 8.2 sends it; a paused partition's is shed (R206). -/
def takeMatch (n id : Nat) (key frame payload : List Byte) (entries : List HostRead) (s : State) : State :=
  let st := strm s id
  let s := countEv 98 0x80 1 s
  let fmt := bits (leAt key 38 1) 2 1
  if pausedPart s st.part then modCnt id (fun c => { c with shed := c.shed + 1 }) s
  else if st.state ≠ .running then modCnt id (fun c => { c with notrun := c.notrun + 1 }) s
  else match rtpOf (leAt key 39 1 % 128) payload with
    | none => if st.hostPath then framesToHost (some id) [(n, frame)] entries s else toDepack id [payload] s
    | some p =>
      let pts := arrivalPts st.dep p.ts
      let was := (st.dep.clock.map (·.2)).getD pts
      if st.switching && !st.hostPath && st.tstar.isNone && decide (st.bound ≤ pts) then watchPacket n id fmt was p frame payload entries s
      else
        let s := modDep id (fun d => { d with clock := some (p.ts, pts) }) s
        if onHost st pts false then framesToHost (some id) [(n, frame)] entries s else toDepack id [payload] s

/-- ETH_FRAME_RECEIVE: a frame, FCS included, arrives at a port and is checked, matched and delivered or discarded (R205 to R207). -/
def execEthFrameReceive (port : Nat) (frame : List Byte) (entries : List HostRead) (s : State) : Out :=
  .next (
    let p := portAt s port
    if !upAt s 98 || decide (2 ≤ port) || !nbit p.pstat 0 then s else
    let s := modEth port (fun p => { p with rxfrm := satInc p.rxfrm }) s
    let x := frame.take (frame.length - 4)
    announceRx port (match seeFrame p.mac.toNat (portMarred s port) frame with
    | .bad => modEth port (fun p => { p with badfrm := satInc p.badfrm }) s
    | .host => framesToHost none [(port, x)] entries s
    | .udp m b =>
      match (flowOf s m).bind fun f => (tfind s.flows f.1).map fun k => (f.2, k.1) with
      | some (id, key) => takeMatch port id key x b entries s
      | none => framesToHost none [(port, x)] entries s))

end Sys2Proof.Machine
end

