-- ==== Sys2Proof/Machine/StreamSlips.lean ====
section
/-! DEFINITION. Machine/StreamSlips.lean: the slips that open, drive, change, feed and close a stream, and ZONE_SET (R208, R218, R219, R224,
R248, R299 to R304). -/

namespace Sys2Proof.Machine

/-! ### Blocks (Tables 8.3 and 11.10) -/

/-- The flow key of a stream block. -/
def keyOfBlock (b : List Byte) : List Byte := slice b 32 48

/-- A flow key without a reserved value (Table 8.3, R208). -/
def goodKey (k : List Byte) : Bool :=
  let v6 := nbit (leAt k 38 1) 0
  (v6 || (zeroRange k 4 12 && zeroRange k 20 12)) && decide (leAt k 36 2 < 8192)
    && decide (leAt k 38 1 < 6) && decide (leAt k 39 1 < 128) && leAt k 40 1 != 0 && zeroRange k 41 7

/-- A stream block of a STREAM_OPEN or STREAM_RECONF slip follows Table 11.10 and R220; the envelope's ranges are judged apart (R182). -/
def goodBlock (reconf : Bool) (len : Nat) (b : List Byte) : Bool :=
  let n := leAt b 6 1
  decide (leAt b 0 2 < 1024) && decide (leAt b 4 1 < 8) && decide (leAt b 5 1 < 4) && decide (1 ≤ n) && decide (n ≤ 64)
    && len == 128 + 32 * n && leAt b 7 1 == 0 && (if reconf then decide (leAt b 8 2 < 64) else leAt b 8 2 == 0) && zeroRange b 10 6
    && leAt b 23 1 == 0 && zeroRange b 28 4 && zeroRange b 88 40 && (outsOf b).all goodEntry
    && (if nbit (leAt b 5 1) 0 then zeroRange b 32 48 else goodKey (keyOfBlock b))

/-- A context's reuse tables name only output entries below n (R225). -/
def reuseFits (s : State) (ctx n : Nat) : Bool :=
  match ctxAt s ctx with
  | some c => c.reuses.all fun r => r.tiles.all fun t => decide (t.entry < n)
  | none => true

/-- What a slip that names a stream names. -/
def namesStream (s : State) (id : Nat) (ctx : Option Nat) : Named :=
  if 1024 ≤ id then {} else
  let st := strm s id
  { stream := some id, keys := id :: (ctx.map ctxKey).toList, ctx := ctx,
    part := if st.state = .closed then (ctx.bind (ctxAt s)).map (·.part) else some st.part }

/-- A rule on an open stream of the sender; any other stream gives BAD_TARGET (R299). -/
def onOwn (owner id : Nat) (rule : Stream → SlipRule) : SlipRule := fun n s =>
  let st := strm s id
  if st.state = .closed ∨ st.owner ≠ owner then (some (0x11, 0), s) else rule st n s

/-! ### STREAM_OPEN (R300, R348) -/

/-- The folio ring of a stream: the function's lowest-numbered enabled one whose range holds the id (R348). -/
def folioRingOf (s : State) (fn id : Nat) : Option Nat :=
  (s.host.rings.find? fun r => r.2.owner == fn && r.2.enable && r.2.kind == 2 && decide (r.2.folioFirst ≤ id) && decide (id ≤ r.2.folioLast)).map
    (·.1)

/-- The archive bytes that a context's reuse programs ask for together. -/
def archiveBytes (s : State) (ctx : Nat) : Nat :=
  match ctxAt s ctx with
  | some c => archiveAt c c.progs.length
  | none => 0

/-- Reserve a stream's buffers: access units, frames and folios, without which it is not opened, and the archive, without which it is
(R187, R228, R300, Table 12.4). -/
def reserveStream (id : Nat) (e : Envelope) (ctx p fn : Nat) (s : State) : Option State :=
  let o := Owner.stream id
  let got := ((reserve p 0 (ceilDiv (125 * e.maxRate) 4) o 2 8 s).bind
    (reserve p 1 (frameBytes e) o (e.maxRefs + 2) (e.maxRefs + 18))).bind (reserve p 2 folioBytes o 4 32)
  let n := archiveBytes s ctx
  got.map fun s =>
    if n = 0 then s else
    match reserve p 4 n o 1 1 s with
    | none => s
    | some s =>
      let (ptr, s) := drawFor 4 o fn s
      modStrm id (fun st => { st with archive := { ptr := ptr } }) s

/-- The stream that a block opens; folios of an earlier session that still await delivery stay. -/
def streamOf (st : Stream) (fn part ring : Nat) (flow : Option Nat) (b : List Byte) : Stream :=
  { ({} : Stream) with
      state := .opened, owner := fn, ctx := leAt b 2 2, part := part, prio := leAt b 4 1 % 8, firkin := nbit (leAt b 5 1) 0,
      hostPath := nbit (leAt b 5 1) 1, bound := leAt b 80 8, env := envOfBlock b, env0 := envOfBlock b, outs := outsOf b, flow := flow,
      hold100us := leAt b 72 1, ring := ring, frames := st.frames.filter (·.sealed), blocked := st.blocked }

/-- STREAM_OPEN by R300 and R301. -/
def openStream (fn : Nat) (b : List Byte) : SlipRule := fun _ s =>
  let id := leAt b 0 2
  let ctx := leAt b 2 2
  let st := strm s id
  let e := envOfBlock b
  let firkin := nbit (leAt b 5 1) 0
  let key := keyOfBlock b
  if !reuseFits s ctx (leAt b 6 1) then (some (0x10, 0), s)
  else match ctxAt s ctx with
    | none => (some (0x11, 0), s)
    | some c =>
      if c.owner ≠ fn ∨ (st.state ≠ .closed ∧ st.owner ≠ fn) then (some (0x11, 0), s)
      else if !firkin && s.flows.any (fun f => matchPart f.2.1 == matchPart key && f.2.2 != id) then (some (0x11, 0), s)
      else if st.state ≠ .closed then (some (0x12, 0), s)
      else if !goodEnv e then (some (0x14, 0), s)
      else
        let flow := if firkin then none else (List.range 1024).find? fun n => (tfind s.flows n).isNone
        match folioRingOf s fn id, firkin || flow.isSome with
        | some ring, true =>
          let t := modStrm id (fun st => streamOf st fn c.part ring flow b) s
          let t := match flow with | some n => { t with flows := tset t.flows n (key, id) } | none => t
          match reserveStream id e ctx c.part fn t with
          | some t => (some (0, BitVec.ofNat 256 (flow.getD 0xFFFF)), t)
          | none => (some (0x13, 0), s)
        | _, _ => (some (0x13, 0), s)

/-- A stream block whose shape the slip and Table 11.10 allow. -/
def blockThen (reconf : Bool) (x : SlipIn) (rule : List Byte → SlipRule) : SlipRule :=
  fieldsThen (goodFields { align := 64 } x) (withBlock x.block fun bs =>
    let b := slice bs 0 x.len.toNat
    fieldsThen (goodBlock reconf x.len.toNat b) (rule b))

/-- What a slip with a stream block names; the context is part of it where `ctx` says so. -/
def namesBlock (s : State) (x : SlipIn) (ctx : List Byte → Bool) : Named :=
  match x.block with
  | .data b => namesStream s (leAt b 0 2) (if ctx b then some (leAt b 2 2) else none)
  | _ => {}

/-- STREAM_OPEN. -/
def execStreamOpen (x : SlipIn) (s : State) : Out :=
  .next (takeSlip x.ring 0x03 x.tag (namesBlock s x fun _ => true) (blockThen false x (openStream (sender s x))) s)

/-! ### START, PAUSE, DRAIN, CLOSE (R302, R303) -/

/-- A simple stream slip: its fields and its target. -/
def simpleThen (x : SlipIn) (rule : SlipRule) : SlipRule := fieldsThen (goodFields { target := true } x) rule

/-- STREAM_START moves a stream to RUNNING and gives it its home cluster (R228, R290, R302). -/
def startStream (owner id : Nat) : SlipRule := onOwn owner id fun st _ s =>
  match ctxAt s st.ctx with
  | none => (some (0x11, 0), s)
  | some c =>
    if c.owner ≠ owner ∨ c.part ≠ st.part then (some (0x11, 0), s) else
    let go := fun (f : Stream → Stream) (s : State) =>
      let s := modStrm id (fun st => { f st with state := .running, afterGap := true, home := none, admittedCount := 0, adapt := 0 }) s
      let s := modStrm id (fun st => { st with home := chooseHome s st.ctx st.part }) s
      watchRunning id true (dropTiles id s)
    match st.state with
    | .opened => (some (0, 0), go (fun st => { st with nextNum := 0, sealedNum := none, dep := {}, peek := [] }) s)
    | .paused => (some (0, 0), go (fun st => st) s)
    | .running => (some (1, 0), s)
    | _ => (some (0x12, 0), s)

/-- STREAM_START. -/
def execStreamStart (x : SlipIn) (s : State) : Out :=
  .next (let id := x.target.toNat
    takeSlip x.ring 0x04 x.tag (namesStream s id none) (simpleThen x (startStream (sender s x) id)) s)

/-- Admission stops: the stream leaves RUNNING and the decoder releases what it holds (R190, R303). -/
def stopAdmission (id : Nat) (into : SState) (s : State) : State :=
  let s := if (strm s id).state = .running then watchRunning id false s else s
  settleOutput id (modStrm id (fun st => { st with state := into }) s)

/-- STREAM_PAUSE by Table 11.11. -/
def pauseStream (owner id : Nat) : SlipRule := onOwn owner id fun st _ s =>
  match st.state with
  | .running => (some (0, 0), stopAdmission id .paused s)
  | .paused => (some (1, 0), s)
  | _ => (some (0x12, 0), s)

/-- STREAM_PAUSE. -/
def execStreamPause (x : SlipIn) (s : State) : Out :=
  .next (let id := x.target.toNat
    takeSlip x.ring 0x05 x.tag (namesStream s id none) (simpleThen x (pauseStream (sender s x) id)) s)

/-- STREAM_DRAIN by Table 11.11. -/
def drainStream (owner id : Nat) : SlipRule := onOwn owner id fun st _ s =>
  match st.state with
  | .running => (some (0, 0), stopAdmission id .draining s)
  | .paused => (some (0, 0), stopAdmission id .draining s)
  | .draining => (some (1, 0), s)
  | _ => (some (0x12, 0), s)

/-- STREAM_DRAIN; a stream with nothing left to seal goes on to OPEN (R302). -/
def execStreamDrain (x : SlipIn) (s : State) : Out :=
  .next (let id := x.target.toNat
    settleDrain id (takeSlip x.ring 0x06 x.tag (namesStream s id none) (simpleThen x (drainStream (sender s x) id)) s))

/-- The media cores, pre-processing units and batch queues let go of a stream's frames. -/
def stopUnits (id : Nat) (s : State) : State :=
  { s with
    media := tmap s.media fun _ m => if m.state = 1 ∧ m.stream = id then { m with state := 0, stream := 0x7FF, buf := none } else m
    ppus := tmap s.ppus fun _ u => match u.work with
      | some w => if w.1 = id then { u with work := none } else u
      | none => u
    clusters := tmap s.clusters fun _ k =>
      { k with batches := k.batches.map fun b => { b with slots := b.slots.filter fun x => x.stream != id } } }

/-- A stream's jobs end by R294: running ones are aborted, the others dropped. -/
def endStreamJobs (id : Nat) (s : State) : State :=
  let mine := s.jobs.filter fun j => (jobFrames j).all fun p => p.1 == id
  let s := (mine.filter fun j => j.state == .running).foldl (fun s j => abortJob j.id s) s
  dropStreamJobs id s

/-- A stream closes: admission stops, its jobs, clips and units end, and every admitted frame without a folio gets its gap (R303). -/
def shutStream (id : Nat) (s : State) : State :=
  let s := if (strm s id).state = .running then watchRunning id false s else s
  let s := gapAll id none gapAborted (endStreamJobs id s)
  let s := stopUnits id (abortClips id s)
  modStrm id (fun st => { st with state := .closed, nextConf := [], peek := [] }) s

/-- STREAM_CLOSE by Table 11.11; its receipt waits for the stream's last seal. -/
def closeStream (owner ring id : Nat) : SlipRule := fun n s =>
  let st := strm s id
  if st.state = .closed then (some (1, 0), s)
  else if st.owner ≠ owner then (some (0x11, 0), s)
  else (none, modStrm id (fun st => { st with closing := some (ring, n) }) (shutStream id s))

/-- STREAM_CLOSE. -/
def execStreamClose (x : SlipIn) (s : State) : Out :=
  .next (let id := x.target.toNat
    settleClose id (takeSlip x.ring 0x07 x.tag (namesStream s id none) (simpleThen x (closeStream (sender s x) x.ring id)) s))

/-! ### STREAM_RECONF (R300, R224) -/

/-- A block with the parts of an earlier one that it does not change (R300: both wait for the next admitted frame). -/
def mergeConf (old new : List Byte) : List Byte :=
  let n := leAt new 8 2
  let pick := fun (i : Nat) => if nbit n i then new else old
  slice new 0 2 ++ slice (pick 5) 2 2 ++ slice (pick 4) 4 1 ++ slice new 5 1 ++ slice (pick 1) 6 1 ++ [0]
    ++ leBytes 2 (n ||| leAt old 8 2) ++ List.replicate 6 0 ++ slice (pick 0) 16 16 ++ slice new 32 96 ++ (pick 1).drop 128

/-- The path and its boundary T change (R224). -/
def switchPath (host : Bool) (t : Nat) (st : Stream) : Stream :=
  if host then { st with hostPath := true, bound := t, switching := false, tstar := none, lastSeen := false }
  else if st.hostPath then { st with hostPath := false, bound := t, switching := true, tstar := none, lastSeen := false }
  else if st.switching && st.tstar.isNone then { st with bound := t } else st

/-- A reconfiguration may not change the codec or raise a dimension above STREAM_OPEN's (R300). -/
def keepsEnvelope (e0 e : Envelope) : Bool :=
  goodEnv e && e.codec == e0.codec && decide (e.depth ≤ e0.depth) && decide (e.maxW ≤ e0.maxW) && decide (e.maxH ≤ e0.maxH)
    && decide (e.maxRefs ≤ e0.maxRefs)

/-- The output entries a stream has once its waiting reconfiguration applies. -/
def soonOuts (st : Stream) : List OutEntry := if nbit (leAt st.nextConf 8 2) 1 then outsOf st.nextConf else st.outs
/-- The envelope a stream has once its waiting reconfiguration applies. -/
def soonEnv (st : Stream) : Envelope := if nbit (leAt st.nextConf 8 2) 0 then envOfBlock st.nextConf else st.env
/-- The context a stream has once its waiting reconfiguration applies. -/
def soonCtx (st : Stream) : Nat := if nbit (leAt st.nextConf 8 2) 5 then leAt st.nextConf 2 2 else st.ctx

/-- The HOLD of a flow entry changes (R208). -/
def setHold (id h : Nat) (s : State) : State :=
  match (strm s id).flow with
  | some n =>
    { modStrm id (fun st => { st with hold100us := h }) s with
        flows := tmap s.flows fun i f => if i = n then (slice f.1 0 40 ++ leBytes 1 h ++ slice f.1 41 7, f.2) else f }
  | none => s

/-- STREAM_RECONF by R300 and R301. -/
def reconfStream (owner : Nat) (b : List Byte) : SlipRule := fun n s =>
  let id := leAt b 0 2
  let ch := leAt b 8 2
  let st := strm s id
  let ctx := if nbit ch 5 then leAt b 2 2 else soonCtx st
  let nout := if nbit ch 1 then leAt b 6 1 else (soonOuts st).length
  if st.state ≠ .closed && (nbit ch 1 || nbit ch 5) && !reuseFits s ctx nout then (some (0x10, 0), s)
  else onOwn owner id (fun st _ s =>
    if nbit ch 5 && !((ctxAt s ctx).any fun c => c.owner == owner && c.part == st.part) then (some (0x11, 0), s)
    else if st.state = .draining ∨ st.state = .faulted ∨ (st.state = .running ∧ nbit ch 5) then (some (0x12, 0), s)
    else if ch = 0 then (some (1, 0), s)
    else if !keepsEnvelope st.env0 (envOfBlock b) then (some (0x14, 0), s)
    else
      let s := modStrm id (fun st =>
        let st := if nbit ch 2 then switchPath (nbit (leAt b 5 1) 1) (leAt b 80 8) st else st
        { st with nextConf := if ch &&& 0x37 = 0 then st.nextConf else if st.nextConf.isEmpty then b else mergeConf st.nextConf b }) s
      let s := if nbit ch 3 then setHold id (leAt b 72 1) s else s
      (some (0, 0), s)) n s

/-- STREAM_RECONF. -/
def execStreamReconf (x : SlipIn) (s : State) : Out :=
  .next (takeSlip x.ring 0x08 x.tag (namesBlock s x fun b => nbit (leAt b 8 2) 5) (blockThen true x (reconfStream (sender s x))) s)

/-! ### FEED (R218, R219, Tables 8.10 to 8.13) -/

/-- Bytes of a planar tensor's codes, each row in whole blocks (Table 6.3). -/
def planarCodes (fmt w h c : Nat) : Nat := ceilDiv w 64 * (if fmt = 0 then 32 else 64) * h * c

/-- The first row of Table 8.13: header, CRC, lengths and reserved fields. -/
def goodRecord (len : Nat) (r : List Byte) : Bool :=
  let n := leAt r 8 4
  let t := leAt r 6 2
  let p := (r.drop 16).take n
  leAt r 0 4 == 0x4B524946 && leAt r 4 2 == 1 && decide (1 ≤ t) && decide (t ≤ 4) && decide (16 ≤ n) && decide (n ≤ 134217728)
    && len == 16 + n && p.length == n && leAt r 12 4 == crc32c (r.take 12 ++ p)
    && decide (leAt p 0 2 < 1024) && decide (leAt p 2 2 < 4) && zeroRange p 4 4
    && (if t = 3 then
          decide (leAt p 16 2 ≤ 1) && zeroRange p 22 2 && leAt p 24 4 % 64 == 0 && zeroRange p 28 4
            && decide ((1 + leAt p 16 2) * leAt p 18 2 ≤ leAt p 24 4) && decide (32 + (leAt p 20 2 + leAt p 20 2 / 2) * leAt p 24 4 ≤ n)
        else if t = 4 then
          decide (leAt p 16 2 < 64) && decide (1 ≤ leAt p 18 2) && decide (leAt p 18 2 ≤ 64) && zeroRange p 26 6
            && (leAt p 20 1 == 0 || leAt p 20 1 == 6)
        else true)

/-- A ready tensor agrees with its output entry (R220). -/
def tensorFits (l : List OutEntry) (p : List Byte) : Bool :=
  match l[leAt p 16 2]? with
  | some o => leAt p 18 2 == l.length && leAt p 20 1 == o.fmt && leAt p 21 1 == chansOf o && leAt p 22 2 == o.ow && leAt p 24 2 == o.oh
      && (let k := planarCodes o.fmt o.ow o.oh (chansOf o)
          decide (32 + ceilDiv k 64 * 64 + 4 * (ceilDiv o.ow 64 * o.oh * chansOf o) ≤ p.length))
  | none => false

/-- The admitted frame of a PTS that still waits for tensors. -/
def tensorFrame (st : Stream) (pts : Nat) : Option Frame :=
  st.frames.find? fun f => f.pts == pts && decide (0 < f.count) && f.stage == .tensors && f.result.isNone && decide (f.tensors.length < f.count)

/-- A tensor joins its frame; a frame complete and numbered begins its jobs (R219). -/
def joinTensor (id order : Nat) (p : List Byte) (s : State) : State :=
  let i := leAt p 16 2
  let s := modFrame id order (fun f => { f with tensors := i :: f.tensors, inputs := tset f.inputs i (p.drop 32) }) s
  match frameOf s id order with
  | some f => if tensorsIn f && f.num.isSome then beginJobs id order s else settleOutput id s
  | none => s

/-- Admit the first tensor's frame (R218). -/
def admitTensor (id cycle : Nat) (p : List Byte) (s : State) : State :=
  let e := soonEnv (strm s id)
  let s := admitFrame id { pts := leAt p 8 8, order := 0, admitted := cycle, bypass := true, stage := .tensors, winW := e.maxW, winH := e.maxH,
                           count := leAt p 18 2 } s
  match (strm s id).frames.getLast? with
  | some f => joinTensor id f.order p s
  | none => s

/-- The planes of a raw frame go into its buffer at the pitch of Table 7.4. -/
def copyPlanes (part ptr : Nat) (e : Envelope) (p : List Byte) (s : State) : State :=
  let k := 1 + leAt p 16 2
  let w := leAt p 18 2
  let h := leAt p 20 2
  let pitch := leAt p 24 4
  let dst := planePitch e
  let chroma := chromaAt e
  let s := (List.range h).foldl (fun s y => dramWrite part (ptr + y * dst) (slice p (32 + y * pitch) (k * w)) s) s
  (List.range (h / 2)).foldl (fun s y => dramWrite part (ptr + chroma + y * dst) (slice p (32 + (h + y) * pitch) (k * w)) s) s

/-- Admit a raw frame: it takes a frame buffer like a decoded picture, or its gap is NO_BUFFER (R218). -/
def admitRaw (id cycle : Nat) (p : List Byte) (s : State) : State :=
  let w := leAt p 18 2
  let h := leAt p 20 2
  let n := ceilDiv w 64 * ceilDiv h 64
  let s := admitFrame id { pts := leAt p 8 8, order := 0, admitted := cycle, bypass := true, stage := .reorder, winW := w, winH := h,
                           cols := ceilDiv w 64, change := List.replicate n 3, taint := List.replicate n false } s
  match (strm s id).frames.getLast? with
  | none => s
  | some f =>
    let st := strm s id
    match drawFrame id st.bufs.length s with
    | (none, s) => settleOutput id (putResult id f.order (.gap 4) s)
    | (some ptr, s) =>
      let (serial, s) := takeOrder s
      let b : FrameBuf := { ptr := ptr, pts := f.pts, reference := false, refreshed := serial, waitingOutput := 1, reading := 0,
                            taint := List.replicate n false, change := List.replicate n 3, width := w, height := h,
                            ten := leAt p 16 2 == 1, unknown := true }
      let s := modStrm id (fun st => { st with bufs := st.bufs ++ [b] }) (copyPlanes st.part ptr st.env0 p s)
      settleOutput id (modFrame id f.order (fun f => { f with buf := some ptr }) s)

/-- The checks of Table 8.13 below the first row: the status that refuses a record; none where it is accepted. -/
def feedRefusal (owner : Nat) (r : List Byte) (ra : Bool) (s : State) : Option Nat :=
  let t := leAt r 6 2
  let p := r.drop 16
  let id := leAt p 0 2
  let pts := leAt p 8 8
  let st := strm s id
  let host := onHost st pts (ra && decide (t < 3))
  let e := soonEnv st
  let further := if t = 4 then tensorFrame st pts else none
  if st.state = .closed ∨ st.owner ≠ owner then some 0x11
  else if st.state ≠ .running ∨ !st.firkin then some 0x12
  else if (decide (t ≤ 2) && host) || (t == 4 && (!host || st.lastSeen)) then some 0x12
  else if (t = 1 ∧ e.codec = 3) ∨ (t = 2 ∧ e.codec ≠ 3) then some 0x10
  else if t = 3 ∧ (leAt p 18 2 % 2 = 1 ∨ leAt p 20 2 % 2 = 1 ∨ e.maxW < leAt p 18 2 ∨ e.maxH < leAt p 20 2 ∨ leAt p 18 2 = 0 ∨ leAt p 20 2 = 0
      ∨ (leAt p 16 2 = 1 ∧ e.depth ≠ 10)) then some 0x14
  else if decide (3 ≤ t) && further.isNone && (st.highPts.any fun q => decide (pts ≤ q)) then some 0x10
  else if further.any fun f => f.tensors.contains (leAt p 16 2) then some 0x10
  else if t = 4 && !tensorFits (match further with | some f => f.outs | none => soonOuts st) p then some 0x10
  else none

/-- An accepted record takes effect (R190, R218, R219, R224); a paused partition admits nothing (R304). -/
def feedRecord (cycle : Nat) (r : List Byte) (pic ra : Bool) : SlipRule := fun _ s =>
  let t := leAt r 6 2
  let p := r.drop 16
  let id := leAt p 0 2
  let pts := leAt p 8 8
  let st := strm s id
  let further := if t = 4 then tensorFrame st pts else none
  if !admits s st then (some (0, 0), s)
  else if st.blocked && further.isNone && (decide (3 ≤ t) || pic || nbit (leAt p 2 2) 1) then (some (0x13, 0), refuseBacklog id s)
  else
    let s := charge st.ctx (fun a => { a with pcieBytes := hold64 (a.pcieBytes + (16 + leAt r 8 4)) }) s
    let disc := nbit (leAt p 2 2) 1
    let s := match t, further with
      | 4, some f => joinTensor id f.order p s
      | 4, none => admitTensor id cycle p s
      | 3, _ => admitRaw id cycle p s
      | _, _ =>
        if !pic && !disc then keepUnit id pts (p.drop 16) s else
        admitAu id { pts := pts, order := 0, admitted := cycle, discont := disc, lossMarks := if disc then [0] else [], hasPicture := pic }
          (p.drop 16) (noteSwitch id pts ra s)
    let s := if nbit (leAt p 2 2) 0 then settleOutput id (modStrm id (fun st => { st with lastSeen := true }) s) else s
    (some (0, 0), s)

/-- The read of a record's payload loses to its timeout: the access-unit buffer it was filling is quarantined (R326, R347). -/
def loseRecord (owner id status : Nat) : SlipRule := fun _ s =>
  let st := strm s id
  if st.state ≠ .running || st.owner ≠ owner then (some (status, 0), s) else
  match drawFor 0 (.stream id) owner s with
  | (some p, s) => (some (status, 0), quarantineBuf st.part p s)
  | (none, s) => (some (status, 0), s)

/-- FEED: `x.block` is the record, and `x.extra` tells a payload that was not read to its end. -/
def execFeed (x : SlipIn) (cycle : Nat) (pic ra : Bool) (s : State) : Out :=
  .next (
    let r := readBytes x.block
    let id := leAt r 16 2
    let owner := sender s x
    let named := match x.block with | .data _ => namesStream s id none | _ => {}
    takeSlip x.ring 0x09 x.tag named (fieldsThen (goodFields { align := 8 } x) (withBlock x.block fun r =>
      match x.extra with
      | .timeout => loseRecord owner id 0x21
      | .failed => failedRead
      | .data _ =>
        if !goodRecord x.len.toNat r then answer 0x10
        else fun n s => match feedRefusal owner r ra s with
          | some st => (some (st, 0), s)
          | none => feedRecord cycle r pic ra n s)) s)

/-! ### ZONE_SET (R248, R423) -/

/-- Zone record k of a block. -/
def zoneOf (b : List Byte) (k : Nat) : Zone :=
  let z := slice b (96 * k) 96
  { zone := leAt z 0 1, enabled := nbit (leAt z 1 1) 0, bound := nbit (leAt z 1 1) 1, anchor := bits (leAt z 1 1) 3 2, spigot := leAt z 2 1,
    classes := BitVec.ofNat 64 (leAt z 4 8), minconf := BitVec.ofNat 16 (leAt z 12 2), states := leAt z 14 1, warn := leAt z 16 2,
    cbase := leAt z 18 2, verts := (List.range (leAt z 3 1)).map fun i => (leAt z (20 + 4 * i) 2, leAt z (22 + 4 * i) 2) }

/-- A zone record has no reserved value (Table 9.7). -/
def goodZone (z : List Byte) : Bool :=
  let n := leAt z 3 1
  let f := leAt z 1 1
  decide (leAt z 0 1 < 64) && decide (f < 16) && bits f 3 2 != 3 && (nbit f 1 || leAt z 2 1 == 0) && decide (3 ≤ n) && decide (n ≤ 16)
    && leAt z 15 1 == 0 && decide (leAt z 16 2 ≤ 1024) && leAt z 18 2 % 64 == 0 && decide (leAt z 18 2 ≤ 960)
    && zeroRange z (20 + 4 * n) (64 - 4 * n) && zeroRange z 84 12

/-- A slip's records are well formed and name each zone once. -/
def goodZones (b : List Byte) (k : Nat) : Bool :=
  (List.range k).all (fun i => goodZone (slice b (96 * i) 96)) && distinct ((List.range k).map fun i => leAt b (96 * i) 1)

/-- A Spigot index that a record binds is bound to another stream or zone, or two records bind it (R248). -/
def takenIndex (s : State) (id : Nat) (l : List Zone) : Bool :=
  let mine := l.filter (·.bound)
  mine.any (fun z => s.saf.bound.any fun b => b.1 == z.spigot && b.2 != (id, z.zone)) || !distinct (mine.map (·.spigot))

/-- The new zone set is in force: bindings no longer named are released, new ones continue from their index's sequence (R423). -/
def setZones (id : Nat) (l : List Zone) (s : State) : State :=
  let keep := fun (i : Nat) (b : Nat × Nat) => l.any fun z => z.bound && z.spigot == i && (id, z.zone) == b
  let gone := s.saf.bound.filter fun b => b.2.1 == id && !keep b.1 b.2
  let zs := gone.foldl (fun t b => tset t b.1 (staleWord true (tget t 0x001400 b.1))) s.saf.zones
  let bound := (l.filter (·.bound)).foldl (fun t z => tset t z.spigot (id, z.zone)) (s.saf.bound.filter fun b => !gone.contains b)
  modStrm id (fun st => { st with zones := l }) { s with saf := { s.saf with zones := zs, bound := bound } }

/-- ZONE_SET: replaces a stream's zone records and Spigot bindings. -/
def execZoneSet (x : SlipIn) (s : State) : Out :=
  .next (
    let id := x.target.toNat
    let k := x.len.toNat / 96
    takeSlip x.ring 0x0A x.tag (namesStream s id none)
      (fieldsThen (goodFields { target := true, align := 64 } x && x.len.toNat % 96 == 0 && decide (k ≤ 64)) (withBlock x.block fun b =>
        fieldsThen (goodZones b k) (onOwn (sender s x) id fun st _ s =>
          let l := (List.range k).map (zoneOf b)
          if takenIndex s id l then (some (0x11, 0), s)
          else if st.state = .faulted then (some (0x12, 0), s)
          else (some (0, 0), setZones id l s)))) s)

end Sys2Proof.Machine
end

