-- ==== Sys2Proof/Machine/ClipSlips.lean ====
section
/-! DEFINITION. Machine/ClipSlips.lean: the four operations of a CLIP_REQUEST (R257, R258, R260, R263, R274). -/

namespace Sys2Proof.Machine

/-! ### Request blocks (Tables 10.1 and 10.2) -/

/-- A signed byte lies within a bound. -/
def within (n : Nat) (lo hi : Int) : Bool := decide (lo ≤ sgn 8 n) && decide (sgn 8 n ≤ hi)

/-- Region i of a request block. -/
def regionOf (b : List Byte) (i : Nat) : Region :=
  let o := 128 + 12 * i
  { x0 := leAt b o 2, y0 := leAt b (o + 2) 2, x1 := leAt b (o + 4) 2, y1 := leAt b (o + 6) 2, qpoff := sgn 8 (leAt b (o + 8) 1),
    privacy := nbit (leAt b (o + 9) 1) 0 }

/-- Region i is well formed. -/
def goodRegion (b : List Byte) (i : Nat) : Bool :=
  let o := 128 + 12 * i
  let r := regionOf b i
  decide (r.x0 ≤ r.x1) && decide (r.y0 ≤ r.y1) && within (leAt b (o + 8) 1) (-12) 12 && decide (leAt b (o + 9) 1 < 2) && zeroRange b (o + 10) 2

/-- The regions of a request: those below NREG are well formed, the rest zero. -/
def goodRegions (b : List Byte) : Bool :=
  let n := leAt b 58 1
  decide (n ≤ 16) && (List.range n).all (goodRegion b) && zeroRange b (128 + 12 * n) (192 - 12 * n)

/-- The fields that both CAPTURE and THUMB use. -/
def goodTake (b : List Byte) : Bool :=
  decide (leAt b 8 8 ≤ leAt b 16 8) && decide (1 ≤ leAt b 24 2) && decide (leAt b 24 2 ≤ 18000) && decide (1 ≤ leAt b 26 2)
    && decide (leAt b 26 2 ≤ 10000) && zeroRange b 28 2 && zeroRange b 44 2 && decide (3 ≤ leAt b 46 1) && decide (leAt b 46 1 ≤ 6)
    && decide (leAt b 56 2 ≤ 256) && leAt b 62 2 % 64 == 0 && decide (leAt b 62 2 ≤ 960) && leAt b 64 8 % 4096 == 0
    && leAt b 72 4 % 4096 == 0 && decide (indexArea (leAt b 24 2) < leAt b 72 4) && zeroRange b 80 48 && goodRegions b

/-- A CAPTURE block; `cap` is the least CAP (R271). -/
def goodCapture (cap : Nat) (b : List Byte) : Bool :=
  let vbr := nbit (leAt b 3 1) 0
  let rate := leAt b 32 4
  let peak := leAt b 36 4
  goodTake b && decide (leAt b 3 1 < 32) && bits (leAt b 3 1) 4 3 != 3 && decide (2 ≤ leAt b 30 2) && decide (leAt b 30 2 ≤ 64)
    && decide (100 ≤ rate) && decide (rate ≤ 40000) && (if vbr then decide (rate ≤ peak) && decide (peak ≤ 40000) else peak == 0)
    && decide (cap ≤ leAt b 40 4) && within (leAt b 47 1) (-12) 12 && leAt b 59 1 == 0 && leAt b 60 2 == 0
    && decide (1 ≤ leAt b 76 4) && decide (leAt b 76 4 ≤ 90000)

/-- A THUMB block: a thumb codes with no QP, so its regions carry no QPOFF. -/
def goodThumb (b : List Byte) : Bool :=
  goodTake b && (List.range (leAt b 58 1)).all (fun i => leAt b (128 + 12 * i + 8) 1 == 0) && (leAt b 3 1 == 0 || leAt b 3 1 == 4)
    && zeroRange b 30 14 && leAt b 47 1 == 0 && decide (1 ≤ leAt b 59 1) && decide (leAt b 59 1 ≤ 100) && decide (16 ≤ leAt b 60 2) && decide (leAt b 60 2 ≤ 1024) && leAt b 76 4 == 0

/-- A HOLD block. -/
def goodHold (b : List Byte) : Bool := zeroRange b 3 25 && decide (leAt b 28 2 ≤ 300) && zeroRange b 30 290

/-- A CANCEL block. -/
def goodCancel (b : List Byte) : Bool := leAt b 3 1 == 0 && zeroRange b 8 312

/-- The window a clip of a stream is taken from now (R259). -/
def windowNow (st : Stream) : Nat × Nat :=
  match st.lastWin with
  | some (_, _, w, h) => (w, h)
  | none => ((soonEnv st).maxW, (soonEnv st).maxH)

/-- The size of a clip picture for SCALE. -/
def scaledNow (st : Stream) (scale : Nat) : Nat × Nat :=
  ((windowNow st).1 / 2 ^ scale / 2 * 2, (windowNow st).2 / 2 ^ scale / 2 * 2)

/-! ### The pictures a clip takes at once (R260, R262) -/

/-- A picture of a stream that has been output is held. -/
def heldPicture (b : FrameBuf) : Bool := b.waitingOutput == 0 && (decide (0 < b.holdLeft) || decide (0 < b.clips))

/-- Every picture of a range already lies in the past and is gone (Table 10.2, last row). -/
def rangeGone (st : Stream) (last : Nat) : Bool :=
  let un := st.frames.filter fun f => f.num.isNone
  st.bufs.all (fun b => !heldPicture b || decide (last < b.pts))
    && (if un.isEmpty then st.highPts.any fun p => decide (last ≤ p) else un.all fun f => decide (last < f.pts))

/-- A picture at or past END has been output. -/
def rangeOver (st : Stream) (last : Nat) : Bool :=
  st.frames.any (fun f => f.num.isSome && decide (last ≤ f.pts)) || st.bufs.any (fun b => b.waitingOutput == 0 && decide (last ≤ b.pts))
    || (st.frames.all (·.num.isSome) && st.highPts.any fun p => decide (last ≤ p))

/-- START lies before the oldest available picture: the oldest held one, or where none is held a picture that has gone (R262). -/
def startsEarly (st : Stream) (first : Nat) : Bool :=
  match leastBy (fun b : FrameBuf => b.pts) (st.bufs.filter heldPicture) with
  | some b => decide (first < b.pts)
  | none => st.frames.any (fun f => f.num.isSome && decide (first ≤ f.pts))
      || (st.frames.all (·.num.isSome) && st.highPts.any fun p => decide (first ≤ p))

/-- The held pictures of a range and the frames without one from the oldest held picture on, in frame order. -/
def pastOf (st : Stream) (first last order : Nat) : List ClipPic :=
  let inRange := fun (p : Nat) => decide (first ≤ p) && decide (p ≤ last)
  let pics := (st.bufs.filter fun b => heldPicture b && inRange b.pts).map fun b =>
    ({ pts := b.pts, num := b.num, arrived := order, src := .pic b.ptr, winW := b.winW, winH := b.winH, concealed := b.concealed,
       folio := b.folio } : ClipPic)
  let from' := (leastBy (fun (b : FrameBuf) => b.num) (st.bufs.filter heldPicture)).map (·.num)
  let gaps := st.frames.filterMap fun f =>
    match f.num, from' with
    | some n, some m =>
      if inRange f.pts && decide (m ≤ n) && !(pics.any fun r => r.num == n) && f.buf.isNone then
        some ({ pts := f.pts, num := n, arrived := order, src := .gap, winW := f.winW, winH := f.winH,
                folio := if f.sealed then some ((gapOf f).isSome, f.recs.map recBox) else none } : ClipPic)
      else none
    | _, _ => none
  sortBy (fun (r : ClipPic) => r.num) (pics ++ gaps)

/-- A new clip takes what is there: a thumb one picture, a capture all (R260, R274). -/
def takePast (k : Clip) (l : List ClipPic) : Clip :=
  match k.thumb, l.filter (fun r => r.src != .gap) with
  | true, r :: _ => takePic k r
  | true, [] => k
  | false, _ => l.foldl takePic k

/-- The clip of a request block. -/
def clipOfBlock (fn part order : Nat) (thumb : Bool) (buf : Option Nat) (b : List Byte) : Clip where
  fn := fn
  id := BitVec.ofNat 32 (leAt b 4 4)
  stream := leAt b 0 2
  part := part
  thumb := thumb
  vbr := nbit (leAt b 3 1) 0
  deriveQp := nbit (leAt b 3 1) 1
  derivePriv := nbit (leAt b 3 1) 2
  scale := bits (leAt b 3 1) 4 3
  first := leAt b 8 8
  last := leAt b 16 8
  maxPic := leAt b 24 2
  waitMs := leAt b 26 2
  refresh := leAt b 30 2
  rate := leAt b 32 4
  maxRate := leAt b 36 4
  cap := leAt b 40 4
  mosaic := leAt b 46 1
  dqp := sgn 8 (leAt b 47 1)
  dclass := BitVec.ofNat 64 (leAt b 48 8)
  margin := leAt b 56 2
  quality := leAt b 59 1
  tside := leAt b 60 2
  dcbase := leAt b 62 2
  haddr := leAt b 64 8
  hlen := leAt b 72 4
  tick := leAt b 76 4
  regions := (List.range (leAt b 58 1)).map (regionOf b)
  order := order
  buf := buf

/-- Draw the working set of a clip; the partition's clip pool comes into being with its first clip (R258, Table 12.4). -/
def drawClip (p fn : Nat) (s : State) : Option Nat × State :=
  let o := Owner.partition p
  match poolFor s 5 o with
  | some n => drawBuf n o fn false s
  | none => match reserve p 5 Config.clipBytes o 0 64 s with
    | some t => drawFor 5 o fn t
    | none => (none, s)

/-- Start a clip: it holds the pictures it takes (R260). -/
def beginClip (k : Clip) (s : State) : State :=
  let st := strm s k.stream
  let k := takePast k (pastOf st k.first k.last k.order)
  let k := { k with closed := k.closed || rangeOver st k.last, early := startsEarly st k.first }
  let s := k.ready.foldl (fun s r => match r.src with
    | .pic p => modBuf k.stream p (fun b => { b with clips := b.clips + 1 }) s
    | _ => s) s
  settleClips k.stream { s with clips := s.clips.filter (fun c => !(c.is k.fn k.id)) ++ [k] }

/-- Take a clip by Table 10.2 below its first row. -/
def takeClip (fn : Nat) (thumb : Bool) (b : List Byte) : SlipRule := onOwn fn (leAt b 0 2) fun st _ s =>
  let d := scaledNow st (bits (leAt b 3 1) 4 3)
  let open' := s.clips.filter fun k => k.part == st.part && !k.ended
  if st.state = .faulted then (some (0x12, 0), s)
  else if !thumb && (decide (3840 < d.1) || decide (2160 < d.2)) then (some (0x14, 0), s)
  else if 64 ≤ open'.length then (some (0x13, 0), s)
  else match drawClip st.part fn s with
    | (none, _) => (some (0x13, 0), s)
    | (some p, t) =>
      if rangeGone st (leAt b 16 8) then (some (0x13, 0), s) else
      let (o, t) := takeOrder t
      (some (0, 0), beginClip (clipOfBlock fn st.part o thumb (some p) b) t)

/-- A CLIPID that an open clip of the function carries is refused (Table 10.1). -/
def freshId (s : State) (fn : Nat) (b : List Byte) : Bool := (clipOf s fn (BitVec.ofNat 32 (leAt b 4 4))).isNone

/-- A CLIP_REQUEST with operation `op`: the slip's fields, its block and the operation's own check and rule. -/
def clipSlip (x : SlipIn) (op : Nat) (good : State → List Byte → Bool) (rule : List Byte → SlipRule) (s : State) : State :=
  let named := match x.block with
    | .data b => { namesStream s (leAt b 0 2) none with cancel := op == 2 }
    | _ => {}
  match x.block with
  | .data bs =>
    let b := slice bs 0 320
    if leAt b 2 1 ≠ op ∧ leAt b 2 1 ≤ 3 then s else
    takeSlip x.ring 0x0B x.tag named (fieldsThen (goodFields { align := 64 } x && x.len == 320 && leAt b 2 1 == op && decide (leAt b 0 2 < 1024))
      fun n s => if good s b then rule b n s else (some (0x10, 0), s)) s
  | r => takeSlip x.ring 0x0B x.tag named (fieldsThen (goodFields { align := 64 } x && x.len == 320) (withBlock r rule)) s

/-- CAPTURE: an evidence clip of a stream. -/
def execCapture (x : SlipIn) (s : State) : Out :=
  .next (let fn := sender s x
    clipSlip x 0 (fun s b =>
      goodCapture (leastCap (scaledNow (strm s (leAt b 0 2)) (bits (leAt b 3 1) 4 3))) b && freshId s fn b) (takeClip fn false) s)

/-- THUMB: one JPEG picture of a stream. -/
def execThumb (x : SlipIn) (s : State) : Out :=
  .next (let fn := sender s x
    clipSlip x 3 (fun s b => goodThumb b && freshId s fn b) (takeClip fn true) s)

/-- Set the hold depth H: the frame pool's maximum and the pictures held now follow it (R260, Table 12.4). -/
def setHoldDepth (id h : Nat) (s : State) : State :=
  let old := (strm s id).hold
  let s := modStrm id (fun st => { st with hold := h, bufs := st.bufs.map fun b =>
    if 0 < b.holdLeft then { b with holdLeft := b.holdLeft + h - old } else b }) s
  let e := (strm s id).env
  settleBufs id (setLimits 1 (.stream id) (e.maxRefs + 2) (e.maxRefs + 18 + h) s)

/-- HOLD: sets a stream's hold depth. -/
def execHold (x : SlipIn) (s : State) : Out :=
  .next (let fn := sender s x
    clipSlip x 1 (fun _ b => goodHold b) (fun b => onOwn fn (leAt b 0 2) fun st _ s =>
      if st.state = .faulted then (some (0x12, 0), s) else (some (0, 0), setHoldDepth (leAt b 0 2) (leAt b 28 2) s)) s)

/-- Cancel the clip that CLIPID names: ABORTED where it is open, NOOP where its end has won the arbiter (R258, R263). -/
def cancelClip (fn : Nat) (endWins : Bool) (b : List Byte) : SlipRule := onOwn fn (leAt b 0 2) fun _ _ s =>
  let id := BitVec.ofNat 32 (leAt b 4 4)
  match s.clips.find? fun k => k.is fn id && k.stream == leAt b 0 2 with
  | some k => if !k.ended then (some (0, 0), endClip k 0x20 s) else if endWins then (some (1, 0), s) else (some (0x11, 0), s)
  | none => (some (0x11, 0), s)

/-- CANCEL: ends the named clip. -/
def execCancel (x : SlipIn) (s : State) : Out :=
  .next (let fn := sender s x
    clipSlip x 2 (fun _ b => goodCancel b) (cancelClip fn x.endWins) s)

end Sys2Proof.Machine
end

