-- ==== Sys2Proof/Machine/Preproc.lean ====
section
/-! DEFINITION. Machine/Preproc.lean: the pre-processing units (R220 to R223). -/

namespace Sys2Proof.Machine

/-- Pre-processing unit n. -/
def ppuAt (s : State) (n : Nat) : Ppu := tget s.ppus {} n
/-- Set what unit n works on. -/
def setWork (n : Nat) (w : Option (Nat × Nat)) (s : State) : State := { s with ppus := tset s.ppus n { ppuAt s n with work := w } }

/-- A frame is on a unit. -/
def onUnit (s : State) (id order : Nat) : Bool := s.ppus.any fun u => u.2.work == some (id, order)

/-- The picture of a stream that is next in frame order. -/
def nextPicture (s : State) (id : Nat) (st : Stream) : Option Frame :=
  leastBy (fun f : Frame => f.num.getD 0) (st.frames.filter fun f => f.stage == .preproc && !onUnit s id f.order)

/-- The stream whose picture a partition's units serve next: by priority, then by decode completion (R222). -/
def nextServed (s : State) (p : Nat) : Option (Nat × Frame) :=
  let l := s.streams.filterMap fun x => if x.2.part = p then (nextPicture s x.1 x.2).map fun f => (x.1, f) else none
  leastBy (fun x => (8 - (strm s x.1).prio) * 2 ^ 64
    + ((x.2.buf.bind fun b => bufAt (strm s x.1) b).map (·.refreshed)).getD 0) l

/-- PREPROCESS_START: an idle unit of the partition starts the picture that is next in its order; a retry runs on another unit where
the partition has one. -/
def execPreprocessStart (unit stream : Nat) (s : State) : Out :=
  .next (
    let p := (strm s stream).part
    if !upAt s nocIsland || !(ppUnits s p).contains unit || (ppuAt s unit).work.isSome then s else
    match nextServed s p with
    | some (id, f) =>
      if id ≠ stream || (f.lastUnit == some unit && decide (1 < (ppUnits s p).length)) then s
      else setWork unit (some (id, f.order)) s
    | none => s)

/-! ### Steps 1 to 5 of R221 (log entry 114) -/

/-- Where a frame's picture lies. -/
def framePic (s : State) (id : Nat) (f : Frame) : Option PicAt := f.buf.map fun p =>
  { part := (strm s id).part, ptr := p, env := (strm s id).env0, ten := f.ten }

/-- Step 1: the crop of an entry, clipped to the picture; chroma, sited at the left sample, is carried to the luma grid bilinearly. -/
def cropRaster (s : State) (a : PicAt) (f : Frame) (o : OutEntry) : Raster :=
  let c := cropIn o f.winW f.winH
  let x0 := f.winX + o.x0
  let y0 := f.winY + o.y0
  { w := c.1
    h := c.2
    at' := fun p x y =>
      if p = 0 then some (sampleIn s a 0 (x0 + x) (y0 + y))
      else blend (linearTaps (ceilDiv c.1 2) ((x : ℚ) / 2)) (linearTaps (ceilDiv c.2 2) (((y : ℚ) - 1 / 2) / 2))
        fun i j => some (sampleIn s a p (x0 / 2 + i) (y0 / 2 + j)) }

/-- Step 2: the flips. -/
def Raster.flip (r : Raster) (across down : Bool) : Raster :=
  { r with at' := fun c x y => r.at' c (if across then r.w - 1 - x else x) (if down then r.h - 1 - y else y) }

/-- Step 2: a clockwise rotation by k quarters. -/
def Raster.quarter (r : Raster) (k : Nat) : Raster :=
  match k with
  | 0 => r
  | 1 => { w := r.h, h := r.w, at' := fun c x y => r.at' c y (r.h - 1 - x) }
  | 2 => r.flip true true
  | _ => { w := r.h, h := r.w, at' := fun c x y => r.at' c (r.w - 1 - y) x }

/-- Step 2: ANGLE, clockwise about the centre; none outside the source. -/
def Raster.turn (r : Raster) (angle : Int) : Raster :=
  if angle = 0 then r else
  let c : ℚ := fixTrig false angle / 2 ^ 64
  let n : ℚ := fixTrig true angle / 2 ^ 64
  let mx : ℚ := (r.w : ℚ) / 2
  let my : ℚ := (r.h : ℚ) / 2
  { r with at' := fun p x y =>
      let u : ℚ := (x : ℚ) + 1 / 2 - mx
      let v : ℚ := (y : ℚ) + 1 / 2 - my
      let px := mx + (u * c + v * n)
      let py := my + (v * c - u * n)
      if px < 0 ∨ r.w < px ∨ py < 0 ∨ r.h < py then none
      else blend (linearTaps r.w (px - 1 / 2)) (linearTaps r.h (py - 1 / 2)) (r.at' p) }

/-- A value held within a range. -/
def clampQ (lo hi v : ℚ) : ℚ := if v < lo then lo else if hi < v then hi else v

/-- Weights of red and blue in luma: BT.601, BT.709, BT.2020. -/
def lumaWeights (k : Nat) : ℚ × ℚ :=
  match k with
  | 0 => (299 / 1000, 114 / 1000)
  | 1 => (2126 / 10000, 722 / 10000)
  | _ => (2627 / 10000, 593 / 10000)

/-- Step 4: a pixel's samples as R'G'B' from 0 to 1 in output channel order, or its luma alone; limited range is expanded. -/
def convertPixel (o : OutEntry) (ten : Bool) (y cb cr : ℚ) : List ℚ :=
  let top : ℚ := if ten then 1023 else 255
  let k : ℚ := if ten then 4 else 1
  let full := nbit o.colour 2
  let y := clampQ 0 top y
  let l := if full then y / top else (y - 16 * k) / (219 * k)
  let c := fun (v : ℚ) => (clampQ 0 top v - 128 * k) / (if full then top else 224 * k)
  let w := lumaWeights (bits o.colour 1 0)
  let red := l + 2 * (1 - w.1) * c cr
  let blue := l + 2 * (1 - w.2) * c cb
  let green := (l - w.1 * red - w.2 * blue) / (1 - w.1 - w.2)
  let out := if bits o.colour 1 0 = 3 then [l] else if nbit o.colour 3 then [blue, green, red] else [red, green, blue]
  out.map (clampQ 0 1)

/-- Step 5: (x - MEAN) * INVSTD in FP16. -/
def normalise (o : OutEntry) (ch : Nat) (x : ℚ) : BitVec 16 :=
  BitVec.ofNat 16 (fmul fmt16 (fsub fmt16 (fofRat fmt16 x) (o.mean.getD ch 0).toNat) (o.invstd.getD ch 0).toNat)

/-- Steps 1 to 3: the crop, turned and resized. -/
def outRaster (s : State) (a : PicAt) (f : Frame) (o : OutEntry) : Raster :=
  ((((cropRaster s a f o).flip (nbit o.ops 2) (nbit o.ops 3)).quarter (bits o.ops 5 4)).turn o.angle).resize (bits o.ops 1 0) o.ow o.oh

/-- Element ch, x, y of an output before quantisation; none where a rotated sample falls outside the source. -/
def outElem (r : Raster) (o : OutEntry) (ten : Bool) (ch x y : Nat) : Option (BitVec 16) :=
  match r.at' 0 x y, r.at' 1 x y, r.at' 2 x y with
  | some l, some cb, some cr => some (normalise o ch ((convertPixel o ten l cb cr).getD ch 0))
  | _, _, _ => none

/-- The elements of an output by channel, row and column. -/
def outElems (s : State) (a : PicAt) (f : Frame) (o : OutEntry) : List (Option (BitVec 16)) :=
  let r := outRaster s a f o
  (List.range (chansOf o)).flatMap fun ch => (List.range o.oh).flatMap fun y => (List.range o.ow).map fun x => outElem r o f.ten ch x y

/-! ### Step 6 and the units -/

/-- One row of an output: its blocks' codes and headers, tags counted on from n, and how many elements were clamped (R221). -/
def rowOut (o : OutEntry) (n : Nat) (xs : List (Option (BitVec 16))) : List Byte × List Byte × Nat :=
  let body := headerBody o.fmt o.scale o.zp 0
  (List.range (ceilDiv xs.length 64)).foldl (fun (a : List Byte × List Byte × Nat) b =>
    let part := (xs.drop (64 * b)).take 64
    let el := part.map fun x => x.map fun v => codeElem [] o.fmt o.zp 0 o.scale (fcvt fmt16 fmt32 v.toNat)
    let codes := (el.map fun e => match e with | some k => k.code | none => o.fill)
      ++ List.replicate (64 - part.length) (emptyCode [] o.fmt body)
    (a.1 ++ packCodes o.fmt codes, a.2.1 ++ leBytes 4 (sealHdr ((n + b) % 256) body),
     a.2.2 + (el.filter fun e => e.any (·.sat)).length)) ([], [], 0)

/-- The planar tensor of an output entry: codes, then at the next multiple of 64 the headers, and the elements clamped (R218, R221). A
crop that clips below 16 x 16 yields FILL everywhere. -/
def tensorOut (o : OutEntry) (w h : Nat) (xs : List (Option (BitVec 16))) : List Byte × Nat :=
  let c := cropIn o w h
  let xs := if c.1 < 16 ∨ c.2 < 16 then xs.map fun _ => none else xs
  let r := (List.range (chansOf o * o.oh)).foldl (fun (a : List Byte × List Byte × Nat) i =>
    let row := (xs.drop (i * o.ow)).take o.ow
    let x := rowOut o (i * ceilDiv o.ow 64) (row ++ List.replicate (o.ow - row.length) none)
    (a.1 ++ x.1, a.2.1 ++ x.2.1, a.2.2 + x.2.2)) ([], [], 0)
  let pad := List.replicate (ceilDiv r.1.length 64 * 64 - r.1.length) 0
  (r.1 ++ pad ++ r.2.1, r.2.2)

/-- The unit has read the picture: its buffer is released from reading (R187). -/
def readDone (id : Nat) (f : Frame) (s : State) : State :=
  match f.buf with
  | some p => settleBufs id (modBuf id p (fun b => { b with reading := b.reading - 1 }) s)
  | none => s

/-- A crop of the frame's outputs reads a byte of the frame buffer that is uncorrectable (R222). -/
def picBad (s : State) (a : PicAt) (f : Frame) : Bool :=
  f.outs.any fun o => let c := cropIn o f.winW f.winH; rectBad s a (f.winX + o.x0) (f.winY + o.y0) c.1 c.2

/-- PREPROCESS_DONE: the outputs are written and the frame's jobs may start; a unit that meets an uncorrectable error, its own (`failed`) or in
reading the frame buffer, abandons the frame, which runs once more, and a second failure gives COMPUTE_FAULT (R221, R222). -/
def execPreprocessDone (unit : Nat) (failed : Bool) (s : State) : Out :=
  .next (
    match upAt s nocIsland, (ppuAt s unit).work with
    | true, some (id, order) =>
      let s := setWork unit none s
      match frameOf s id order with
      | none => s
      | some f =>
        let st := strm s id
        if f.stage ≠ .preproc then readDone id f s else
        let s := charge f.ctx (fun a => { a with ppuCycles := hold64 (a.ppuCycles + frameCost f) }) s
        match (framePic s id f).filter fun a => !failed && !picBad s a f with
        | none =>
          let s := emit { cls := 1, source := 0x05, unit := some unit, stream := some id, ctx := some f.ctx, frame := f.num } s
          if 1 ≤ f.ppTries then noteLoad st.part (readDone id f (putResult id order (.gap gapComputeFault) s))
          else modFrame id order (fun f => { f with ppTries := f.ppTries + 1, lastUnit := some unit }) s
        | some a =>
          let ts := f.outs.map fun o => tensorOut o f.winW f.winH (outElems s a f o)
          let sat := (ts.map (·.2)).sum
          let s := modFrame id order (fun f => { f with inputs := List.zip (List.range ts.length) (ts.map (·.1)) }) s
          let s := modStrm id (fun st => { st with cnt := { st.cnt with ppsat := min (st.cnt.ppsat + sat) 0xFFFFFFFF } }) s
          noteLoad st.part (beginJobs id order (readDone id f s))
    | _, _ => s)

end Sys2Proof.Machine
end

