-- ==== Sys2Proof/Machine/Records.lean ====
section
/-! DEFINITION. Machine/Records.lean: the records that the mailbox and QUERY return (R298, R380, R448, R449, R459, R465, R480, R481, R488). -/

namespace Sys2Proof.Machine

/-- A 32-bit word that holds at its maximum. -/
def word32 (n : Nat) : Word := BitVec.ofNat 32 (min n 0xFFFFFFFF)
/-- A 64-bit value as two words, low word first. -/
def words64 (n : Nat) : List Word := [BitVec.ofNat 32 n, BitVec.ofNat 32 (n / 2 ^ 32)]
/-- The little-endian words of a byte list. -/
def wordsOf (n : Nat) (b : List Byte) : List Word := (List.range n).map fun i => BitVec.ofNat 32 (leAt b (4 * i) 4)
/-- n zero words. -/
def zeros (n : Nat) : List Word := List.replicate n 0

/-! ### Capacity and stream records (Tables 19.7, 19.8, 8.15) -/

/-- The logical cores of a cluster in service. -/
def servedIn (s : State) (cl : Nat) : Nat := ((List.range 4).filter fun n => (servedBy s (4 * cl + n)).isSome).length

/-- Table 19.7. -/
def capacity (s : State) : List Word :=
  let cls := (List.range 8).filter fun c => (cluAt s c).inService && decide (0 < servedIn s c)
  let dies := (List.range 2).filter fun d => cls.any fun c => c / 4 == d
  let cores := ((List.range 8).map (servedIn s)).sum
  let dram := ((usedChannels s).map fun m => (tget s.mem.channels {} m).gib).sum
  [BitVec.ofNat 32 (dies.length + 2 ^ 8 * cls.length + 2 ^ 16 * cores),
   BitVec.ofNat 32 ((List.range 8).map fun c => 16 ^ c * servedIn s c).sum,
   BitVec.ofNat 32 (maskOf ((List.range 32).filter fun n => decide ((tget s.media {} n).state < 2))),
   BitVec.ofNat 32 (maskOf ((List.range 4).filter fun n => decide ((encAt s n).state < 2))
     + 2 ^ 8 * maskOf ((List.range 8).filter fun u => (ppuAt s u).inService)),
   BitVec.ofNat 32 (maskOf (usedChannels s) + 2 ^ 16 * dram),
   BitVec.ofNat 32 (maskOf ((List.range 4).filter fun p => (partAt s p).present)
     + 2 ^ 4 * maskOf ((List.range 4).filter fun p => (partAt s p).c3)),
   BitVec.ofNat 32 (s.pwr.level + 2 ^ 8 * b2n (s.saf.arm && s.nv.variantS)), 0]

/-- Table 19.8. -/
def streamRecord (s : State) (id : Nat) : List Word :=
  let st := strm s id
  if st.state = .closed then [0, 0, 0, 0xFFFFFFFF, 0xFFFFFFFF, 0, 0, 0] else
  let w0 := stateCode st.state + 2 ^ 3 * b2n (pausedPart s st.part) + 2 ^ 4 * st.part + 2 ^ 6 * b2n st.hostPath + 2 ^ 7 * b2n st.firkin
    + 2 ^ 8 * st.prio + 2 ^ 12 * st.home.getD 0 + 2 ^ 15 * b2n st.home.isNone + 2 ^ 16 * st.ctx
  [BitVec.ofNat 32 w0] ++ words64 st.admittedCount ++ words64 (st.sealedNum.getD (2 ^ 64 - 1))
    ++ [word32 (st.frames.filter fun f => !f.sealed).length, word32 (backlog st), BitVec.ofNat 32 (st.ring % 4096)]

/-- Pictures of a stream that wait for pre-processing. -/
def waitingPictures (s : State) (id : Nat) : Nat :=
  ((strm s id).frames.filter fun f => f.stage == .preproc && f.result.isNone && !onUnit s id f.order).length

/-- Table 8.15. -/
def ingestRecord (s : State) (id : Nat) : List Word :=
  let c := (strm s id).cnt
  [waitingPictures s id, c.ppsat, c.delivered, c.lost, c.dup, c.late, c.badseq, c.badrtp, c.unsupp, c.ssrcchg, c.notrun, c.shed].map word32

/-! ### Accounts, catalogue, Kiln, repair, security -/

/-- Table 11.9. Core and steward cycles and energy are open; stacks and DRAM bytes are at least what the commands move, and what cache
misses and fills add to them is open (R298, log entry 39). -/
def accountRecord (s : State) (a : Account) : List Word :=
  let more := fun (k n : Nat) => hold64 (n + (freeBits s k 64).toNat)
  [more 0 0, more 1 0, a.mediaCycles, a.encoderCycles, a.ppuCycles, a.carrelBytes, more 2 a.stacksBytes, more 3 a.dramBytes, a.pcieBytes,
   a.fabricBytes, more 4 0, a.ended, a.rerun, a.aborted].flatMap words64

/-- The state field of a fabric port (Table 14.8). -/
def portStates (s : State) : Nat := ((List.range 4).map fun p => 16 ^ p * (tget s.fab.ports {} p).state).sum

/-- Table 14.7: the device itself, a peer, or no device; serial and domain of a peer whose CAT did not come are open (log entry 42). -/
def catalogueRecord (s : State) (call : Nat) : List Word :=
  let line := fun (serial : Dword) (domain : Byte) (ports : Nat) =>
    words64 serial.toNat ++ [BitVec.ofNat 32 (2 ^ 16 * call + 2 ^ 8 * domain.toNat + 1), BitVec.ofNat 32 ports, s.fab.walks]
  if s.fab.call.toNat = call ∧ call ≠ 0xFFFE then line s.nv.serial s.fab.domain (portStates s)
  else match tfind s.fab.peers call with
    | some p => line (if p.known then p.serial else freeBits s 0 64) (if p.known then p.domain else freeBits s 1 8) p.ports.toNat
    | none => zeros 5

/-- Table 17.7. -/
def kilnHeader (s : State) : List Word :=
  match s.pwr.kiln.report with
  | none => zeros 8
  | some r => [0x4E4C494B, BitVec.ofNat 32 (1 + 2 ^ 16 * r.status), word32 r.ms, word32 r.entries.length, word32 r.arrays, word32 r.units,
      BitVec.ofNat 32 (min r.peak 65535), BitVec.ofNat 32 r.seq]

/-- An entry of a report or record (Table 17.8). -/
def entryWords (l : List (BitVec 128)) (k : Nat) : Option (List Word) := (l[k]?).map fun e => wordsOf 4 (leBytes 16 e.toNat)

/-- The entries of the repair record in force. -/
def repairEntries (s : State) : List (BitVec 128) := (s.nv.record.map (·.entries)).getD []

/-- Write a repair record into the slot of flash that does not hold the one in force, which it succeeds (R449). -/
def writeRecord (r : Repair) (s : State) : State := { s with nv := { s.nv with record := some r, otherRecord := s.nv.record } }

/-- The slot that boot applies: of the two that qualify, the one with the highest SEQ, which was written last (R449). -/
def chooseRecord (recordBad otherBad : Bool) (v : NvSt) : NvSt :=
  let b := if otherBad then none else v.otherRecord
  if recordBad || v.record.isNone then { v with record := b, otherRecord := none } else { v with otherRecord := b }

/-- The header of the repair record in force (R449). -/
def repairHeader (s : State) : List Word :=
  match s.nv.record with
  | none => zeros 8
  | some r => (List.range 8).map fun k =>
      if k = 0 then 0x43525052 else Config.repairHeader r.seq r.entries.length s.nv.serial k

/-- M0 to M4 (R459). -/
def measurements (s : State) : List Word := (List.range 5).flatMap fun k => wordsOf 16 (leBytes 64 (tget s.sec.m 0 k).toNat)

/-- The identity public key exists in PERSONALISED and OPERATIONAL (R460, R481). -/
def identityKey (s : State) : BitVec 512 := if s.nv.lcs = 1 ∨ s.nv.lcs = 2 then Config.idPublic else 0

/-! ### Counter records (R485 to R488, Table 20.5) -/

/-- The adaptive islands: every one but the safety and always-on islands. -/
def adaptive (i : Nat) : Bool := i != 99 && i != 101

/-- The events that an island lists, in code order (Table 20.3). -/
def islandEvents (i : Nat) : List Nat :=
  (if adaptive i then [0, 1, 2, 3, 4] else [2, 3, 4]) ++
    (if i < 40 then [0x10, 0x11, 0x12, 0x13, 0x14, 0x15, 0x16, 0x17, 0x18, 0x19]
     else if i < 48 then [0x20, 0x21, 0x22, 0x23, 0x24, 0x25, 0x26, 0x27, 0x28, 0x29, 0x2A]
     else if i < 84 then [0x30, 0x31]
     else if i = 84 then [0x50, 0x51]
     else if i = 85 then [0x60, 0x61, 0x62]
     else if i < 94 then [0x40, 0x41, 0x42, 0x43]
     else if i < 98 then [0x70, 0x71, 0x72]
     else if i = 98 then [0x80]
     else if i = 99 then [0x90] else [])

/-- The model counts an event of an island exactly; every other count is open at a read (log entry 39). -/
def counted (i code : Nat) : Bool :=
  code == 1 || (if i < 40 then [0x04, 0x10, 0x11, 0x12, 0x13, 0x17, 0x18, 0x19].contains code
    else decide (48 ≤ i) && decide (i < 84) && code == 0x04 || [0x23, 0x24, 0x25, 0x26, 0x27, 0x29, 0x2A, 0x30, 0x42, 0x70, 0x80, 0x90].contains code)

/-- A selection counts an event whose count is open. -/
def opens (i : Nat) (e : Word) : Bool := nbit e.toNat 31 && !counted i (e.toNat % 256)

/-- The counters of an island whose values are open at a read: an open event selected now or before, or the carries of such a counter. -/
def openPmcs (i : Nat) (d : Island) : List Nat :=
  (List.range 8).foldl (fun l k =>
    let chained := decide (0 < k) && nbit (tget d.evt 0 (k - 1)).toNat 30
    if d.openPmc.contains k || (if chained then l.contains (k - 1) else opens i (tget d.evt 0 k)) then l ++ [k] else l) []

/-- An island is stopped, held in reset or withdrawn (R488). -/
def islandDown (s : State) (i : Nat) : Bool :=
  s.pwr.stopped.contains i || s.pwr.resetting || (s.err.c4 && i != 85 && i != 101)
    || (decide (i < 40) && (!(cluAt s (i / 5)).inService || (coreAt s i).health == .withdrawn))
    || (decide (40 ≤ i) && decide (i < 48) && !(cluAt s (i - 40)).inService)
    || (decide (48 ≤ i) && decide (i < 80) && decide (2 ≤ (tget s.media {} (i - 48)).state))
    || (decide (80 ≤ i) && decide (i < 84) && decide (2 ≤ (encAt s (i - 80)).state))
    || (decide (86 ≤ i) && decide (i < 94) && !(tget s.mem.channels {} (i - 86)).used)
    || (i == 99 && s.saf.held)

/-- Table 20.5, record 0. -/
def pmcRecord (s : State) (i : Nat) : List Word :=
  let d := tget s.islands {} i
  let un := openPmcs i d
  let en := maskOf ((List.range 8).filter fun k => nbit (tget d.evt 0 k).toNat 31)
  let chain := maskOf ((List.range 7).filter fun k => nbit (tget d.evt 0 k).toNat 30)
  words64 (freeBits s 0 64).toNat ++ ((List.range 8).flatMap fun k =>
    words64 (if un.contains k then (freeBits s (k + 1) 48).toNat else (tget d.pmc 0 k).toNat)) ++ [BitVec.ofNat 32 (en + 2 ^ 8 * chain)]

/-- Table 20.5, record 1. -/
def censusRecord (s : State) (i : Nat) : List Word :=
  let d := tget s.islands {} i
  let codes := islandEvents i
  BitVec.ofNat 32 (b2n (d.censusKind != 0) + 2 * d.censusKind + 2 ^ 16 * d.censusCount) ::
    codes.map fun c => if counted i c || d.censusCount == 0 then tget d.census 0 c
      else freeBits s ((position (· == c) codes).getD 0) 32

/-- Table 20.5, record 2: the slot classes follow the cycles, which the model leaves open (log entry 39). -/
def slotRecord (s : State) : List Word := (List.range 24).map fun k => freeBits s k 32

/-- Record r of island i: its words, zero where the island does not run; none where the island does not hold it. -/
def counterRecord (s : State) (i r : Nat) : Option (List Word) :=
  let up := fun (l : List Word) => if islandDown s i then zeros l.length else l
  if 101 < i then none
  else if r = 0 then some (up (pmcRecord s i))
  else if r = 1 then some (up (censusRecord s i))
  else if r = 2 ∧ i < 40 then some (up (slotRecord s))
  else none

/-! ### Selectors (Table 19.6) -/

/-- A record for its readers, zero words for every other function (R481). -/
def forReaders (ok : Bool) (l : List Word) : Option (List Word) := some (if ok then l else zeros l.length)

/-- The record of a selector for a function; none for an unknown selector. -/
def mailRecord (s : State) (fn sel : Nat) : Option (List Word) :=
  let pf := fn == 0
  let i := sel % 2 ^ 16
  if sel = 1 then some (capacity s)
  else match sel / 2 ^ 16 with
  | 0x01 => if i < 1024 then forReaders (pf || ((strm s i).owner == fn && (strm s i).state != .closed)) (streamRecord s i) else none
  | 0x08 => if i < 1024 then forReaders (pf || ((strm s i).owner == fn && (strm s i).state != .closed)) (ingestRecord s i) else none
  | 0x09 =>
    if i < 1024 then forReaders (pf || (ctxAt s i).any fun c => c.owner == fn) (accountRecord s (tget s.accounts {} i))
    else if 0x8000 ≤ i ∧ i < 0x8020 then forReaders (pf || i == 0x8000 + fn) (accountRecord s (fnAt s (i - 0x8000)).total)
    else none
  | 0x0A => forReaders pf (catalogueRecord s i)
  | 0x0B =>
    if i = 0 then forReaders pf (kilnHeader s)
    else if i < 0x8000 then (entryWords ((s.pwr.kiln.report.map (·.entries)).getD []) (i - 1)).bind (forReaders pf)
    else if i = 0x8000 then forReaders pf (repairHeader s)
    else (entryWords (repairEntries s) (i - 0x8001)).bind (forReaders pf)
  | 0x0C =>
    if i = 0 then some (measurements s)
    else if i = 1 then some (wordsOf 16 (leBytes 64 (identityKey s).toNat))
    else if i = 2 then forReaders pf (wordsOf 16 (leBytes 64 (freeBits s 0 512).toNat))
    else none
  | 0x0D => (counterRecord s (i / 256) (i % 256)).bind (forReaders pf)
  | _ => none

/-- Read a record: a read of the challenge by PF0 makes a fresh one and ends every earlier one (R465). -/
def readRecord (fn sel : Nat) (s : State) : Option (List Word) × State :=
  let r := mailRecord s fn sel
  let s := if sel = 0xC0002 ∧ fn = 0 then { s with sec := { s.sec with challenge := some (freeBits s 0 512) } } else s
  (r, useFree 32 s)

/-- The bytes of a record. -/
def recordBytes (l : List Word) : List Byte := l.flatMap fun w => leBytes 4 w.toNat

end Sys2Proof.Machine
end

