-- ==== Sys2Proof/Machine/Assign.lean ====
section
/-! DEFINITION. Machine/Assign.lean: PARTITION_SET, RING_ASSIGN, FENCE and QUERY (R283 to R286, R344, R345, R352). -/

namespace Sys2Proof.Machine

/-! ### PARTITION_SET (Table 11.7) -/

/-- The record of partition p in a partition block. -/
def partOf (b : List Byte) (p : Nat) : Partition :=
  let r := slice b (64 * p) 64
  { present := nbit (leAt r 1 1) 0, noc := leAt r 2 1, ppwin := leAt r 3 1, celwin := leAt r 4 1, minCores := leAt r 5 1,
    channels := leAt r 6 1, ppu := leAt r 7 1, cores := leAt r 8 4, media := leAt r 12 4, enc := leAt r 16 1,
    ways := (List.range 8).map fun c => leAt r (24 + c) 1, slots := (List.range 8).map fun c => leAt r (32 + c) 1 }

/-- A record has its number, no reserved bit and its fields in range; an absent one is zero. -/
def goodPart (b : List Byte) (p : Nat) : Bool :=
  let r := slice b (64 * p) 64
  leAt r 0 1 == p && decide (leAt r 1 1 ≤ 1) && decide (leAt r 5 1 ≤ 32) && decide (leAt r 16 1 < 16) && zeroRange r 17 7 && zeroRange r 40 24
    && (List.range 8).all (fun c => decide (leAt r (24 + c) 1 ≤ 16) && decide (leAt r (32 + c) 1 ≤ 4))
    && (leAt r 1 1 == 1 || zeroRange r 2 62)

/-- A present partition has a channel, a pre-processing unit, a media core and a logical core, and slots and ways where it has cores. -/
def wholePart (q : Partition) : Bool :=
  !q.present || (q.channels != 0 && q.ppu != 0 && q.media != 0 && q.cores != 0
    && (List.range 8).all fun c =>
      q.cores / 16 ^ c % 16 == 0 || (decide (1 ≤ q.slots.getD c 0) && decide (2 * q.slots.getD c 0 ≤ q.ways.getD c 0)))

/-- No bit of a field is shared by two of the records. -/
def unshared (f : Partition → Nat) : List Partition → Bool
  | [] => true
  | q :: r => r.all (fun x => f q &&& f x == 0) && unshared f r

/-- The rules of R284. -/
def goodParts (s : State) (b : List Byte) : Bool :=
  let l := (List.range 4).map (partOf b)
  let sum := fun (f : Partition → Nat) => (l.map f).sum
  (List.range 4).all (goodPart b) && l.all wholePart
    && unshared (·.channels) l && unshared (·.ppu) l && unshared (·.cores) l && unshared (·.media) l && unshared (·.enc) l
    && decide (sum (·.noc) ≤ 64) && decide (sum (·.ppwin) ≤ 64) && decide (sum (·.celwin) ≤ 64)
    && (List.range 8).all (fun c => decide (sum (fun q => q.ways.getD c 0) ≤ 16) && decide (sum (fun q => q.slots.getD c 0) ≤ 4))
    && l.all fun q => (List.range 8).all fun m => !nbit q.channels m || (usedChannels s).contains m

/-- The assignment of a record, its faults and credits aside. -/
def assignment (q : Partition) : Partition := { q with c3 := false, credits := 0 }

/-- A partition's units change: its clip pool ends, and what its DRAM held last is no one function's. -/
def changePart (p : Nat) (q : Partition) (s : State) : State :=
  let s := releaseOwner (.partition p) s
  let s := { s with mem := { s.mem with lastFn := (p, 0, 2 ^ 40, 0xFFFF) :: s.mem.lastFn.filter fun e => e.1 != p } }
  modPart p (fun old => { q with c3 := old.c3, credits := old.credits }) s

/-- PARTITION_SET from PF0 (R284, R285). -/
def setParts (b : List Byte) : SlipRule := fun _ s =>
  let diff := (List.range 4).filter fun p => assignment (partAt s p) != partOf b p
  let busy := s.ctxs.any (fun c => diff.contains c.2.part)
    || s.streams.any fun t => t.2.state != .closed && diff.contains t.2.part
  if !goodParts s b then (some (0x10, 0), s)
  else if diff.isEmpty then (some (1, 0), s)
  else if busy then (some (0x12, 0), s)
  else (some (0, 0), noteLoads (diff.foldl (fun s p => changePart p (partOf b p) s) { s with parts := (List.range 4).map fun p => (p, partAt s p) }))
where
  /-- The load hints and the channels' owners follow the units. -/
  noteLoads (s : State) : State :=
    (List.range 4).foldl (fun s p => (List.range 8).foldl (fun s m =>
      if nbit (partAt s p).channels m then modChan m (fun c => { c with owner := p }) s else s) (noteLoad p s)) s

/-- PARTITION_SET: only PF0 may issue it, and that check comes before every other of its own (R283). -/
def execPartitionSet (x : SlipIn) (s : State) : Out :=
  .next (takeSlip x.ring 0x0C x.tag {} (if sender s x ≠ 0 then answer 0x11 else
    fieldsThen (goodFields { align := 64 } x && x.len == 256) (withBlock x.block fun b => setParts (slice b 0 256))) s)

/-! ### RING_ASSIGN (R345) -/

/-- Give a range of rings to a function; a ring that changes owner returns to its reset values. -/
def assignRings (x : SlipIn) : SlipRule := fun _ s =>
  let a := x.args.toNat
  let first := a % 2 ^ 16
  let last := a / 2 ^ 16 % 2 ^ 16
  let fn := a / 2 ^ 32 % 256
  let range := (List.range (last + 1 - first)).map (first + ·)
  if last < first ∨ 4095 < last then (some (0x10, 0), s)
  else if x.ring ≠ 0 ∨ first ≤ 2 ∨ !(decide (fn ≤ 31) && fnPresent s fn) then (some (0x11, 0), s)
  else if range.any fun n => (ringAt s n).enable then (some (0x12, 0), s)
  else if range.all fun n => (ringAt s n).owner == fn then (some (1, 0), s)
  else (some (0, 0), range.foldl (fun s n =>
    if (ringAt s n).owner = fn then s else setRing n { ringReset n with owner := fn } s) s)

/-- RING_ASSIGN: gives a range of rings to a function. -/
def execRingAssign (x : SlipIn) (s : State) : Out :=
  .next (takeSlip x.ring 0x0D x.tag {} (fieldsThen (goodFields { args := 5 } x) (assignRings x)) s)

/-! ### FENCE (R352) -/

/-- The admitted frames of a function's streams that have not left the device. -/
def framesOf (s : State) (fn : Nat) : List (Nat × Nat) :=
  s.streams.flatMap fun t => if t.2.owner = fn then t.2.frames.map fun f => (t.1, f.order) else []

/-- A FENCE waits for the delivery of those frames. -/
def fenceRule (ring fn : Nat) : SlipRule := fun n s =>
  let l := framesOf s fn
  if l.isEmpty then (some (0, 0), s)
  else (none, modRing ring (fun r => { r with taken := amend (fun t => t.id == n) (fun t => { t with awaits := some l }) r.taken }) s)

/-- FENCE: its receipt waits for every earlier receipt of its ring and the delivery of what was admitted before it. -/
def execFenceSlip (x : SlipIn) (s : State) : Out :=
  .next (takeSlip x.ring 0x0E x.tag {} (fieldsThen (goodFields {} x) (fenceRule x.ring (sender s x))) s)

/-! ### QUERY (R344) -/

/-- Write a mailbox record to host memory. -/
def queryRule (fn : Nat) (x : SlipIn) : SlipRule := fun _ s =>
  match readRecord fn (x.args.toNat % 2 ^ 32) s with
  | (none, _) => (some (0x10, 0), s)
  | (some l, t) =>
    let b := recordBytes l
    if x.len.toNat < b.length then (some (0x10, 0), s)
    else (some (0, BitVec.ofNat 256 b.length), hostWrite x.addr.toNat b t)

/-- QUERY: the words that the mailbox returns for a selector go to a host buffer. -/
def execQuery (x : SlipIn) (s : State) : Out :=
  .next (takeSlip x.ring 0x0F x.tag {} (fieldsThen (goodFields { align := 64, args := 4 } x) (queryRule (sender s x) x)) s)

end Sys2Proof.Machine
end

