-- ==== Sys2Proof/Machine/Batcher.lean ====
section
/-! DEFINITION. Machine/Batcher.lean: the Grist batcher (R237 to R241). -/

namespace Sys2Proof.Machine

/-- One sampled coordinate of a crop: floor(a + (2k + 1)(b - a) / 2n) with 64 fraction bits, clamped to a layer of `size` positions (R238). -/
def sampleAt (a b : Word) (k n size : Nat) : Nat :=
  let x := fixOf a.toNat
  let y := fixOf b.toNat
  let v := (2 * (n : Int) * x + (2 * (k : Int) + 1) * (y - x)) / (2 * (n : Int) * 2 ^ 64)
  (clampI 0 ((size : Int) - 1) v).toNat

/-- The positions of a crop's bins in its source layer, in row order (R238). -/
def binsOf (ctx : Nat) (b : Batcher) (k : Crop) : List (Nat × Nat) :=
  let t := layerDesc ctx b
  (List.range (b.rh * b.rw)).map fun n =>
    (sampleAt k.x0 k.x1 (n % b.rw) b.rw t.e1, sampleAt k.y0 k.y1 (n / b.rw) b.rh t.e2)

/-- The blocks of one bin: channel block k of the position in the layer, with the block's header and the tag expected of it. -/
def binBlocks (s : State) (cl : Nat) (c : Ctx) (t : Desc) (p : Nat × Nat) : List (List Byte × Nat × Nat) :=
  let key := fun (a : Nat) => shareKey s c a
  let byte := fun (a : Nat) => match key a with
    | some k => (match tfind (cluAt s cl).stackLines k with | some b => b | none => dramByte s k)
    | none => 0
  (List.range (rowBlocks t)).map fun k =>
    let a := rowAddr t p.1 p.2 0 + k * blockBytes t.fmt
    let n := hdrIndex t k p.1 p.2 0
    ((List.range (blockBytes t.fmt)).map fun i => byte (a + i), leNat ((List.range 4).map fun i => byte (hdrAddr t n + i)), expTag t n)

/-- A source line of one bin is poisoned. -/
def binPoisoned (s : State) (cl : Nat) (c : Ctx) (t : Desc) (p : Nat × Nat) : Bool :=
  (List.range (rowBytes t)).any fun i => (shareKey s c (rowAddr t p.1 p.2 0 + i)).any fun k =>
    (tfind (cluAt s cl).stackLines k).isNone && dramPoisoned s k

/-- What the gather writes for one crop: the blocks in slot order, and whether the crop is corrupt, its slot being then filled with empty blocks
(R238, R240). -/
def gather (s : State) (cl ctx : Nat) (c : Ctx) (b : Batcher) (k : Crop) : List (List Byte × Nat) × Bool :=
  let t := layerDesc ctx b
  let bins := binsOf ctx b k
  let l := bins.flatMap (binBlocks s cl c t)
  let bad := k.lost || bins.any (binPoisoned s cl c t) || (quantised t.fmt && l.any fun x => (skewOf x.2.1 x.2.2 false).isSome)
  (l.map fun x => if bad then (List.replicate (blockBytes t.fmt) 0, 0) else (x.1, x.2.1), bad)

/-- The bytes of a slot: the codes of its blocks, then at the next multiple of 64 their headers with the slot's own tags (R142, R238). -/
def slotImage (fmt : Nat) (l : List (List Byte × Nat)) : List Byte :=
  let codes := l.flatMap (·.1)
  let heads := (List.zip (List.range l.length) l).flatMap fun x => leBytes 4 (sealHdr (x.1 % 256) x.2.2)
  codes ++ List.replicate (ceilDiv codes.length 64 * 64 - codes.length) 0 ++ (if quantised fmt then heads else [])

/-- Issue a batch: its job takes the highest priority of its crops' streams and the valid mask of its slots (R239, R240, R288). -/
def issueBatch (cl : Nat) (b : Batch) (s : State) : State :=
  match b.slots with
  | [] => s
  | x :: _ =>
    let (n, s) := takeOrder s
    let prio := (b.slots.map fun x => (strm s x.stream).prio).foldl max 0
    let j : Job := { id := n, ctx := b.ctx, prog := b.prog, stream := x.stream, frame := x.frame, role := 1, prio := prio,
                     admitted := x.frame, cluster := cl, frames := b.slots.map fun x => (x.stream, x.frame),
                     cands := b.slots.map (·.cand), mask := b.slots.map fun x => !x.corrupt, buf := b.buf }
    enqueue j s

/-- The open batch of a program in a cluster, without it. -/
def takeBatch (cl ctx prog : Nat) (s : State) : Option Batch × State :=
  let l := (cluAt s cl).batches
  (l.find? fun b => b.ctx == ctx && b.prog == prog,
   modClu cl (fun k => { k with batches := l.filter fun b => !(b.ctx == ctx && b.prog == prog) }) s)

/-- One crop joins the open batch, or opens one, which draws its buffer; the gather fills its slot, and a batch with TARGET slots issues
(R238, R239). A crop without a buffer is corrupt (R322). -/
def addCrop (cl ctx prog stream order : Nat) (c : Ctx) (b : Batcher) (cand : Nat) (k : Crop) (s : State) : State :=
  let (old, s) := takeBatch cl ctx prog s
  let (cur, s) := match old with
    | some x => (x, s)
    | none =>
      let o := ((cluAt s cl).residencies.find? fun (r : Nat × Residency) => r.2.ctx == ctx).map fun (r : Nat × Residency) => Owner.residency cl r.1 prog
      match o with
      | none => (({ ctx := ctx, prog := prog, slots := [] } : Batch), s)
      | some o =>
        let (p, s) := drawFor 3 o c.owner s
        (({ ctx := ctx, prog := prog, slots := [], buf := p.map fun a => (a, o) } : Batch), s)
  let g := gather s cl ctx c b k
  let slot : BatchSlot := { stream := stream, frame := order, cand := cand, corrupt := g.2 || cur.buf.isNone }
  let s := match cur.buf with
    | some (p, _) => dramWrite c.part (p + cur.slots.length * slotBytes ctx b) (slotImage (layerDesc ctx b).fmt g.1) s
    | none => s
  let cur := { cur with slots := cur.slots ++ [slot] }
  if b.target ≤ cur.slots.length then issueBatch cl cur (countEv (40 + cl) 0x29 1 s)
  else modClu cl (fun k => { k with batches := k.batches ++ [cur] }) s

/-- BATCH_CROP_ARRIVAL: a frame's crops arrive together and fill slots in their order (R239); `frame` is the frame's number. -/
def execBatchCropArrival (cluster ctx prog stream frame : Nat) (crops : List Crop) (s : State) : Out :=
  .next (
    match ready s && decide (cluster < 8) && (residencyOf s cluster ctx).isSome, ctxAt s ctx with
    | true, some c =>
      match c.progs[prog]?, (strm s stream).frames.find? fun f => f.num == some frame with
      | some g, some f =>
        match c.batchers[g.aux]? with
        | some b =>
          if g.role ≠ 1 ∨ f.ctx ≠ ctx ∨ f.result.isSome ∨ !(f.stage == .jobs || f.stage == .tracker) then s else
          if f.crops.any fun x => x.prog == prog then s else
          let l := List.zip (List.range crops.length) crops
          let s := modFrame stream f.order (fun f => { f with crops := f.crops ++ l.map fun x => { prog := prog, cand := x.1 } }) s
          l.foldl (fun s x => addCrop cluster ctx prog stream f.order c b x.1 x.2 s) s
        | none => s
      | _, _ => s
    | _, _ => s)

/-- BATCH_WINDOW_EXPIRY: the oldest slot has waited WINDOW and the batch issues (R239). -/
def execBatchWindowExpiry (cluster ctx prog : Nat) (s : State) : Out :=
  .next (if !ready s || decide (8 ≤ cluster) then s else
    match takeBatch cluster ctx prog s with
    | (some b, s) => issueBatch cluster b (countEv (40 + cluster) 0x2A 1 s)
    | (none, _) => s)

end Sys2Proof.Machine
end

