-- ==== Sys2Proof/Machine/HostLink.lean ====
section
/-! DEFINITION. Machine/HostLink.lean: BAR2, function-level reset, and the loss and return of the host link (R335, R355 to R358). -/

namespace Sys2Proof.Machine

/-! ### BAR2 (R335) -/

/-- BAR2 maps the image staging area (R457). -/
def stagingMapped (s : State) : Bool := s.host.linkUp && !s.pwr.resetting && s.pwr.stage == 2

/-- BAR2 maps DRAM: the memory runs, the partition is present, and the parity of DEV_CTL matches (R479, Table 19.1). -/
def bar2Mapped (s : State) : Bool :=
  s.host.linkUp && !s.pwr.resetting && (decide (7 ≤ s.pwr.stage) && decide (s.pwr.stage ≤ 9)) && !s.err.c4
    && (partAt s s.host.bar2Part).present && !s.err.parity.contains 0x020

/-- Extend the list of written pieces by one byte. -/
def notePiece (key : Nat) (l : List (Nat × Nat)) : List (Nat × Nat) :=
  if l.any fun p => decide (p.1 ≤ key) && decide (key < p.1 + p.2) then l
  else match l.find? fun p => p.1 + p.2 == key with
    | some q => amend (· == q) (fun p => (p.1, p.2 + 1)) l
    | none => (key, 1) :: l

/-- A host write through BAR2. -/
def bar2Put (offset : Nat) (bs : List Byte) (s : State) : State :=
  let bs := bs.take (2 ^ s.host.bar2Size - offset)
  if stagingMapped s then
    { s with sec := { s.sec with staging := memWrite 0 s.sec.staging offset (bs.take (2097152 - offset)) } }
  else if bar2Mapped s then
    let cells := cellsAt s s.host.bar2Part offset bs
    let s := { s with host := { s.host with bar2Written := cells.foldl (fun l c => notePiece c.1 l) s.host.bar2Written } }
    dramPuts cells s
  else s

/-- BAR2_WRITE: writes the selected partition's DRAM, or the staging area during boot-from-host; a write beyond is ignored (R335). -/
def execBar2Write (offset : Nat) (bytes : List Byte) (s : State) : Out := .next (bar2Put offset bytes s)

/-- What BAR2 returns, and whether a line of it is poisoned. -/
def bar2Get (s : State) (offset len : Nat) : List Byte × Bool :=
  if stagingMapped s then (memBytes 0 s.sec.staging offset len, false)
  else if bar2Mapped s then
    (dramRead s s.host.bar2Part offset len,
      (List.range len).any fun i => (keyOf s s.host.bar2Part (offset + i)).any (dramPoisoned s))
  else (List.replicate len 0, false)

/-- BAR2_READ: the completion of a host read; one of a poisoned line carries the poisoned bit (R335). -/
def execBar2Read (offset len : Nat) (s : State) : Out :=
  .next (if !s.host.linkUp || decide (2 ^ s.host.bar2Size < offset + len) then s else
    let r := bar2Get s offset len
    { s with host := { s.host with bar2Data := r.1, bar2Poisoned := r.2 } })

/-! ### Function-level reset (R355, R356, Table 13.11) -/

/-- The buffer owners of a function that hold or reserve. -/
def ownersOf (s : State) (f : Nat) : List Owner :=
  (s.mem.pools.flatMap fun q => q.2.reserves.map (·.owner)).filter fun o =>
    match o with
    | .partition _ => false
    | o => ownerFn s o == f

/-- Buffers of a function into which a media core or an encoder core still works (R328). -/
def activeBufs (s : State) (f : Nat) : List Nat :=
  (s.media.filterMap fun m => if m.2.state = 1 ∧ (strm s m.2.stream).owner = f then m.2.buf else none)
    ++ s.encs.filterMap fun e => if e.2.state = 1 then (e.2.clip.bind fun c => if c.1 = f then (clipOf s c.1 c.2).bind (·.buf) else none) else none

/-- The RING slots of a function return to their reset values, and what was taken from them is discarded; ownership stays. -/
def resetRings (f : Nat) (s : State) : State :=
  { s with
    host := { s.host with rings := tmap s.host.rings fun n r => if r.owner = f then { ringReset n with owner := f } else r }
    sec := { s.sec with attq := s.sec.attq.filter fun a => (ringAt s a.1).owner != f }
    err := { s.err with parity := s.err.parity.filter fun o =>
      !(decide (0x400000 ≤ o) && decide (o < 0x800000) && (ringAt s ((o - 0x400000) / 0x400)).owner == f)
        && !(f == 0 && decide (o < 0x2000)) } }

/-- A stream of a reset function is closed without a gap folio, and nothing of it stays (R302, R355). -/
def forgetStream (id : Nat) (s : State) : State :=
  let st := strm s id
  let s := if st.state = .running then watchRunning id false s else s
  let s := unbind (fun b => b.1 == id) (stopUnits id (dropStreamJobs id s))
  { s with streams := tdrop s.streams id, flows := match st.flow with | some n => tdrop s.flows n | none => s.flows }

/-- A context of a reset function is removed and its DRAM is wiped by the zero map (R328, Table 12.3). -/
def forgetCtx (id : Nat) (s : State) : State :=
  match ctxAt s id with
  | none => s
  | some c =>
    c.area.foldl (fun s a => zeroExtent c.part a.1 a.2 s) (removeCtx id s)

/-- Wipe one piece of a channel: the granules that lie whole in it by their bits, the rest at once (R318, log entry 27). -/
def wipePiece (p : Nat × Nat) (s : State) : State :=
  let m := p.1 / 2 ^ 35
  let o := p.1 % 2 ^ 35
  let gs := (List.range ((o + p.2) / 65536 - ceilDiv o 65536)).map (ceilDiv o 65536 + ·)
  let s := { s with mem := { s.mem with dram := s.mem.dram.filter fun c => !(decide (p.1 ≤ c.1) && decide (c.1 < p.1 + p.2)) } }
  modChan m (fun c => { c with
    poison := c.poison.filter fun l => !(decide (o ≤ 64 * l) && decide (64 * l + 64 ≤ o + p.2))
    zeroMap := c.zeroMap ++ gs.filter fun g => !c.zeroMap.contains g }) s

/-- The function-level reset of one function. -/
def resetFn (f : Nat) (s : State) : State :=
  let active := activeBufs s f
  let owners := ownersOf s f
  let mine := (s.ctxs.filter fun c => c.2.owner == f).map (·.1)
  let s := resetRings f s
  let s := (s.jobs.filter fun j => mine.contains j.ctx).foldl (fun s j => dropJob j.id s) s
  let s := { s with
    clips := s.clips.filter fun k => k.fn != f
    encs := tmap s.encs fun _ e => if e.clip.any fun c => c.1 == f then { e with clip := none } else e }
  let s := resetBuffers f owners active s
  let s := (s.streams.filter fun t => t.2.owner == f && (t.2.state != .closed || !t.2.frames.isEmpty)).foldl (fun s t => forgetStream t.1 s) s
  let s := mine.foldl (fun s id => forgetCtx id s) s
  let next := s.nextCtxs.filter fun c => c.2.owner == f
  let s := next.foldl (fun s c => c.2.area.foldl (fun s a => zeroExtent c.2.part a.1 a.2 s) (freeCtx c.2 s))
    { s with nextCtxs := s.nextCtxs.filter fun c => c.2.owner != f }
  { s with host := { s.host with fns := tset s.host.fns f {} } }

/-- A host packet ring is disabled. -/
def ringOff (r : PktRing) : PktRing := { r with size := r.size &&& 0x7FFFFFFF, written := 0 }

/-- What only PF0's reset does: VF Enable, BAR2, its host packet rings, every window, the lost link (R356, R358, R374, Table 12.3). -/
def resetPf0 (s : State) : State :=
  let s := clearWindows (fun _ => true) (s.host.bar2Written.foldl (fun s p => wipePiece p s) s)
  { s with
    host := { s.host with numVfs := 0, linkLost := false, bar2Part := 1, bar2Written := [] }
    ports := tmap s.ports fun _ p => { p with rx := ringOff p.rx, tx := ringOff p.tx } }

/-- The part of a function-level reset that the host island does alone, the others being stopped by C4 (R25). -/
def resetFnHost (f : Nat) (s : State) : State :=
  let s := resetRings f s
  { s with host := { s.host with fns := tset s.host.fns f {} } }

/-- FUNCTION_LEVEL_RESET: one function, or PF0 with every VF (R355, R356). -/
def execFunctionLevelReset (fn : Nat) (s : State) : Out :=
  .next (
    if !s.host.linkUp || s.pwr.resetting || !fnPresent s fn || decide (32 ≤ fn) then s
    else
      let one := fun (f : Nat) (s : State) => if s.err.c4 then resetFnHost f s else resetFn f s
      let s := if fn = 0 then resetPf0 ((List.range 32).foldl (fun s f => one f s) s) else one fn s
      driveInta (settleC3 s))

/-! ### Loss and return of the host link (R358) -/

/-- Discard the receipts that wait on a ring, and count them. -/
def dropReceipts (s : State) : State :=
  let n := (s.host.rings.map fun r => (r.2.taken.filter fun t => t.done.isSome).length).sum
  { s with host := { s.host with
      discReceipts := satInc s.host.discReceipts n
      rings := tmap s.host.rings fun _ r => { r with taken := r.taken.filter (fun t => t.done.isNone), unannounced := 0, merges := [] } } }

/-- Discard the sealed folios that await delivery, and count them. -/
def dropSealed (s : State) : State :=
  let l := s.streams.flatMap fun t => (t.2.frames.filter (·.sealed)).map fun f => (t.1, f)
  l.foldl (fun s p => dropFolio p.1 p.2 s) { s with host := { s.host with discFolios := satInc s.host.discFolios l.length } }

/-- HOST_LINK_DOWN: the link goes down without PERST_N: undelivered receipts and folios are discarded and counted, and every function's
session ends (R358, R386). -/
def execHostLinkDown (s : State) : Out :=
  .next (
    if !s.host.linkUp || s.pwr.resetting then s
    else
      let s := { s with host := { s.host with linkUp := false, linkLost := true,
                                              fns := tmap s.host.fns fun _ f => { f with sessionEnded := true, pendingVec := [] } } }
      driveInta (dropSealed (dropReceipts s)))

/-- HOST_LINK_UP: the link returns without PERST_N: every ring is disabled, and a HOST_LINK event reports the loss (R358). -/
def execHostLinkUp (s : State) : Out :=
  .next (
    if s.host.linkUp || !s.host.linkLost || s.pwr.resetting then s
    else
      let s := { s with host := { s.host with linkUp := true
                                              rings := tmap s.host.rings fun _ r => { r with enable := false, unannounced := 0, merges := [] } } }
      driveInta (emit { type := 9, source := 0x09 } s))

end Sys2Proof.Machine
end

