-- ==== Sys2Proof/Machine/SelfTest.lean ====
section
/-! DEFINITION. Machine/SelfTest.lean: in-service tests (R451) and the periodic test slots of partition 0 (R412 to R414). -/

namespace Sys2Proof.Machine

/-! ### In-service tests (R451) -/

/-- The logical core of cluster cl that waits on its stand-in while physical core ph is out for its test: ph serves no logical core and is
not the one held as spare. -/
def outForTest (s : State) (ph : Nat) : Option Nat :=
  let cl := cluAt s (ph / 5)
  let serves := (List.range 4).any fun n => tget cl.phys n n == ph % 5
  if serves || cl.spare == some (ph % 5) || (coreAt s ph).health == .withdrawn then none else cl.standin

/-- A core's test starts: from the stand-in on, at level 0, or up to level 3 for a queued core that serves partition 0. -/
def startCoreTest (ph : Nat) (s : State) : State :=
  let cl := cluAt s (ph / 5)
  match outForTest s ph with
  | none => s
  | some n =>
    let p0 := partOfCore s (4 * (ph / 5) + n) == 0 && (coreAt s ph).health == .queued
    if !cl.inService || cl.testing.isSome || (s.pwr.level != 0 && !(p0 && decide (s.pwr.level < 4))) then s
    else
      beginCensus ph 3 (modClu (ph / 5) (fun k => { k with testing := some (ph % 5) }) (modCore ph (fun k => { k with health := .underTest }) s))

/-- A media core's test starts by withdrawal: while its partition has another media core in service, at level 0, when it is queued,
withdrawn, or the rotation runs. -/
def startMediaTest (n : Nat) (s : State) : State :=
  let m := mediaAt s n
  let others := match (List.range 4).find? fun p => (partAt s p).present && nbit (partAt s p).media n with
    | some p => (mediaIn s p).filter (· != n)
    | none => []
  if others.isEmpty || s.pwr.level != 0 || !(m.state == 0 || m.state == 2) || !(m.testQueued || m.state == 2 || istOf s != 0) then s
  else beginCensus (48 + n) 3 (modMedia n (fun m => { m with state := 3 }) s)

/-- IN_SERVICE_TEST_START. -/
def execInServiceTestStart (unit : TestUnit) (s : State) : Out :=
  .next (if !ready s then s else
    match unit with
    | .core ph => if ph < 40 then startCoreTest ph s else s
    | .media n => if n < 32 then startMediaTest n s else s)

/-- A repair goes into a new repair record of at most 512 entries (R449, R451). -/
def recordRepair (entry : BitVec 128) (s : State) : State :=
  let old := s.nv.record.getD {}
  writeRecord { seq := old.seq + 1, entries := (old.entries ++ [entry]).take 512 } s

/-- The TEST event: the unit and its outcome. -/
def testEvent (source unit : Nat) (outcome : TestOutcome) (s : State) : State :=
  let k := match outcome with | .pass => 0 | .repaired _ => 1 | .retired => 2
  emit { type := 7, source := source, unit := some unit, code := Config.testCode k } s

/-- What every outcome records. -/
def noteOutcome (outcome : TestOutcome) (s : State) : State :=
  match outcome with
  | .repaired e => recordRepair e s
  | _ => s

/-- A repair entry is one of physical core ph with an action from lo to hi (Table 17.8). -/
def entryFor (ph lo hi : Nat) (x : BitVec 128) : Bool :=
  x.toNat % 2 ^ 16 == ph && decide (lo ≤ bits x.toNat 30 24) && decide (bits x.toNat 30 24 ≤ hi)

/-- The unserviceable physical columns of engine e of physical core ph that entries name, of 520, rising (R66, Table 17.8). -/
def columnsOf (l : List (BitVec 128)) (ph e : Nat) : List Nat :=
  let named := (l.filter fun x => entryFor ph 3 3 x && Config.arrayEngine (bits x.toNat 39 32) % 2 == e).map fun x => Config.repairColumn x % 520
  (List.range 520).filter named.contains

/-- Logical column j of an engine is its j-th serviceable physical column in ascending order (R66). -/
def physCol (bad : List Nat) (j : Nat) : Nat := ((List.range 520).filter fun n => !bad.contains n).getD j 520

/-- Spare columns in use: those past the 512th physical column that a logical column stands on (R66, Table 3.11). -/
def sparesUsed (bad : List Nat) : Nat := physCol bad 511 - 511

/-- A core takes repair entries: columns of its engines (R66), and rows and columns of its SRAMs (R67). -/
def takeEntries (l : List (BitVec 128)) (ph : Nat) (k : Core) : Core :=
  let join := fun (old new : List Nat) => (List.range 520).filter fun n => old.contains n || new.contains n
  { k with bad0 := join k.bad0 (columnsOf l ph 0), bad1 := join k.bad1 (columnsOf l ph 1)
           sramFixes := k.sramFixes ++ l.filter (entryFor ph 1 2) }

/-- A core that its spares cannot repair: more than eight unserviceable columns in an engine, or SRAM faults beyond the spares (R67). -/
def beyondRepair (k : Core) : Bool := decide (8 < k.bad0.length) || decide (8 < k.bad1.length) || !Config.sparesCover k.sramFixes

/-- A core's test ends: a tested or repaired core becomes the cluster's spare and the stand-in keeps the logical core; otherwise, or where the
repair exceeds its spares (R67), it is retired, the stand-in stays, and the cluster has no spare (Table 3.12). -/
def endCoreTest (ph : Nat) (outcome : TestOutcome) (s : State) : State :=
  let cl := cluAt s (ph / 5)
  if cl.testing ≠ some (ph % 5) then s else
  let (o, s) := takeOrder s
  let n := cl.standin.getD 0
  let s := endCensus ph 3 (noteOutcome outcome s)
  let s := match outcome with
    | .repaired x => modCore ph (takeEntries [x] ph) s
    | _ => s
  let outcome := if beyondRepair (coreAt s ph) then .retired else outcome
  let s := match outcome with
    | .retired =>
      modClu (ph / 5) (fun k => { k with testing := none, spare := none }) (modCore ph (fun k => { k with health := .withdrawn, carrel := [] }) s)
    | _ =>
      modClu (ph / 5) (fun k => { k with testing := none, standin := none, spare := some (ph % 5) })
        (modCore ph (fun k => { k with health := .inService, lastTest := o, carrel := [], wiped := false, regs := {}, e0 := {}, e1 := {} }) s)
  testEvent 0x02 (4 * (ph / 5) + n) outcome s

/-- A media core's test ends: it returns to service, or stays withdrawn. -/
def endMediaTest (n : Nat) (outcome : TestOutcome) (s : State) : State :=
  if (mediaAt s n).state ≠ 3 then s else
  let gone := match outcome with | .retired => true | _ => false
  let s := modMedia n (fun m => { m with state := if gone then 2 else 0, fails := if gone then m.fails else 0, testQueued := false }) s
  testEvent 0x03 n outcome (endCensus (48 + n) 3 (noteOutcome outcome s))

/-- IN_SERVICE_TEST_END. -/
def execInServiceTestEnd (unit : TestUnit) (outcome : TestOutcome) (s : State) : Out :=
  .next (if !ready s then s else
    match unit with
    | .core ph => if ph < 40 then endCoreTest ph outcome s else s
    | .media n => if n < 32 then endMediaTest n outcome s else s)

/-! ### Periodic test slots (R412 to R414) -/

/-- A picture of a stream homed on logical core c is in decode or pre-processing: the stream's jobs have run there, or have not run yet and
its home is the core's cluster. -/
def pictureNear (s : State) (c : Nat) : Bool :=
  s.streams.any fun t =>
    t.2.home == some (c / 4) && (t.2.lastCore.isEmpty || t.2.lastCore.any fun l => l.2 == c)
      && (s.media.any (fun m => m.2.state == 1 && m.2.stream == t.1) || t.2.frames.any fun f => f.stage == .preproc)

/-- TEST_SLOT_START: a slot starts on an idle core of partition 0 under every condition of R413; `batchDue` says that a batch for the core
reaches its window within 40 µs. It destroys the core's accumulators and weights (R412). -/
def execTestSlotStart (c : Nat) (batchDue : Bool) (s : State) : Out :=
  .next (match ready s && decide (s.pwr.level < 4) && decide (c < 32), servedBy s c with
    | true, some ph =>
      let k := coreAt s ph
      let busy := k.part.isSome || !k.saved.isEmpty || k.inSlot || s.pwr.stopped.contains ph
        || (cluAt s (c / 4)).moving.any (fun m => m.1 == c % 4) || s.jobs.any (fun j => j.state == .queued c) || pictureNear s c || batchDue
      if partOfCore s c != 0 || busy then s
      else modCore ph (fun k => { k with inSlot := true, e0 := {}, e1 := {} }) s
    | _, _ => s)

/-- TEST_SLOT_END: the signature is compared; a mismatch is counted, reported, makes SAFE_OK not-OK at once and queues the core for test
(R414). -/
def execTestSlotEnd (c : Nat) (mismatch : Bool) (s : State) : Out :=
  .next (match ready s, servedBy s c with
    | true, some ph =>
      if !(coreAt s ph).inSlot then s else
      let s := modCore ph (fun k => { k with inSlot := false, slots := min (k.slots + 1) 25 }) s
      if !mismatch then s else
      let s := dirtyAll { s with saf := { s.saf with testfail := satInc s.saf.testfail } }
      let s := emit { cls := 1, part := some 0, source := 0x01, unit := some c } s
      takeTestDue c ph (moveQueue c (modCore ph (fun k => { k with testDue := true }) s))
    | _, _ => s)

/-- TEST_INTERVAL_EXPIRY: a core of partition 0 with slots outstanding takes no further job there, and its in-service test is queued, for
which the spare stands in at its next job boundary (R414); the next interval begins. -/
def execTestIntervalExpiry (c : Nat) (s : State) : Out :=
  .next (match ready s, servedBy s c with
    | true, some ph =>
      if partOfCore s c != 0 || s.saf.held then s else
      let late := decide ((coreAt s ph).slots < 25)
      let s := modCore ph (fun k => { k with slots := 0 }) s
      if !late then s else
      let s := { s with saf := { s.saf with testlate := satInc s.saf.testlate } }
      takeTestDue c ph (moveQueue c (modCore ph (fun k => { k with testDue := true }) s))
    | _, _ => s)

end Sys2Proof.Machine
end

