-- ==== Sys2Proof/Machine/Fabric.lean ====
section
/-! DEFINITION. Machine/Fabric.lean: the fabric's links, the catalogue walk, forwarding, windows, and both ends of a remote access (R359 to
R385). -/

namespace Sys2Proof.Machine

/-! ### Links (R360, R361, R381 to R383) -/

/-- Change the fabric's own state. -/
def modFab (f : FabSt → FabSt) (s : State) : State := { s with fab := f s.fab }

/-- The fabric runs: the device is ready, ENABLE is set and the level is below 4 (R382). -/
def fabricRuns (s : State) : Bool := ready s && s.fab.enable && decide (s.pwr.level < 4) && !(s.err.parity.contains 0x060000 || s.err.parity.contains 0x060004)

/-- A port whose link carries packets, at least on VC0. -/
def portUp (s : State) (n : Nat) : Bool :=
  decide (n < 4) && decide (2 ≤ (fabPort s n).state) && decide ((fabPort s n).state ≤ 4)

/-- A management packet of this device on one port. -/
def sendManage (type n : Nat) (dst : BitVec 16) (payload : List Byte) (s : State) : State :=
  handOver 4 (ownPacket s dst type 0 0 0 0 0 payload) [(n, false)] s

/-- Flood LINKSTATE with given port states on every port that carries packets (R361). -/
def flood (states : Nat) (s : State) : State :=
  (fabPorts s).foldl (fun s n => if portUp s n then sendManage 0x03 n 0xFFFF (leBytes 16 (Config.linkstatePayload s.fab.call states).toNat) s else s) s

/-- A C0 event of the fabric. -/
def fabEvent (unit : Option Nat) (s : State) : State := emit { cls := 0, source := 0x0A, unit := unit } s

/-- A destination waits while packets sent on an older route are unanswered (R370). -/
def pendingTo (s : State) (d : BitVec 16) : Bool := s.fab.remotes.any fun r => r.peer == d && r.sent && !r.answered

/-- Rebuild the detour table; a destination whose route changed is held until its earlier packets are answered (R369, R370). -/
def rebuild (s : State) : State :=
  if s.fab.call = 0xFFFE then s else
  let d := detourTable s
  let t := modFab (fun f => { f with detours := d.1, detourFull := d.2 }) s
  let moved := ((s.fab.remotes.map (·.peer)).eraseDups).filter fun p => pendingTo s p && egress s p != egress t p
  let t := modFab (fun f => { f with heldDst := (f.heldDst ++ moved).eraseDups }) t
  if d.2 && !s.fab.detourFull then fabEvent none t else t

/-- A port changes its state: logged, announced, and routed around (R361, R369). -/
def linkChange (n : Nat) (f : FabPort → FabPort) (s : State) : State :=
  let old := (fabPort s n).state
  let s := modPort n f s
  if (fabPort s n).state = old then s else rerouteHeld (rebuild (flood (portStates s) (fabEvent (some n) s)))

/-- A port without a link: no credits are out at its far end. -/
def lowered (state : Nat) (p : FabPort) : FabPort :=
  { p with state := state, width := 0, neighbour := 0xFFFE, replays := 0, draining := false, used := [] }

/-- The links go down after the flood that marks them down (R382, R446). -/
def linksDown (s : State) : State :=
  rerouteHeld (rebuild (modFab (fun f => { f with linksDownDue := false })
    ((List.range 4).foldl (fun s n => if (fabPort s n).state = 0 then s else fabEvent (some n) (modPort n (lowered 0) s)) s)))

/-- The flood of a level 4 that ended before its links went down is taken back (R382). -/
def unflood (s : State) : State :=
  if s.fab.linksDownDue then flood (portStates s) (modFab (fun f => { f with linksDownDue := false }) s) else s

/-- Flood LINKSTATE marking every port down; the links follow 1 ms later (R382). -/
def floodDown (s : State) : State := modFab (fun f => { f with linksDownDue := f.enable }) (flood 0 s)

/-- The links retrain when the level has fallen below 4 (R382). -/
def linksTrain (s : State) : State :=
  if !s.fab.enable then s else
  (fabPorts s).foldl (fun s n => if (fabPort s n).state = 0 then linkChange n (fun p => { p with state := 1 }) s else s) s

/-- SHED_LINKS_DOWN: 1 ms after the flood of level 4 the links go down (R382). -/
def execShedLinksDown (s : State) : Out := .next (if s.fab.linksDownDue && s.pwr.level == 4 then linksDown s else s)

/-- Offer a neighbour its coordinates (R365, R367). -/
def offer (n : Nat) (s : State) : State :=
  let q := hop s (callX s.fab.call) (callY s.fab.call) n
  sendManage 0x02 n (fabPort s n).neighbour (leBytes 16 (Config.assignPayload q.1 q.2).toNat) s

/-- FAB_LINK_UP: training settles on x4 or x8; after the walk a neighbour that names another root is isolated (R366), and any other gets
its coordinates (R367). -/
def execFabLinkUp (port width : Nat) (neighbour : BitVec 16) (root : Dword) (s : State) : Out :=
  .next (
    if !fabricRuns s || !(fabPorts s).contains port || decide (2 ≤ (fabPort s port).state) || !(width == 1 || width == 2) then s else
    let split := s.fab.walk == 2 && neighbour != 0xFFFE && root != s.fab.lowest
    let s := if split then modFab (fun f => { f with split := true }) s else s
    let s := linkChange port (fun p => { p with state := if split then 3 else 2, width := width, neighbour := neighbour, root := root, replays := 0 }) s
    if s.fab.walk = 2 ∧ !split then offer port s else s)

/-- FAB_LINK_DOWN: 10 µs of silence, or a draining port whose buffers are empty, which goes on to train (R360, R383). -/
def execFabLinkDown (port : Nat) (s : State) : Out :=
  .next (
    if !s.fab.enable || !ready s || !portUp s port then s
    else linkChange port (lowered (if (fabPort s port).state = 4 then 1 else 0)) s)

/-- FAB_TRAIN_RETRY: a link that is down tries to train again (R361). -/
def execFabTrainRetry (port : Nat) (ok : Bool) (s : State) : Out :=
  .next (
    if !fabricRuns s || !(fabPorts s).contains port || decide (2 ≤ (fabPort s port).state) then s
    else linkChange port (fun p => { p with state := b2n ok }) s)

/-- A planned retraining begins: the port drains and is routed around (Table 14.9). -/
def startRetrain (port : Nat) (s : State) : State :=
  if fabricRuns s && decide (port < 4) && (fabPort s port).state == 2
  then linkChange port (fun p => { p with state := 4, draining := true }) s else s

/-- FEC_RETRAIN: FEC corrections above 10^6 per second for 10 s (R383). -/
def execFecRetrain (port : Nat) (s : State) : Out := .next (startRetrain port s)

/-- FLIT_REPLAY: a replay is counted; the eighth in a row of one flit takes the link down to train (R360). -/
def execFlitReplay (port : Nat) (again : Bool) (s : State) : Out :=
  .next (
    if !ready s || !portUp s port then s else
    let n := if again then (fabPort s port).replays + 1 else 1
    let s := modPort port (fun p => { p with replays := n }) (modFab (fun f => { f with replay := satInc f.replay }) s)
    if n < 8 then s else linkChange port (lowered 1) s)

/-! ### The catalogue walk (R364 to R367) -/

/-- A walk begins: no call number, no catalogue, the own serial the lowest heard (R365). -/
def startWalk (s : State) : State :=
  let s := { s with fab := { s.fab with walk := 1, root := false, split := false, miswired := false, call := 0xFFFE, lowest := s.nv.serial,
                                        peers := [], detours := [], detourFull := false } }
  (List.range 4).foldl (fun s n => if (fabPort s n).state = 3 then modPort n (fun p => { p with state := 2 }) s else s) s

/-- CAT_SEND: during the walk a CAT goes out on every up port. -/
def execCatSend (s : State) : Out :=
  .next (
    if !fabricRuns s || s.fab.walk != 1 then s else
    (fabPorts s).foldl (fun s n =>
      if portUp s n then
        sendManage 0x01 n (fabPort s n).neighbour (leBytes 32 (Config.catPayload s.nv.serial s.fab.lowest s.fab.domain s.fab.call).toNat) s
      else s) s)

/-- CAT: a neighbour's announcement enters the catalogue, and the lowest serial heard follows it. -/
def execCat (port : Nat) (serial lowest : Dword) (domain : Byte) (call : BitVec 16) (s : State) : Out :=
  .next (
    if !fabricRuns s || !portUp s port then s else
    let s := modPort port (fun p => { p with serial := serial, domain := domain, root := lowest, neighbour := call }) s
    let s := if s.fab.walk = 1 ∧ lowest.toNat < s.fab.lowest.toNat then modFab (fun f => { f with lowest := lowest }) s else s
    if call = 0xFFFE then s
    else modFab (fun f => { f with peers := tmod f.peers {} call.toNat fun p => { p with known := true, serial := serial, domain := domain } }) s)

/-- The end of the walk: the device offers its neighbours their coordinates, floods LINKSTATE, builds its table and reports WALK_DONE. -/
def finishWalk (from' : Option Nat) (s : State) : State :=
  let s := (fabPorts s).foldl (fun s n => if portUp s n && some n != from' then offer n s else s) s
  let s := modFab (fun f => { f with walk := 2, walks := satInc f.walks }) s
  emit { type := 4, source := 0x0D } (rebuild (flood (portStates s) s))

/-- ROOT_ELECTION: the lowest serial heard has stood for 2 ms; the device that carries it takes (0, 0). -/
def execRootElection (s : State) : Out :=
  .next (
    if !fabricRuns s || s.fab.walk != 1 || s.fab.call != 0xFFFE || s.fab.lowest != s.nv.serial then s
    else finishWalk none (modFab (fun f => { f with root := true, call := 0 }) s))

/-- ASSIGN: an unassigned device takes the coordinates; an offer that disagrees isolates its port (R366). -/
def execAssign (port x y : Nat) (s : State) : Out :=
  .next (
    if !fabricRuns s || !portUp s port || decide (s.fab.sx ≤ x) || decide (s.fab.sy ≤ y) then s
    else if s.fab.call = 0xFFFE then finishWalk (some port) (modFab (fun f => { f with call := callAt x y }) s)
    else if s.fab.call = callAt x y then s
    else linkChange port (fun p => { p with state := 3 }) (fabEvent (some port) (modFab (fun f => { f with miswired := true }) s)))

/-- LINKSTATE: a peer's port states; the table is rebuilt (R369). -/
def execLinkstate (call ports : BitVec 16) (s : State) : Out :=
  .next (
    if !fabricRuns s || call == 0xFFFE || call == s.fab.call then s
    else rebuild (modFab (fun f => { f with peers := tmod f.peers {} call.toNat fun p => { p with ports := ports, reported := true } }) s))

/-! ### Packets (R362, R363, R368) -/

/-- The flits of a port bring buffer credits back, a free amount of those out in each buffer (R371, log entry 60). -/
def creditsReturn (n : Nat) (s : State) : State :=
  let k := s.fab.returns
  modFab (fun f => { f with returns := f.returns + 1 })
    (modPort n (fun p => { p with used := (tmap p.used fun b u => u - Config.creditsBack k n b).filter fun u => u.2 != 0 }) s)

/-- The flits that have come in since the last packet: returned credits let held packets go (R371). -/
def flitsArrive (s : State) : State :=
  if !fabricRuns s || (List.range 4).all (fun n => (fabPort s n).used.isEmpty) then s
  else servePorts ((List.range 4).foldl (fun s n => if portUp s n && !(fabPort s n).used.isEmpty then creditsReturn n s else s) s)

/-- An idle device takes the idle flits of its links; nothing else happens (log entries 1 and 60). -/
def idle (s : State) : State := flitsArrive s

/-- The types of Table 14.3. -/
def packetTypes : List Nat := [0x01, 0x02, 0x03, 0x10, 0x11, 0x12, 0x20, 0x21, 0x22]

/-- A field of the header has a reserved value, or a value outside Table 14.2. -/
def reservedPacket (p : Packet) : Bool :=
  let n := p.rlen.toNat
  p.rsv7 != 0 || p.rsv13 != 0 || decide (16 ≤ p.ctrl.toNat) || p.ctrl.toNat / 4 == 3 || !packetTypes.contains p.type.toNat || decide (4096 < p.payload.length)
    || (if p.type = 0x10 then decide (n < 64) || decide (4096 < n) || n % 64 != 0 else n != 0)
    || (p.type != 0x22 && p.offset.toNat % 64 != 0)

/-- A packet that a device drops on arrival (R363). -/
def dropsPacket (p : Packet) : Bool :=
  !hcrcOk p || reservedPacket p || p.ttl == 0 || p.dst == 0xFFFE || (p.dst == 0xFFFF && p.ctrl.toNat % 4 != 0)

/-- Count a dropped packet. -/
def countDrop (s : State) : State := modFab (fun f => { f with drop := satInc f.drop }) s

/-- A port brings a packet of a VC: an isolated port carries VC0 alone (R366), and no packet comes without room in its buffer (R371). -/
def arrives (s : State) (port : Nat) (p : Packet) : Bool :=
  fabricRuns s && portUp s port && ((fabPort s port).state != 3 || p.ctrl.toNat % 4 == 0) && roomFor s port p

/-- Where a packet for another device goes: one for every device to each other port that is up. -/
def forwardWays (s : State) (port : Nat) (dst : BitVec 16) : List (Nat × Bool) :=
  if dst = 0xFFFF then ((fabPorts s).filter fun n => n != port && portUp s n).map fun n => (n, false) else (egress s dst).toList

/-- A packet for another device, once the flits before it are in. -/
def forwardNow (port : Nat) (p : Packet) (s : State) : State :=
  if !arrives s port p || p.dst == s.fab.call then s
  else if dropsPacket p then countDrop s
  else if s.fab.call = 0xFFFE then s
  else handOver port p (forwardWays s port p.dst) s

/-- FORWARD: a packet for another device is checked and passed on; one for every device goes to each other port; an unassigned device
forwards nothing; a packet without buffer credits waits in its input buffer (R363, R364, R368, R371). -/
def execForward (port : Nat) (p : Packet) (s : State) : Out := .next (forwardNow port p (flitsArrive s))

/-! ### The destination of a remote access (R363, R377, R379) -/

/-- Answer a request. -/
def respond (p : Packet) (type : Nat) (offset : Nat) (payload : List Byte) (s : State) : State :=
  (sendOwn (ownPacket s p.src type 2 p.txid.toNat 0 0 offset payload) s).1

/-- Answer a request with a NAK, which is counted. -/
def refuse (p : Packet) (reason : Nat) (s : State) : State :=
  respond p 0x22 reason [] (modFab (fun f => { f with nakCount := satInc f.nakCount }) s)

/-- The reason with which a request for n bytes is refused; none when its EXPORT window serves it. A peer that the window does not let in
counts as a permission (log entry 42). -/
def refusalOf (s : State) (p : Packet) (n : Nat) (wr : Bool) : Option Nat :=
  let w := tget s.fab.wins {} p.win.toNat
  if !w.valid || !w.exported || (ctxAt s w.ctx).isNone then some 1
  else if !(w.peer == 0xFFFF || w.peer == p.src) || decide (w.len < p.offset.toNat + n) || !(if wr then w.canWrite else w.canRead) then some 2
  else none

/-- The exporting context, its definition, and the offset of a request in its global share. -/
def exportPlace (s : State) (p : Packet) : Option (Nat × Ctx × Nat) :=
  let w := tget s.fab.wins {} p.win.toNat
  (ctxAt s w.ctx).map fun c => (w.ctx, c, w.off.toNat + p.offset.toNat)

/-- The keys of n bytes of a context's global share. -/
def shareKeys (s : State) (c : Ctx) (x n : Nat) : List Nat := (List.range n).filterMap fun i => shareKey s c (x + i)

/-- Serve a request that reached this device. -/
def serve (port : Nat) (p : Packet) (type n : Nat) (wr : Bool) (k : Nat × Ctx × Nat → State → State) (s : State) : State :=
  let s := flitsArrive s
  if !arrives s port p || p.dst != s.fab.call || p.type.toNat != type then s
  else if dropsPacket p then countDrop s
  else if !pcrcOk p then refuse p 3 s
  else match refusalOf s p n wr, exportPlace s p with
    | some r, _ => refuse p r s
    | none, some w => k w s
    | none, none => refuse p 1 s

/-- Charge the exporting context (R379). -/
def chargeExport (ctx n : Nat) (s : State) : State := charge ctx (fun a => { a with fabricBytes := hold64 (a.fabricBytes + n) }) s

/-- Whether any of n bytes of a share is poisoned or out of service. -/
def exportPoisoned (s : State) (c : Ctx) (x n : Nat) : Bool := (shareKeys s c x n).any (dramPoisoned s)

/-- READ: a remote read of an EXPORT window. -/
def execRead (port : Nat) (p : Packet) (s : State) : Out :=
  .next (serve port p 0x10 p.rlen.toNat false (fun w s =>
    let n := p.rlen.toNat
    if exportPoisoned s w.2.1 w.2.2 n then refuse p 5 s
    else respond p 0x20 0 ((List.range n).map fun i => ((shareKey s w.2.1 (w.2.2 + i)).map (dramByte s)).getD 0) (chargeExport w.1 n s)) s)

/-- A write meets a channel that has failed. -/
def writeLost (s : State) (c : Ctx) (x n : Nat) : Bool :=
  (shareKeys s c x n).any fun k => (tget s.mem.channels {} (k / 2 ^ 35)).failed

/-- WRITE: a remote write of an EXPORT window, visible at DEVICE scope once acknowledged. -/
def execWrite (port : Nat) (p : Packet) (s : State) : Out :=
  .next (serve port p 0x11 p.payload.length true (fun w s =>
    let n := p.payload.length
    if writeLost s w.2.1 w.2.2 n then refuse p 5 s
    else
      let cells := (List.zip (List.range n) p.payload).filterMap fun x => (shareKey s w.2.1 (w.2.2 + x.1)).map fun k => (k, x.2)
      respond p 0x21 0 [] (chargeExport w.1 n (dramPuts cells (dropLines (cells.map (·.1)) s)))) s)

/-- WRITE_SIG: SEMS 1 on the export's signal semaphore; one that the exporting context does not hold, and a count at its largest, are out
of range (log entry 42). -/
def execWriteSig (port : Nat) (p : Packet) (s : State) : Out :=
  .next (serve port p 0x12 0 true (fun w s =>
    let x := tget s.fab.wins {} p.win.toNat
    match residencyOf s x.sigClu w.1, x.sigEn with
    | some r, true =>
      let k := r.semBase + x.sigSem
      if r.nsem ≤ x.sigSem ∨ 65535 ≤ tget (cluAt s x.sigClu).sems 0 k then refuse p 2 s
      else respond p 0x21 0 [] (grantSems x.sigClu (modClu x.sigClu (fun c => { c with sems := tset c.sems k (tget c.sems 0 k + 1) }) s))
    | _, _ => refuse p 2 s) s)

/-! ### The source of a remote access (R376 to R378) -/

/-- The logical core that a physical core serves. -/
def logicalOf (s : State) (ph : Nat) : Option Nat := (List.range 32).find? fun c => servedBy s c == some ph

/-- The remote operation that the part on a core waits for. -/
def remoteOpOf (s : State) (ph : Nat) : Option RemoteOp :=
  match (coreAt s ph).part with
  | some p => match p.wait with | .remote op => some op | _ => none
  | none => none

/-- The packets of the access of a core. -/
def packetsOf (s : State) (ph : Nat) : List Remote := s.fab.remotes.filter fun r => r.core == ph

/-- What of a failed TLD had landed: the bytes that the answered packets alone decide. -/
def landedPart (cb : List Byte) (got : List Remote) (turn : Bool) (d t : Desc) : List (Nat × List Byte) :=
  let rd := fun (dflt : Byte) (a : Nat) =>
    match got.find? fun r => decide (r.land ≤ a) && decide (a < r.land + r.len) with
    | some r => r.data.getD (a - r.land) 0
    | none => dflt
  ((copyWrites cb (rd 0) [] turn d t).zip (copyWrites cb (rd 255) [] turn d t)).filterMap fun w =>
    if w.1 == w.2 then some w.1 else none

/-- The claim of a failed COMMIT returns to RELEASED (R123, R378). -/
def releaseCommit (job : Nat) (op : RemoteOp) (s : State) : State :=
  match op, jobOf s job with
  | .commit key, some j => setClaim j.ctx (frameNumber s j) j.stream key .released s
  | _, _ => s

/-- The remote access of a core fails: ACCESS for a refused window or range, else MEMORY of fabric origin (R378). The fault is taken once the
core's earlier queued transfers have completed (R125). -/
def failRemote (ph : Nat) (access : Bool) (s : State) : State :=
  match (logicalOf s ph).bind (waitingEnv s), remoteOpOf s ph with
  | some e, some op =>
    let s := match op with
      | .load dst src turn =>
        spaceWrites e false (landedPart e.ctx.codebooks ((packetsOf s ph).filter (·.answered)) turn (descOf dst) (descOf src)) s
      | _ => s
    let w := if access then Wait.failing 0x02 0x02 true else .failing 0x04 0x05 true
    settlePart e.c (holdPart e w (dropPackets (fun r => r.core == ph) (releaseCommit e.part.job op s)))
  | _, _ => s

/-- Send what may be sent: the groups of waiting cores, lowest first; a destination that has become unreachable fails its access (R369,
R376). -/
def pump (s : State) : State :=
  let s := modFab (fun f => { f with heldDst := f.heldDst.filter (pendingTo s) }) s
  ((s.fab.remotes.filter fun r => !r.sent).map (·.core)).eraseDups.foldl (fun s ph =>
    match (packetsOf s ph).find? fun r => !r.sent with
    | some r => if (egress s r.peer).isNone && !(packetsOf s ph).any (fun r => r.sent && !r.answered) then failRemote ph false s else sendGroup ph s
    | none => s) s

/-- A packet is answered and its link credit returns. -/
def answerPacket (r : Remote) (data : List Byte) (s : State) : State :=
  let s := modPart r.part (fun q => { q with credits := q.credits - 1 }) s
  let s := modFab (fun f => { f with remotes := amend (fun x => x.txid == r.txid) (fun x => { x with answered := true, data := data }) f.remotes }) s
  settleFences r.job s

/-- The import window through which a COMMIT went asks for a signal (R377, log entry 42). -/
def wantsSignal (s : State) (ctx : Nat) (r : Remote) : Bool :=
  s.fab.wins.any fun w => w.2.valid && !w.2.exported && w.2.ctx == ctx && w.2.peer == r.peer && w.2.peerWin == r.win && w.2.sigEn

/-- The sequencer of a core goes on. -/
def endWait (ph : Nat) (s : State) : State := modCore ph (fun k => { k with part := k.part.map fun p => { p with wait := Wait.none } }) s

/-- The copy of a COMMIT through an IMPORT window is visible: its key is COMMITTED (R123, R174). -/
def commitDone (job : Nat) (op : RemoteOp) (s : State) : State :=
  match op, jobOf s job with
  | .commit key, some j => setClaim j.ctx (frameNumber s j) j.stream key .committed s
  | _, _ => s

/-- Every packet of a core's access is answered: a COMMIT may still send its WRITE_SIG; then the access takes effect and the instruction is
complete. -/
def finishRemote (ph : Nat) (s : State) : State :=
  let mine := packetsOf s ph
  if mine.isEmpty || mine.any (fun r => !r.answered) then s else
  match (logicalOf s ph).bind (waitingEnv s), remoteOpOf s ph with
  | some e, some op =>
    let signal := match op, mine.getLast? with
      | .commit _, some r => if r.kind != RemoteKind.signal && wantsSignal s e.part.ctx r then some r else none
      | _, _ => none
    match signal with
    | some r =>
      let w : Window := { peer := r.peer, peerWin := r.win }
      sendGroup ph (queueRemotes e w [(RemoteKind.signal, 0, 0, 0, [])] s)
    | none =>
      let s := modFab (fun f => { f with remotes := f.remotes.filter fun r => r.core != ph }) s
      let s := endWait ph s
      let s := match op with
        | .load dst src turn =>
          let d := descOf dst
          let t := descOf src
          spaceWrites e false (copyWrites e.ctx.codebooks (fetchedByte mine) [] turn d t) (chargeCopy e d t s)
        | _ => s
      settlePart e.c (retire ph (e.core.regs.pc + 16) (commitDone e.part.job op s))
  | _, _ => modFab (fun f => { f with remotes := f.remotes.filter fun r => r.core != ph }) s

/-- The outstanding packet that a response answers; a response that no packet awaits is late (R376). -/
def awaited (s : State) (p : Packet) : Option Remote :=
  s.fab.remotes.find? fun r => r.txid == p.txid.toNat && r.sent && !r.answered && r.peer == p.src

/-- A response reaches its source; one whose payload fails PCRC is discarded and answered with NAK reason 3, as at any destination (R363, log entry
42). -/
def takeResponse (p : Packet) (type : Nat) (k : Remote → State → State) (s : State) : State :=
  let s := flitsArrive s
  if !fabricRuns s || p.dst != s.fab.call || p.type.toNat != type then s
  else if dropsPacket p then countDrop s
  else if type = 0x20 && !pcrcOk p then refuse p 3 s
  else match awaited s p with
    | some r => pump (k r s)
    | none => modFab (fun f => { f with late := satInc f.late }) s

/-- DATA: a read response. -/
def execDataResp (p : Packet) (s : State) : Out :=
  .next (takeResponse p 0x20 (fun r s =>
    if r.kind != .load then s
    else finishRemote r.core (answerPacket r (slice p.payload 0 r.len) (chargeFabric r.job r.len s))) s)

/-- ACK: a write or signal has taken effect. -/
def execAck (p : Packet) (s : State) : Out :=
  .next (takeResponse p 0x21 (fun r s => if r.kind = .load then s else finishRemote r.core (answerPacket r r.data s)) s)

/-- NAK: reason 3 resends the packet once; any other, or a second, fails the access (R378). -/
def execNak (p : Packet) (s : State) : Out :=
  .next (takeResponse p 0x22 (fun r s =>
    let reason := p.offset.toNat % 256
    if reason = 3 ∧ !r.resent then
      let s := modFab (fun f => { f with remotes := amend (fun x => x.txid == r.txid) (fun x => { x with resent := true }) f.remotes }) s
      (sendOwn (remotePacket s r) s).1
    else failRemote r.core (reason == 1 || reason == 2) s) s)

/-- REMOTE_PACKET_TIMEOUT: a packet's 60,000 cycles end before its response; the access fails (R376, R378). -/
def execRemotePacketTimeout (txid : Nat) (s : State) : Out :=
  .next (match s.fab.remotes.find? fun r => r.txid == txid && r.sent && !r.answered with
    | some r =>
      if !ready s then s
      else pump (failRemote r.core false (modFab (fun f => { f with tmo := satInc f.tmo }) s))
    | none => s)

/-! ### Registers (R384, R385, Table 14.8) -/

/-- A write of a register of a PF0 block arrives: from PF0, over the link, out of reset (R333). -/
def pf0Reaches (s : State) (fn : Nat) : Bool := fn == 0 && s.host.linkUp && !s.pwr.resetting

/-- A write of a FAB register arrives: the device runs, and its island's clock too (R477). -/
def fabReaches (s : State) (fn : Nat) : Bool := pf0Reaches s fn && running s && blockUp s 84

/-- FAB_CTL: WALK renumbers unless a window is valid, RETRAIN retrains the named ports. -/
def writeFabCtl (value : Word) (s : State) : State :=
  let v := value.toNat
  let s := if nbit v 0 && fabricRuns s && !(s.fab.wins.any fun w => w.2.valid) then startWalk s else s
  (List.range 4).foldl (fun s n => if nbit v (4 + n) then startRetrain n s else s) s

/-- WALK: a FAB_CTL write with WALK set. -/
def execWalk (fn : Nat) (value : Word) (s : State) : Out :=
  .next (if fabReaches s fn && nbit value.toNat 0 then writeFabCtl value s else s)

/-- RETRAIN: a FAB_CTL write that names ports. -/
def execRetrain (fn : Nat) (value : Word) (s : State) : Out :=
  .next (if fabReaches s fn && bits value.toNat 7 4 != 0 then writeFabCtl value s else s)

/-- BAR0 offset of a register of window n. -/
def winReg (n off : Nat) : Nat := 0x061000 + 0x20 * n + off

/-- Setting VALID is refused (R374). -/
def refusesWindow (s : State) (n : Nat) (w : Window) : Bool :=
  match ctxAt s w.ctx with
  | none => true
  | some c =>
    c.part == 0 || decide (c.globalLen < w.off.toNat + w.len)
      || (!w.exported && s.fab.wins.any fun o => o.1 != n && o.2.valid && !o.2.exported && o.2.ctx == w.ctx
        && decide (o.2.off.toNat < w.off.toNat + w.len) && decide (w.off.toNat < o.2.off.toNat + o.2.len))

/-- The fields of a CTL write. -/
def winCtl (v : Nat) (w : Window) : Window :=
  { w with exported := nbit v 30, canRead := nbit v 29, canWrite := nbit v 28, ctx := bits v 25 16, peer := BitVec.ofNat 16 v }

/-- A write of FAB_WINn.CTL (R374, R385). -/
def writeWinCtl (n : Nat) (value : Word) (s : State) : State :=
  let v := value.toNat
  let w := tget s.fab.wins {} n
  let put := fun (w : Window) => modFab (fun f => { f with wins := tset f.wins n w }) s
  if w.valid then
    if nbit v 31 || winCtl v w != w then s else put { w with valid := false }
  else
    let w := winCtl v w
    put { w with valid := nbit v 31 && !refusesWindow s n w }

/-- FAB_WIN_VALID: a CTL write with VALID 1. -/
def execFabWinValid (fn n : Nat) (value : Word) (s : State) : Out :=
  .next (if fabReaches s fn && decide (n < 256) && nbit value.toNat 31 then writeWinCtl n value (rewrite (winReg n 0) s) else s)

/-- FAB_WIN_CLEAR: a CTL write with VALID 0. -/
def execFabWinClear (fn n : Nat) (value : Word) (s : State) : Out :=
  .next (if fabReaches s fn && decide (n < 256) && !nbit value.toNat 31 then writeWinCtl n value (rewrite (winReg n 0) s) else s)

/-- A FAB_CFG value in range: a ring of 2 to 64, or a torus of 2 to 16 each way (R364). -/
def goodFabCfg (v : Nat) : Bool :=
  let x := bits v 15 8
  let y := bits v 7 0
  if nbit v 30 then decide (1 ≤ x) && decide (x ≤ 15) && decide (1 ≤ y) && decide (y ≤ 15) else decide (1 ≤ x) && decide (x ≤ 63) && y == 0

/-- The ports without a link start training; the others go down when `on` is false. -/
def portsFollow (on : Bool) (s : State) : State :=
  if on then (fabPorts s).foldl (fun s n => if (fabPort s n).state = 0 then modPort n (fun p => { p with state := 1 }) s else s) s
  else linksDown s

/-- A write of FAB_CFG: ignored while locked or out of range; ENABLE brings the links up or down with it, and the first ENABLE after cold
reset starts the walk (R365, R384). -/
def writeFabCfg (value : Word) (s : State) : State :=
  let v := value.toNat
  if s.fab.lock || !goodFabCfg v then s else
  let on := nbit v 31
  let first := on && !s.fab.enabledOnce
  let was := s.fab.enable
  let s := { s with fab := { s.fab with enable := on, torus := nbit v 30, domain := BitVec.ofNat 8 (bits v 23 16), sx := bits v 15 8 + 1,
                                        sy := bits v 7 0 + 1, enabledOnce := s.fab.enabledOnce || on } }
  let s := { s with err := { s.err with parity := s.err.parity.filter (· != 0x060000) } }
  let s := if on != was then portsFollow on s else rebuild s
  if first then startWalk s else s

/-- FAB_CFG_ENABLE: a FAB_CFG write with ENABLE 1 (R365). -/
def execFabCfgEnable (fn : Nat) (value : Word) (s : State) : Out :=
  .next (if fabReaches s fn && nbit value.toNat 31 then writeFabCfg value s else s)

end Sys2Proof.Machine
end

