-- ==== Sys2Proof/Machine/Power.lean ====
section
/-! DEFINITION. Machine/Power.lean: supply sag, power and temperature, clocks, die-to-die lanes, resets and boot (R17, R429 to R445, R458,
R459, R464, R501). -/

namespace Sys2Proof.Machine

/-! ### Shed levels (R435 to R439) -/

/-- Adaptation jobs are aborted without a gap (R252, R431). -/
def stopAdapt (s : State) : State := (s.jobs.filter fun j => j.role == 4).foldl (fun s j => abortJob j.id s) s

/-- Every Spigot word is marked stale in place (R423). -/
def staleAll (s : State) : State := { s with saf := { s.saf with zones := tmap s.saf.zones fun _ w => staleWord false w } }

/-- What the safety function and the fabric do as level 4 is entered (R382, R439). -/
def enterFour (s : State) : State := floodDown (staleAll (dirtyAll s))

/-- The shed level changes: the actions of the levels entered or left, and the SHED event (R436). -/
def setLevel (n : Nat) (s : State) : State :=
  let old := s.pwr.level
  if n = old then s else
  let s := if 4 ≤ n ∧ old < 4 then enterFour s else s
  let s := if old = 0 then stopAdapt s else s
  let s := { s with pwr := { s.pwr with level := n, shedCount := tmod s.pwr.shedCount 0 n satInc,
                                        kiln := { s.pwr.kiln with paused := s.pwr.kiln.running && n != 0 } } }
  let s := if 4 ≤ old ∧ n < 4 then
      let s := dirtyAll (if ready s then unflood s else modFab (fun f => { f with linksDownDue := false }) s)
      if ready s then linksTrain s else s
    else s
  emit { type := 6, source := 0x0E, code := n } s

/-- The rails watched for levels 1 to 4, by their PWR_LEVEL code (Tables 17.1 and 17.9). -/
def shedRail : SampleRail → Option Nat
  | .cd0 => some 0
  | .cd1 => some 1
  | .sram => some 2
  | .bd => some 3
  | .ddr => some 4
  | .serdes => some 5
  | _ => none

/-- The threshold of a level in tenths of a percent of nominal; 1 % is added for a level that stands or has been passed (R436). -/
def shedBelow (s : State) (l : Nat) : Nat := 5 * bits (shedThOf s).toNat (8 * l - 1) (8 * l - 8) + (if l ≤ s.pwr.level then 10 else 0)

/-- Consecutive samples of each rail below each level's threshold. -/
def noteSamples (s : State) (rails : List (SampleRail × Nat)) : Tab Nat :=
  rails.foldl (fun t r =>
    match shedRail r.1 with
    | none => t
    | some i => [1, 2, 3, 4].foldl (fun t l =>
        tset t (10 * l + i) (if r.2 < shedBelow s l then min (tget t 0 (10 * l + i) + 1) 3 else 0)) t) s.pwr.samples

/-- The level and the rail of the droop demand. -/
def droopOf (t : Tab Nat) : Nat × Nat :=
  match ([4, 3, 2, 1].flatMap fun l => (List.range 6).map fun i => (l, i)).find? fun x => decide (3 ≤ tget t 0 (10 * x.1 + x.2)) with
  | some x => x
  | none => (0, 15)

/-- The safety island is held in reset until cold or warm reset: lines low, Spigot silent, C3 in partition 0 (R426, R438). -/
def holdSafety (s : State) : State :=
  if s.saf.held then s else
  let s := partFault 0 { source := 0x0D } (goNotOk s)
  { s with saf := { s.saf with held := true, arm := false, lineA := false, lineB := false, spigot := .released } }

/-- SHED_SAMPLE: rails are sampled, and the brake while the device runs (R25, Table 1.7); three samples in a row demand a level, and a higher demand
takes effect at once (R436); VDD_SI
is watched apart (R438). -/
def execShedSample (rails : List (SampleRail × Nat)) (brakeLow : Bool) (s : State) : Out :=
  .next (
    if s.pwr.resetting then s else
    let t := noteSamples s rails
    let d := droopOf t
    let b := if brakeLow && running s then min (s.pwr.brakeSamples + 1) 3 else 0
    let si := if rails.any fun r => r.1 == .si && decide (r.2 < 900) then min (s.pwr.siSamples + 1) 3
              else if rails.any fun r => r.1 == .si then 0 else s.pwr.siSamples
    let demand := max d.1 (if b = 3 then brakeOf s else 0)
    let s := { s with pwr := { s.pwr with samples := t, brakeSamples := b, siSamples := si, demand := demand, droop := d.1 != 0,
                                          brake := b == 3, droopRail := d.2 } }
    let s := if si = 3 then holdSafety s else s
    if s.pwr.level < demand then setLevel demand s else s)

/-- SHED_LEVEL_FALL: every demand has stayed below the level for 10 ms, and the level falls one step (R436). -/
def execShedLevelFall (s : State) : Out :=
  .next (if s.pwr.resetting || s.pwr.level == 0 || decide (s.pwr.level ≤ s.pwr.demand) then s else setLevel (s.pwr.level - 1) s)

/-! ### Resets (R440, R441, Table 17.5) -/

/-- What no reset changes: fuses and flash, the world outside, and the model's own counters. -/
def bareState (s : State) : State :=
  { pending := s.pending, free := s.free, order := s.order, nv := s.nv, strapHigh := s.strapHigh, smbus := s.smbus,
    host := { mem := s.host.mem, msix := s.host.msix }, ports := tmap s.ports fun _ p => { sent := p.sent }
    fab := { out := s.fab.out, returns := s.fab.returns } }

/-- Cold reset: every island, and DRAM, which boot wipes. -/
def coldReset (s : State) : State :=
  { bareState s with pwr := { cap := if s.nv.variantS then 250 else 400, railsUp := s.pwr.railsUp } }

/-- The always-on island across a warm or device reset. -/
def keepPwr (p : PwrSt) : PwrSt :=
  { p with stage := 0, fail := 0, unclean := false, hostBoot := false, warm := true, kiln := {}, resetting := true, coldBoot := false, deviceBoot := false,
           facts := none }

/-- A channel across a reset that keeps DRAM: its data, what failed until cold reset (R310, R313), and with `count` its counters. -/
def keepChannel (count : Bool) (c : Channel) : Channel :=
  { failed := c.failed, erased0 := c.erased0, erased1 := c.erased1, corrected := c.corrected, poison := c.poison,
    ce := if count then c.ce else 0, ue := if count then c.ue else 0, replay := if count then c.replay else 0,
    wcrc := if count then c.wcrc else 0, postMax := if count then c.postMax else 0, retrain := if count then c.retrain else 0 }

/-- A media core across a reset: with `count` its counters too. -/
def keepMedia (count : Bool) (m : Media) : Media :=
  if count then { m with state := 0, stream := 0x7FF, order := 0, buf := none, codec := 0, fails := 0, testQueued := false, lateDue := 0 }
  else { wdog := m.wdog }

/-- An encoder across a reset. -/
def keepEnc (count : Bool) (e : Enc) : Enc :=
  if count then { e with state := 0, clip := none, lateDue := 0 } else { wdog := e.wdog }

/-- The fabric across a reset. -/
def keepFab (count : Bool) (f : FabSt) : FabSt :=
  if count then { out := f.out, returns := f.returns, enabledOnce := f.enabledOnce, walks := f.walks, fwd := f.fwd, drop := f.drop,
                  replay := f.replay, nakCount := f.nakCount, tmo := f.tmo, late := f.late }
  else { out := f.out, returns := f.returns, enabledOnce := f.enabledOnce, walks := f.walks }

/-- What warm and device reset keep alike: the always-on island, DRAM, failures counted since cold reset, the fabric's first walk, debug
unlock, the dies. -/
def keptReset (count : Bool) (s : State) : State :=
  { bareState s with
    pwr := keepPwr s.pwr
    mem := { dram := s.mem.dram, channels := tmap s.mem.channels fun _ c => keepChannel count c }
    cores := tmap s.cores fun _ k => { resflt := k.resflt }
    media := tmap s.media fun _ m => keepMedia count m
    encs := tmap s.encs fun _ e => keepEnc count e
    fab := keepFab count s.fab
    sec := { debug := s.sec.debug, jtag := s.sec.jtag }
    dies := s.dies
    varMis := s.varMis
    err := { parity := s.err.parity.filter fun o => o / 0x10000 == 2 } }

/-- Warm reset: every island but the always-on one; DRAM is kept. -/
def warmReset (s : State) : State :=
  let t := keptReset false s
  { t with
    host := { t.host with porN := s.host.porN, perstN := false }
    islands := tmap s.islands fun i d => if i = 101 then { d with census := [], censusKind := 0, censusCount := 0 } else {} }

/-- The safety island across a device reset: disarmed, words stale in place, static, no stream bound; configuration and sequences stay. -/
def disarmed (s : State) : SafSt :=
  let f := (staleAll (goNotOk s)).saf
  { f with arm := false, cause := 0, lineA := false, lineB := false, bound := []
           watches := tmap f.watches fun _ w => { w with clean := 0, lastClean := true, silenced := false, timer := false, window := [] } }

/-- Device reset: every island but the always-on and safety islands and the host link with its configuration space. -/
def deviceReset (s : State) : State :=
  let t := keptReset true s
  { t with
    pwr := { t.pwr with deviceBoot := true }
    saf := disarmed s
    islands := tmap s.islands fun i d => if i = 99 ∨ i = 101 then d else { census := d.census, censusCount := d.censusCount }
    host := { t.host with linkUp := s.host.linkUp, porN := s.host.porN, perstN := s.host.perstN, bar2Size := s.host.bar2Size,
                          fns := let f := fnAt s 0
                                 [(0, { msixEnable := f.msixEnable, fnMask := f.fnMask, intxDisable := f.intxDisable })] }
    err := { t.err with c4 := s.err.c4, c4Source := s.err.c4Source, c4Code := s.err.c4Code, cnt := s.err.cnt, evdrop := s.err.evdrop,
                        dupres := s.err.dupres, parity := s.err.parity.filter fun o => o / 0x10000 == 2 || o / 0x10000 == 3 } }

/-- COLD_RESET. -/
def execColdReset (s : State) : Out := .next (coldReset s)

/-- WARM_RESET: one that meets a cold reset under way is taken over by it (R440). -/
def execWarmReset (s : State) : Out := .next (if s.pwr.resetting && s.pwr.coldBoot then s else warmReset s)

/-- A DEV_CTL write: RESET needs its key, and a write without RESET changes BAR2PART alone (R479). -/
def writeDevCtl (fn : Nat) (value : Word) (s : State) : State :=
  let v := value.toNat
  if fn ≠ 0 ∨ !s.host.linkUp ∨ s.pwr.resetting ∨ !blockUp s 85 then s
  else if nbit v 0 then (if bits v 31 24 = 0xD5 then deviceReset s else s)
  else { s with host := { s.host with bar2Part := bits v 5 4 }, err := { s.err with parity := s.err.parity.filter (· != 0x20) } }

/-- DEVICE_RESET: a DEV_CTL write with RESET and its key, from PF0. -/
def execDeviceReset (fn : Nat) (value : Word) (s : State) : Out := .next (writeDevCtl fn value s)

/-- BROWN_OUT: VDD_AON, VDD_BD or VDD_IO below 80 % demands level 5, a cold reset (R436). -/
def execBrownOut (rail : SampleRail) (permille : Nat) (s : State) : Out :=
  .next (if (rail == .aon || rail == .bd || rail == .io) && decide (permille < 800) then coldReset s else s)

/-- The power-up step of a rail (Table 21.10). -/
def railStep : SampleRail → Nat
  | .aon => 1
  | .io => 1
  | .si => 2
  | .bd => 3
  | .sram => 3
  | _ => 4

/-- Every rail. -/
def allRails : List SampleRail := [.cd0, .cd1, .sram, .bd, .aon, .si, .ddr, .serdes, .io]

/-- POWER_RAIL_RISE: a rail within tolerance; one before a rail of an earlier step is counted (R501). -/
def execPowerRailRise (rail : SampleRail) (s : State) : Out :=
  .next (if s.pwr.railsUp.contains rail then s else
    let early := allRails.any fun r => decide (railStep r < railStep rail) && !s.pwr.railsUp.contains r
    { s with pwr := { s.pwr with railsUp := rail :: s.pwr.railsUp, orderFaults := s.pwr.orderFaults + b2n early } })

/-! ### Power, temperature, clocks, lanes (R17, R431 to R434) -/

/-- POWER_ESTIMATE: the estimate and the hottest sensor; throttling steps up while the cap is exceeded or a sensor reads 100 °C, and down
otherwise; milliseconds are counted at 10 µs an estimate (R431, R432). -/
def execPowerEstimate (watts : Nat) (temp : Int) (sensor : Nat) (s : State) : Out :=
  .next (
    if s.pwr.resetting then s else
    let hot := decide (100 ≤ temp)
    let exceeds := decide (powerCap s < watts)
    let s := if (hot || exceeds) && s.pwr.throttle == 0 then stopAdapt s else s
    let p := s.pwr
    let lost := exceeds && p.throttle == 64
    let tick := fun (on : Bool) (us : Nat) (n : Word) =>
      let us := us + 10 * b2n on
      if 1000 ≤ us then (us - 1000, satInc n) else (us, n)
    let c := tick exceeds p.usCap p.throt
    let h := tick hot p.usTherm p.therm
    let o := tick lost p.usOver p.overCap
    let t := if hot || exceeds then min (p.throttle + 1) 64 else p.throttle - 1
    let s := { s with pwr := { p with est := watts, temp := temp, sensor := sensor, throttle := t, usCap := c.1, throt := c.2, usTherm := h.1,
                                      therm := h.2, usOver := o.1, overCap := o.2 } }
    if o.2 != p.overCap && o.2.toNat % 1000 == 1 then emit { cls := 0, source := 0x0E } s else s)

/-- THERMAL_TRIP: 115 °C for 100 µs is C4 (R432). -/
def execThermalTrip (temp : Int) (s : State) : Out :=
  .next (if s.pwr.resetting || decide (temp < 115) then s else faultDevice 0x0E 0 { s with pwr := { s.pwr with temp := temp } })

/-- CRYSTAL_LOSS: the internal oscillator takes over, SAFE_OK goes low, and C4 is raised (R434). -/
def execCrystalLoss (s : State) : Out :=
  .next (if s.pwr.crystalLost then s else
    let s := goNotOk { s with pwr := { s.pwr with crystalLost := true } }
    if s.pwr.resetting then s else faultDevice 0x0E 1 { s with saf := { s.saf with lineA := false, lineB := false } })

/-- ISLAND_CLOCK_STOP: an adaptive island stops, holding its state; the stop counts in its census (R433). -/
def execIslandClockStop (island : Nat) (s : State) : Out :=
  .next (if s.pwr.resetting || decide (101 < island) || !adaptive island || s.pwr.stopped.contains island then s
    else countEv island 0x01 1 { s with pwr := { s.pwr with stopped := island :: s.pwr.stopped } })

/-- ISLAND_CLOCK_RESTART: the island goes on from the state it held (R433). -/
def execIslandClockRestart (island : Nat) (s : State) : Out :=
  .next { s with pwr := { s.pwr with stopped := s.pwr.stopped.filter (· != island) } }

/-- The clusters of a compute die. -/
def clustersOf (die : Nat) : List Nat := (List.range 4).map (4 * die + ·)

/-- A compute die leaves service with its four clusters: C3 in every partition that held cores there (R17). -/
def withdrawDie (die : Nat) (s : State) : State :=
  let ps := (List.range 4).filter fun p => (partAt s p).present && (clustersOf die).any fun cl => !(coresInClu s p cl).isEmpty
  let s := (clustersOf die).foldl (fun s cl => modClu cl (fun k => { k with inService := false }) s) s
  ps.foldl (fun s p => faultPartition p { source := 0x0F, unit := some die } s) s

/-- A lane group fails. -/
def loseLane (die : Nat) (s : State) : State :=
  let d := tget s.dies {} die
  if d.withdrawn then s
  else
    let d := { d with lanes := d.lanes - 1, withdrawn := decide (d.lanes - 1 < 9) }
    let s := { s with dies := tset s.dies die d }
    if d.withdrawn then withdrawDie die s else emitC0 0x0F die 0 [] s

/-- LANE_GROUP_FAILURE: traffic moves to a spare group, a C0 event; with fewer than 9 groups the die is withdrawn until cold reset (R17). -/
def execLaneGroupFailure (die : Nat) (s : State) : Out := .next (if s.pwr.resetting || decide (2 ≤ die) || s.err.c4 then s else loseLane die s)

/-! ### Boot (R442 to R445, Table 17.6) -/

/-- Boot stops: STAGE FAILED with its cause (R444). -/
def failBoot (code : Nat) (s : State) : State := { s with pwr := { s.pwr with stage := 0xF, fail := code } }

/-- The state that a torn transition completes to (R464); none where the key fields agree with LCS. -/
def tornTo (v : NvSt) : Option Nat :=
  if (v.lcs = 1 ∨ v.lcs = 2) ∧ (v.krecErased ∨ v.idErased ∨ (v.lcs = 2 ∧ v.oauthErased)) ∨ v.lcs = 3 ∧ v.krecErased then
    some (if v.krecErased then 4 else 3)
  else none

/-- Step 2: fuses, life cycle, straps and M0: VARIANT_CHK is sampled at cold reset alone (R4), BOOT_SRC at cold and warm reset (R442). The
failure code, or none. -/
def bootRom (f : BootFacts) (s : State) : State × Option Nat :=
  let s := if s.pwr.coldBoot then { s with strapHigh := f.variantHigh, varMis := f.variantHigh != s.nv.variantS } else s
  let s := if s.pwr.deviceBoot then s else { s with pwr := { s.pwr with bootSrc := f.bootSrc % 4 } }
  if f.fuseError then (s, some 0x01)
  else if 4 < s.nv.lcs then (s, some 0x17)
  else
    let s := match tornTo s.nv with
      | some l => emit { cls := 0, source := 0x0C } { s with nv := { s.nv with lcs := l } }
      | none => s
    if s.nv.lcs = 4 then (s, some 0x16)
    else
      let s := { s with sec := { s.sec with jtag := s.sec.jtag || s.nv.lcs != 2 } }
      let s := if 2 ≤ s.pwr.bootSrc ∧ !s.pwr.deviceBoot then emit { cls := 0, source := 0x0C } s else s
      (extendM 0 (Config.bootMeasure s.nv.lcs s.nv.revoke.toNat s.nv.secver s.nv.variantS s.strapHigh s.pwr.bootSrc) s, none)

/-- A physical core is retired at boot: the spare stands in, or the logical core leaves service (R88, R444). -/
def retireCore (ph : Nat) (s : State) : State :=
  let cl := cluAt s (ph / 5)
  let k := ph % 5
  if (coreAt s ph).health = .withdrawn then s else
  let s := modCore ph (fun c => { c with health := .withdrawn }) s
  if cl.spare = some k ∧ cl.standin.isNone then modClu (ph / 5) (fun c => { c with spare := none }) s
  else match (List.range 4).find? (fun n => tget cl.phys n n == k), cl.spare, cl.standin with
    | some n, some sp, none => modClu (ph / 5) (fun c => { c with phys := tset c.phys n sp, standin := some n, spare := none }) s
    | some n, _, _ => emitC0 0x01 (4 * (ph / 5) + n) 0 [] (modClu (ph / 5) (fun c => { c with phys := tset c.phys n 7 }) s)
    | none, _, _ => s

/-- A media core is withdrawn. -/
def retireMedia (n : Nat) (s : State) : State := emitC0 0x03 n 0 [] (modMedia n (fun m => { m with state := 2 }) s)

/-- A unit that fails the quick check is retired (R444). -/
def retireUnit (u : FailedUnit) (s : State) : State :=
  match u with
  | .core ph => if ph < 40 then retireCore ph s else s
  | .media n => if n < 32 then retireMedia n s else s
  | .lanes die => if die < 2 then loseLane die s else s

/-- Apply one fuse repair or repair record entry (Table 17.8): a retired unit stays out, an erased DRAM device stays erased. -/
def applyEntry (e : BitVec 128) (s : State) : State :=
  let v := e.toNat
  let i := bits v 11 0
  match bits v 30 24, bits v 15 12 with
  | 4, 0 => if i < 40 then retireCore i s else s
  | 4, 1 => if i < 32 then modMedia i (fun m => { m with state := 2 }) s else s
  | 4, 2 => if i < 4 then modEnc i (fun m => { m with state := 2 }) s else s
  | 4, 3 => if i < 8 then { s with ppus := tmod s.ppus {} i fun u => { u with inService := false } } else s
  | 4, 4 => if i < 8 then modClu i (fun k => { k with inService := false }) s else s
  | 4, 5 => if i < 8 then modClu i (fun k => { k with inService := false }) s else s
  | 5, 7 =>
    let m := BitVec.ofNat 20 (2 ^ bits v 95 64)
    if 8 ≤ i then s
    else modChan i (fun c => if bits v 63 48 = 0 then { c with erased0 := c.erased0 ||| m } else { c with erased1 := c.erased1 ||| m }) s
  | _, _ => s

/-- Step 5: the channels that train, at the smallest of their capacities; others, and larger ones, are C0 events (R306). -/
def trainMemory (f : BootFacts) (s : State) : State :=
  let l := f.trained.filter fun c => decide (c.1 < if f.rdimm then 8 else 4)
  let least := (leastBy id (l.map fun c => c.2.1)).getD 0
  let s := l.foldl (fun s c => modChan c.1 (fun d => { d with used := true, rdimm := f.rdimm, ranks := c.2.2, gib := least, rate := f.rate }) s) s
  (List.range (if f.rdimm then 8 else 4)).foldl (fun s m =>
    if l.any fun c => c.1 == m && c.2.1 == least then s else emitC0 0x06 m 0 [] s) s

/-- Step 6: fuse repairs, the repair record, M3 and the quick check. -/
def applyRepairs (f : BootFacts) (s : State) : State :=
  let s := { s with nv := chooseRecord f.recordBad f.otherBad s.nv }
  let l := s.nv.fused ++ repairEntries s
  let s := l.foldl (fun s e => applyEntry e s) s
  let s := (List.range 40).foldl (fun s ph =>
    if l.any (entryFor ph 1 3) then
      let s := modCore ph (fun k => takeEntries l ph { k with bad0 := [], bad1 := [], sramFixes := [] }) s
      if beyondRepair (coreAt s ph) then retireCore ph s else s
    else s) s
  let s := match s.nv.record with
    | some r => extendM 3 ((repairHeader s).flatMap (fun (w : Word) => leBytes 4 w.toNat) ++ r.entries.flatMap (fun (e : BitVec 128) => leBytes 16 e.toNat)
        ++ leBytes 32 (Config.kmacTag (r.entries.flatMap fun (e : BitVec 128) => leBytes 16 e.toNat)).toNat) s
    | none => emit { cls := 0, source := 0x0C } (extendM 3 [] s)
  let s := (s.dies.filter fun (d : Nat × Die) => d.2.withdrawn).foldl (fun s (d : Nat × Die) => (clustersOf d.1).foldl (fun s cl =>
    modClu cl (fun k => { k with inService := false }) s) s) s
  f.retired.foldl (fun s u => retireUnit u s) s

/-- Steps 4 to 7, once an image is accepted: memory, repairs, and after a cold reset the wipe of DRAM. -/
def bootOn (f : BootFacts) (s : State) : State :=
  let s := trainMemory f s
  if (usedChannels s).isEmpty then failBoot 0x02 s
  else
    let s := applyRepairs f s
    if (List.range 8).all fun cl => !(cluAt s cl).inService then failBoot 0x03 s
    else { s with pwr := { s.pwr with stage := if s.pwr.coldBoot then 5 else 4, facts := none } }

/-! ### Images and the board record (R454, R455, R458) -/

/-- The bytes that an image's header spans: its header, payload and signature (Table 18.3). -/
def imageLen (b : List Byte) : Nat := 128 + leAt b 8 4 + 29792

/-- Check 0x10 of Table 18.4, for an image offered with n bytes. -/
def goodImageHead (n : Nat) (b : List Byte) : Bool :=
  leAt b 0 4 == 0x474D4946 && leAt b 4 2 == 1 && decide (leAt b 6 1 < 64) && decide (leAt b 7 1 < 4) && leAt b 8 4 % 16 == 0
    && decide (16 ≤ leAt b 8 4) && decide (leAt b 8 4 ≤ 2067232) && decide (leAt b 12 1 < 16) && zeroRange b 13 51
    && decide (imageLen b ≤ n) && decide (n ≤ 2097152)

/-- The image key of a slot; an unlisted slot holds no key. -/
def imageKeyIs (s : State) (k : Nat) (pub : List Byte) : Bool :=
  match tfind s.nv.imgkey k with
  | some d => d != BitVec.allOnes 512 && d == Config.shake256 pub
  | none => false

/-- The checks of Table 18.4 in its order: the code of the first that fails, or 0. -/
def imageCheck (n : Nat) (b : List Byte) (s : State) : Nat :=
  if !goodImageHead n b then 0x10
  else if !imageKeyIs s (leAt b 7 1) (slice b 64 64) || s.nv.revoke.getLsbD (leAt b 7 1) then 0x11
  else if !Config.slhVerify (slice b 64 64) 0 (b.take (128 + leAt b 8 4)) (slice b (128 + leAt b 8 4) 29792) then 0x12
  else if leAt b 6 1 < s.nv.secver then 0x13
  else if !nbit (leAt b 12 1) (if s.nv.variantS then 3 else 2) then 0x14
  else 0

/-- An image is accepted: its version, flags and key stay for READY, and M1 is extended by the whole of it (R455, R459). -/
def acceptImage (image : List Byte) (s : State) : State :=
  let b := image.take (imageLen image)
  let f := leAt b 12 1
  extendM 1 b { s with sec := { s.sec with imageSecver := leAt b 6 1, imageCommit := nbit f 0, imageRevoke := nbit f 1, imageKey := leAt b 7 1 } }

/-- A board record passes R458: length, MAGIC, CRC-32C and values. -/
def goodBoard (b : List Byte) : Bool :=
  b.length == 256 && leAt b 0 4 == 0x44524242 && leAt b 252 4 == crc32c (b.take 252) && Config.boardValues b

/-- Step 3: the board record, then the flash image; a flash image that fails, or BOOT_SRC 0b01, waits for the host (R442, R456, R458). -/
def bootImage (f : BootFacts) (s : State) : State :=
  let s := { s with nv := { s.nv with board := f.board.getD s.nv.board, flash := f.flash.getD s.nv.flash } }
  if !goodBoard s.nv.board then failBoot 0x15 s
  else
    let s := extendM 2 s.nv.board s
    if s.pwr.bootSrc = 1 then { s with pwr := { s.pwr with stage := 2, facts := some f } }
    else
      let code := imageCheck 2097152 s.nv.flash s
      if code ≠ 0 then { s with pwr := { s.pwr with stage := 2, fail := code, facts := some f } }
      else bootOn f (acceptImage s.nv.flash s)

/-- Every island begins its boot census on leaving reset; after a device reset only those it resets (R485). -/
def bootCensus (device : Bool) (s : State) : State :=
  (List.range 102).foldl (fun s i =>
    if device && (i == 99 || i == 101) then s else beginCensus i 1 s) s

/-- The safety island's clock derives from the crystal: while the crystal is lost the island stands still through every boot until cold
reset, as one held by R426 (R434, log entry 98). -/
def stillWithoutCrystal (s : State) : State := { s with saf := { s.saf with held := s.saf.held || s.pwr.crystalLost } }

/-- BOOT_START: reset is released with every rail within tolerance, and boot runs up to the step before READY, to a wait for the host, or to
FAILED (R443, R444, R501). -/
def execBootStart (facts : BootFacts) (s : State) : Out :=
  .next (
    if !s.pwr.resetting || !(allRails.all fun r => s.pwr.railsUp.contains r) then s
    else
      let device := s.pwr.deviceBoot
      let s := bootCensus device { s with host := { s.host with porN := true, perstN := true, linkUp := !device || s.host.linkUp },
                                          pwr := { s.pwr with resetting := false } }
      match bootRom facts (stillWithoutCrystal s) with
      | (s, some code) => failBoot code s
      | (s, none) => bootImage facts s)

/-- A boot without the clean-shutdown marker queues every core and media core for test (R445). -/
def queueAll (s : State) : State :=
  let s := { s with pwr := { s.pwr with unclean := true } }
  let s := (List.range 32).foldl (fun s c => match servedBy s c with
    | some ph => modCore ph (fun k => { k with health := if k.health == .inService then .queued else k.health }) s
    | none => s) s
  (List.range 32).foldl (fun s n => modMedia n (fun m => { m with testQueued := true }) s) s

/-- What the accepted image's flags burn at READY (R455). -/
def burnImage (s : State) : State :=
  let v := s.nv
  { s with nv := { v with
      secver := if s.sec.imageCommit then max v.secver s.sec.imageSecver else v.secver
      revoke := if s.sec.imageRevoke then v.revoke ||| BitVec.ofNat 4 (2 ^ s.sec.imageKey - 1) else v.revoke } }

/-- BOOT_READY: the last step: the marker is judged and erased, the image's flags are burned, the boot census ends, and the device runs; SAFE_OK
and the Spigot are driven unless the variant is mismatched (R4, R443, R445). -/
def execBootReady (s : State) : Out :=
  .next (
    if s.pwr.resetting || s.err.c4 || !(s.pwr.stage == 4 || s.pwr.stage == 5) then s
    else
      let s := if s.nv.marker then s else queueAll s
      let s := burnImage { s with nv := { s.nv with marker := false } }
      let s := (List.range 102).foldl (fun s i => endCensus i 1 s) s
      { s with pwr := { s.pwr with stage := 7 }, saf := { s.saf with driven := !s.varMis } })

end Sys2Proof.Machine
end

