-- ==== Sys2Proof/Machine/Shutdown.lean ====
section
/-! DEFINITION. Machine/Shutdown.lean: SHUTDOWN, the Kiln pass, and REPAIR with its authorisation (R446 to R450, R465). -/

namespace Sys2Proof.Machine

/-! ### Closing everything (R446, R463, R466) -/

/-- Commit every frame of a closed stream, oldest first; the cycle at which each is latched is a free value. -/
def commitAll (id : Nat) : Nat → State → State
  | 0, s => s
  | n + 1, s =>
    match nextCommit (strm s id) with
    | some f => commitAll id n (commitFrame id (f.admitted + (freeBits s 0 32).toNat) f (useFree 1 s))
    | none => s

/-- Close one stream as STREAM_CLOSE would, to the seal of its last frame (R303). -/
def closeNow (id : Nat) (s : State) : State :=
  let st := strm s id
  let s := if st.state = .closed then s else shutStream id s
  let s := commitAll id (strm s id).frames.length s
  if st.state = .closed then s else settleC3 (releaseStream id s)

/-- Remove one context, with a definition that waits to replace it; a slip that waited for the swap or removal completes (R280). -/
def removeNow (id : Nat) (s : State) : State :=
  let w := (ctxAt s id).bind (·.leaving)
  let s := match tfind s.nextCtxs id with
    | some c => freeCtx c { s with nextCtxs := tdrop s.nextCtxs id }
    | none => s
  let s := removeCtx id s
  match w with
  | some x => slipDone x.1 x.2 0 0 s
  | none => s

/-- Every stream is closed and every context removed. -/
def closeAll (s : State) : State :=
  let s := (s.streams.map (·.1)).foldl (fun s id => closeNow id s) s
  settleC3 ((s.ctxs.map (·.1)).foldl (fun s id => removeNow id s) s)

/-- Level 4 keeps a commit waiting, and with it the close of its stream (R303, R439). -/
def sealsWait (s : State) : Bool := decide (4 ≤ s.pwr.level) && s.streams.any fun t => !(t.2.frames.all (·.sealed))

/-! ### SHUTDOWN and the start of a Kiln pass (R446, R447) -/

/-- The shutdown ends: the clean-shutdown marker, then STAGE SHUT (R445, R446). -/
def enterShut (s : State) : State := { s with nv := { s.nv with marker := true }, pwr := { s.pwr with stage := 8 } }

/-- A Kiln pass begins: the census period of every island, and a pause at once at level 1 or higher (R447, R485). -/
def startKiln (ring slip : Nat) (s : State) : State :=
  let s := (List.range 102).foldl (fun s i => beginCensus i 2 s) s
  { s with pwr := { s.pwr with stage := 9, kiln := { running := true, paused := s.pwr.level != 0, receipt := some (ring, slip),
                                                     report := s.pwr.kiln.report } } }

/-- Steps 1 and 2 of R446: everything is closed, the fabric links go down after their flood, the transmitters are off. -/
def quiesce (s : State) : State := linksDown (floodDown (closeAll s))

/-- SHUTDOWN by R446; `kiln` is ARGS byte 0 bit 0. -/
def shutdownRule (kiln : Bool) (ring : Nat) : SlipRule := fun n s =>
  if ring ≠ 0 then (some (0x11, 0), s)
  else if s.saf.arm then (some (0x12, 0), s)
  else if s.pwr.stage = 8 then
    if kiln then (none, startKiln ring n s) else (some (1, 0), s)
  else
    let s := quiesce s
    if kiln then (none, startKiln ring n s) else (some (0, 0), enterShut s)

/-- A SHUTDOWN slip is taken; it waits while level 4 holds a seal. -/
def takeShutdown (x : SlipIn) (s : State) : State :=
  if sealsWait s then s else
  takeSlip x.ring 0x10 x.tag {} (fieldsThen (goodFields { args := 1 } x && decide (x.args.toNat < 2))
    (shutdownRule (nbit x.args.toNat 0) x.ring)) s

/-- SHUTDOWN: a slip without the Kiln bit. -/
def execShutdown (x : SlipIn) (s : State) : Out := .next (if nbit x.args.toNat 0 then s else takeShutdown x s)

/-- KILN_PASS: a SHUTDOWN slip with the Kiln bit. -/
def execKilnPass (x : SlipIn) (s : State) : Out := .next (if nbit x.args.toNat 0 then takeShutdown x s else s)

/-! ### The pass (R447 to R449) -/

/-- The power of groups that run together with the idle estimate, in W. -/
def kilnPower (l : List Nat) : Nat := Config.kilnPeak 0 + (l.map Config.kilnPeak).sum

/-- The groups of l, newest first, that leave room for one more under 90 % of the cap: the oldest are taken to have ended (log entry 46). -/
def kilnRoom (cap group : Nat) (l : List Nat) : List Nat :=
  (List.range (l.length + 1)).foldl (fun best n => if 10 * kilnPower (group :: l.take n) ≤ 9 * cap then l.take n else best) []

/-- KILN_GROUP_START: a test group starts once the groups running, it and the idle estimate stay within 90 % of PWR_CAP; groups are
numbered from 1. -/
def execKilnGroupStart (group : Nat) (s : State) : Out :=
  .next (
    let k := s.pwr.kiln
    if s.pwr.resetting || !k.running || k.paused || group == 0 || k.groups.contains group
      || decide (9 * powerCap s < 10 * kilnPower [group]) then s
    else { s with pwr := { s.pwr with kiln := { k with groups := group :: kilnRoom (powerCap s) group k.groups } } })

/-- The unit of an entry. -/
def entryUnit (e : BitVec 128) : Nat := e.toNat % 2 ^ 16
/-- The ACTION of an entry. -/
def entryAction (e : BitVec 128) : Nat := bits e.toNat 30 24
/-- The PASSES of an entry. -/
def entryPasses (e : BitVec 128) : Nat := bits e.toNat 47 40
/-- The FUSED bit of an entry. -/
def entryFused (e : BitVec 128) : Bool := nbit e.toNat 31
/-- What makes two entries the same fault: unit, kind, array, bit and address. -/
def entryKey (e : BitVec 128) : Nat × Nat × Nat := (e.toNat % 2 ^ 24, bits e.toNat 39 32, bits e.toNat 95 48)

/-- An entry with its FUSED bit and its PASSES. -/
def withCounts (e : BitVec 128) (fused : Bool) (passes : Nat) : BitVec 128 :=
  BitVec.ofNat 128 (e.toNat % 2 ^ 31 + 2 ^ 31 * b2n fused + 2 ^ 32 * bits e.toNat 39 32 + 2 ^ 40 * min passes 255 + 2 ^ 48 * (e.toNat / 2 ^ 48))

/-- What a pass finds goes into a record: a fault found again counts, a new one joins; a retired unit that passes its retest loses its entry
at the second clean pass in a row (R449, Table 17.8). -/
def mergeEntry (l : List (BitVec 128)) (e : BitVec 128) : List (BitVec 128) :=
  if entryAction e = 0 then
    (l.filter fun o => !(entryUnit o == entryUnit e && entryAction o == 4 && entryPasses o == 0)).map fun o =>
      if entryUnit o = entryUnit e ∧ entryAction o = 4 then withCounts o (entryFused o) 0 else o
  else match l.find? fun o => entryKey o == entryKey e with
    | some o => amend (fun p => entryKey p == entryKey e) (fun _ => withCounts e (entryFused o) (entryPasses o + 1)) l
    | none => l ++ [withCounts e false 1]

/-- The entry of a found fault as the report and the record give it. -/
def reportEntry (l : List (BitVec 128)) (e : BitVec 128) : BitVec 128 :=
  match l.find? fun o => entryKey o == entryKey e with
  | some o => withCounts e false (entryPasses o)
  | none => withCounts e false 0

/-- The entry of a DRAM device marked failed: channel m, rank r, device number (R310, Table 17.8). -/
def dramEntry (m r device : Nat) : BitVec 128 :=
  BitVec.ofNat 128 (7 * 2 ^ 12 + m + 2 ^ 16 * 3 + 2 ^ 24 * 5 + 2 ^ 48 * r + 2 ^ 64 * device)

/-- The entries of every DRAM device marked failed. -/
def dramEntries (s : State) : List (BitVec 128) :=
  (List.range 8).flatMap fun m =>
    let c := tget s.mem.channels {} m
    let of := fun (r : Nat) (e : BitVec 20) => ((List.range 20).filter fun d => e.getLsbD d).map (dramEntry m r)
    of 0 c.erased0 ++ of 1 c.erased1

/-- An entry with another ACTION. -/
def withAction (e : BitVec 128) (n : Nat) : BitVec 128 := BitVec.ofNat 128 (e.toNat % 2 ^ 24 + 2 ^ 24 * n + 2 ^ 31 * (e.toNat / 2 ^ 31))

/-- What BIST found, judged in order: a logic mismatch, and a memory failure of a compute core that the spares left do not cover, retire the unit
(R67, R449). A unit that passed its retest stays so. -/
def judged (s : State) (l : List (BitVec 128)) : List (BitVec 128) :=
  l.foldl (fun out e =>
    let ph := entryUnit e
    let bad := bits e.toNat 23 16 == 2 || (decide (ph < 40) && beyondRepair (takeEntries (out ++ [e]) ph (coreAt s ph)))
    out ++ [if entryAction e != 0 && bad then withAction e 4 else e]) []

/-- A Kiln report. -/
def kilnReport (status : Nat) (l : List (BitVec 128)) (ms arrays units peak seq : Nat) : KilnReport :=
  { status := status, ms := ms, entries := l, arrays := arrays, units := units, peak := peak, seq := seq }

/-- The pass ends: its report, the KILN_DONE event, the census, the marker and the receipt, and SHUT (R446, R447). -/
def endKiln (r : KilnReport) (s : State) : State :=
  let w := s.pwr.kiln.receipt
  let s := emit { type := 8, source := 0x0E } { s with pwr := { s.pwr with kiln := { report := some r } } }
  let s := (List.range 102).foldl (fun s i => endCensus i 2 s) s
  let s := enterShut s
  match w with
  | some x => slipDone x.1 x.2 0 0 s
  | none => s

/-- KILN_DONE: the pass is complete with the failures that BIST found; the repair record is written with the DRAM devices marked failed,
units that no spare covers are retired, and the pass ends. -/
def execKilnDone (entries : List (BitVec 128)) (ms arrays units peak : Nat) (s : State) : Out :=
  .next (
    if s.pwr.resetting || !s.pwr.kiln.running || s.pwr.kiln.paused then s else
    let found := judged s entries ++ dramEntries s
    let old := s.nv.record.getD {}
    let l := (found.foldl mergeEntry old.entries).take 512
    let s := writeRecord { seq := old.seq + 1, entries := l } s
    let s := ((judged s entries).filter fun e => entryAction e == 4).foldl (fun s e => applyEntry e s) s
    endKiln (kilnReport 0 (found.map (reportEntry l)) ms arrays units peak (old.seq + 1)) s)

/-- KILN_SHED_TIMEOUT: a paused pass sees no fall of the level within 1 s and ends with STATUS 1; the repair record stays (R447). -/
def execKilnShedTimeout (entries : List (BitVec 128)) (ms arrays units peak : Nat) (s : State) : Out :=
  .next (
    if s.pwr.resetting || !s.pwr.kiln.running || !s.pwr.kiln.paused then s else
    endKiln (kilnReport 1 ((judged s entries).map (reportEntry [])) ms arrays units peak 0) s)

/-! ### Authorisation (R465, Table 18.9) -/

/-- A key digest that a fuse field names: not erased, and for OAUTH written. -/
def keyMatches (field digest : BitVec 512) : Bool := field != BitVec.allOnes 512 && field != 0 && field == digest

/-- An authorisation of a block: the key's digest is one that may authorise, and the signature verifies over SERIAL, CHALLENGE, OPC and the
block's digest. -/
def authGood (op : Nat) (block auth : List Byte) (owner : Bool) (s : State) : Bool :=
  let pub := slice auth 0 64
  let d := Config.shake256 pub
  match s.sec.challenge with
  | none => false
  | some c =>
    (keyMatches s.nv.mauth d || (owner && keyMatches s.nv.oauth d))
      && Config.slhVerify pub 1 (leBytes 8 s.nv.serial.toNat ++ leBytes 64 c.toNat ++ leBytes 1 op ++ leBytes 64 (Config.shake256 block).toNat)
        (slice auth 64 29792)

/-- The check of an authorisation consumes the challenge. -/
def useChallenge (s : State) : State := { s with sec := { s.sec with challenge := none } }

/-! ### REPAIR (R450) -/

/-- The entry indices of a REPAIR block that passes the first check; none for BAD_SLIP. -/
def repairList (b : List Byte) (s : State) : Option (List Nat) :=
  match Config.repairBlock b with
  | some (l, serial) =>
    let r := repairEntries s
    if leAt b 0 4 == 0x41495052 && decide (1 ≤ l.length) && decide (l.length ≤ 16) && serial == s.nv.serial
        && l.all fun i => decide (i < r.length) && decide (2 ≤ entryPasses (r.getD i 0)) then some l
    else none
  | none => none

/-- The entries of the record in force that a list names are burned, and FUSED is set in a new record. -/
def burnEntries (l : List Nat) (s : State) : State :=
  let r := s.nv.record.getD {}
  let es := (List.range r.entries.length).map fun i =>
    let e := r.entries.getD i 0
    if l.contains i then withCounts e true (entryPasses e) else e
  writeRecord { seq := r.seq + 1, entries := es }
    { s with nv := { s.nv with fused := s.nv.fused ++ l.map (fun i => r.entries.getD i 0), rowsLeft := s.nv.rowsLeft - l.length } }

/-- REPAIR in the order of R450. -/
def repairRule (b : List Byte) : SlipRule := fun _ s =>
  match repairList (b.take 64) s with
  | none => (some (0x10, 0), s)
  | some l =>
    if s.pwr.stage ≠ 8 then (some (0x12, 0), s)
    else if !authGood 0x11 (slice b 0 64) (slice b 64 29856) true s then (some (0x15, 0), useChallenge s)
    else if s.nv.rowsLeft < l.length then (some (0x13, 0), useChallenge s)
    else (some (0, 0), burnEntries l (useChallenge s))

/-- REPAIR. -/
def execRepair (x : SlipIn) (s : State) : Out :=
  .next (takeSlip x.ring 0x11 x.tag {} (fieldsThen (goodFields { align := 64 } x && x.len == 29920)
    (withBlock x.block fun b => repairRule b)) s)

end Sys2Proof.Machine
end

