-- ==== Sys2Proof/Machine/Lifecycle.lean ====
section
/-! DEFINITION. Machine/Lifecycle.lean: LIFECYCLE slips and boot from the host (R457, R461 to R467). -/

namespace Sys2Proof.Machine

/-! ### The block (Table 18.6) -/

/-- A LIFECYCLE operation needs an authorisation (R462, Tables 18.8 and 18.9). -/
def needsAuth (b : List Byte) : Bool := leAt b 4 1 == 3 || (leAt b 4 1 == 2 && leAt b 5 1 == 3)

/-- A LIFECYCLE block of a slip follows Table 18.6, and SERIAL is the device's (the first row of Table 18.7, without the image and the board
record). -/
def goodLifecycle (len : Nat) (b : List Byte) (s : State) : Bool :=
  let op := leAt b 4 1
  leAt b 0 4 == 0x4359434C && decide (op < 4) && (if op = 2 then decide (leAt b 5 1 < 5) else leAt b 5 1 == 0) && zeroRange b 6 2
    && leAt b 8 8 == s.nv.serial.toNat && zeroRange b 104 24 && len == (if needsAuth b then 29984 else 128)
    && (if op = 0 then decide (50368 ≤ leAt b 36 4) else true)
    && (if op = 1 then (leAt b 16 8 != 0 || leAt b 28 8 != 0) && (leAt b 16 8 != 0 || leAt b 24 4 == 0)
          && (leAt b 28 8 == 0 || leAt b 36 4 == 256)
        else true)
    && (op == 0 || (op == 2 && leAt b 5 1 == 2) || zeroRange b 40 64)

/-- The slip carries an operation of this row, one that Table 18.6 reserves, or a block that could not be read. -/
def isOp (op : Nat) (x : SlipIn) : Bool :=
  match x.block with
  | .data b => leAt b 4 1 == op || decide (4 ≤ leAt b 4 1)
  | _ => true

/-- Take a LIFECYCLE slip whose fields and block are good. -/
def takeLifecycle (x : SlipIn) (rule : List Byte → SlipRule) (s : State) : State :=
  takeSlip x.ring 0x12 x.tag {} (fieldsThen (goodFields { align := 64 } x && (x.len == 128 || x.len == 29984))
    (withBlock x.block fun b => fieldsThen (goodLifecycle x.len.toNat (slice b 0 128) s) (rule b))) s

/-! ### ATTEST (R461) -/

/-- ATTEST in the order of Table 18.7; one report is signed and up to 8 wait. -/
def attestRule (ring : Nat) (b : List Byte) : SlipRule := fun n s =>
  if s.nv.lcs ≠ 1 ∧ s.nv.lcs ≠ 2 then (some (0x12, 0), s)
  else if 9 ≤ s.sec.attq.length then (some (0x13, 0), s)
  else (none, { s with sec := { s.sec with attq := s.sec.attq ++ [(ring, n, leAt b 28 8, BitVec.ofNat 512 (leAt b 40 64))] } })

/-- ATTEST. -/
def execAttest (x : SlipIn) (s : State) : Out :=
  .next (if !isOp 0 x then s else takeLifecycle x (fun b => attestRule x.ring b) s)

/-- FLAGS of a report. -/
def attestFlags (s : State) : Nat :=
  b2n s.pwr.hostBoot + 2 * b2n s.pwr.unclean + 4 * b2n s.sec.debug + 8 * b2n s.varMis + 16 * b2n (s.saf.arm && s.nv.variantS)

/-- Bytes 0 to 511 of a report (Table 18.5). -/
def attestBody (s : State) (nonce : BitVec 512) : List Byte :=
  leBytes 4 0x54535441 ++ leBytes 2 1 ++ leBytes 1 s.nv.lcs ++ leBytes 1 (b2n s.nv.variantS) ++ leBytes 8 s.nv.serial.toNat
    ++ leBytes 1 s.nv.secver ++ leBytes 1 s.sec.imageSecver ++ leBytes 2 (attestFlags s) ++ leBytes 4 s.sec.nload.toNat ++ leBytes 8 0
    ++ leBytes 64 nonce.toNat ++ (List.range 5).flatMap (fun k => leBytes 64 (tget s.sec.m 0 k).toNat)
    ++ leBytes 64 (identityKey s).toNat ++ leBytes 32 0

/-- A signed report. -/
def attestReport (s : State) (nonce : BitVec 512) : List Byte :=
  let b := attestBody s nonce
  b ++ (List.range 49856).map (Config.idSign b)

/-- ATTEST_SIGN_DONE: the oldest report is signed and written, and its slip completes. -/
def execAttestSignDone (s : State) : Out :=
  .next (match running s, s.sec.attq with
    | true, (ring, slip, addr, nonce) :: rest =>
      let s := if s.host.linkUp then hostWrite addr (attestReport s nonce) s else s
      slipDone ring slip 0 0 { s with sec := { s.sec with attq := rest } }
    | _, _ => s)

/-! ### IMAGE_UPDATE (R467) -/

/-- IMAGE_UPDATE in the order of Table 18.7: `image` holds the image when IADDR names one, and `board` the board record when RADDR does. -/
def imageRule (ring : Nat) (b image board : List Byte) : SlipRule := fun n s =>
  let has := leAt b 16 8 != 0
  let code := if has then imageCheck (leAt b 24 4) image s else 0
  if code = 0x10 || (leAt b 28 8 != 0 && !goodBoard board) then (some (0x10, 0), s)
  else if ring ≠ 0 then (some (0x11, 0), s)
  else if code ≠ 0 then (some (0x15, 0), s)
  else (none, { s with sec := { s.sec with update := some (ring, n, if has then image else [], if leAt b 28 8 != 0 then board else []) } })

/-- IMAGE_UPDATE: `x.extra` is the image followed by the board record, each where the block names one. -/
def execImageUpdate (x : SlipIn) (s : State) : Out :=
  .next (if !isOp 1 x then s else
    takeLifecycle x (fun b => withBlock x.extra fun e =>
      imageRule x.ring b (slice e 0 (leAt b 24 4)) (slice e (leAt b 24 4) 256)) s)

/-- IMAGE_UPDATE_DONE: the flash is programmed and read back. Where the readback differs the flash image is invalid, whatever its bytes
(R467). -/
def execImageUpdateDone (readback : Bool) (s : State) : Out :=
  .next (match running s, s.sec.update with
    | true, some (ring, slip, image, board) =>
      let s := { s with sec := { s.sec with update := none } }
      if readback then
        slipDone ring slip 0 0 { s with nv := { s.nv with flash := if image.isEmpty then s.nv.flash else image,
                                                          board := if board.isEmpty then s.nv.board else board } }
      else
        slipDone ring slip 0x30 0 { s with nv := { s.nv with flash := if image.isEmpty then s.nv.flash else [],
                                                             board := if image.isEmpty then [] else s.nv.board } }
    | _, _ => s)

/-! ### TRANSITION and DEBUG_UNLOCK (R463, R466) -/

/-- The targets that Table 18.8 allows from a state. -/
def targetsOf : Nat → List Nat
  | 0 => [1, 4]
  | 1 => [2, 3, 4]
  | 2 => [3, 4]
  | 3 => [4]
  | _ => []

/-- The keys that a target must not keep are erased; entry to PERSONALISED writes IDSEED and KREC, entry to OPERATIONAL OAUTH (Table
18.8). -/
def keysFor (target : Nat) (arg : BitVec 512) (v : NvSt) : NvSt :=
  match target with
  | 1 => { v with idErased := false, krecErased := false }
  | 2 => { v with oauth := arg }
  | 3 => { v with idErased := true, oauthErased := true, oauth := BitVec.allOnes 512 }
  | _ => { v with idErased := true, oauthErased := true, oauth := BitVec.allOnes 512, krecErased := true }

/-- DRAM is wiped physically (Table 12.3). -/
def wipeDram (s : State) : State :=
  { s with mem := { s.mem with dram := [], lastFn := [], channels := tmap s.mem.channels fun _ c => { c with poison := [], zeroMap := [] } } }

/-- The receipts of a ring that are complete are written, as far as the receipt ring has room. -/
def flushReceipts (ring : Nat) (s : State) : State := (List.range (ringAt s ring).taken.length).foldl (fun s _ => putReceipt ring s) s

/-- The slip that was taken from s to t completed with OK. -/
def acceptedOn (ring : Nat) (s t : State) : Bool := (ringAt t ring).taken.any fun k => k.id == s.order && k.done.any fun d => d.1 == 0

/-- The check of TRANSITION in the order of Table 18.7: none when it goes on. -/
def transitionRefusal (ring : Nat) (b : List Byte) (s : State) : Option Nat :=
  let t := leAt b 5 1
  if ring ≠ 0 then some 0x11
  else if !(targetsOf s.nv.lcs).contains t || s.saf.arm then some 0x12
  else if t = 3 && s.nv.lcs != 0 && !authGood 0x12 (slice b 0 128) (slice b 128 29856) false s then some 0x15
  else none

/-- TRANSITION as a slip's rule: steps 1 to 4 of R463. -/
def transitionRule (ring : Nat) (b : List Byte) : SlipRule := fun _ s =>
  let r := transitionRefusal ring b s
  let checked := ring == 0 && !s.saf.arm && (targetsOf s.nv.lcs).contains 3 && leAt b 5 1 == 3
  let s := if checked then useChallenge s else s
  match r with
  | some st => (some (st, 0), s)
  | none =>
    let t := leAt b 5 1
    let s := wipeDram (closeAll s)
    (some (0, 0), { s with nv := { keysFor t (BitVec.ofNat 512 (leAt b 40 64)) s.nv with lcs := t } })

/-- TRANSITION: the receipt is written before the cold reset that ends it; it waits while level 4 holds a seal. -/
def execTransition (x : SlipIn) (s : State) : Out :=
  .next (if !isOp 2 x || sealsWait s then s else
    let t := takeLifecycle x (fun b => transitionRule x.ring b) s
    if acceptedOn x.ring s t then coldReset (flushReceipts 0 t) else t)

/-- DEBUG_UNLOCK as a slip's rule: steps 1 to 3 of R466. -/
def debugRule (ring : Nat) (b : List Byte) : SlipRule := fun _ s =>
  if ring ≠ 0 then (some (0x11, 0), s)
  else if s.saf.arm then (some (0x12, 0), s)
  else if !authGood 0x12 (slice b 0 128) (slice b 128 29856) true s then (some (0x15, 0), useChallenge s)
  else
    let s := wipeDram (closeAll (useChallenge s))
    let s := extendM 0 (leBytes 64 (Config.shake256 (slice b 128 64)).toNat) s
    (some (0, 0), { s with sec := { s.sec with jtag := true, debug := true } })

/-- DEBUG_UNLOCK: the receipt is written before the device reset that ends it; it waits while level 4 holds a seal. -/
def execDebugUnlock (x : SlipIn) (s : State) : Out :=
  .next (if !isOp 3 x || sealsWait s then s else
    let t := takeLifecycle x (fun b => debugRule x.ring b) s
    if acceptedOn x.ring s t then deviceReset (flushReceipts 0 t) else t)

/-! ### Boot from the host (R457) -/

/-- A SEC_HOSTBOOT write with GO: verification of LENGTH staged bytes starts; one written while a verification runs is counted. -/
def hostGo (value : Word) (s : State) : State :=
  let n := bits value.toNat 21 0
  if s.sec.verifying then { s with sec := { s.sec with hbIgnored := min (s.sec.hbIgnored + 1) 65535 } }
  else if n < 29936 ∨ 2097152 < n then s
  else { s with sec := { s.sec with verifying := true, hbLen := n } }

/-- HOST_BOOT_GO. -/
def execHostBootGo (fn : Nat) (value : Word) (s : State) : Out :=
  .next (if pf0Reaches s fn && s.pwr.stage == 2 && !s.pwr.resetting && nbit value.toNat 31 && blockUp s 100 then hostGo value s else s)

/-- HOST_IMAGE_VERIFIED: the staged image is judged by Table 18.4: boot goes on from step 4, or the code is kept and the device waits on. -/
def execHostImageVerified (s : State) : Out :=
  .next (
    if s.pwr.resetting || !s.sec.verifying || s.pwr.stage != 2 then s
    else
      let image := memBytes 0 s.sec.staging 0 s.sec.hbLen
      let code := imageCheck s.sec.hbLen image s
      let s := { s with sec := { s.sec with verifying := false } }
      if code ≠ 0 then { s with sec := { s.sec with hbCode := code } }
      else match s.pwr.facts with
        | some f => bootOn f (acceptImage image { s with pwr := { s.pwr with hostBoot := true } })
        | none => s)

end Sys2Proof.Machine
end

