-- ==== Sys2Proof/Machine/Spigot.lean ====
section
/-! DEFINITION. Machine/Spigot.lean: the safety island's own commands and the Spigot port (R405, R407, R417 to R428). -/

namespace Sys2Proof.Machine

/-! ### Silence and SAFE_OK (R407, R417) -/

/-- The watch entry of a stream whose silence timer runs. -/
def timedWatch (s : State) (stream : Nat) : Bool :=
  s.saf.watches.any fun w => w.2.en && w.2.stream == stream && w.2.timer && !w.2.silenced

/-- SILENCE_EXPIRY: the silence timer of a watched stream reaches SILENCE: its Spigot-bound zones are stale in place, SAFE_OK is not-OK
(R407). -/
def execSilenceExpiry (stream : Nat) (s : State) : Out :=
  .next (
    if s.pwr.resetting || s.err.c4 || s.saf.held || !watched s stream || !timedWatch s stream || (strm s stream).state != .running then s
    else
      let s := staleZones (fun b => b.1 == stream) false s
      let s := modWatch stream (fun w => { w with silenced := true, timer := false }) s
      dirtyStream stream { s with saf := { s.saf with silenceCount := satInc s.saf.silenceCount } })

/-- SAFE_OK_TOGGLE: HALF cycles have passed while SAFE_OK is OK, and both lines change level (R417). -/
def execSafeOkToggle (s : State) : Out :=
  .next (if !s.saf.ok || s.saf.held || s.pwr.resetting then s
    else { s with saf := { s.saf with lineA := !s.saf.lineA, lineB := s.saf.lineA } })

/-! ### Arming (R419, R427) -/

/-- Every enabled watch entry keeps BUDGET and SILENCE, each with two HALF periods, within the FTTI; in cycles of 5 ns (R427). -/
def keepsFtti (s : State) : Bool :=
  s.saf.watches.all fun w => !w.2.en ||
    (decide (200 * w.2.budget + 2 * s.saf.half ≤ 200000 * s.saf.ftti) && decide (200 * w.2.silence + 2 * s.saf.half ≤ 200000 * s.saf.ftti))

/-- The cause that refuses ARM, by the first of R419's list that holds, or 0 (Table 16.7). -/
def armCause (s : State) : Nat :=
  if !s.saf.lock then 1
  else if !(partAt s 0).present || (partAt s 0).c3 then 2
  else if s.varMis then 4
  else if s.saf.held then 5
  else if !keepsFtti s then 3
  else 0

/-- A write of SAF_CTL: ARM 1 arms or is refused with its cause, ARM 0 disarms at once; an arming sets every clean count back (R418,
R419). -/
def writeArm (value : Word) (s : State) : State :=
  let s := { s with err := { s.err with parity := s.err.parity.filter (· != 0x030000) } }
  if nbit value.toNat 0 then
    if s.saf.arm then s
    else if armCause s = 0 then dirtyAll { s with saf := { s.saf with arm := true, cause := 0 } }
    else { s with saf := { s.saf with cause := armCause s } }
  else goNotOk { s with saf := { s.saf with arm := false } }

/-- A write of a SAF register arrives (R333, R477). -/
def safReaches (s : State) (fn : Nat) : Bool := pf0Reaches s fn && running s

/-- ARM. -/
def execArm (fn : Nat) (value : Word) (s : State) : Out :=
  .next (if safReaches s fn && nbit value.toNat 0 then writeArm value s else s)

/-- DISARM. -/
def execDisarm (fn : Nat) (value : Word) (s : State) : Out :=
  .next (if safReaches s fn && !nbit value.toNat 0 then writeArm value s else s)

/-! ### Watch entries (R405, R407, R428) -/

/-- BAR0 offset of a register of watch entry n. -/
def watchReg (n off : Nat) : Nat := 0x030100 + 0x10 * n + off

/-- An enable of entry n for a stream is ignored: it is open outside partition 0, or another entry watches it (R428). -/
def refusesWatch (s : State) (n stream : Nat) : Bool :=
  ((strm s stream).state != .closed && (strm s stream).part != 0)
    || s.saf.watches.any fun w => w.1 != n && w.2.en && w.2.stream == stream

/-- A write of SAF_WATCHn.CTL, ignored while locked; enabling an entry of a running stream starts its silence timer (R407). -/
def writeWatch (n : Nat) (value : Word) (s : State) : State :=
  let v := value.toNat
  let id := bits v 9 0
  let on := nbit v 31
  let w := tget s.saf.watches {} n
  if s.saf.lock || s.saf.held || (on && refusesWatch s n id) then s
  else
    let s := rewrite (watchReg n 0) s
    let put := fun (w : Watch) => { s with saf := { s.saf with watches := tset s.saf.watches n w } }
    if !on then put { w with en := false, stream := id, timer := false }
    else if w.en && w.stream == id then s
    else put { budget := w.budget, silence := w.silence, en := true, stream := id, timer := (strm s id).state == .running }

/-- WATCH_ENABLE: a CTL write with EN 1. -/
def execWatchEnable (fn n : Nat) (value : Word) (s : State) : Out :=
  .next (if safReaches s fn && decide (n < 64) && nbit value.toNat 31 then writeWatch n value s else s)

/-- LOCKSTEP_MISMATCH: the two cores of the safety island disagree (R426). -/
def execLockstepMismatch (s : State) : Out :=
  .next (if s.pwr.resetting || s.err.c4 then s else holdSafety s)

/-! ### The Spigot (R420 to R423) -/

/-- The Spigot answers: the safety island runs and drives the port (R423). -/
def spigotUp (s : State) : Bool := s.saf.driven && !s.saf.held

/-- A Spigot word from its bits [31:8]: its check code is CRC-8 over them (R421). -/
def spigotWord (w : BitVec 24) : Word :=
  let n := w.toNat
  BitVec.ofNat 32 (256 * n + crc8Byte (crc8Byte (crc8Byte 0xFF (n / 65536)) (n / 256 % 256)) (n % 256))

/-- The status word [31:8] (Table 16.4). -/
def statusBits (s : State) : BitVec 24 :=
  let unclean := (s.saf.watches.filter fun w => w.2.en && !w.2.lastClean).length
  BitVec.ofNat 24 (65536 * s.saf.statusSeq.toNat
    + 256 * (b2n s.saf.ok + 2 * b2n s.saf.arm + 4 * b2n (partAt s 0).c3 + 8 * b2n (decide (4 ≤ s.pwr.level)) + 16 * b2n s.host.linkLost)
    + min unclean 255)

/-- ECHO's word [31:8] (Table 16.2). -/
def echoBits (x : Byte) : BitVec 24 := BitVec.ofNat 24 (65536 * x.toNat + 256 * (x ^^^ 0xFF).toNat + 0xA5)

/-- The Spigot drives something, or nothing where the port is unanswered. -/
def drive (o : SpigotOut) (s : State) : State := { s with saf := { s.saf with spigot := if spigotUp s then o else .released } }

/-- READ_ZONE: the snapshot of one zone word. -/
def execReadZone (index : Byte) (s : State) : Out := .next (drive (.word (spigotWord (zoneWord s index.toNat))) s)

/-- READ_RUN: the zone word of the index; while SPG_CS_N stays asserted after one, the next zone's, from 255 on to 0. -/
def execReadRun (index : Byte) (s : State) : Out :=
  let i := match s.saf.spigot with | .run n _ => n | _ => index.toNat
  .next (drive (.run ((i + 1) % 256) (spigotWord (zoneWord s i))) s)

/-- READ_STATUS: the status word at index 0, undriven at any other. -/
def execReadStatus (index : Byte) (s : State) : Out :=
  .next (drive (if index = 0 then .word (spigotWord (statusBits s)) else .released) s)

/-- ECHO: the index, its complement, 0xA5 and the check code. -/
def execEcho (index : Byte) (s : State) : Out := .next (drive (.word (spigotWord (echoBits index))) s)

/-- SPIGOT_CS_DEASSERT: SPG_MISO is released. -/
def execSpigotCsDeassert (s : State) : Out := .next (drive .released s)

/-- SPIGOT_UNLISTED_COMMAND: a command that Table 16.2 does not list leaves SPG_MISO undriven. -/
def execSpigotUnlistedCommand (cmd : Byte) (s : State) : Out :=
  .next (if [0x5A, 0x5B, 0x3C, 0x66].contains cmd then s else drive .released s)

/-! ### SMBus (R492) -/

/-- The SMBus interface answers: the always-on island is powered, and neither POR_N nor PERST_N is asserted (R25, R492, log entry 47). -/
def smbusUp (s : State) : Bool := s.pwr.railsUp.contains .aon && (!s.pwr.resetting || s.pwr.deviceBoot)

/-- An SMBus Block Read of a register. -/
def smbusRead (w : Word) (s : State) : State := { s with smbus := if smbusUp s then some w else none }

/-- DEV_ID as PF0 reads it (Table 19.3). -/
def devId (s : State) : Word :=
  BitVec.ofNat 32 (2 ^ 30 * b2n s.varMis + 2 ^ 28 * b2n s.nv.variantS + 2 ^ 24 * (s.nv.step % 16) + 2 ^ 16 * 0xF1 + 0x0640)

/-- PWR_LEVEL (Table 17.9). -/
def pwrLevelReg (s : State) : Word :=
  BitVec.ofNat 32 (s.pwr.level % 8 + 2 ^ 8 * b2n s.pwr.droop + 2 ^ 9 * b2n s.pwr.brake + 2 ^ 12 * (s.pwr.droopRail % 16))

/-- PWR_BOOT (Table 17.9). -/
def pwrBootReg (s : State) : Word :=
  BitVec.ofNat 32 (s.pwr.stage % 16 + 2 ^ 8 * (s.pwr.fail % 256) + 2 ^ 16 * b2n s.pwr.unclean + 2 ^ 17 * b2n s.pwr.hostBoot + 2 ^ 18 * b2n s.pwr.warm)

/-- PWR_TEMP (Table 17.9): the temperature in two's complement. -/
def pwrTempReg (s : State) : Word := BitVec.ofNat 32 ((BitVec.ofInt 8 s.pwr.temp).toNat + 2 ^ 8 * (s.pwr.sensor % 64))

/-- PWR_EST (Table 17.9). -/
def pwrEstReg (s : State) : Word := BitVec.ofNat 32 (s.pwr.est % 1024)

/-- SMBUS_DEV_ID: command 0x00. -/
def execSmbusDevId (s : State) : Out := .next (smbusRead (devId s) s)
/-- SMBUS_PWR_LEVEL: command 0x10. -/
def execSmbusPwrLevel (s : State) : Out := .next (smbusRead (pwrLevelReg s) s)
/-- SMBUS_PWR_BOOT: command 0x14. -/
def execSmbusPwrBoot (s : State) : Out := .next (smbusRead (pwrBootReg s) s)
/-- SMBUS_PWR_TEMP: command 0x18. -/
def execSmbusPwrTemp (s : State) : Out := .next (smbusRead (pwrTempReg s) s)
/-- SMBUS_PWR_EST: command 0x1C. -/
def execSmbusPwrEst (s : State) : Out := .next (smbusRead (pwrEstReg s) s)

end Sys2Proof.Machine
end

