-- ==== Sys2Proof/Machine/Regs.lean ====
section
/-! DEFINITION. Machine/Regs.lean: writes of registers, lock bits, the mailbox, counter selections and configuration parity (R333, R334,
R469 to R481, R483, R484, R487 to R489). -/

namespace Sys2Proof.Machine

/-! ### PWR (R431, R437, Table 17.9) -/

/-- PWR_LOCK in force: its reset value while its parity mismatches (Table 19.1). -/
def pwrLocked (s : State) : Bool := pwrReg s 4 s.pwr.lock false

/-- A PWR_SHEDTH value is in the ranges of Table 17.3, each threshold 1 % below the one before (R437). -/
def goodShedTh (v : Nat) : Bool :=
  let t := fun l => bits v (8 * l - 1) (8 * l - 8)
  decide (180 ≤ t 1) && decide (t 1 ≤ 194) && decide (174 ≤ t 2) && decide (t 2 ≤ 190) && decide (168 ≤ t 3) && decide (t 3 ≤ 186)
    && decide (160 ≤ t 4) && decide (t 4 ≤ 180) && decide (t 2 + 2 ≤ t 1) && decide (t 3 + 2 ≤ t 2) && decide (t 4 + 2 ≤ t 3)

/-- A write of a PWR register at its block offset. -/
def writePwr (off v : Nat) (s : State) : State :=
  if pwrLocked s then s else
  let put := fun (p : PwrSt) => rewrite (0x020000 + off) { s with pwr := p }
  match off with
  | 0 => if 120 ≤ bits v 8 0 ∧ bits v 8 0 ≤ 400 then put { s.pwr with cap := bits v 8 0 } else s
  | 4 => put { s.pwr with lock := s.pwr.lock || nbit v 0 }
  | 8 => if goodShedTh v then put { s.pwr with shedth := BitVec.ofNat 32 v } else s
  | 0xC => put { s.pwr with brakeLvl := if 1 ≤ bits v 2 0 ∧ bits v 2 0 ≤ 4 then bits v 2 0 else s.pwr.brakeLvl, shedPrio := bits v 6 4,
                            istPeriod := bits v 15 8 }
  | _ => s

/-! ### SAF (R428, Table 16.7) -/

/-- A value in its range, or the one before (R472). -/
def inRange (lo hi v old : Nat) : Nat := if lo ≤ v ∧ v ≤ hi then v else old

/-- The safety island's settings after a write of an RWL register other than the watch entries. -/
def safField (off v : Nat) (f : SafSt) : SafSt :=
  match off with
  | 4 => { f with lock := f.lock || nbit v 0 }
  | 0x10 => { f with ftti := inRange 50 500 (bits v 9 0) f.ftti }
  | 0x14 => { f with half := inRange 10000 1000000 (bits v 19 0) f.half }
  | 0x18 => { f with cleanN := inRange 1 255 (bits v 7 0) f.cleanN, k := inRange 1 255 (bits v 15 8) f.k,
                     w := inRange 1 65535 (bits v 31 16) f.w }
  | _ => f

/-- The watch entry after a write of BUDGET or SILENCE. -/
def watchField (off v : Nat) (w : Watch) : Watch :=
  match off with
  | 4 => { w with budget := inRange 1000 500000 (bits v 18 0) w.budget }
  | 8 => { w with silence := inRange 10000 500000 (bits v 18 0) w.silence }
  | _ => w

/-- A write of a SAF register at its block offset: RWL registers are frozen under SAF_LOCK; a held island takes none (R426, R477). -/
def writeSaf (off v : Nat) (s : State) : State :=
  if off = 0 then writeArm (BitVec.ofNat 32 v) s
  else if s.saf.held || s.saf.lock then s
  else if off = 4 ∨ off = 0x10 ∨ off = 0x14 ∨ off = 0x18 then rewrite (0x030000 + off) { s with saf := safField off v s.saf }
  else if 0x100 ≤ off ∧ off < 0x500 then
    let n := (off - 0x100) / 0x10
    match off % 0x10 with
    | 0 => writeWatch n (BitVec.ofNat 32 v) s
    | 4 => rewrite (0x030000 + off) { s with saf := { s.saf with watches := tmod s.saf.watches {} n (watchField 4 v) } }
    | 8 => rewrite (0x030000 + off) { s with saf := { s.saf with watches := tmod s.saf.watches {} n (watchField 8 v) } }
    | _ => s
  else s

/-! ### PMU (R483, R484, R487, R489) -/

/-- A counter selection as a write leaves it: a code that the island does not list keeps the old one, CHAIN on PMC7 is reserved. -/
def evtField (isl n v : Nat) (old : Word) : Word :=
  let code := if (islandEvents isl).contains (v % 256) then v % 256 else old.toNat % 256
  BitVec.ofNat 32 (2 ^ 31 * b2n (nbit v 31) + 2 ^ 30 * b2n (nbit v 30 && n != 7) + code)

/-- A write of PMU_EVTn: the selected island takes the selection; one that is stopped, held in reset or withdrawn ignores it. -/
def writeEvt (n v : Nat) (s : State) : State :=
  let i := s.pmuIsl
  if islandDown s i || s.err.parity.contains 0x050000 then s
  else
    let put := fun (d : Island) => { d with evt := tset d.evt n (evtField i n v (tget d.evt 0 n)), openPmc := openPmcs i d,
                                            marred := d.marred.filter (· != n) }
    { s with islands := tmod s.islands {} i put }

/-- A write of a PMU register at its block offset. -/
def writePmu (off v : Nat) (s : State) : State :=
  if off = 0 then rewrite 0x050000 { s with pmuIsl := inRange 0 101 (bits v 6 0) s.pmuIsl }
  else if 0x10 ≤ off ∧ off < 0x30 ∧ off % 4 = 0 then writeEvt ((off - 0x10) / 4) v s
  else s

/-! ### FAB windows (R384, R385) -/

/-- A window after a write of a register other than CTL; LEN is held in bytes. -/
def winField (off v : Nat) (w : Window) : Window :=
  match off with
  | 4 => { w with peerWin := bits v 7 0, sigClu := bits v 10 8, sigEn := nbit v 11, sigSem := bits v 19 12 }
  | 8 => { w with off := BitVec.ofNat 64 (w.off.toNat / 2 ^ 32 * 2 ^ 32 + bits v 31 16 * 65536) }
  | 0xC => { w with off := BitVec.ofNat 64 (v * 2 ^ 32 + w.off.toNat % 2 ^ 32) }
  | 0x10 => { w with len := 65536 * inRange 1 262144 (bits v 18 0) (w.len / 65536) }
  | _ => w

/-- A write of a FAB register at its block offset. -/
def writeFab (off v : Nat) (s : State) : State :=
  if off = 0 then writeFabCfg (BitVec.ofNat 32 v) s
  else if off = 4 then if s.fab.lock then s else rewrite 0x060004 { s with fab := { s.fab with lock := nbit v 0 } }
  else if off = 8 then writeFabCtl (BitVec.ofNat 32 v) s
  else if 0x1000 ≤ off ∧ off < 0x3000 then
    let n := (off - 0x1000) / 0x20
    let o := off % 0x20
    if o = 0 then writeWinCtl n (BitVec.ofNat 32 v) (rewrite (winReg n 0) s)
    else if (tget s.fab.wins {} n).valid || !(o = 4 || o = 8 || o = 0xC || o = 0x10) then s
    else rewrite (0x060000 + off) { s with fab := { s.fab with wins := tmod s.fab.wins {} n (winField o v) } }
  else s

/-! ### ETH (R215, Table 8.9) -/

/-- A host packet ring after a write of its base, size, TAIL or vector; base and size keep their values while ENABLE is 1, but for a write
that clears it (log entry 48). -/
def pktField (off v : Nat) (r : PktRing) : PktRing :=
  let on := nbit r.size.toNat 31
  match off with
  | 0 => if on then r else { r with base := BitVec.ofNat 64 (r.base.toNat / 2 ^ 32 * 2 ^ 32 + bits v 31 12 * 4096) }
  | 4 => if on then r else { r with base := BitVec.ofNat 64 (v * 2 ^ 32 + r.base.toNat % 2 ^ 32) }
  | 8 =>
    if on then (if nbit v 31 then r else ringOff r)
    else { r with size := BitVec.ofNat 32 (2 ^ 31 * b2n (nbit v 31) + inRange 0 6 (v % 8) (r.size.toNat % 8)) }
  | 0xC => { r with tail := v % 4096 % r.entries, written := 0 }
  | 0x14 => { r with vec := bits v 10 0 }
  | _ => r

/-- A write of an ETH register at its block offset. -/
def writeEth (off v : Nat) (s : State) : State :=
  let n := off / 0x100
  let o := off % 0x100
  let put := fun (f : Port → Port) => driveInta (modEth n f (rewrite (0x070000 + off) s))
  if 2 ≤ n then s
  else if o = 0x08 then put fun p => { p with mac := BitVec.ofNat 48 (p.mac.toNat / 2 ^ 32 * 2 ^ 32 + v) }
  else if o = 0x0C then put fun p => { p with mac := BitVec.ofNat 48 (v % 65536 * 2 ^ 32 + p.mac.toNat % 2 ^ 32) }
  else if o = 0x10 ∨ o = 0x14 ∨ o = 0x18 ∨ o = 0x1C ∨ o = 0x24 then put fun p => { p with rx := pktField (o - 0x10) v p.rx }
  else if o = 0x30 ∨ o = 0x34 ∨ o = 0x38 ∨ o = 0x3C ∨ o = 0x44 then put fun p => { p with tx := pktField (o - 0x30) v p.tx }
  else s

/-! ### RING slots (R339, R340, Table 13.4) -/

/-- A disabled ring's slot after a write of a register other than RING_CFG. -/
def slotField (off v : Nat) (r : Ring) : Ring :=
  match off with
  | 0 => { r with base := BitVec.ofNat 64 (r.base.toNat / 2 ^ 32 * 2 ^ 32 + bits v 31 12 * 4096) }
  | 4 => { r with base := BitVec.ofNat 64 (v * 2 ^ 32 + r.base.toNat % 2 ^ 32) }
  | 0xC => { r with folioFirst := bits v 9 0, folioLast := bits v 25 16 }
  | 0x10 => { r with area := BitVec.ofNat 64 (r.area.toNat / 2 ^ 32 * 2 ^ 32 + bits v 31 16 * 65536) }
  | 0x14 => { r with area := BitVec.ofNat 64 (v * 2 ^ 32 + r.area.toNat % 2 ^ 32) }
  | 0x18 => { r with areaSz := inRange 16 16384 (bits v 14 0) r.areaSz }
  | 0x1C => { r with modTime := bits v 31 16, modCount := max (bits v 7 0) 1 }
  | _ => r

/-- A write of a register of ring n by its owner: every register but RING_CFG is frozen while ENABLE is 1 (R340). -/
def writeRing (n off v : Nat) (s : State) : State :=
  if off = 8 then writeRingCfg n (BitVec.ofNat 32 v) (rewrite (ringReg n 8) s)
  else if (ringAt s n).enable || !(off ≤ 0x1C && off % 4 = 0) then s
  else rewrite (ringReg n off) (modRing n (slotField off v) s)

/-! ### DEV and MBX (R479 to R481) -/

/-- A DEV_SCRATCH write of a function. -/
def writeScratch (fn : Nat) (v : Nat) (s : State) : State :=
  let s := modFn fn (fun g => { g with scratch := BitVec.ofNat 32 v }) s
  if fn = 0 then rewrite 0x40 s else s

/-- A write of MBX_SEL: GEN counts it, VALID and UNKNOWN clear, BUSY sets, and a running fill is abandoned (R480). -/
def writeMbxSel (fn : Nat) (value : Word) (s : State) : State :=
  modFn fn (fun g => { g with mbxSel := value, mbxGen := g.mbxGen + 1, mbxValid := false, mbxUnknown := false, mbxBusy := true, mbxData := [] }) s

/-- A function's DEV and MBX blocks take writes: at every stage from step 4 of boot on, and after C4 (R477). -/
def hostReaches (s : State) (fn : Nat) : Bool := s.host.linkUp && !s.pwr.resetting && fnPresent s fn && decide (fn < 32) && blockUp s 85

/-- MBX_SEL. -/
def execMbxSel (fn : Nat) (value : Word) (s : State) : Out := .next (if hostReaches s fn then writeMbxSel fn value s else s)

/-- The mailbox of a function takes what a fill gives. -/
def fillMailbox (r : Option (List Word)) (g : Func) : Func :=
  match r with
  | none => { g with mbxBusy := false, mbxValid := true, mbxUnknown := true, mbxLen := 0, mbxData := [] }
  | some l => { g with mbxBusy := false, mbxValid := true, mbxUnknown := false, mbxLen := l.length, mbxData := l }

/-- MAILBOX_FILL_DONE: the snapshot of the record is in the mailbox (R480, R481). -/
def execMailboxFillDone (fn : Nat) (s : State) : Out :=
  .next (if s.pwr.resetting || !(fnAt s fn).mbxBusy then s else
    let (r, t) := readRecord fn (fnAt s fn).mbxSel.toNat s
    modFn fn (fillMailbox r) t)

/-! ### The map (R333, R334, R472, R474, R477) -/

/-- A 32-bit write of a function at a BAR0 offset. -/
def writeWord (fn off v : Nat) (s : State) : State :=
  if off < 0x1000 then
    if !hostReaches s fn then s
    else if off = 0x20 then writeDevCtl fn (BitVec.ofNat 32 v) s
    else if off = 0x40 then writeScratch fn v s
    else s
  else if off < 0x2000 then if off = 0x1000 && hostReaches s fn then writeMbxSel fn (BitVec.ofNat 32 v) s else s
  else if 0x1000000 ≤ off then
    let n := (off - 0x1000000) / 0x1000
    if off % 0x1000 = 0 && ownsRing s fn n then ringBell n (BitVec.ofNat 32 v) s else s
  else if 0x400000 ≤ off then
    let n := (off - 0x400000) / 0x400
    if off < 0x800000 && ownsRing s fn n then writeRing n (off % 0x400) v s else s
  else if !pf0Reaches s fn then s
  else match off / 0x10000 with
    | 2 => writePwr (off % 0x10000) v s
    | 3 => if running s then writeSaf (off % 0x10000) v s else s
    | 4 => if off % 0x10000 = 4 && s.pwr.stage == 2 && nbit v 31 && blockUp s 100 then hostGo (BitVec.ofNat 32 v) s else s
    | 5 => if running s && blockUp s 84 then writePmu (off % 0x10000) v s else s
    | 6 => if running s && blockUp s 84 then writeFab (off % 0x10000) v s else s
    | 7 => if running s && blockUp s 98 then writeEth (off % 0x10000) v s else s
    | _ => s

/-- BAR0 offsets of the lock registers (R474). -/
def lockRegs : List Nat := [0x020004, 0x030004, 0x060004]

/-- LOCK: a write of a block's lock register with bit 0 set. -/
def execLock (fn offset : Nat) (value : Word) (s : State) : Out :=
  .next (if lockRegs.contains offset && nbit value.toNat 0 then writeWord fn offset value.toNat s else s)

/-- PMU_EVT: a write of PMU_EVTn. -/
def execPmuEvt (fn n : Nat) (value : Word) (s : State) : Out :=
  .next (if n < 8 then writeWord fn (0x050010 + 4 * n) value.toNat s else s)

/-- A write of a BAR0 location: 32 or 64 bits, aligned, whole words; a 64-bit one that sets LOCK in its low word writes the high one first
(R334, R469, R474). -/
def writeBar0 (w : RegWrite) (s : State) : State :=
  let lo := w.value.toNat % 2 ^ 32
  let hi := w.value.toNat / 2 ^ 32
  if !w.whole || decide (0x2000000 ≤ w.offset) then s
  else if w.size = 4 then if w.offset % 4 = 0 then writeWord w.fn w.offset lo s else s
  else if w.size = 8 then
    if w.offset % 8 ≠ 0 then s
    else if lockRegs.contains w.offset && nbit lo 0 then writeWord w.fn w.offset lo (writeWord w.fn (w.offset + 4) hi s)
    else writeWord w.fn (w.offset + 4) hi (writeWord w.fn w.offset lo s)
  else s

/-- REGISTER_WRITE: a write of any BAR0 location. -/
def execRegisterWrite (w : RegWrite) (s : State) : Out := .next (writeBar0 w s)

/-! ### Configuration parity (R476, Table 19.1) -/

/-- A C2 event of a parity mismatch. -/
def parityEvent (source off : Nat) (unit ctx : Option Nat) (s : State) : State :=
  emit { cls := 2, source := source, unit := unit, ctx := ctx, code := 0xF0, detail := [off] } s

/-- A register of ring n mismatches: the ring is disabled, and every stream whose folio ring it is goes to FAULTED. -/
def parityRing (n off : Nat) (s : State) : State :=
  let mine := s.streams.filter fun t => t.2.state != .closed && t.2.ring == n && (ringAt s n).kind == 2
  let s := driveInta (modRing n (fun r => { r with enable := false, unannounced := 0, merges := [] }) s)
  if mine.any fun t => t.2.part == 0 then
    mine.foldl (fun s t => faultStream t.1 none s) (partFault 0 { source := 0x09, unit := some n, code := 0xF0, detail := [off] } s)
  else mine.foldl (fun s t => faultStream t.1 none s) (parityEvent 0x09 off (some n) none s)

/-- A register of window n mismatches: the window is cleared, and its context faults. -/
def parityWindow (n off : Nat) (s : State) : State :=
  let w := tget s.fab.wins {} n
  let s := { s with fab := { s.fab with wins := tmod s.fab.wins {} n fun w => { w with valid := false } } }
  if w.valid && (ctxAt s w.ctx).isSome then faultContext w.ctx { source := 0x0A, code := 0xF0, detail := [off] } 0x3FF none s
  else parityEvent 0x0A off none none s

/-- The effect and class of a mismatch of a checked register, for each block of Table 19.1; none for a location that is not checked. -/
def parityEffect (off : Nat) (s : State) : Option State :=
  let o := off % 0x10000
  let mark := { s with err := { s.err with parity := off :: s.err.parity } }
  if off = 0x20 ∨ off = 0x40 then some (parityEvent 0x09 off none none mark)
  else if 0x400000 ≤ off ∧ off < 0x800000 then
    if off % 0x400 ≤ 0x1C && off % 4 = 0 then some (parityRing ((off - 0x400000) / 0x400) off mark) else none
  else match off / 0x10000 with
    | 2 => if [0, 4, 8, 0xC].contains o then some (partFault 0 { source := 0x0E, code := 0xF0, detail := [off] } mark) else none
    | 3 =>
      if ([0, 4, 0x10, 0x14, 0x18].contains o || (decide (0x100 ≤ o) && decide (o < 0x500) && [0, 4, 8].contains (o % 0x10))) && !s.saf.held then
        some (partFault 0 { source := 0x0B, code := 0xF0, detail := [off] } mark)
      else none
    | 5 =>
      if o = 0 then some (parityEvent 0x0D off none none mark)
      else if 0x10 ≤ o ∧ o < 0x30 ∧ o % 4 = 0 then
        some (parityEvent 0x0D off none none { s with islands := tmod s.islands {} s.pmuIsl fun d => { d with marred := (o - 0x10) / 4 :: d.marred } })
      else none
    | 6 =>
      if o = 0 ∨ o = 4 then some (parityEvent 0x0A off none none (linksDown (floodDown mark)))
      else if 0x1000 ≤ o ∧ o < 0x3000 ∧ o % 4 = 0 ∧ o % 0x20 ≤ 0x10 then some (parityWindow ((o - 0x1000) / 0x20) off mark)
      else none
    | 7 =>
      if o < 0x200 && [0x08, 0x0C, 0x10, 0x14, 0x18, 0x1C, 0x24, 0x30, 0x34, 0x38, 0x3C, 0x44].contains (o % 0x100) then
        some (parityEvent 0x08 off (some (o / 0x100)) none mark)
      else none
    | _ => none

/-- The mismatch of a register stands already. -/
def alreadyMarred (off : Nat) (s : State) : Bool :=
  s.err.parity.contains off
    || (decide (0x050010 ≤ off) && decide (off < 0x050030) && (tget s.islands {} s.pmuIsl).marred.contains ((off - 0x050010) / 4))

/-- PARITY_SCAN: the check of one register; its first mismatch stops the register and has the effect of Table 19.1 (R476). -/
def execParityScan (offset : Nat) (mismatch : Bool) (s : State) : Out :=
  .next (if !mismatch || s.pwr.resetting || s.err.c4 || alreadyMarred offset s then s else (parityEffect offset s).getD s)

end Sys2Proof.Machine
end

