-- ==== Sys2Proof/Machine/Scalar.lean ====
section
/-! DEFINITION. Machine/Scalar.lean: the control instructions but END (group 0x0), the scalar instructions (group 0x1) and the
descriptor instructions (group 0x2). -/

namespace Sys2Proof.Machine

/-! ### Control (R137, R138) -/

/-- A branch to an offset: a target that is no multiple of 16 or lies outside the code raises cause 0x0C (R138). -/
def badTarget (e : Env) (t : Int) : Check :=
  { cause := 0x0C, bad := !(decide (0 ≤ t) && decide (t % 16 = 0) && decide (t + 16 ≤ e.prog.codeLen)) }

/-- This instruction's offset plus a signed immediate. -/
def relTarget (e : Env) (f : Fields) : Int := (e.core.regs.pc : Int) + f.imm.toInt

/-- NOP (R137): nothing. The command also carries the word whose opcode Table 5.6 does not list: the sequencer issues no such instruction, and the
part ends in ILLEGAL with cause 0x01 (R128, R130). The opcode of another command's instruction is none of this one's, and changes nothing. -/
def execNop (c : Nat) (w : Unlisted) (s : State) : Out :=
  issue c w.upsets s fun _ s =>
    if w.op = 0 then checked [{ cause := 0x02, bad := stray {} w.fields }] [] s fun _ => .done s
    else if aethodListed w.op.toNat then .hold s
    else .fault { code := 0x01, cause := 0x01 } s

/-- BR (R137, R138): branches to this instruction's offset + IMM. -/
def execBr (c : Nat) (w : Fetched) (s : State) : Out :=
  let f := w.fields
  issue c w.upsets s fun e s =>
    checked [{ cause := 0x02, bad := stray { imm := BitVec.allOnes 64 } f }, badTarget e (relTarget e f)] [] s
      fun _ => .jump s (relTarget e f).toNat

/-- The comparison of BRC by MOD[2:0] (Table 5.7). -/
def brcHolds (k : Nat) (a b : Word) : Bool :=
  match k with
  | 0 => a == b
  | 1 => a != b
  | 2 => a.slt b
  | 3 => !a.slt b
  | 4 => a.ult b
  | _ => !a.ult b

/-- BRC (R137, R138): branches when the comparison holds; the target is checked whether or not the branch is taken. -/
def execBrc (c : Nat) (w : Fetched) (s : State) : Out :=
  let f := w.fields
  issue c w.upsets s fun e s =>
    let k := f.mod.toNat % 8
    checked [{ cause := 0x02, bad := stray { mod := 7, ra := true, rb := true, imm := BitVec.allOnes 64 } f },
             { cause := 0x05, bad := decide (6 ≤ k) }, badTarget e (relTarget e f)] [] s
      fun _ => if brcHolds k (sreg e.core.regs f.ra) (sreg e.core.regs f.rb) then .jump s (relTarget e f).toNat else .done s

/-- JL (R137): s[RD] takes the offset of the next instruction, then branches as BR. -/
def execJl (c : Nat) (w : Fetched) (s : State) : Out :=
  let f := w.fields
  issue c w.upsets s fun e s =>
    checked [{ cause := 0x02, bad := stray { rd := true, imm := BitVec.allOnes 64 } f }, badTarget e (relTarget e f)] [] s
      fun _ => .jump (modCore e.ph (fun k => { k with regs := setS f.rd (BitVec.ofNat 32 (k.regs.pc + 16)) k.regs }) s)
        (relTarget e f).toNat

/-- JR (R137): branches to offset s[RA]. -/
def execJr (c : Nat) (w : Fetched) (s : State) : Out :=
  let f := w.fields
  issue c w.upsets s fun e s =>
    let t := (sreg e.core.regs f.ra).toNat
    checked [{ cause := 0x02, bad := stray { ra := true } f }, badTarget e t] [] s fun _ => .jump s t

/-! ### Scalars (R139) -/

/-- The fields of a scalar instruction whose modifier uses the bits `m`: RB or IMM[31:0] by MOD[7] (R139). -/
def scalarUses (f : Fields) (m : BitVec 8) : Uses :=
  if f.mod.getLsbD 7 then { mod := 0x80 ||| m, rd := true, ra := true, imm := 0xFFFFFFFF }
  else { mod := m, rd := true, ra := true, rb := true }

/-- The second operand B (R139). -/
def operandB (e : Env) (f : Fields) : Word :=
  if f.mod.getLsbD 7 then f.imm.setWidth 32 else sreg e.core.regs f.rb

/-- A scalar instruction: its modifier bits, whether the modifier is reserved, and its result from A and B. -/
def scalarOp (c : Nat) (w : Fetched) (m : BitVec 8) (resv : Bool) (g : Word → Word → Word) (s : State) : Out :=
  let f := w.fields
  issue c w.upsets s fun e s =>
    checked [{ cause := 0x02, bad := stray (scalarUses f m) f }, { cause := 0x05, bad := resv }] [] s
      fun _ => regsDone e s (setS f.rd (g (sreg e.core.regs f.ra) (operandB e f)))

/-- ADD: A + B modulo 2^32. -/
def execAdd (c : Nat) (w : Fetched) (s : State) : Out := scalarOp c w 0 false (fun a b => a + b) s
/-- SUB: A - B modulo 2^32. -/
def execSub (c : Nat) (w : Fetched) (s : State) : Out := scalarOp c w 0 false (fun a b => a - b) s

/-- The selected 32 bits of the 64-bit product (Table 5.8). -/
def mulResult (k : Nat) (a b : Word) : Word :=
  match k with
  | 0 => a * b
  | 1 => BitVec.ofInt 32 (a.toInt * b.toInt / (2 ^ 32 : Int))
  | _ => BitVec.ofNat 32 (a.toNat * b.toNat / 2 ^ 32)
/-- MUL: low, high signed or high unsigned word of the product. -/
def execMul (c : Nat) (w : Fetched) (s : State) : Out :=
  let k := w.fields.mod.toNat % 4
  scalarOp c w 3 (k == 3) (mulResult k) s

/-- The quotient (Table 5.8): B = 0 gives all ones, and -2^31 / -1 gives -2^31. -/
def divResult (signed : Bool) (a b : Word) : Word :=
  if b = 0 then 0xFFFFFFFF else if signed then BitVec.ofInt 32 (a.toInt.tdiv b.toInt) else a / b
/-- DIV: unsigned or signed quotient. -/
def execDiv (c : Nat) (w : Fetched) (s : State) : Out := scalarOp c w 1 false (divResult (w.fields.mod.getLsbD 0)) s

/-- The remainder (Table 5.8): B = 0 gives A, and -2^31 rem -1 gives 0. -/
def remResult (signed : Bool) (a b : Word) : Word :=
  if b = 0 then a else if signed then BitVec.ofInt 32 (a.toInt.tmod b.toInt) else a % b
/-- REM: unsigned or signed remainder. -/
def execRem (c : Nat) (w : Fetched) (s : State) : Out := scalarOp c w 1 false (remResult (w.fields.mod.getLsbD 0)) s

/-- AND. -/
def execAnd (c : Nat) (w : Fetched) (s : State) : Out := scalarOp c w 0 false (fun a b => a &&& b) s
/-- OR. -/
def execOr (c : Nat) (w : Fetched) (s : State) : Out := scalarOp c w 0 false (fun a b => a ||| b) s
/-- XOR. -/
def execXor (c : Nat) (w : Fetched) (s : State) : Out := scalarOp c w 0 false (fun a b => a ^^^ b) s
/-- SHL by B[4:0]. -/
def execShl (c : Nat) (w : Fetched) (s : State) : Out := scalarOp c w 0 false (fun a b => a <<< (b.toNat % 32)) s
/-- SHR by B[4:0]. -/
def execShr (c : Nat) (w : Fetched) (s : State) : Out := scalarOp c w 0 false (fun a b => a >>> (b.toNat % 32)) s
/-- SRA by B[4:0]. -/
def execSra (c : Nat) (w : Fetched) (s : State) : Out := scalarOp c w 0 false (fun a b => a.sshiftRight (b.toNat % 32)) s

/-- SLT: 1 if A < B, else 0. -/
def execSlt (c : Nat) (w : Fetched) (s : State) : Out :=
  scalarOp c w 1 false (fun a b => if (if w.fields.mod.getLsbD 0 then a.slt b else a.ult b) then 1 else 0) s

/-- The selected operand (Table 5.8). -/
def minmaxResult (k : Nat) (a b : Word) : Word :=
  match k with
  | 0 => if a.slt b then a else b
  | 1 => if a.slt b then b else a
  | 2 => if a.ult b then a else b
  | _ => if a.ult b then b else a
/-- MINMAX. -/
def execMinmax (c : Nat) (w : Fetched) (s : State) : Out :=
  scalarOp c w 3 false (minmaxResult (w.fields.mod.toNat % 4)) s

/-- The FP32 result of FOP by MOD[2:0] (R139). -/
def fopResult (k : Nat) (a b : Word) : Word :=
  let x := a.toNat
  let y := b.toNat
  BitVec.ofNat 32 (match k with
    | 0 => fadd fmt32 x y
    | 1 => fsub fmt32 x y
    | 2 => fmul fmt32 x y
    | 3 => fdiv fmt32 x y
    | 4 => fmin fmt32 x y
    | 5 => fmax fmt32 x y
    | 6 => fofInt fmt32 a.toInt
    | _ => wrapTo 32 (ftoInt fmt32 (-(2 ^ 31 : Int)) (2 ^ 31 - 1) x))
/-- FOP: FP32 arithmetic and conversions held in scalars. The two conversions have one operand, and a value in RB or IMM is not refused there, a
choice of the model (log entry 108). -/
def execFop (c : Nat) (w : Fetched) (s : State) : Out := scalarOp c w 7 false (fopResult (w.fields.mod.toNat % 8)) s

/-- LDI: s[RD] takes IMM[31:0]; MOD[7] must be 1. -/
def execLdi (c : Nat) (w : Fetched) (s : State) : Out :=
  let f := w.fields
  issue c w.upsets s fun e s =>
    checked [{ cause := 0x02, bad := stray { mod := 0x80, rd := true, imm := 0xFFFFFFFF } f },
             { cause := 0x05, bad := !f.mod.getLsbD 7 }] [] s
      fun _ => regsDone e s (setS f.rd (f.imm.setWidth 32))

/-- The carrel address s[RA] + IMM[31:0]. -/
def carrelAddr (e : Env) (f : Fields) : Nat := (sreg e.core.regs f.ra + f.imm.setWidth 32).toNat

/-- LDST: loads or stores the carrel word at s[RA] + IMM (R139). -/
def execLdst (c : Nat) (f : Fields) (u : List Upset) (s : State) : Out :=
  issue c u s fun e s =>
    let store := f.mod.getLsbD 0
    let a := carrelAddr e f
    checked [{ cause := 0x02, bad := stray { mod := 0x81, rd := !store, ra := true, rb := store, imm := 0xFFFFFFFF } f },
             { cause := 0x05, bad := !f.mod.getLsbD 7 }, { cause := 0x06, bad := a % 4 != 0 }]
            [{ cause := 0x01, bad := !inShare e false a 4 }] s fun _ =>
      clearOf e [{ lo := a, n := 4, wr := store }] s fun _ =>
      if readLost u && !store then memoryFault s else
      let s := (charge e.part.ctx (fun q => { q with carrelBytes := hold64 (q.carrelBytes + 4) }) s)
      if store then .done (spaceWrite e false a (leBytes 4 (sreg e.core.regs f.rb).toNat) s)
      else regsDone e s (setS f.rd (BitVec.ofNat 32 (spaceWord s e false a)))

/-! ### Descriptors (R131 to R135, R140) -/

/-- An image with VALID set. -/
def withValid (d : BitVec 256) : BitVec 256 := dput d 0 0 1

/-- A descriptor image read from 32 carrel bytes; image bit 0 is ignored, and HOFF is 0 for a format without headers (R131, R133, R140). -/
def imageAt (s : State) (e : Env) (a : Nat) : BitVec 256 :=
  let d := withValid (BitVec.ofNat 256 (leNat ((List.range 32).map fun i => spaceByte s e false (a + i))))
  if headerless (descOf d).fmt then dput d 115 95 0 else d

/-- DLD (R140). -/
def execDld (c : Nat) (f : Fields) (u : List Upset) (s : State) : Out :=
  issue c u s fun e s =>
    let a := carrelAddr e f
    checked [{ cause := 0x02, bad := stray { ad := true, ra := true, imm := 0xFFFFFFFF } f },
             { cause := 0x06, bad := a % 32 != 0 }] [{ cause := 0x01, bad := !inShare e false a 32 }] s fun _ =>
      clearOf e [{ lo := a, n := 32, wr := false }] s fun _ =>
      if readLost u then memoryFault s else
      regsDone e ((charge e.part.ctx (fun q => { q with carrelBytes := hold64 (q.carrelBytes + 32) }) s))
        (setA f.ad (imageAt s e a))

/-- The image with BASE set and HBASE kept (R133); none when the new HOFF has no place. -/
def withBase (d : BitVec 256) (b : Nat) : Option (BitVec 256) :=
  let t := descOf d
  if headerless t.fmt then some (dput (dput d 94 61 b) 115 95 0)
  else (hoffFor b t.hbase).map fun h => dput (dput d 94 61 b) 115 95 h

/-- A value v put in a field of bits [hi:lo] as v minus `bias`, when it lies in lo1 to hi1. -/
def putIn (d : BitVec 256) (hi lo bias lo1 hi1 v : Nat) : Option (BitVec 256) :=
  if lo1 ≤ v ∧ v ≤ hi1 then some (dput d hi lo (v - bias)) else none

/-- A byte stride in units of 32. -/
def putStride (d : BitVec 256) (hi lo most v : Nat) : Option (BitVec 256) :=
  if v % 32 = 0 ∧ v ≤ most then some (dput d hi lo (v / 32)) else none

/-- The image after a DSET of one field; none when the field cannot hold the value or the selector is reserved (Table 5.10). A value of HBASE
that is no multiple of 4 counts as one that the field cannot hold, a choice of the model (log entry 108). -/
def dsetField (d : BitVec 256) (sel v : Nat) : Option (BitVec 256) :=
  match sel with
  | 0x00 => if v < 2 ^ 34 then withBase d v else none
  | 0x01 =>
    if headerless (descOf d).fmt then some d
    else if v % 4 = 0 then (hoffFor (descOf d).base v).map fun h => dput d 115 95 h else none
  | 0x02 => putIn d 60 53 0 0 255 v
  | 0x03 => putIn d 175 160 1 1 65536 v
  | 0x04 => putIn d 191 176 1 1 65536 v
  | 0x05 => putIn d 207 192 1 1 65536 v
  | 0x06 => putIn d 223 208 1 1 65536 v
  | 0x07 => putStride d 129 116 524256 v
  | 0x08 => putStride d 143 130 524256 v
  | 0x09 => putStride d 159 144 2097120 v
  | 0x0A => (putIn d 5 2 0 0 15 v).map fun d => if headerless v then dput d 115 95 0 else d
  | 0x0B => putIn d 1 1 0 0 1 v
  | 0x0C => if v = 0 then some (dput d 6 6 0) else if v = 3 then some (dput d 6 6 1) else none
  | 0x0D => putIn d 9 8 0 0 3 v
  | 0x0E => if v < 16 then some (dput d 14 10 v) else if 2 ^ 64 - 16 ≤ v then some (dput d 14 10 (v % 32)) else none
  | 0x0F => putIn d 28 21 0 0 255 v
  | 0x10 => putIn d 36 29 0 0 255 v
  | 0x11 => putIn d 17 15 1 1 8 v
  | 0x12 => putIn d 20 18 1 1 8 v
  | 0x13 => putIn d 44 37 0 0 255 v
  | 0x14 => putIn d 52 45 0 0 255 v
  | 0x15 => putIn d 255 224 0 0 (2 ^ 32 - 1) v
  | 0x16 => putIn d 7 7 0 0 1 v
  | 0x17 => if v = 0 then some defaultDesc else none
  | _ => none

/-- DSET (R135, R140): the field takes IMM + s[RA]; a register with VALID 0 first takes the default image. -/
def execDset (c : Nat) (w : Fetched) (s : State) : Out :=
  let f := w.fields
  issue c w.upsets s fun e s =>
    let old := areg e.core.regs f.ad
    let d := if dget old 0 0 = 1 then old else defaultDesc
    let v := (f.imm + (sreg e.core.regs f.ra).setWidth 64).toNat
    let r := dsetField d f.mod.toNat v
    checked [{ cause := 0x02, bad := stray { mod := 0xFF, ad := true, ra := true, imm := BitVec.allOnes 64 } f },
             { cause := 0x05, dreg := some f.ad.toNat, bad := r.isNone }] [] s
      fun _ => regsDone e s (setA f.ad (withValid (r.getD d)))

/-- DCPY (R140): copies a valid descriptor. -/
def execDcpy (c : Nat) (w : Fetched) (s : State) : Out :=
  let f := w.fields
  issue c w.upsets s fun e s =>
    let d := areg e.core.regs f.aa
    checked [{ cause := 0x02, bad := stray { ad := true, aa := true } f },
             { cause := 0x04, dreg := some f.aa.toNat, bad := dget d 0 0 != 1 }] [] s
      fun _ => regsDone e s (setA f.ad d)

/-- The byte advance of DADV along axis k by n steps, in eighths of a byte (R140). -/
def advanceBits (d : Desc) (k : Nat) (n : Int) : Int :=
  match k with
  | 0 => n * elemBits d.fmt
  | 1 => n * (8 * d.str1)
  | 2 => n * (8 * d.str2)
  | _ => n * (8 * d.str3)

/-- The image after DADV: BASE moved by `bytes`, HBASE by 4m, BORG by m; none when BASE leaves its range or HOFF has no place. -/
def advanced (img : BitVec 256) (bytes m : Int) : Option (BitVec 256) :=
  let d := descOf img
  let b := (d.base : Int) + bytes
  let top : Int := if d.glob then 2 ^ 34 else 2 ^ 22
  if 0 ≤ b ∧ b < top then
    let img' := dput (dput img 94 61 b.toNat) 60 53 (wrapTo 8 ((d.borg : Int) + m))
    if headerless d.fmt then some (dput img' 115 95 0)
    else (hoffFor b.toNat (d.hbase + 4 * m)).map fun h => dput img' 115 95 h
  else none

/-- DADV (R140). A register with VALID = 0 raises cause 0x04 as under DCPY, a choice of the model (log entry 108). -/
def execDadv (c : Nat) (w : Fetched) (s : State) : Out :=
  let f := w.fields
  issue c w.upsets s fun e s =>
    let img := areg e.core.regs f.ad
    let d := descOf img
    let k := f.xf.toNat % 4
    let w := advanceBits d k (sreg e.core.regs f.ra).toInt
    let r := advanced img (w / 8) (sreg e.core.regs f.rb).toInt
    checked [{ cause := 0x02, bad := stray { ad := true, ra := true, rb := true, xf := 3 } f },
             { cause := 0x04, dreg := some f.ad.toNat, bad := !d.valid },
             { cause := 0x05, dreg := some f.ad.toNat, bad := r.isNone || (k == 0 && decide (9 < d.fmt)) },
             { cause := 0x06, dreg := some f.ad.toNat, bad := w % 8 != 0 }] [] s
      fun _ => regsDone e s (setA f.ad (withValid (r.getD img)))

end Sys2Proof.Machine
end

