-- ==== Sys2Proof/Machine/Dispatch.lean ====
section
/-! DEFINITION. Machine/Dispatch.lean: one arm per command, each a direct call of its meaning. -/

namespace Sys2Proof.Machine

def exec (i : Instr) (s : State) : Host.Outcome State Fault Refusal :=
  match i with
  | .nop c w => Sys2Proof.Machine.execNop c w s
  | .endPart c f u => Sys2Proof.Machine.execEndPart c f u s
  | .br c w => Sys2Proof.Machine.execBr c w s
  | .brc c w => Sys2Proof.Machine.execBrc c w s
  | .jl c w => Sys2Proof.Machine.execJl c w s
  | .jr c w => Sys2Proof.Machine.execJr c w s
  | .add c w => Sys2Proof.Machine.execAdd c w s
  | .sub c w => Sys2Proof.Machine.execSub c w s
  | .mul c w => Sys2Proof.Machine.execMul c w s
  | .div c w => Sys2Proof.Machine.execDiv c w s
  | .rem c w => Sys2Proof.Machine.execRem c w s
  | .and c w => Sys2Proof.Machine.execAnd c w s
  | .or c w => Sys2Proof.Machine.execOr c w s
  | .xor c w => Sys2Proof.Machine.execXor c w s
  | .shl c w => Sys2Proof.Machine.execShl c w s
  | .shr c w => Sys2Proof.Machine.execShr c w s
  | .sra c w => Sys2Proof.Machine.execSra c w s
  | .slt c w => Sys2Proof.Machine.execSlt c w s
  | .minmax c w => Sys2Proof.Machine.execMinmax c w s
  | .fop c w => Sys2Proof.Machine.execFop c w s
  | .ldi c w => Sys2Proof.Machine.execLdi c w s
  | .ldst c f u => Sys2Proof.Machine.execLdst c f u s
  | .dld c f u => Sys2Proof.Machine.execDld c f u s
  | .dset c w => Sys2Proof.Machine.execDset c w s
  | .dcpy c w => Sys2Proof.Machine.execDcpy c w s
  | .dadv c w => Sys2Proof.Machine.execDadv c w s
  | .tld c f u => Sys2Proof.Machine.execTld c f u s
  | .tst c f u => Sys2Proof.Machine.execTst c f u s
  | .tcp c f u => Sys2Proof.Machine.execTcp c f u s
  | .hxch c w => Sys2Proof.Machine.execHxch c w s
  | .haloTransferDone c port u => Sys2Proof.Machine.execHaloTransferDone c port u s
  | .haloTimeout c port w => Sys2Proof.Machine.execHaloTimeout c port w s
  | .wld c f u => Sys2Proof.Machine.execWld c f u s
  | .mma c f u => Sys2Proof.Machine.execMma c f u s
  | .mmat c f u => Sys2Proof.Machine.execMmat c f u s
  | .aclr c w => Sys2Proof.Machine.execAclr c w s
  | .adrn c f u => Sys2Proof.Machine.execAdrn c f u s
  | .vadd c f u => Sys2Proof.Machine.execVadd c f u s
  | .vsub c f u => Sys2Proof.Machine.execVsub c f u s
  | .vmul c f u => Sys2Proof.Machine.execVmul c f u s
  | .vfma c f u => Sys2Proof.Machine.execVfma c f u s
  | .vmin c f u => Sys2Proof.Machine.execVmin c f u s
  | .vmax c f u => Sys2Proof.Machine.execVmax c f u s
  | .vcmp c f u => Sys2Proof.Machine.execVcmp c f u s
  | .vlog c f u => Sys2Proof.Machine.execVlog c f u s
  | .vcvt c f u => Sys2Proof.Machine.execVcvt c f u s
  | .vred c f u => Sys2Proof.Machine.execVred c f u s
  | .vld c f u => Sys2Proof.Machine.execVld c f u s
  | .vst c f u => Sys2Proof.Machine.execVst c f u s
  | .vsel c f u => Sys2Proof.Machine.execVsel c f u s
  | .vbc c f u => Sys2Proof.Machine.execVbc c f u s
  | .plog c f u => Sys2Proof.Machine.execPlog c f u s
  | .pfirst c f u => Sys2Proof.Machine.execPfirst c f u s
  | .vcurve c f u => Sys2Proof.Machine.execVcurve c f u s
  | .vlut c f u => Sys2Proof.Machine.execVlut c f u s
  | .vext c f u => Sys2Proof.Machine.execVext c f u s
  | .qnt c f u => Sys2Proof.Machine.execQnt c f u s
  | .dqn c f u => Sys2Proof.Machine.execDqn c f u s
  | .stat c w => Sys2Proof.Machine.execStat c w s
  | .ppc c f u => Sys2Proof.Machine.execPpc c f u s
  | .semw c w => Sys2Proof.Machine.execSemw c w s
  | .semwTimeout c => Sys2Proof.Machine.execSemwTimeout c s
  | .sems c w => Sys2Proof.Machine.execSems c w s
  | .fence c w => Sys2Proof.Machine.execFence c w s
  | .take c w => Sys2Proof.Machine.execTake c w s
  | .claim c w => Sys2Proof.Machine.execClaim c w s
  | .commit c f u => Sys2Proof.Machine.execCommit c f u s
  | .proof c f u => Sys2Proof.Machine.execProof c f u s
  | .rsdchk c f u => Sys2Proof.Machine.execRsdchk c f u s
  | .jobStart pick cores => Sys2Proof.Machine.execJobStart pick cores s
  | .steal c => Sys2Proof.Machine.execSteal c s
  | .preempt job => Sys2Proof.Machine.execPreempt job s
  | .preemptSaveDone c => Sys2Proof.Machine.execPreemptSaveDone c s
  | .holdLimitExpiry c => Sys2Proof.Machine.execHoldLimitExpiry c s
  | .partResume c => Sys2Proof.Machine.execPartResume c s
  | .eviction cluster part => Sys2Proof.Machine.execEviction cluster part s
  | .evictionDone cluster => Sys2Proof.Machine.execEvictionDone cluster s
  | .contextReplaceSwap ctx => Sys2Proof.Machine.execContextReplaceSwap ctx s
  | .coreMove c => Sys2Proof.Machine.execCoreMove c s
  | .carrelCopyDone x => Sys2Proof.Machine.execCarrelCopyDone x s
  | .inServiceTestStart unit => Sys2Proof.Machine.execInServiceTestStart unit s
  | .inServiceTestEnd unit outcome => Sys2Proof.Machine.execInServiceTestEnd unit outcome s
  | .trackerStep stream entry dets lost => Sys2Proof.Machine.execTrackerStep stream entry dets lost s
  | .batchCropArrival cluster ctx prog stream frame crops => Sys2Proof.Machine.execBatchCropArrival cluster ctx prog stream frame crops s
  | .batchWindowExpiry cluster ctx prog => Sys2Proof.Machine.execBatchWindowExpiry cluster ctx prog s
  | .folioCommit stream cycle => Sys2Proof.Machine.execFolioCommit stream cycle s
  | .reorderStallLimit stream => Sys2Proof.Machine.execReorderStallLimit stream s
  | .stewardPoll c reply => Sys2Proof.Machine.execStewardPoll c reply s
  | .stewardWatchdog cluster second => Sys2Proof.Machine.execStewardWatchdog cluster second s
  | .slotEnd unit => Sys2Proof.Machine.execSlotEnd unit s
  | .ethFrameReceive port frame entries => Sys2Proof.Machine.execEthFrameReceive port frame entries s
  | .ethLinkChange port up kind => Sys2Proof.Machine.execEthLinkChange port up kind s
  | .rtpPacket stream cycle => Sys2Proof.Machine.execRtpPacket stream cycle s
  | .rtpHoldExpiry stream cycle => Sys2Proof.Machine.execRtpHoldExpiry stream cycle s
  | .ethTransmit port entry frame => Sys2Proof.Machine.execEthTransmit port entry frame s
  | .rxtail fn port value => Sys2Proof.Machine.execRxtail fn port value s
  | .txtail fn port value => Sys2Proof.Machine.execTxtail fn port value s
  | .decodeStart stream core hdr head => Sys2Proof.Machine.execDecodeStart stream core hdr head s
  | .pictureDecoded core pic => Sys2Proof.Machine.execPictureDecoded core pic s
  | .mediaWatchdog core memory => Sys2Proof.Machine.execMediaWatchdog core memory s
  | .preprocessStart unit stream => Sys2Proof.Machine.execPreprocessStart unit stream s
  | .preprocessDone unit failed => Sys2Proof.Machine.execPreprocessDone unit failed s
  | .encodeStart core => Sys2Proof.Machine.execEncodeStart core s
  | .encodeDone core rows repl headers qps last => Sys2Proof.Machine.execEncodeDone core rows repl headers qps last s
  | .encoderWatchdog core memory => Sys2Proof.Machine.execEncoderWatchdog core memory s
  | .clipWaitExpiry fn clip => Sys2Proof.Machine.execClipWaitExpiry fn clip s
  | .contextLoad x => Sys2Proof.Machine.execContextLoad x s
  | .contextEvict x => Sys2Proof.Machine.execContextEvict x s
  | .streamOpen x => Sys2Proof.Machine.execStreamOpen x s
  | .streamStart x => Sys2Proof.Machine.execStreamStart x s
  | .streamPause x => Sys2Proof.Machine.execStreamPause x s
  | .streamDrain x => Sys2Proof.Machine.execStreamDrain x s
  | .streamClose x => Sys2Proof.Machine.execStreamClose x s
  | .streamReconf x => Sys2Proof.Machine.execStreamReconf x s
  | .feed x cycle pic ra => Sys2Proof.Machine.execFeed x cycle pic ra s
  | .zoneSet x => Sys2Proof.Machine.execZoneSet x s
  | .capture x => Sys2Proof.Machine.execCapture x s
  | .hold x => Sys2Proof.Machine.execHold x s
  | .cancel x => Sys2Proof.Machine.execCancel x s
  | .thumb x => Sys2Proof.Machine.execThumb x s
  | .partitionSet x => Sys2Proof.Machine.execPartitionSet x s
  | .ringAssign x => Sys2Proof.Machine.execRingAssign x s
  | .fenceSlip x => Sys2Proof.Machine.execFenceSlip x s
  | .query x => Sys2Proof.Machine.execQuery x s
  | .shutdown x => Sys2Proof.Machine.execShutdown x s
  | .kilnPass x => Sys2Proof.Machine.execKilnPass x s
  | .kilnGroupStart group => Sys2Proof.Machine.execKilnGroupStart group s
  | .kilnDone entries ms arrays units peak => Sys2Proof.Machine.execKilnDone entries ms arrays units peak s
  | .kilnShedTimeout entries ms arrays units peak => Sys2Proof.Machine.execKilnShedTimeout entries ms arrays units peak s
  | .repair x => Sys2Proof.Machine.execRepair x s
  | .attest x => Sys2Proof.Machine.execAttest x s
  | .attestSignDone => Sys2Proof.Machine.execAttestSignDone s
  | .imageUpdate x => Sys2Proof.Machine.execImageUpdate x s
  | .imageUpdateDone readback => Sys2Proof.Machine.execImageUpdateDone readback s
  | .transition x => Sys2Proof.Machine.execTransition x s
  | .debugUnlock x => Sys2Proof.Machine.execDebugUnlock x s
  | .doorbell fn ring value unknown => Sys2Proof.Machine.execDoorbell fn ring value unknown s
  | .ringEnable fn ring value => Sys2Proof.Machine.execRingEnable fn ring value s
  | .ringDisable fn ring value => Sys2Proof.Machine.execRingDisable fn ring value s
  | .receiptWrite ring => Sys2Proof.Machine.execReceiptWrite ring s
  | .folioDelivery stream => Sys2Proof.Machine.execFolioDelivery stream s
  | .msixModerationExpiry ring => Sys2Proof.Machine.execMsixModerationExpiry ring s
  | .msixUnmask fn vector cfg => Sys2Proof.Machine.execMsixUnmask fn vector cfg s
  | .bar2Write offset bytes => Sys2Proof.Machine.execBar2Write offset bytes s
  | .bar2Read offset len => Sys2Proof.Machine.execBar2Read offset len s
  | .pcieCompletionTimeout ring slip => Sys2Proof.Machine.execPcieCompletionTimeout ring slip s
  | .functionLevelReset fn => Sys2Proof.Machine.execFunctionLevelReset fn s
  | .hostLinkDown => Sys2Proof.Machine.execHostLinkDown s
  | .hostLinkUp => Sys2Proof.Machine.execHostLinkUp s
  | .cellarDraw pool owner lost => Sys2Proof.Machine.execCellarDraw pool owner lost s
  | .cellarReturn part ptr owner => Sys2Proof.Machine.execCellarReturn part ptr owner s
  | .quarantineReclaim pool ptr => Sys2Proof.Machine.execQuarantineReclaim pool ptr s
  | .cellarRebuildDone pool bitmapBad => Sys2Proof.Machine.execCellarRebuildDone pool bitmapBad s
  | .dramRefresh ch rank critical => Sys2Proof.Machine.execDramRefresh ch rank critical s
  | .dramRetrain ch rank => Sys2Proof.Machine.execDramRetrain ch rank s
  | .dramScrub ch line err => Sys2Proof.Machine.execDramScrub ch line err s
  | .dramAlert ch alert replays => Sys2Proof.Machine.execDramAlert ch alert replays s
  | .zeroMapGranule ch => Sys2Proof.Machine.execZeroMapGranule ch s
  | .fabLinkUp port width neighbour root => Sys2Proof.Machine.execFabLinkUp port width neighbour root s
  | .fabLinkDown port => Sys2Proof.Machine.execFabLinkDown port s
  | .fabTrainRetry port ok => Sys2Proof.Machine.execFabTrainRetry port ok s
  | .fecRetrain port => Sys2Proof.Machine.execFecRetrain port s
  | .shedLinksDown => Sys2Proof.Machine.execShedLinksDown s
  | .catSend => Sys2Proof.Machine.execCatSend s
  | .cat port serial lowest domain call => Sys2Proof.Machine.execCat port serial lowest domain call s
  | .rootElection => Sys2Proof.Machine.execRootElection s
  | .assign port x y => Sys2Proof.Machine.execAssign port x y s
  | .linkstate call ports => Sys2Proof.Machine.execLinkstate call ports s
  | .forward port p => Sys2Proof.Machine.execForward port p s
  | .read port p => Sys2Proof.Machine.execRead port p s
  | .write port p => Sys2Proof.Machine.execWrite port p s
  | .writeSig port p => Sys2Proof.Machine.execWriteSig port p s
  | .dataResp p => Sys2Proof.Machine.execDataResp p s
  | .ack p => Sys2Proof.Machine.execAck p s
  | .nak p => Sys2Proof.Machine.execNak p s
  | .remotePacketTimeout txid => Sys2Proof.Machine.execRemotePacketTimeout txid s
  | .walk fn value => Sys2Proof.Machine.execWalk fn value s
  | .retrain fn value => Sys2Proof.Machine.execRetrain fn value s
  | .fabWinValid fn n value => Sys2Proof.Machine.execFabWinValid fn n value s
  | .fabWinClear fn n value => Sys2Proof.Machine.execFabWinClear fn n value s
  | .silenceExpiry stream => Sys2Proof.Machine.execSilenceExpiry stream s
  | .testSlotStart c batchDue => Sys2Proof.Machine.execTestSlotStart c batchDue s
  | .testSlotEnd c mismatch => Sys2Proof.Machine.execTestSlotEnd c mismatch s
  | .testIntervalExpiry c => Sys2Proof.Machine.execTestIntervalExpiry c s
  | .safeOkToggle => Sys2Proof.Machine.execSafeOkToggle s
  | .arm fn value => Sys2Proof.Machine.execArm fn value s
  | .disarm fn value => Sys2Proof.Machine.execDisarm fn value s
  | .watchEnable fn n value => Sys2Proof.Machine.execWatchEnable fn n value s
  | .lockstepMismatch => Sys2Proof.Machine.execLockstepMismatch s
  | .readZone index => Sys2Proof.Machine.execReadZone index s
  | .readRun index => Sys2Proof.Machine.execReadRun index s
  | .readStatus index => Sys2Proof.Machine.execReadStatus index s
  | .echo index => Sys2Proof.Machine.execEcho index s
  | .spigotCsDeassert => Sys2Proof.Machine.execSpigotCsDeassert s
  | .shedSample rails brakeLow => Sys2Proof.Machine.execShedSample rails brakeLow s
  | .shedLevelFall => Sys2Proof.Machine.execShedLevelFall s
  | .brownOut rail permille => Sys2Proof.Machine.execBrownOut rail permille s
  | .powerEstimate watts temp sensor => Sys2Proof.Machine.execPowerEstimate watts temp sensor s
  | .thermalTrip temp => Sys2Proof.Machine.execThermalTrip temp s
  | .crystalLoss => Sys2Proof.Machine.execCrystalLoss s
  | .islandClockStop island => Sys2Proof.Machine.execIslandClockStop island s
  | .islandClockRestart island => Sys2Proof.Machine.execIslandClockRestart island s
  | .laneGroupFailure die => Sys2Proof.Machine.execLaneGroupFailure die s
  | .powerRailRise rail => Sys2Proof.Machine.execPowerRailRise rail s
  | .coldReset => Sys2Proof.Machine.execColdReset s
  | .warmReset => Sys2Proof.Machine.execWarmReset s
  | .deviceReset fn value => Sys2Proof.Machine.execDeviceReset fn value s
  | .bootStart facts => Sys2Proof.Machine.execBootStart facts s
  | .bootReady => Sys2Proof.Machine.execBootReady s
  | .hostBootGo fn value => Sys2Proof.Machine.execHostBootGo fn value s
  | .hostImageVerified => Sys2Proof.Machine.execHostImageVerified s
  | .mbxSel fn value => Sys2Proof.Machine.execMbxSel fn value s
  | .mailboxFillDone fn => Sys2Proof.Machine.execMailboxFillDone fn s
  | .lock fn offset value => Sys2Proof.Machine.execLock fn offset value s
  | .parityScan offset mismatch => Sys2Proof.Machine.execParityScan offset mismatch s
  | .pmuEvt fn n value => Sys2Proof.Machine.execPmuEvt fn n value s
  | .registerWrite w => Sys2Proof.Machine.execRegisterWrite w s
  | .smbusDevId => Sys2Proof.Machine.execSmbusDevId s
  | .smbusPwrLevel => Sys2Proof.Machine.execSmbusPwrLevel s
  | .smbusPwrBoot => Sys2Proof.Machine.execSmbusPwrBoot s
  | .smbusPwrTemp => Sys2Proof.Machine.execSmbusPwrTemp s
  | .smbusPwrEst => Sys2Proof.Machine.execSmbusPwrEst s
  | .fabCfgEnable fn value => Sys2Proof.Machine.execFabCfgEnable fn value s
  | .flitReplay port again => Sys2Proof.Machine.execFlitReplay port again s
  | .spigotUnlistedCommand cmd => Sys2Proof.Machine.execSpigotUnlistedCommand cmd s

end Sys2Proof.Machine
end

