-- ==== Sys2Proof/Safety.lean ====
section
/-! DEFINITION. Safety.lean: the terms in which the statements speak of a run: an instruction that issues, what it may touch, and what it
leaves as it was. -/

namespace Sys2Proof.Machine

/-- Logical core c issues its next instruction for the part, program and residency of e (R103, R105, R119). -/
abbrev Issues (s : State) (c : Nat) (e : Env) : Prop := envOf s c = some e

/-- The registers of a physical core. -/
def regsAt (s : State) (ph : Nat) : Regs := (coreAt s ph).regs

/-- No check of a list fails. -/
abbrev Clean (l : List Check) : Prop := ∀ k ∈ l, k.bad = false

/-- The instruction meets no uncorrectable fetch or read (Table 12.2). -/
abbrev Readable (u : List Upset) : Prop := fetchLost u = false ∧ readLost u = false

/-- The instruction meets no upset that is corrected or refetched and so reported (R80, R93, R96). -/
abbrev Unreported (u : List Upset) : Prop := Upset.corrected ∉ u ∧ Upset.refetched ∉ u

/-- Without an upset to report, no event, no interrupt and no error count. -/
abbrev Reports (u : List Upset) (s t : State) : Prop := Unreported u → t.err = s.err ∧ t.host = s.host

/-- No carrel span of the instruction meets a queued HXCH of its core (Table 4.5). -/
abbrev Unblocked (e : Env) (l : List Span) : Prop := l.any (spanBusy e.core) = false

/-- A core keeps its memories, its engines, its queued halo transfers and its fault record. -/
structure KeepsStore (a b : Core) : Prop where
  carrel : b.carrel = a.carrel
  writes : b.writes = a.writes
  e0 : b.e0 = a.e0
  e1 : b.e1 = a.e1
  halo : b.halo = a.halo
  fault : b.fault = a.fault

/-- Nothing but core records, event counters, Ledger accounts, free values and what reports a corrected error changed: without a
corrected error no event, no interrupt and no error count. -/
structure OnlyCores (u : List Upset) (s t : State) : Prop where
  fields : t = { s with free := t.free, cores := t.cores, islands := t.islands, accounts := t.accounts, host := t.host, err := t.err }
  quiet : Unreported u → t.err = s.err ∧ t.host = { s.host with fns := t.host.fns }
  totals : Unreported u → ∀ k, fnAt t k = { fnAt s k with total := (fnAt t k).total }

/-- Nothing but core records and event counters changed. -/
def OnlyCoresQuiet (s t : State) : Prop := t = { s with cores := t.cores, islands := t.islands }

/-- The instruction of e is complete with the registers r: the next one stands 16 bytes on, no other core's registers and no memory,
engine or queued transfer changed, and nothing else of the device but counters, events and the cores' own records. -/
structure OnlyRegs (e : Env) (u : List Upset) (r : Regs) (s t : State) : Prop where
  regs : regsAt t e.ph = { r with pc := e.core.regs.pc + 16 }
  others : ∀ k, k ≠ e.ph → regsAt t k = regsAt s k
  stores : ∀ k, KeepsStore (coreAt s k) (coreAt t k)
  rest : OnlyCores u s t

/-- The byte at b after writes of byte runs in order, where it was `old` before them. -/
def byteAfter (w : List (Nat × List Byte)) (b : Nat) (old : Byte) : Byte :=
  w.foldl (fun o x => if x.1 ≤ b ∧ b < x.1 + x.2.length then x.2.getD (b - x.1) 0 else o) old

/-- No other address of the context's global share names the byte at b: extents of one share, and what a program reaches behind it, lie apart
(R279, R323). -/
abbrev Alone (s : State) (e : Env) (b : Nat) : Prop := ∀ a, globalKey s e a = globalKey s e b → a = b

/-- The instruction of e is complete with the registers r and the writes w to its carrel (`glob` false) or to its context's global
share: every byte of that space as the core reads it is the last one written or what it was, the other space, the engines, the queued
transfers and every other core are as they were. -/
structure OnlyWrites (e : Env) (u : List Upset) (glob : Bool) (w : List (Nat × List Byte)) (r : Regs) (s t : State) : Prop where
  regs : regsAt t e.ph = { r with pc := e.core.regs.pc + 16 }
  others : ∀ k, k ≠ e.ph → regsAt t k = regsAt s k ∧ KeepsStore (coreAt s k) (coreAt t k)
  written : ∀ b, (glob = true → (globalKey s e b).isSome ∧ Alone s e b) → spaceByte t e glob b = byteAfter w b (spaceByte s e glob b)
  spared : ∀ b, spaceByte t e (!glob) b = spaceByte s e (!glob) b
  engines : (coreAt t e.ph).e0 = (coreAt s e.ph).e0 ∧ (coreAt t e.ph).e1 = (coreAt s e.ph).e1
  queue : (coreAt t e.ph).halo = (coreAt s e.ph).halo ∧ (coreAt t e.ph).fault = (coreAt s e.ph).fault
  rest : OnlyCores u s t

/-- No two DRAM bytes share a key: a channel has at most 32 GiB (R306). -/
def ChannelsFit (s : State) : Prop := ∀ m, capOf s m ≤ 2 ^ 35

/-- The elements of a vector result of type `ty` in v[rd], written where the mask is 1; every other register as it was. -/
structure VecResult (ty rd : Nat) (m : BitVec 512) (g : Nat → Nat) (r q : Regs) : Prop where
  files : q.s = r.s ∧ q.a = r.a ∧ q.p = r.p ∧ q.q = r.q ∧ q.pc = r.pc
  others : ∀ n, n ≠ rd → (ty = 2 → n ≠ rd + 1) → vreg q n = vreg r n
  elems : ∀ i, i < 512 → elemOf ty q rd i = if m.getLsbD i then g i % (if ty = 2 then 2 ^ 32 else 2 ^ 16) else elemOf ty r rd i

/-- The registers a vector type names are pairs' first registers where the type takes pairs (R90). -/
abbrev EvenIf (ty : Nat) (l : List (BitVec 5)) : Prop := ty = 2 → ∀ n ∈ l, n.toNat % 2 = 0

/-- The device takes slip x, of an opcode and with what it names, and no general condition refuses it (R346, Table 15.11, Table 18.8,
R446). -/
abbrev Accepts (s : State) (x : SlipIn) (op : Nat) (w : Named) : Prop := mayTake s x.ring op w = true ∧ refusal s x.ring op w = none

/-- The next slip of a ring was taken: the device's index moved on by one, and the slip stands complete on the ring with its sequence
number, a status and a RESULT. -/
structure Completed (ring op : Nat) (tag : Word) (s t : State) (status : Nat) (result : BitVec 256) : Prop where
  head : (ringAt t ring).head = ((ringAt s ring).head + 1) % (ringAt s ring).size
  slip : ∃ k ∈ (ringAt t ring).taken, k.id = s.order ∧ k.seq = (ringAt s ring).seq ∧ k.opcode = op ∧ k.tag = tag
    ∧ ∃ st, k.done = some (status, st, result)

/-- A fabric port beside its buffer credits. -/
def linkOf (s : State) (n : Nat) : FabPort := { fabPort s n with used := [], turn := [] }

/-- No packet waits in the fabric, and port n's buffers at the next device are empty. -/
abbrev ClearPort (s : State) (n : Nat) : Prop := s.fab.held = [] ∧ (fabPort s n).used = [] ∧ 2 ≤ (fabPort s n).state

/-- The part of e goes on when what its sequencer waits for is complete. -/
abbrev GoesOn (e : Env) : Prop := e.part.stopping = false ∧ e.part.halted = none ∧ ∀ y ∈ e.core.halo, y.fault = none

/-- The frames of a stream have orders of their own. -/
abbrev OwnOrders (s : State) (id : Nat) : Prop := ∀ g ∈ (strm s id).frames, ∀ h ∈ (strm s id).frames, g.order = h.order → g = h

/-- The opcodes of Table 5.6 with the instruction each one is, meeting no upset. -/
def aethodTable : List (BitVec 8 × (Nat → Fields → Instr)) :=
  [(0x00, fun c f => Instr.nop c ⟨0, f, []⟩), (0x01, fun c f => Instr.endPart c f []), (0x02, fun c f => Instr.br c ⟨f, []⟩),
   (0x03, fun c f => Instr.brc c ⟨f, []⟩), (0x04, fun c f => Instr.jl c ⟨f, []⟩), (0x05, fun c f => Instr.jr c ⟨f, []⟩),
   (0x10, fun c f => Instr.add c ⟨f, []⟩), (0x11, fun c f => Instr.sub c ⟨f, []⟩), (0x12, fun c f => Instr.mul c ⟨f, []⟩),
   (0x13, fun c f => Instr.div c ⟨f, []⟩), (0x14, fun c f => Instr.rem c ⟨f, []⟩), (0x15, fun c f => Instr.and c ⟨f, []⟩),
   (0x16, fun c f => Instr.or c ⟨f, []⟩), (0x17, fun c f => Instr.xor c ⟨f, []⟩), (0x18, fun c f => Instr.shl c ⟨f, []⟩),
   (0x19, fun c f => Instr.shr c ⟨f, []⟩), (0x1A, fun c f => Instr.sra c ⟨f, []⟩), (0x1B, fun c f => Instr.slt c ⟨f, []⟩),
   (0x1C, fun c f => Instr.minmax c ⟨f, []⟩), (0x1D, fun c f => Instr.fop c ⟨f, []⟩), (0x1E, fun c f => Instr.ldi c ⟨f, []⟩),
   (0x1F, fun c f => Instr.ldst c f [])] ++
  [(0x20, fun c f => Instr.dld c f []), (0x21, fun c f => Instr.dset c ⟨f, []⟩), (0x22, fun c f => Instr.dcpy c ⟨f, []⟩),
   (0x23, fun c f => Instr.dadv c ⟨f, []⟩), (0x30, fun c f => Instr.tld c f []), (0x31, fun c f => Instr.tst c f []),
   (0x32, fun c f => Instr.tcp c f []), (0x33, fun c f => Instr.hxch c ⟨f, []⟩), (0x40, fun c f => Instr.wld c f []),
   (0x41, fun c f => Instr.mma c f []), (0x42, fun c f => Instr.mmat c f []), (0x43, fun c f => Instr.aclr c ⟨f, []⟩),
   (0x44, fun c f => Instr.adrn c f [])] ++
  [(0x50, fun c f => Instr.vadd c f []), (0x51, fun c f => Instr.vsub c f []), (0x52, fun c f => Instr.vmul c f []),
   (0x53, fun c f => Instr.vfma c f []), (0x54, fun c f => Instr.vmin c f []), (0x55, fun c f => Instr.vmax c f []),
   (0x56, fun c f => Instr.vcmp c f []), (0x57, fun c f => Instr.vlog c f []), (0x58, fun c f => Instr.vcvt c f []),
   (0x59, fun c f => Instr.vred c f []), (0x5A, fun c f => Instr.vld c f []), (0x5B, fun c f => Instr.vst c f []),
   (0x5C, fun c f => Instr.vsel c f []), (0x5D, fun c f => Instr.vbc c f []), (0x5E, fun c f => Instr.plog c f []),
   (0x5F, fun c f => Instr.pfirst c f []), (0x60, fun c f => Instr.vcurve c f []), (0x61, fun c f => Instr.vlut c f []),
   (0x62, fun c f => Instr.vext c f [])] ++
  [(0x70, fun c f => Instr.qnt c f []), (0x71, fun c f => Instr.dqn c f []), (0x72, fun c f => Instr.stat c ⟨f, []⟩),
   (0x80, fun c f => Instr.ppc c f []), (0x90, fun c f => Instr.semw c ⟨f, []⟩), (0x91, fun c f => Instr.sems c ⟨f, []⟩),
   (0x92, fun c f => Instr.fence c ⟨f, []⟩), (0xA0, fun c f => Instr.take c ⟨f, []⟩), (0xA1, fun c f => Instr.claim c ⟨f, []⟩),
   (0xA2, fun c f => Instr.commit c f []), (0xB0, fun c f => Instr.proof c f []), (0xB1, fun c f => Instr.rsdchk c f [])]

end Sys2Proof.Machine
end

