-- ==== Sys2Proof/WellFormed.lean ====
section
/-! DEFINITION. WellFormed.lean: the commands whose unit, ring, stream, register and slot numbers exist on the device. A command that breaks
a check names nothing: its meaning leaves the device as it is, or refuses it as the spec says. -/

namespace Sys2Proof

/-- A number below its bound. -/
def below (n x : Nat) : Bool := decide (x < n)

/-- A job start names a stream that exists (R190). -/
def pickOk : JobPick → Bool
  | .queued _ => true
  | .adapt stream prog => below 1024 stream && below 256 prog

/-- A unit under test exists (R14, R16). -/
def testUnitOk : TestUnit → Bool
  | .core phys => below 40 phys
  | .media n => below 32 n

/-- A shared unit exists (R286). -/
def sharedOk : SharedUnit → Bool
  | .post cluster => below 8 cluster
  | .cellar => true

/-- The owner of a buffer exists (Table 12.4). -/
def ownerOk : Owner → Bool
  | .stream id => below 1024 id
  | .residency cluster slot _ => below 8 cluster && below 4 slot
  | .partition p => below 4 p

/-- A register write is one that BAR0 accepts (R334). -/
def regWriteOk (w : RegWrite) : Bool :=
  w.whole && below 32 w.fn && below 0x2000000 w.offset && (w.size == 4 || w.size == 8) && w.offset % w.size == 0
    && (w.size == 8 || below (2 ^ 32) w.value.toNat)

/-- BAR0 offsets of the lock registers (R474). -/
def lockOffsets : List Nat := [0x020004, 0x030004, 0x060004]

/-- Every number of a command is in its range. -/
def Instr.wf : Instr → Bool
  | .nop c w => below 32 c && (w.op == 0 || !aethodListed w.op.toNat)
  | .endPart c _ _ => below 32 c
  | .br c _ => below 32 c
  | .brc c _ => below 32 c
  | .jl c _ => below 32 c
  | .jr c _ => below 32 c
  | .add c _ => below 32 c
  | .sub c _ => below 32 c
  | .mul c _ => below 32 c
  | .div c _ => below 32 c
  | .rem c _ => below 32 c
  | .and c _ => below 32 c
  | .or c _ => below 32 c
  | .xor c _ => below 32 c
  | .shl c _ => below 32 c
  | .shr c _ => below 32 c
  | .sra c _ => below 32 c
  | .slt c _ => below 32 c
  | .minmax c _ => below 32 c
  | .fop c _ => below 32 c
  | .ldi c _ => below 32 c
  | .ldst c _ _ => below 32 c
  | .dld c _ _ => below 32 c
  | .dset c _ => below 32 c
  | .dcpy c _ => below 32 c
  | .dadv c _ => below 32 c
  | .tld c _ _ => below 32 c
  | .tst c _ _ => below 32 c
  | .tcp c _ _ => below 32 c
  | .hxch c _ => below 32 c
  | .haloTransferDone c port _ => below 32 c && below 4 port
  | .haloTimeout c port _ => below 32 c && below 4 port
  | .wld c _ _ => below 32 c
  | .mma c _ _ => below 32 c
  | .mmat c _ _ => below 32 c
  | .aclr c _ => below 32 c
  | .adrn c _ _ => below 32 c
  | .vadd c _ _ => below 32 c
  | .vsub c _ _ => below 32 c
  | .vmul c _ _ => below 32 c
  | .vfma c _ _ => below 32 c
  | .vmin c _ _ => below 32 c
  | .vmax c _ _ => below 32 c
  | .vcmp c _ _ => below 32 c
  | .vlog c _ _ => below 32 c
  | .vcvt c _ _ => below 32 c
  | .vred c _ _ => below 32 c
  | .vld c _ _ => below 32 c
  | .vst c _ _ => below 32 c
  | .vsel c _ _ => below 32 c
  | .vbc c _ _ => below 32 c
  | .plog c _ _ => below 32 c
  | .pfirst c _ _ => below 32 c
  | .vcurve c _ _ => below 32 c
  | .vlut c _ _ => below 32 c
  | .vext c _ _ => below 32 c
  | .qnt c _ _ => below 32 c
  | .dqn c _ _ => below 32 c
  | .stat c _ => below 32 c
  | .ppc c _ _ => below 32 c
  | .semw c _ => below 32 c
  | .semwTimeout c => below 32 c
  | .sems c _ => below 32 c
  | .fence c _ => below 32 c
  | .take c _ => below 32 c
  | .claim c _ => below 32 c
  | .commit c _ _ => below 32 c
  | .proof c _ _ => below 32 c
  | .rsdchk c _ _ => below 32 c
  | .jobStart pick cores => pickOk pick && cores.all (below 32)
  | .steal c => below 32 c
  | .preempt _ => true
  | .preemptSaveDone c => below 32 c
  | .holdLimitExpiry c => below 32 c
  | .partResume c => below 32 c
  | .eviction cluster part => below 8 cluster && below 4 part
  | .evictionDone cluster => below 8 cluster
  | .contextReplaceSwap ctx => below 1024 ctx
  | .coreMove c => below 32 c
  | .carrelCopyDone x => below 32 x.core
  | .inServiceTestStart unit => testUnitOk unit
  | .inServiceTestEnd unit _ => testUnitOk unit
  | .trackerStep stream _ _ _ => below 1024 stream
  | .batchCropArrival cluster ctx prog stream _ _ => below 8 cluster && below 1024 ctx && below 256 prog && below 1024 stream
  | .batchWindowExpiry cluster ctx prog => below 8 cluster && below 1024 ctx && below 256 prog
  | .folioCommit stream _ => below 1024 stream
  | .reorderStallLimit stream => below 1024 stream
  | .stewardPoll c _ => below 32 c
  | .stewardWatchdog cluster _ => below 8 cluster
  | .slotEnd unit => sharedOk unit
  | .ethFrameReceive port _ _ => below 2 port
  | .ethLinkChange port _ _ => below 2 port
  | .rtpPacket stream _ => below 1024 stream
  | .rtpHoldExpiry stream _ => below 1024 stream
  | .ethTransmit port _ _ => below 2 port
  | .rxtail fn port _ => below 32 fn && below 2 port
  | .txtail fn port _ => below 32 fn && below 2 port
  | .decodeStart stream core _ _ => below 1024 stream && below 32 core
  | .pictureDecoded core _ => below 32 core
  | .mediaWatchdog core _ => below 32 core
  | .preprocessStart unit stream => below 8 unit && below 1024 stream
  | .preprocessDone unit _ => below 8 unit
  | .encodeStart core => below 4 core
  | .encodeDone core _ _ _ _ _ => below 4 core
  | .encoderWatchdog core _ => below 4 core
  | .clipWaitExpiry fn _ => below 32 fn
  | .contextLoad x => below 4096 x.ring
  | .contextEvict x => below 4096 x.ring
  | .streamOpen x => below 4096 x.ring
  | .streamStart x => below 4096 x.ring
  | .streamPause x => below 4096 x.ring
  | .streamDrain x => below 4096 x.ring
  | .streamClose x => below 4096 x.ring
  | .streamReconf x => below 4096 x.ring
  | .feed x _ _ _ => below 4096 x.ring
  | .zoneSet x => below 4096 x.ring
  | .capture x => below 4096 x.ring
  | .hold x => below 4096 x.ring
  | .cancel x => below 4096 x.ring
  | .thumb x => below 4096 x.ring
  | .partitionSet x => below 4096 x.ring
  | .ringAssign x => below 4096 x.ring
  | .fenceSlip x => below 4096 x.ring
  | .query x => below 4096 x.ring
  | .shutdown x => below 4096 x.ring
  | .kilnPass x => below 4096 x.ring
  | .kilnGroupStart group => decide (1 ≤ group)
  | .kilnDone _ _ _ _ _ => true
  | .kilnShedTimeout _ _ _ _ _ => true
  | .repair x => below 4096 x.ring
  | .attest x => below 4096 x.ring
  | .attestSignDone => true
  | .imageUpdate x => below 4096 x.ring
  | .imageUpdateDone _ => true
  | .transition x => below 4096 x.ring
  | .debugUnlock x => below 4096 x.ring
  | .doorbell fn ring _ _ => below 32 fn && below 4096 ring
  | .ringEnable fn ring _ => below 32 fn && below 4096 ring
  | .ringDisable fn ring _ => below 32 fn && below 4096 ring
  | .receiptWrite ring => below 4096 ring
  | .folioDelivery stream => below 1024 stream
  | .msixModerationExpiry ring => below 4096 ring
  | .msixUnmask fn vector _ => below 32 fn && below 2048 vector
  | .bar2Write _ _ => true
  | .bar2Read _ _ => true
  | .pcieCompletionTimeout ring _ => below 4096 ring
  | .functionLevelReset fn => below 32 fn
  | .hostLinkDown => true
  | .hostLinkUp => true
  | .cellarDraw pool owner _ => below 64 pool && ownerOk owner
  | .cellarReturn part _ owner => below 4 part && ownerOk owner
  | .quarantineReclaim pool _ => below 64 pool
  | .cellarRebuildDone pool _ => below 64 pool
  | .dramRefresh ch rank _ => below 8 ch && below 2 rank
  | .dramRetrain ch rank => below 8 ch && below 2 rank
  | .dramScrub ch _ _ => below 8 ch
  | .dramAlert ch _ _ => below 8 ch
  | .zeroMapGranule ch => below 8 ch
  | .fabLinkUp port width _ _ => below 4 port && (width == 1 || width == 2)
  | .fabLinkDown port => below 4 port
  | .fabTrainRetry port _ => below 4 port
  | .fecRetrain port => below 4 port
  | .shedLinksDown => true
  | .catSend => true
  | .cat port _ _ _ _ => below 4 port
  | .rootElection => true
  | .assign port x y => below 4 port && below 256 x && below 256 y
  | .linkstate _ _ => true
  | .forward port p => below 4 port && below 4097 p.payload.length
  | .read port p => below 4 port && below 4097 p.payload.length
  | .write port p => below 4 port && below 4097 p.payload.length
  | .writeSig port p => below 4 port && below 4097 p.payload.length
  | .dataResp p => below 4097 p.payload.length
  | .ack p => below 4097 p.payload.length
  | .nak p => below 4097 p.payload.length
  | .remotePacketTimeout txid => below 65536 txid
  | .walk fn _ => below 32 fn
  | .retrain fn _ => below 32 fn
  | .fabWinValid fn n _ => below 32 fn && below 256 n
  | .fabWinClear fn n _ => below 32 fn && below 256 n
  | .silenceExpiry stream => below 1024 stream
  | .testSlotStart c _ => below 32 c
  | .testSlotEnd c _ => below 32 c
  | .testIntervalExpiry c => below 32 c
  | .safeOkToggle => true
  | .arm fn _ => below 32 fn
  | .disarm fn _ => below 32 fn
  | .watchEnable fn n _ => below 32 fn && below 64 n
  | .lockstepMismatch => true
  | .readZone _ => true
  | .readRun _ => true
  | .readStatus _ => true
  | .echo _ => true
  | .spigotCsDeassert => true
  | .shedSample _ _ => true
  | .shedLevelFall => true
  | .brownOut _ _ => true
  | .powerEstimate _ _ sensor => below 64 sensor
  | .thermalTrip _ => true
  | .crystalLoss => true
  | .islandClockStop island => below 102 island
  | .islandClockRestart island => below 102 island
  | .laneGroupFailure die => below 2 die
  | .powerRailRise _ => true
  | .coldReset => true
  | .warmReset => true
  | .deviceReset fn _ => below 32 fn
  | .bootStart _ => true
  | .bootReady => true
  | .hostBootGo fn _ => below 32 fn
  | .hostImageVerified => true
  | .mbxSel fn _ => below 32 fn
  | .mailboxFillDone fn => below 32 fn
  | .lock fn offset _ => below 32 fn && lockOffsets.contains offset
  | .parityScan offset _ => (offset % 4 == 0 && below 0x2000000 offset)
  | .pmuEvt fn n _ => below 32 fn && below 8 n
  | .registerWrite w => regWriteOk w
  | .smbusDevId => true
  | .smbusPwrLevel => true
  | .smbusPwrBoot => true
  | .smbusPwrTemp => true
  | .smbusPwrEst => true
  | .fabCfgEnable fn _ => below 32 fn
  | .flitReplay port _ => below 4 port
  | .spigotUnlistedCommand _ => true

end Sys2Proof
end

