-- ==== Sys2Proof/Certificates/Slice0/Obligations.lean ====
section
/-! DEFINITION. Certificates/Slice0/Obligations.lean: the statements about the FL-640 model, each a proposition that a prover proves. A
docstring names the rules of spec/ it formalises, or says that it is the model's own choice. -/

open Sys2Proof Sys2Proof.Machine

/-! ### The step, the words, the reset -/

/-- Tier 1, the model's queue (log entry 1): a step with command c at the front is exec of c on the state with the queue's rest. A step on an
empty queue changes nothing but what the idle flits of the fabric links bring: with every buffer credit at hand it changes nothing (log
entry 60). -/
def Obligations.StepRunsFrontCommand : Prop :=
  (∀ (s : State) (c : Instr) (rest : List Instr), step { s with pending := c :: rest } = exec c { s with pending := rest })
    ∧ (∀ s : State, s.pending = [] → ∃ f i, step s = .next { s with fab := f, islands := i })
    ∧ ∀ s : State, s.pending = [] → (∀ n, n < 4 → (fabPort s n).used = []) → step s = .next s

/-- Tier 1, Table 5.1 and Table 5.6: five instruction words written out field by field (opcode, MOD, RD, RA, RB, RC, AD, AA, AB, PM, XF,
IMM) decode to the instructions they stand for, and a word of an unlisted opcode to the one that raises cause 0x01. -/
def Obligations.AethodWordsDecode : Prop :=
  aethodDecode 3 (0x10#8 ++ 0x00#8 ++ 5#5 ++ 6#5 ++ 7#5 ++ 0#5 ++ 0#4 ++ 0#4 ++ 0#4 ++ 0#3 ++ 0#13 ++ 0#64)
      = some (.add 3 ⟨{ mod := 0, rd := 5, ra := 6, rb := 7, rc := 0, ad := 0, aa := 0, ab := 0, pm := 0, xf := 0, imm := 0 }, []⟩)
  ∧ aethodDecode 0 (0x02#8 ++ 0x00#8 ++ 0#5 ++ 0#5 ++ 0#5 ++ 0#5 ++ 0#4 ++ 0#4 ++ 0#4 ++ 0#3 ++ 0#13 ++ 0xFFFFFFFFFFFFFFF0#64)
      = some (.br 0 ⟨{ mod := 0, rd := 0, ra := 0, rb := 0, rc := 0, ad := 0, aa := 0, ab := 0, pm := 0, xf := 0, imm := -16 }, []⟩)
  ∧ aethodDecode 31 (0x40#8 ++ 0x00#8 ++ 0#5 ++ 0#5 ++ 0#5 ++ 0#5 ++ 9#4 ++ 0#4 ++ 0#4 ++ 0#3 ++ 0b101#13 ++ 0#64)
      = some (.wld 31 { mod := 0, rd := 0, ra := 0, rb := 0, rc := 0, ad := 9, aa := 0, ab := 0, pm := 0, xf := 5, imm := 0 } [])
  ∧ aethodDecode 1 (0x53#8 ++ 0x02#8 ++ 2#5 ++ 4#5 ++ 6#5 ++ 8#5 ++ 0#4 ++ 0#4 ++ 0#4 ++ 7#3 ++ 0#13 ++ 0#64)
      = some (.vfma 1 { mod := 2, rd := 2, ra := 4, rb := 6, rc := 8, ad := 0, aa := 0, ab := 0, pm := 7, xf := 0, imm := 0 } [])
  ∧ aethodDecode 1 (0x90#8 ++ 0x00#8 ++ 1#5 ++ 0#5 ++ 0#5 ++ 0#5 ++ 0#4 ++ 0#4 ++ 0#4 ++ 0#3 ++ 0x11#13 ++ 0x0000000064000003#64)
      = some (.semw 1 ⟨{ mod := 0, rd := 1, ra := 0, rb := 0, rc := 0, ad := 0, aa := 0, ab := 0, pm := 0, xf := 17, imm := 0x64000003 }, []⟩)
  ∧ ∀ w : BitVec 128, aethodListed (w.extractLsb' 120 8).toNat = false →
      aethodDecode 4 w = some (.nop 4 ⟨(w.extractLsb' 120 8), (aethodFields w), []⟩)

/-- Tier 3, R126, R128: decoding and encoding agree. Every decoded word encodes back to itself, so no bit of a word is dropped and no two
words are one instruction; and every opcode of the table with every value of every field decodes to its instruction. -/
def Obligations.AethodEncodingRoundTrip : Prop :=
  (∀ (c : Nat) (w : BitVec 128) (i : Instr), aethodDecode c w = some i → aethodEncode i = some w)
    ∧ (∀ (c : Nat) (i : Instr) (w : BitVec 128), aethodEncode i = some w → ∃ j, aethodDecode c w = some j ∧ aethodParts j = aethodParts i)
    ∧ ∀ p ∈ aethodTable, ∀ (c : Nat) (f : Fields), aethodDecode c (aethodWord p.1 f) = some (p.2 c f)
        ∧ aethodFields (aethodWord p.1 f) = f

/-- Tier 1, R24, R440, R500 with Tables 13.4, 14.8, 15.12, 16.7, 17.9: what the reset values of the tables leave: SAFE_OK low, the Spigot
released, FTTI 100 (in units of Table 16.7), the ring registers of Table 13.4 with rings 0 and 1 a slip and a receipt ring paired with each
other and ring 2 PF0's event ring, no fabric coordinates, an empty queue, no stream open and no job.
Where the spec leaves a reading or an order open it follows the model's choice (log entries 3, 4). -/
def Obligations.ResetLeaves : Prop :=
  let s := State.reset
  s.pending = [] ∧ s.pwr.stage = 0 ∧ s.pwr.level = 0 ∧ s.pwr.shedth = 0xAAB0B6BC ∧ s.pwr.brakeLvl = 3 ∧ s.pwr.shedPrio = 4
    ∧ s.pwr.istPeriod = 24 ∧ s.saf.ok = false ∧ s.saf.arm = false ∧ s.saf.lineA = false ∧ s.saf.lineB = false
    ∧ s.saf.spigot = .released ∧ s.saf.ftti = 0x64 ∧ s.saf.k = 4 ∧ s.saf.w = 300 ∧ zoneWord s 7 = 0x001400
    ∧ (ringAt s 0).kind = 0 ∧ (ringAt s 0).pair = 1 ∧ (ringAt s 1).kind = 1 ∧ (ringAt s 2).kind = 3 ∧ (ringAt s 2).vector = 1
    ∧ (∀ n, (ringAt s n).enable = false) ∧ s.fab.call = 0xFFFE ∧ s.fab.enable = false
    ∧ s.err.c4 = false ∧ s.jobs = [] ∧ s.claims = [] ∧ (∀ id, (strm s id).state = .closed) ∧ (∀ k, (coreAt s k).part = none)
    ∧ ready s = false

/-! ### Scalar, control and descriptor instructions -/

/-- Tier 1, R108, R127: s0 reads 0 and a write to it is discarded, p0 reads all ones and a write to it is discarded; every other scalar,
mask, vector and descriptor register reads back what was written, and no write touches another register. -/
def Obligations.RegisterFiles : Prop :=
  ∀ (r : Regs),
    (sreg r 0 = 0 ∧ ∀ v, setS 0 v r = r) ∧ (preg r 0 = BitVec.allOnes 512 ∧ ∀ v, setP 0 v r = r)
    ∧ (∀ (n m : BitVec 5) (v : Word), n ≠ 0 → sreg (setS n v r) m = if m = n then v else sreg r m)
    ∧ (∀ (n m : Nat) (v : BitVec 512), n ≠ 0 → preg (setP n v r) m = if m = n then v else preg r m)
    ∧ (∀ (n m : Nat) (v : BitVec 8192), vreg (setV n v r) m = if m = n then v else vreg r m)
    ∧ (∀ (n m : BitVec 4) (v : BitVec 256), areg (setA n v r) m = if m = n then v else areg r m)
    ∧ (∀ (n : BitVec 5) (v : Word), (setS n v r).a = r.a ∧ (setS n v r).v = r.v ∧ (setS n v r).p = r.p)

/-- Tier 2, R139, R108, Table 5.8: every scalar ALU instruction whose unused bits are zero completes, s[RD] takes the result of the table
computed in 32-bit arithmetic, and nothing else of the device changes but the core's instruction offset, counters and fenced parts. A
write to s0 is discarded. -/
def Obligations.ScalarResults : Prop :=
  ∀ (s : State) (c : Nat) (e : Env) (f : Fields) (u : List Upset), Issues s c e → fetchLost u = false →
    let A := sreg e.core.regs f.ra
    let B := operandB e f
    let r := e.core.regs
    (stray (scalarUses f 0) f = false →
      (∃ t, exec (.add c ⟨f, u⟩) s = .next t ∧ OnlyRegs e u (setS f.rd (A + B) r) s t)
      ∧ (∃ t, exec (.sub c ⟨f, u⟩) s = .next t ∧ OnlyRegs e u (setS f.rd (A - B) r) s t)
      ∧ (∃ t, exec (.and c ⟨f, u⟩) s = .next t ∧ OnlyRegs e u (setS f.rd (A &&& B) r) s t)
      ∧ (∃ t, exec (.or c ⟨f, u⟩) s = .next t ∧ OnlyRegs e u (setS f.rd (A ||| B) r) s t)
      ∧ (∃ t, exec (.xor c ⟨f, u⟩) s = .next t ∧ OnlyRegs e u (setS f.rd (A ^^^ B) r) s t)
      ∧ (∃ t, exec (.shl c ⟨f, u⟩) s = .next t ∧ OnlyRegs e u (setS f.rd (A <<< (B &&& 31)) r) s t)
      ∧ (∃ t, exec (.shr c ⟨f, u⟩) s = .next t ∧ OnlyRegs e u (setS f.rd (A >>> (B &&& 31)) r) s t)
      ∧ (∃ t, exec (.sra c ⟨f, u⟩) s = .next t ∧ OnlyRegs e u (setS f.rd (BitVec.sshiftRight' A (B &&& 31)) r) s t))
    ∧ (stray (scalarUses f 1) f = false →
      (∃ t, exec (.div c ⟨f, u⟩) s = .next t ∧ OnlyRegs e u (setS f.rd
        (if B = 0 then BitVec.allOnes 32 else if f.mod.getLsbD 0 then BitVec.sdiv A B else BitVec.udiv A B) r) s t)
      ∧ (∃ t, exec (.rem c ⟨f, u⟩) s = .next t ∧ OnlyRegs e u (setS f.rd
        (if B = 0 then A else if f.mod.getLsbD 0 then BitVec.srem A B else BitVec.umod A B) r) s t)
      ∧ (∃ t, exec (.slt c ⟨f, u⟩) s = .next t ∧ OnlyRegs e u (setS f.rd
        (if (if f.mod.getLsbD 0 then A.toInt < B.toInt else A.toNat < B.toNat) then 1 else 0) r) s t))
    ∧ (stray (scalarUses f 3) f = false →
      (f.mod.toNat % 4 < 3 → ∃ t, exec (.mul c ⟨f, u⟩) s = .next t ∧ OnlyRegs e u (setS f.rd
        (if f.mod.toNat % 4 = 0 then A * B
         else if f.mod.toNat % 4 = 1 then (A.signExtend 64 * B.signExtend 64).extractLsb' 32 32
         else (A.setWidth 64 * B.setWidth 64).extractLsb' 32 32) r) s t)
      ∧ (∃ t, exec (.minmax c ⟨f, u⟩) s = .next t ∧ OnlyRegs e u (setS f.rd
        (match f.mod.toNat % 4 with
         | 0 => if A.toInt < B.toInt then A else B
         | 1 => if A.toInt < B.toInt then B else A
         | 2 => if A.toNat < B.toNat then A else B
         | _ => if A.toNat < B.toNat then B else A) r) s t))
    ∧ (stray (scalarUses f 7) f = false →
      ∃ t, exec (.fop c ⟨f, u⟩) s = .next t ∧ OnlyRegs e u (setS f.rd (fopResult (f.mod.toNat % 8) A B) r) s t)
    ∧ (stray { mod := 0x80, rd := true, imm := 0xFFFFFFFF } f = false → f.mod.getLsbD 7 = true →
      ∃ t, exec (.ldi c ⟨f, u⟩) s = .next t ∧ OnlyRegs e u (setS f.rd (f.imm.extractLsb' 0 32) r) s t)

/-- Tier 2, R128, R130, R137, R138, Table 5.7: NOP goes on; a branch goes to this instruction's offset plus IMM when its comparison holds, JL also
writes the offset of the next instruction, JR goes to s[RA]; the target is a multiple of 16 inside the code. Nothing else changes. The word of an
opcode that Table 5.6 does not list ends the part in
ILLEGAL with cause 0x01. -/
def Obligations.BranchesGo : Prop :=
  ∀ (s : State) (c : Nat) (e : Env) (f : Fields) (u : List Upset), Issues s c e → fetchLost u = false →
    let r := e.core.regs
    let target : Int := r.pc + f.imm.toInt
    let good : Int → Prop := fun t => 0 ≤ t ∧ t % 16 = 0 ∧ t + 16 ≤ e.prog.codeLen
    let goesTo : Regs → Nat → State → Prop := fun q pc t =>
      regsAt t e.ph = { q with pc := pc } ∧ (∀ k, k ≠ e.ph → regsAt t k = regsAt s k)
        ∧ (∀ k, KeepsStore (coreAt s k) (coreAt t k)) ∧ OnlyCores u s t
    let compares : Nat → Word → Word → Prop := fun k a b =>
      (k = 0 ∧ a = b) ∨ (k = 1 ∧ a ≠ b) ∨ (k = 2 ∧ a.toInt < b.toInt) ∨ (k = 3 ∧ b.toInt ≤ a.toInt)
        ∨ (k = 4 ∧ a.toNat < b.toNat) ∨ (k = 5 ∧ b.toNat ≤ a.toNat)
    (stray {} f = false → ∃ t, exec (.nop c ⟨0, f, u⟩) s = .next t ∧ goesTo r (r.pc + 16) t)
    ∧ (stray { imm := BitVec.allOnes 64 } f = false → good target →
        ∃ t, exec (.br c ⟨f, u⟩) s = .next t ∧ goesTo r target.toNat t)
    ∧ (stray { mod := 7, ra := true, rb := true, imm := BitVec.allOnes 64 } f = false → f.mod.toNat % 8 < 6 → good target →
        ∃ t, exec (.brc c ⟨f, u⟩) s = .next t
          ∧ (compares (f.mod.toNat % 8) (sreg r f.ra) (sreg r f.rb) → goesTo r target.toNat t)
          ∧ (¬ compares (f.mod.toNat % 8) (sreg r f.ra) (sreg r f.rb) → goesTo r (r.pc + 16) t))
    ∧ (stray { rd := true, imm := BitVec.allOnes 64 } f = false → good target →
        ∃ t, exec (.jl c ⟨f, u⟩) s = .next t ∧ goesTo (setS f.rd (BitVec.ofNat 32 (r.pc + 16)) r) target.toNat t)
    ∧ (stray { ra := true } f = false → good (sreg r f.ra).toNat →
        ∃ t, exec (.jr c ⟨f, u⟩) s = .next t ∧ goesTo r (sreg r f.ra).toNat t)
    ∧ (∀ op, aethodListed op.toNat = false → e.core.halo = [] →
        ∃ t, exec (.nop c ⟨op, f, u⟩) s = .next t ∧ ∃ x, (coreAt t e.ph).fault = some x ∧ x.address = r.pc ∧ x.detail = 0x0101)

/-- Tier 2, R139, R93: LDST with MOD[7] set at an aligned carrel address of the residency completes. A load gives s[RD] the word in
little-endian order; a store puts the four bytes of s[RB] there and changes no other byte.
Where the spec leaves a reading or an order open it follows the model's choice (log entries 95). -/
def Obligations.LoadStoreResults : Prop :=
  ∀ (s : State) (c : Nat) (e : Env) (f : Fields) (u : List Upset), Issues s c e →
    let r := e.core.regs
    let a := (sreg r f.ra + f.imm.extractLsb' 0 32).toNat
    let store := f.mod.getLsbD 0
    stray { mod := 0x81, rd := !store, ra := true, rb := store, imm := 0xFFFFFFFF } f = false → f.mod.getLsbD 7 = true →
    a % 4 = 0 → e.res.carrelBase ≤ a → a + 4 ≤ e.res.carrelBase + 1024 * e.res.carrelKib →
    Unblocked e [{ lo := a, n := 4, wr := store }] → fetchLost u = false →
    (store = false → readLost u = false → ∃ t, exec (.ldst c f u) s = .next t ∧ OnlyRegs e u (setS f.rd (BitVec.ofNat 32
        ((spaceByte s e false a).toNat + 2 ^ 8 * (spaceByte s e false (a + 1)).toNat
          + 2 ^ 16 * (spaceByte s e false (a + 2)).toNat + 2 ^ 24 * (spaceByte s e false (a + 3)).toNat)) r) s t)
    ∧ (store = true → memWf 0 e.core.carrel = true → ∃ t, exec (.ldst c f u) s = .next t ∧ OnlyWrites e u false
        [(a, [(sreg r f.rb).extractLsb' 0 8, (sreg r f.rb).extractLsb' 8 8, (sreg r f.rb).extractLsb' 16 8, (sreg r f.rb).extractLsb' 24 8])]
        r s t)

/-- Tier 2, R133, R135, R140, Tables 5.4 and 5.10: DLD takes the 32 aligned carrel bytes as an image with VALID set (HOFF 0 where the format has
no headers); DSET on a register with
VALID 0 starts from the default image and replaces one field; DCPY copies a valid image; DADV moves BASE and BORG. Each completes and
changes nothing but its descriptor register. What a field of a descriptor takes. A field reads back what is put there and no other field
moves; the default image has TSCALE 1.0, extents, strides and dilations 1 and 0 elsewhere; a DSET of BASE keeps HBASE of a quantised
tensor, and a DSET of an extent writes that extent. -/
def Obligations.DescriptorRegisters : Prop :=
  (∀ (s : State) (c : Nat) (e : Env) (f : Fields) (u : List Upset), Issues s c e → Readable u →
    let r := e.core.regs
    let a := (sreg r f.ra + f.imm.extractLsb' 0 32).toNat
    let old := areg r f.ad
    (stray { ad := true, ra := true, imm := 0xFFFFFFFF } f = false → a % 32 = 0 → e.res.carrelBase ≤ a →
      a + 32 ≤ e.res.carrelBase + 1024 * e.res.carrelKib → Unblocked e [{ lo := a, n := 32, wr := false }] →
      ∃ t, exec (.dld c f u) s = .next t ∧ ∃ d, OnlyRegs e u (setA f.ad d r) s t ∧ d.getLsbD 0 = true
        ∧ (headerless (dget d 5 2) = true → dget d 115 95 = 0)
        ∧ ∀ i, 0 < i → i < 256 → (headerless (dget d 5 2) = true → i < 95 ∨ 115 < i) → d.getLsbD i = (spaceByte s e false (a + i / 8)).getLsbD (i % 8))
    ∧ (stray { mod := 0xFF, ad := true, ra := true, imm := BitVec.allOnes 64 } f = false →
      ∀ d, dsetField (if old.getLsbD 0 then old else defaultDesc) f.mod.toNat (f.imm + (sreg r f.ra).setWidth 64).toNat = some d →
      ∃ t, exec (.dset c ⟨f, u⟩) s = .next t ∧ OnlyRegs e u (setA f.ad (d ||| 1) r) s t)
    ∧ (stray { ad := true, aa := true } f = false → (areg r f.aa).getLsbD 0 = true →
      ∃ t, exec (.dcpy c ⟨f, u⟩) s = .next t ∧ OnlyRegs e u (setA f.ad (areg r f.aa) r) s t)
    ∧ (stray { ad := true, ra := true, rb := true, xf := 3 } f = false → old.getLsbD 0 = true →
      let d := descOf old
      let k := f.xf.toNat % 4
      let n := (sreg r f.ra).toInt
      let w : Int := n * (if k = 0 then (elemBits d.fmt : Int) else if k = 1 then 8 * d.str1 else if k = 2 then 8 * d.str2 else 8 * d.str3)
      (k = 0 → d.fmt ≤ 9) → w % 8 = 0 → ∀ img, advanced old (w / 8) (sreg r f.rb).toInt = some img →
      ∃ t, exec (.dadv c ⟨f, u⟩) s = .next t ∧ OnlyRegs e u (setA f.ad (img ||| 1) r) s t))
  ∧ ((∀ (d : BitVec 256) (lo n v lo' n' : Nat), 0 < n → 0 < n' → lo + n ≤ 256 →
    dget (dput d (lo + n - 1) lo v) (lo + n - 1) lo = v % 2 ^ n
    ∧ (lo' + n' ≤ lo ∨ lo + n ≤ lo' → dget (dput d (lo + n - 1) lo v) (lo' + n' - 1) lo' = dget d (lo' + n' - 1) lo'))
  ∧ descOf defaultDesc = {
      valid := false, glob := false, fmt := 0, rax3 := false, sq := false, pad := 0, pconst := 0, cs1 := 1, cs2 := 1, pb1 := 0, pb2 := 0,
      dl1 := 1, dl2 := 1, borg := 0, base := 0, hbase := 0, str1 := 0, str2 := 0, str3 := 0, e0 := 1, e1 := 1, e2 := 1, e3 := 1,
      tscale := 0x3F800000 }
  ∧ (∀ d v t, dsetField d 0x00 v = some t → (descOf t).base = v ∧ ((descOf d).fmt < 7 → (descOf t).hbase = (descOf d).hbase)
      ∧ (descOf t).fmt = (descOf d).fmt ∧ (descOf t).e0 = (descOf d).e0)
  ∧ (∀ d v t, dsetField d 0x03 v = some t → 1 ≤ v ∧ v ≤ 65536 ∧ descOf t = { descOf d with e0 := v })
  ∧ (∀ d v t, dsetField d 0x04 v = some t → 1 ≤ v ∧ v ≤ 65536 ∧ descOf t = { descOf d with e1 := v })
  ∧ (∀ d v, 65536 < v ∨ v = 0 → dsetField d 0x05 v = none ∧ dsetField d 0x06 v = none)
  ∧ (∀ d v t, dsetField d 0x07 v = some t → v % 32 = 0 ∧ v ≤ 524256 ∧ descOf t = { descOf d with str1 := v }))

/-- Tier 2, R141, R142: a tile move whose descriptors, shapes and ranges pass the checks and whose tensors lie clear of the windows
completes: the destination's bytes and headers are those of the copy, every other byte stays. The source is read before anything is
written.
Where the spec leaves a reading or an order open it follows the model's choice (log entries 12). -/
def Obligations.TileMoves : Prop :=
  ∀ (s : State) (c : Nat) (e : Env) (f : Fields) (u : List Upset), Issues s c e →
    let r := e.core.regs
    let d := descOf (areg r f.ad)
    let t := descOf (areg r f.aa)
    let turn := f.mod.getLsbD 0
    Clean (descChecks f.ad.toNat d) → Clean (descChecks f.aa.toNat t) → tensorInShare e d = true → tensorInShare e t = true →
    Readable u → memWf 0 e.core.carrel = true → ChannelsFit s →
    (∀ g, g = d ∨ g = t → g.glob = true → ∀ q ∈ tensorRanges g, importsMeeting s e.part.ctx q.1 q.2 = []) → tensorPoisoned s e t = false →
    Unblocked e (spansOf d true ++ spansOf t false) →
    (stray { mod := 1, ad := true, aa := true } f = false → shapeOk turn d t = true → d.glob = false →
      ∃ v, exec (.tld c f u) s = .next v ∧ OnlyWrites e u false (copyWrites e.ctx.codebooks (spaceByte s e t.glob) u turn d t) r s v)
    ∧ (stray { ad := true, aa := true } f = false → shapeOk false d t = true → d.glob = true → t.glob = false →
      ∃ v, exec (.tst c f u) s = .next v ∧ OnlyWrites e u true (copyWrites e.ctx.codebooks (spaceByte s e false) u false d t) r s v)
    ∧ (stray { ad := true, aa := true } f = false → shapeOk false d t = true → d.glob = t.glob →
      ∃ v, exec (.tcp c f u) s = .next v ∧ OnlyWrites e u d.glob (copyWrites e.ctx.codebooks (spaceByte s e t.glob) u false d t) r s v)

/-- Tier 2, R31, R37 to R39, R142, Table 2.2: a copied header keeps the source's SCALE, ZP and CB, carries the destination's tag, and passes
its check exactly when the source block passed: a block that failed fails at its next reader too. Packing 64 codes into a block's bytes
and reading code i gives the code back, and a block has 8 bytes per bit of a code. -/
def Obligations.HeadersAndPacking : Prop :=
  ((∀ body tag, skewOf (sealHdr tag body) (tag % 256) false = none)
    ∧ (∀ body tag bad, copiedHdr body tag bad % 65536 = body % 65536 ∧ copiedHdr body tag bad / 65536 % 256 = tag % 256
        ∧ copiedHdr body tag bad < 2 ^ 32)
    ∧ (∀ body tag, skewOf (copiedHdr body tag false) (tag % 256) false = none)
    ∧ (∀ body tag n, skewOf (copiedHdr body tag true) n false = some 1)
    ∧ (∀ h tag, crcGood h = true → h / 65536 % 256 ≠ tag → skewOf h tag false = some 2)
    ∧ (∀ h, crcGood h = true → skewOf h (h / 65536 % 256) true = some 3))
  ∧ (∀ (fmt : Nat) (cs : List Nat), fmt < 7 → cs.length = 64 →
    (packCodes fmt cs).length = 8 * elemBits fmt
      ∧ ∀ i, i < 64 → codeOf fmt (packCodes fmt cs) i = cs.getD i 0 % 2 ^ elemBits fmt)

/-- Tier 2, R90, R148: VADD, VSUB, VMUL, VMIN, VMAX and VFMA complete; each element whose mask bit is 1 takes the result of its type
(FP results rounded once; INT16 saturated or wrapped by MOD[2]; VFMA with one rounding), and no other element or register changes. An
INT16 VFMA outside the format leaves a value the spec does not name (log entry 21).
Where the spec leaves a reading or an order open it follows the model's choice (log entries 10, 21). -/
def Obligations.VectorArithmetic : Prop :=
  ∀ (s : State) (c : Nat) (e : Env) (f : Fields) (u : List Upset), Issues s c e → Readable u →
    let r := e.core.regs
    let ty := f.mod.toNat % 4
    let a := elemOf ty r f.ra.toNat
    let b := elemOf ty r f.rb.toNat
    let z := elemOf ty r f.rc.toNat
    let fm := if ty = 2 then fmt32 else fmt16
    let does : Instr → (Nat → Nat) → Prop := fun x g =>
      ∃ t q, exec x s = .next t ∧ OnlyRegs e u q s t ∧ VecResult ty f.rd.toNat (preg r f.pm.toNat) g r q
    let int : Int → Nat := fun x => ((if f.mod.getLsbD 2 then max (-32768) (min 32767 x) else x) % 65536).toNat
    ty ≠ 3 → EvenIf ty [f.rd, f.ra, f.rb] →
    (stray { mod := if ty = 1 then 7 else 3, rd := true, ra := true, rb := true, pm := true } f = false →
      does (.vadd c f u) (fun i => if ty = 1 then int (sgn 16 (a i) + sgn 16 (b i)) else fadd fm (a i) (b i))
      ∧ does (.vsub c f u) (fun i => if ty = 1 then int (sgn 16 (a i) - sgn 16 (b i)) else fsub fm (a i) (b i))
      ∧ does (.vmul c f u) (fun i => if ty = 1 then int (sgn 16 (a i) * sgn 16 (b i)) else fmul fm (a i) (b i)))
    ∧ (stray { mod := 3, rd := true, ra := true, rb := true, pm := true } f = false →
      does (.vmin c f u) (fun i => if ty = 1 then (if sgn 16 (a i) < sgn 16 (b i) then a i else b i) else fmin fm (a i) (b i))
      ∧ does (.vmax c f u) (fun i => if ty = 1 then (if sgn 16 (a i) < sgn 16 (b i) then b i else a i) else fmax fm (a i) (b i)))
    ∧ (stray { mod := 3, rd := true, ra := true, rb := true, rc := true, pm := true } f = false → EvenIf ty [f.rc] →
      ∃ h : Nat → Nat, does (.vfma c f u) (fun i =>
        if ty = 1 then
          let x := sgn 16 (a i) * sgn 16 (b i) + sgn 16 (z i)
          if -32768 ≤ x ∧ x ≤ 32767 then (x % 65536).toNat else h i
        else ffma fm (a i) (b i) (z i)))

/-- Tier 2, R108, R148: VCMP writes the mask bits whose instruction mask is 1 with its comparison (a NaN compares false except NE), PLOG
combines all 512 bits, PFIRST sets the first min(s[RA], 512), VSEL chooses each element by the mask. A write to p0 is discarded. -/
def Obligations.VectorCompareAndMasks : Prop :=
  ∀ (s : State) (c : Nat) (e : Env) (f : Fields) (u : List Upset), Issues s c e → Readable u →
    let r := e.core.regs
    let ty := f.mod.toNat % 4
    let k := f.mod.toNat / 4 % 8
    let a := elemOf ty r f.ra.toNat
    let b := elemOf ty r f.rb.toNat
    let m := preg r f.pm.toNat
    let fm := if ty = 2 then fmt32 else fmt16
    let setsMask : Instr → (Nat → Bool) → Prop := fun x g =>
      ∃ t q, exec x s = .next t ∧ OnlyRegs e u q s t ∧ q.s = r.s ∧ q.a = r.a ∧ q.v = r.v ∧ q.q = r.q
        ∧ (∀ n, n ≠ f.rd.toNat → preg q n = preg r n)
        ∧ ∀ i, i < 512 → (preg q f.rd.toNat).getLsbD i = if f.rd = 0 then true else g i
    let holds : Nat → Nat → Bool := fun x y =>
      if ty = 1 then
        match k with
        | 0 => decide (sgn 16 x = sgn 16 y) | 1 => decide (sgn 16 x ≠ sgn 16 y) | 2 => decide (sgn 16 x < sgn 16 y)
        | 3 => decide (sgn 16 x ≤ sgn 16 y) | 4 => decide (sgn 16 y < sgn 16 x) | _ => decide (sgn 16 y ≤ sgn 16 x)
      else
        match k with
        | 0 => feq fm x y | 1 => !feq fm x y | 2 => flt fm x y | 3 => fle fm x y | 4 => flt fm y x | _ => fle fm y x
    (stray { mod := 0x1F, rd := true, ra := true, rb := true, pm := true } f = false → f.rd.toNat < 8 → k < 6 → ty ≠ 3 →
      EvenIf ty [f.ra, f.rb] →
      setsMask (.vcmp c f u) (fun i => if m.getLsbD i then holds (a i) (b i) else (preg r f.rd.toNat).getLsbD i))
    ∧ (stray { mod := 3, rd := true, ra := true, rb := true } f = false → f.rd.toNat < 8 → f.ra.toNat < 8 → f.rb.toNat < 8 →
      setsMask (.plog c f u) (fun i =>
        let x := (preg r f.ra.toNat).getLsbD i
        let y := (preg r f.rb.toNat).getLsbD i
        match ty with | 0 => x && y | 1 => x || y | 2 => x != y | _ => x && !y))
    ∧ (stray { rd := true, ra := true } f = false → f.rd.toNat < 8 →
      setsMask (.pfirst c f u) (fun i => decide (i < (sreg r f.ra).toNat)))
    ∧ (stray { rd := true, ra := true, rb := true, pm := true } f = false →
      ∃ t q, exec (.vsel c f u) s = .next t ∧ OnlyRegs e u q s t ∧ VecResult 1 f.rd.toNat (BitVec.allOnes 512)
        (fun i => if m.getLsbD i then velem (vreg r f.ra.toNat) i else velem (vreg r f.rb.toNat) i) r q)

/-- Tier 2, R148: VLOG, VCVT, VBC, VLUT and VEXT complete with their element results.
Where the spec leaves a reading or an order open it follows the model's choice (log entries 10, 22). -/
def Obligations.VectorConversions : Prop :=
  ∀ (s : State) (c : Nat) (e : Env) (f : Fields) (u : List Upset), Issues s c e → Readable u →
    let r := e.core.regs
    let m := preg r f.pm.toNat
    let ty := f.mod.toNat % 4
    let k := f.mod.toNat / 4 % 8
    let does : Instr → Nat → (Nat → Nat) → Prop := fun x ty g =>
      ∃ t q, exec x s = .next t ∧ OnlyRegs e u q s t ∧ VecResult ty f.rd.toNat m g r q
    let a := fun i => velem (vreg r f.ra.toNat) i
    let b := fun i => velem (vreg r f.rb.toNat) i
    (stray { mod := 0x1F, rd := true, ra := true, rb := true, pm := true } f = false → ty = 1 → k < 7 →
      does (.vlog c f u) 1 (fun i =>
        match k with
        | 0 => a i &&& b i | 1 => a i ||| b i | 2 => a i ^^^ b i | 3 => a i ^^^ 0xFFFF
        | 4 => a i <<< (b i % 16) | 5 => a i >>> (b i % 16)
        | _ => ((BitVec.ofNat 16 (a i)).sshiftRight (b i % 16)).toNat))
    ∧ (stray { mod := 0xF, rd := true, ra := true, pm := true } f = false → ty ≠ 3 → f.mod.toNat / 4 % 4 ≠ 3 → EvenIf ty [f.rd] →
      EvenIf (f.mod.toNat / 4 % 4) [f.ra] →
      does (.vcvt c f u) ty (fun i =>
        let x := elemOf (f.mod.toNat / 4 % 4) r f.ra.toNat i
        match f.mod.toNat / 4 % 4, ty with
        | 0, 2 => fcvt fmt16 fmt32 x
        | 2, 0 => fcvt fmt32 fmt16 x
        | 1, 0 => fofInt fmt16 (sgn 16 x)
        | 1, 2 => fofInt fmt32 (sgn 16 x)
        | 0, 1 => (ftoInt fmt16 (-32768) 32767 x % 65536).toNat
        | 2, 1 => (ftoInt fmt32 (-32768) 32767 x % 65536).toNat
        | _, _ => x))
    ∧ (stray { mod := 3, rd := true, ra := true, pm := true } f = false → ty ≠ 3 → EvenIf ty [f.rd] →
      does (.vbc c f u) ty (fun _ =>
        match ty with
        | 0 => fcvt fmt32 fmt16 (sreg r f.ra).toNat
        | 1 => (max (-32768) (min 32767 (sreg r f.ra).toInt) % 65536).toNat
        | _ => (sreg r f.ra).toNat))
    ∧ (stray { rd := true, ra := true, rb := true, pm := true } f = false →
      does (.vlut c f u) 1 (fun i => b (a i % 256)))
    ∧ (stray { mod := 1, rd := true, ra := true, pm := f.mod.getLsbD 0, imm := 0x1FF } f = false →
      (f.mod.getLsbD 0 = true → ∃ t q, exec (.vext c f u) s = .next t ∧ OnlyRegs e u q s t
          ∧ VecResult 1 f.rd.toNat m (fun i => if i = f.imm.toNat % 512 then (sreg r f.ra).toNat else velem (vreg r f.rd.toNat) i) r q)
      ∧ (f.mod.getLsbD 0 = false → ∃ t, exec (.vext c f u) s = .next t
          ∧ OnlyRegs e u (setS f.rd (BitVec.ofNat 32 (a (f.imm.toNat % 512))) r) s t))

/-- Tier 2, R92, R148: VRED gives s[RD] the pairwise tree over the masked-on elements: for INT16 the 32-bit sum, the largest or the
smallest of them, whatever the order; with no element on the value is left open (log entry 21). VCURVE evaluates the context's curve
IMM[3:0] on every masked-on element: the segment is the one the input lies in, held to 0 and 63.
Where the spec leaves a reading or an order open it follows the model's choice (log entries 10, 16, 21). -/
def Obligations.VectorReduceAndCurve : Prop :=
  (∀ (s : State) (c : Nat) (e : Env) (f : Fields) (u : List Upset), Issues s c e → Readable u →
    let r := e.core.regs
    let m := preg r f.pm.toNat
    let ty := f.mod.toNat % 4
    let k := f.mod.toNat / 4 % 8
    let on := (List.range 512).filter fun i => m.getLsbD i
    let x := fun i => sgn 16 (velem (vreg r f.ra.toNat) i)
    (stray { mod := 0x1F, rd := true, ra := true, pm := true } f = false → k < 3 → ty ≠ 3 → EvenIf ty [f.ra] →
      ∃ t v, exec (.vred c f u) s = .next t ∧ OnlyRegs e u (setS f.rd v r) s t
        ∧ (ty = 1 → on ≠ [] → (k = 0 → v = BitVec.ofInt 32 (on.map x).sum)
            ∧ (k = 1 → (∃ i ∈ on, v.toInt = x i) ∧ ∀ i ∈ on, x i ≤ v.toInt)
            ∧ (k = 2 → (∃ i ∈ on, v.toInt = x i) ∧ ∀ i ∈ on, v.toInt ≤ x i))
        ∧ (ty ≠ 1 → ∀ i, on = [i] → v.toNat = if ty = 0 then fcvt fmt16 fmt32 (velem (vreg r f.ra.toNat) i) else elemOf 2 r f.ra.toNat i))
    ∧ (stray { rd := true, ra := true, pm := true, imm := 0xF } f = false → ∀ cv, e.ctx.curves[f.imm.toNat % 16]? = some cv →
      ∃ t q o, exec (.vcurve c f u) s = .next t ∧ OnlyRegs e u q s t
        ∧ VecResult 0 f.rd.toNat m (fun i => curveAt cv o (velem (vreg r f.ra.toNat) i)) r q))
  ∧ ∀ (lo : Int) (w : Nat) (x : Int), 0 < w →
      (segment lo w x).1 ≤ 63 ∧ (segment lo w x).2 ≤ w
      ∧ (x < lo → segment lo w x = (0, 0)) ∧ (lo + 64 * w ≤ x → segment lo w x = (63, w))
      ∧ (lo ≤ x → x < lo + 64 * w → x = lo + (segment lo w x).1 * w + (segment lo w x).2 ∧ (segment lo w x).2 < w)

/-- Tier 2, R93, R108, R148: VLD gives the masked-on elements below EXT0 their little-endian bytes and the rest of the masked-on ones 0;
VST stores the masked-on elements below EXT0 and changes no other byte. -/
def Obligations.VectorMemory : Prop :=
  ∀ (s : State) (c : Nat) (e : Env) (f : Fields) (u : List Upset), Issues s c e → Readable u →
    let r := e.core.regs
    let m := preg r f.pm.toNat
    let ty := f.mod.toNat % 4
    let d := descOf (areg r f.aa)
    let w := if ty = 2 then 4 else 2
    ty ≠ 3 → Clean (descChecks f.aa.toNat d) → d.glob = false → d.e0 ≤ 512 → d.fmt = (if ty = 0 then 7 else if ty = 1 then 9 else 8) →
    e.res.carrelBase ≤ d.base → d.base + w * d.e0 ≤ e.res.carrelBase + 1024 * e.res.carrelKib →
    (stray { mod := 3, rd := true, aa := true, pm := true } f = false → EvenIf ty [f.rd] →
      Unblocked e [{ lo := d.base, n := d.e0 * w, wr := false }] →
      ∃ t q, exec (.vld c f u) s = .next t ∧ OnlyRegs e u q s t ∧ VecResult ty f.rd.toNat m
        (fun i => if i < d.e0 then
            (spaceByte s e false (d.base + w * i)).toNat + 2 ^ 8 * (spaceByte s e false (d.base + w * i + 1)).toNat
              + (if ty = 2 then 2 ^ 16 * (spaceByte s e false (d.base + w * i + 2)).toNat
                  + 2 ^ 24 * (spaceByte s e false (d.base + w * i + 3)).toNat else 0)
          else 0) r q)
    ∧ (stray { mod := 3, ra := true, aa := true, pm := true } f = false → EvenIf ty [f.ra] → memWf 0 e.core.carrel = true →
      Unblocked e [{ lo := d.base, n := d.e0 * w, wr := true }] →
      ∃ t l, exec (.vst c f u) s = .next t ∧ OnlyWrites e u false l r s t
        ∧ ∀ b old, byteAfter l b old = if d.base ≤ b ∧ b < d.base + w * d.e0 ∧ m.getLsbD ((b - d.base) / w)
            then BitVec.ofNat 8 (elemOf ty r f.ra.toNat ((b - d.base) / w) / 2 ^ (8 * ((b - d.base) % w))) else old)

/-- Tier 2, R36, R49, R65, R68, R69, R72, R74, R77, R84, R145: WLD loads the tile named by its descriptor into an engine or a half of it: whatever the
engine held is replaced (a half's load keeps the other half of a split engine), a column takes the cause of its first skewed block, an
empty block's data is not read, the residue store beside a cell holds its operand modulo 7 and 0 at and beyond the depth, and no accumulator,
register or carrel byte changes. A skewed block is reported. ACLR leaves the banks it names +0.0 and CLEAN and every other bank as it was.
Where the spec leaves a reading or an order open it follows the model's choice (log entries 14, 103). -/
def Obligations.TilesAndBanks : Prop :=
  ∀ (s : State) (c : Nat) (e : Env) (f : Fields) (u : List Upset), Issues s c e → Readable u →
    let r := e.core.regs
    let keeps : List Upset → State → Prop := fun u t =>
      regsAt t e.ph = { r with pc := r.pc + 16 } ∧ (∀ k, k ≠ e.ph → regsAt t k = regsAt s k ∧ KeepsStore (coreAt s k) (coreAt t k))
        ∧ (coreAt t e.ph).carrel = e.core.carrel ∧ (coreAt t e.ph).writes = e.core.writes ∧ (coreAt t e.ph).halo = e.core.halo
        ∧ (coreAt t e.ph).fault = e.core.fault ∧ OnlyCores u s t
    (let d := descOf (areg r f.ad)
     let eng := f.xf.toNat % 4
     let half := f.xf.toNat / 4 % 4
     stray { ad := true, xf := 0xF } f = false → (eng = 1 ∨ eng = 2) → half < 3 → Clean (descChecks f.ad.toNat d) →
     weightShapeBad d half = false → inShare e false d.base (spanBytes d) = true → inShare e false d.hbase (4 * weightHdrs d) = true →
     Unblocked e [{ lo := d.base, n := spanBytes d, wr := false }, { lo := d.hbase, n := 4 * weightHdrs d, wr := false }] →
     ∃ t, exec (.wld c f u) s = .next t ∧ keeps (if weightSkews s e u d = [] then u else [.corrected]) t
      ∧ engAt (coreAt t e.ph) (2 - eng) = engAt e.core (2 - eng)
      ∧ let g := engAt e.core (eng - 1)
        let g' := engAt (coreAt t e.ph) (eng - 1)
        let h := if half = 2 then g'.h1 else g'.h0
        let at0 := if half = 2 then 256 else 0
        g'.acc = g.acc ∧ g'.accState = g.accState ∧ g'.split = decide (half ≠ 0)
        ∧ h.loaded = true ∧ h.fmt = d.fmt ∧ h.depth = d.e0 ∧ h.width = d.e1 ∧ h.tscale = BitVec.ofNat 32 d.tscale
        ∧ (half = 0 → g'.h1 = { g'.h0 with condemned := g'.h1.condemned })
        ∧ (half = 1 → g.split = true → g'.h1 = g.h1) ∧ (half = 2 → g.split = true → g'.h0 = g.h0)
        ∧ (half = 1 → g.split = false → g'.h1.loaded = false) ∧ (half = 2 → g.split = false → g'.h0.loaded = false)
        ∧ g'.h0.condemned = g.h0.condemned ∧ g'.h1.condemned = g.h1.condemned
        ∧ ∀ j, j < d.e1 → (∀ b, b < rowBlocks d → weightSkew s e u d j b = 0) →
            colState g'.colPoison (at0 + j) = 0 ∧ ∀ b, b < rowBlocks d →
              let hd := hdrAt s e d (weightIndex d j b)
              let bs := blockAt s e d b j 0 0
              ∃ w, tfind g'.tile (8 * (at0 + j) + b) = some w ∧ w.hdr = BitVec.ofNat 32 hd
                ∧ (emptyHdr hd = true → w.codes = 0 ∧ w.residues = 0)
                ∧ (emptyHdr hd = false → w.codes = BitVec.ofNat 512 (leNat bs)
                    ∧ ∀ i, i < 64 → ∀ q, q < 2 →
                      let res : Nat := w.residues.toNat / 2 ^ (3 * (64 * q + i)) % 8
                      (d.e0 ≤ 64 * b + i → res = 0)
                      ∧ (64 * b + i < d.e0 → ∀ x, (feedsOf e.ctx.codebooks d.fmt hd (codeOf d.fmt bs i))[q]? = some x →
                          (res : Int) = x.op % 7)))
    ∧ (let mask := f.xf.toNat % 4
       let lo := f.xf.toNat / 4 % 4
       let hi := f.xf.toNat / 16 % 4
       stray { xf := 0x3F } f = false → mask ≠ 0 → lo ≤ hi → hi < e.prog.accBanks →
       ∃ t, exec (.aclr c ⟨f, u⟩) s = .next t ∧ keeps u t ∧ ∀ n, n < 2 → ∀ m,
         let g := engAt e.core n
         let g' := engAt (coreAt t e.ph) n
         let b := m / 128
         (nbit mask n = true → e.res.bankBase + lo ≤ b → b ≤ e.res.bankBase + hi →
            tget g'.acc 0 m = 0 ∧ tget g'.accState 0 m = 0)
         ∧ (nbit mask n = false ∨ b < e.res.bankBase + lo ∨ e.res.bankBase + hi < b →
            tget g'.acc 0 m = tget g.acc 0 m ∧ tget g'.accState 0 m = tget g.accState 0 m)
         ∧ g'.tile = g.tile ∧ g'.h0 = g.h0 ∧ g'.h1 = g.h1)

/-- Tier 2, R43 to R46, R49, R58, R59, R71, R86, R146: an MMA that meets no upset cell, sum or accumulator, and whose residue network finds no
fault, adds to entry ENT0 + v of every engine named, in column j, the block products of vector v with that column, in an order the spec leaves
open, each addition rounded to FP32; the entry takes the first cause its vector or column carries, a skipped vector writes nothing, and no
other entry or state changes; a skewed block is reported. An engine whose network finds a fault keeps its tile and is condemned, whole or in the
half of the column. On cells and residues as the loader left them the network finds no fault: every block sum and every significand product agrees
with the residues that go with its operands.
Where the spec leaves a reading or an order open it follows the model's choice (log entries 13, 103). -/
def Obligations.MmaAccumulates : Prop :=
  (∀ (s : State) (c : Nat) (e : Env) (f : Fields) (u : List Upset), Issues s c e → Readable u →
    (∀ x ∈ u, x = .corrected ∨ x = .refetched ∨ ∃ n, x = .skewCount n) →
    let r := e.core.regs
    let mask := f.xf.toNat % 4
    let win := f.mod.getLsbD 0
    let d := descOf (areg r f.aa)
    let ent0 := f.imm.toNat / 2 ^ 48 % 512
    let ow := f.imm.toNat / 2 ^ 16 % 2 ^ 16
    let oh := f.imm.toNat / 2 ^ 32 % 2 ^ 16
    let n := if win then ow * oh else d.e1 * d.e2 * d.e3
    let vs := vectors d win f.imm
    stray { mod := 1, aa := true, xf := 3, imm := if win then 0x01FFFFFFFFFFFFFF else 0x01FF000000000000 } f = false → mask ≠ 0 →
    (win = true → 1 ≤ ow ∧ ow ≤ 512 ∧ 1 ≤ oh ∧ oh ≤ 512) → ent0 + n ≤ 128 * e.prog.accBanks → Clean (descChecks f.aa.toNat d) →
    d.glob = false → d.rax3 = false → quantised d.fmt = true → (win = true → d.e3 = 1) →
    (∀ m, m < 2 → nbit mask m = true → mmaBad d (engAt e.core m) = false ∧ notLoaded (engAt e.core m) = false) →
    (∀ v ∈ vs, vecInShare e d v = true) → Unblocked e (spansOf d false) →
    ∃ t, exec (.mma c f u) s = .next t ∧ regsAt t e.ph = { r with pc := r.pc + 16 }
      ∧ (∀ k, k ≠ e.ph → regsAt t k = regsAt s k ∧ KeepsStore (coreAt s k) (coreAt t k))
      ∧ (coreAt t e.ph).carrel = e.core.carrel ∧ (coreAt t e.ph).writes = e.core.writes ∧ (coreAt t e.ph).halo = e.core.halo
      ∧ OnlyCores (if actSkews (vs.map (vecBlocks s e u d)) = [] then u else [.corrected]) s t
      ∧ ∀ m, m < 2 →
          let g := engAt e.core m
          let g' := engAt (coreAt t e.ph) m
          (nbit mask m = false → g' = g) ∧ g'.tile = g.tile ∧ g'.colPoison = g.colPoison ∧ g'.split = g.split
          ∧ (∀ j ∈ mmaFaults s e u d vs m g, nbit mask m = true → (if j < 256 then g'.h0 else g'.h1).condemned = true)
          ∧ (mmaFaults s e u d vs m g = [] → g'.h0 = g.h0 ∧ g'.h1 = g.h1 ∧
          (∀ k, (∀ v, v < n → vs[v]? ≠ some .skipped → k ≠ 128 * e.res.bankBase + ent0 + v) →
              tget g'.acc 0 k = tget g.acc 0 k ∧ tget g'.accState 0 k = tget g.accState 0 k)
          ∧ (nbit mask m = true → ∀ v src, vs[v]? = some src → src ≠ .skipped → ∀ j, j < 512 →
              let k := 128 * e.res.bankBase + ent0 + v
              let as := vecBlocks s e u d src
              (∃ l : List Nat, l.Perm (productsOf (columnFeed e.ctx.codebooks g j) (fun _ => {}) as)
                ∧ colVal (tget g'.acc 0 k) j = l.foldl (fadd fmt32) (colVal (tget g.acc 0 k) j) % 2 ^ 32)
              ∧ colState (tget g'.accState 0 k) j = joinState (colState (tget g.accState 0 k) j) (joinState (vecCause as) (columnCause g j)) % 8)))
  ∧ ∀ (cb : List Byte) (a : ABlock) (h : Half) (hd b : Nat) (bs : List Byte), h.fmt < 7 → (∀ l ∈ a.ops, ∀ x ∈ l, x.res = res7 x.op) →
      let w : WBlock := { hdr := BitVec.ofNat 32 hd, codes := BitVec.ofNat 512 (leNat bs)
                          residues := storeResidues cb h.fmt hd (h.depth - 64 * b) (codeOf h.fmt bs) }
      hd < 2 ^ 32 → bs.length = blockBytes h.fmt → pairBad a hd ((List.range 64).map (weightFeed cb h b w)) {} = false

/-- Tier 2, R81 to R83, R146: an MMAT that meets no upset cell, sum or accumulator, and whose residue network finds no fault, adds, for r below 128,
the products of row r of the
square-block tile over its 8 column blocks to column r of entry ENT0 + v; the columns from 128 on and every other entry stay.
Where the spec leaves a reading or an order open it follows the model's choice (log entries 13, 20, 103). -/
def Obligations.MmatAccumulates : Prop :=
  ∀ (s : State) (c : Nat) (e : Env) (f : Fields) (u : List Upset), Issues s c e → Readable u →
    (∀ x ∈ u, x = .corrected ∨ x = .refetched ∨ ∃ n, x = .skewCount n) →
    let r := e.core.regs
    let mask := f.xf.toNat % 4
    let d := descOf (areg r f.aa)
    let ent0 := f.imm.toNat / 2 ^ 48 % 512
    let n := d.e1 * d.e2 * d.e3
    let g := engAt e.core (mask - 1)
    let vs := vectors d false 0
    stray { aa := true, xf := 3, imm := 0x01FF000000000000 } f = false → (mask = 1 ∨ mask = 2) → ent0 + n ≤ 128 * e.prog.accBanks →
    Clean (descChecks f.aa.toNat d) → d.glob = false → d.rax3 = false → quantised d.fmt = true → d.e0 = 512 →
    g.split = false → g.h0.loaded = true → g.square = true → g.h0.fmt ≤ 2 →
    mmatFaults s e u d vs (mask - 1) g = [] → (∀ v ∈ vs, vecInShare e d v = true) → Unblocked e (spansOf d false) →
    ∃ t, exec (.mmat c f u) s = .next t ∧ regsAt t e.ph = { r with pc := r.pc + 16 } ∧ (coreAt t e.ph).carrel = e.core.carrel
      ∧ OnlyCores (if actSkews (vs.map (vecBlocks s e u d)) = [] then u else [.corrected]) s t ∧ engAt (coreAt t e.ph) (2 - mask) = engAt e.core (2 - mask)
      ∧ let g' := engAt (coreAt t e.ph) (mask - 1)
        g'.tile = g.tile ∧ g'.h0 = g.h0 ∧ g'.colPoison = g.colPoison
        ∧ (∀ k, (∀ v, v < n → k ≠ 128 * e.res.bankBase + ent0 + v) → tget g'.acc 0 k = tget g.acc 0 k)
        ∧ ∀ v src, vs[v]? = some src → ∀ j, j < 512 →
            let k := 128 * e.res.bankBase + ent0 + v
            let as := vecBlocks s e u d src
            (128 ≤ j → colVal (tget g'.acc 0 k) j = colVal (tget g.acc 0 k) j)
            ∧ (j < 128 → ∃ l : List Nat, l.Perm (productsOf (rowFeed e.ctx.codebooks g j) (fun _ => {}) as)
                ∧ colVal (tget g'.acc 0 k) j = l.foldl (fadd fmt32) (colVal (tget g.acc 0 k) j) % 2 ^ 32)

/-- Tier 2, R60, R74, R77, R79, R147: ADRN of entries none of which is poisoned writes, to the carrel rows or to a vector register, for every
column of its selection that lies within the recorded width, the entry's value times the product of the two per-tensor scales in the output
format; an entry that is poisoned ends the part with POISON, its cause and the place of the first one, and nothing of the destination is
written. It asks for no loaded tile.
Where the spec leaves a reading or an order open it follows the model's choice (log entries 14, 104). -/
def Obligations.AdrnDrains : Prop :=
  ∀ (s : State) (c : Nat) (e : Env) (f : Fields) (u : List Upset), Issues s c e → fetchLost u = false →
    (∀ x ∈ u, ∀ a b k, x ≠ .accumulator a b k) →
    let r := e.core.regs
    let eng := f.xf.toNat % 4
    let half := f.xf.toNat / 4 % 4
    let fmt := f.mod.toNat % 4
    let toV := f.mod.getLsbD 2
    let scaled := f.mod.getLsbD 3
    let d := descOf (areg r f.ad)
    let a := descOf (areg r f.aa)
    let ent0 := f.imm.toNat / 2 ^ 48 % 512
    let nent := f.imm.toNat % 1024
    let g := engAt e.core (eng - 1)
    let col0 := if half = 2 then 256 else 0
    let ps := (positions d).take nent
    let w : Nat := if fmt = 0 then 4 else 2
    let on : Nat → Bool := fun j => decide (j < if half = 0 then 512 else 256) && (toV || decide (j < d.e0))
      && (if g.split then decide ((col0 + j) % 256 < (if col0 + j < 256 then g.h0 else g.h1).width) else decide (col0 + j < g.h0.width))
    let state := fun i j => colState (tget g.accState 0 (128 * e.res.bankBase + ent0 + i)) (col0 + j)
    let out : Nat → Nat → Nat := fun i j =>
      let wt := if g.split = true ∧ 256 ≤ col0 + j then g.h1.tscale else g.h0.tscale
      let y := fmul fmt32 (colVal (tget g.acc 0 (128 * e.res.bankBase + ent0 + i)) (col0 + j))
        (fmul fmt32 (if scaled then a.tscale else 0x3F800000) wt.toNat)
      if fmt = 0 then y else if fmt = 1 then fcvt fmt32 fmt16 y else (ftoInt fmt32 (-32767) 32767 y % 65536).toNat
    stray { mod := 0xF, ad := !toV, rd := toV, aa := scaled, xf := 0xF, imm := 0x01FF0000000003FF } f = false →
    fmt ≠ 3 → (eng = 1 ∨ eng = 2) → half ≠ 3 → 1 ≤ nent → nent ≤ 512 → ent0 + nent ≤ 128 * e.prog.accBanks →
    (scaled = true → Clean (descChecks f.aa.toNat a)) →
    (toV = false → Clean (descChecks f.ad.toNat d) ∧ d.glob = false ∧ d.fmt = (if fmt = 0 then 8 else if fmt = 1 then 7 else 9)
      ∧ (∀ p ∈ ps, ∀ j, on j = true → inShare e false (rowAddr d p.1 p.2.1 p.2.2 + w * j) w = true) ∧ Unblocked e (spansOf d true)) →
    (toV = true → nent = 1 ∧ (fmt = 0 → f.rd.toNat % 2 = 0)) →
    ((∀ i, i < nent → ∀ j, on j = true → state i j = 0) →
      (toV = true → ∃ t q m, exec (.adrn c f u) s = .next t ∧ regsAt t e.ph = { q with pc := r.pc + 16 } ∧ OnlyCores u s t
          ∧ (coreAt t e.ph).carrel = e.core.carrel ∧ (∀ j, j < 512 → m.getLsbD j = on j)
          ∧ VecResult (if fmt = 0 then 2 else 1) f.rd.toNat m (out 0) r q)
      ∧ (toV = false → memWf 0 e.core.carrel = true → ∃ t, exec (.adrn c f u) s = .next t ∧ OnlyWrites e u false
          ((List.range ps.length).flatMap fun i =>
            let p := ps.getD i (0, 0, 0)
            ((List.range (if half = 0 then 512 else 256)).filter on).map fun j => (rowAddr d p.1 p.2.1 p.2.2 + w * j, leBytes w (out i j)))
          r s t))
    ∧ (∀ i j, i < nent → on j = true → state i j ≠ 0 →
      (∀ i' j', i' < nent → on j' = true → i' < i ∨ i' = i ∧ j' < j → state i' j' = 0) →
      e.core.halo = [] → ∃ t, exec (.adrn c f u) s = .next t ∧ (coreAt t e.ph).carrel = e.core.carrel ∧ ∃ x, (coreAt t e.ph).fault = some x
        ∧ x.address = r.pc ∧ x.detail.toNat % 256 = 0x03 ∧ x.detail.toNat / 256 % 256 = min 5 (state i j))

/-- Tier 2, R36, R51 to R55, R149, R150, Tables 2.1, 2.5 and 2.9: QNT writes, for every block of its one-row tensor, the codes of quantBlock
and a sealed header, and adds its counts to the job's counters; DQN gives every element TSCALE times the block's scale times its operand
in FP16, 0 beyond EXT0 and in an empty block, NaN in a block that fails its check, which it counts; STAT reads a counter and clears it by
MOD[0]. What QNT makes of one block. Every code fits its format; a block whose in-bounds elements are all zero has an empty header and
counts nothing but the collapse of inputs that were not zero; a division by the scale is rounded to nearest, ties to even.
Where the spec leaves a reading or an order open it follows the model's choice (log entries 15, 106). -/
def Obligations.Quantiser : Prop :=
  (∀ (s : State) (c : Nat) (e : Env) (f : Fields) (u : List Upset), Issues s c e → Readable u →
    let r := e.core.regs
    let m := preg r f.pm.toNat
    (let d := descOf (areg r f.ad)
     let block := f.mod.getLsbD 0
     let p := (sreg r f.rc).toNat
     let x := fun i => fdiv fmt32 (fcvt fmt16 fmt32 (velem (vreg r f.ra.toNat) i)) d.tscale
     let live := fun i => decide (i < d.e0) && m.getLsbD i
     let q := fun b => quantBlock e.ctx.codebooks d.fmt (if block then none else some ((sreg r f.rb).toNat, p % 256, p / 256 % 16))
       ((List.range 64).any fun i => live (64 * b + i) && velem (vreg r f.ra.toNat) (64 * b + i) % 2 ^ 15 != 0)
       ((List.range 64).map fun i => if live (64 * b + i) then some (x (64 * b + i)) else none)
     let sum := fun (g : QBlock → Nat) => ((List.range (rowBlocks d)).map fun b => g (q b)).sum
     stray { mod := 1, ad := true, ra := true, rb := !block, rc := !block, pm := true } f = false →
     (block = false → p < 4096 ∧ p % 256 ≤ zeroTop d.fmt) → (block = true → d.fmt ≠ 2 ∧ d.fmt ≠ 4 ∧ d.fmt ≠ 5) →
     Clean (descChecks f.ad.toNat d) → quantShapeBad d = false → tensorInShare e d = true → Unblocked e (spansOf d true) →
     memWf 0 e.core.carrel = true →
     ∃ t, exec (.qnt c f u) s = .next t ∧ OnlyWrites e u false
       ((List.range (rowBlocks d)).flatMap fun b => [(d.base + b * blockBytes d.fmt, packCodes d.fmt (q b).codes),
          (hdrAddr d b, leBytes 4 (sealHdr (expTag d b) (q b).body))])
       { r with q := { r.q with sat := satInc r.q.sat (sum (·.sat)), coll := satInc r.q.coll (sum (·.coll)),
                                sclamp := satInc r.q.sclamp (sum (·.sclamp)), nonfin := satInc r.q.nonfin (sum (·.nonfin)) } } s t)
    ∧ (let d := descOf (areg r f.aa)
       let b := fun n => actBlock s e u d n 0 0 0
       stray { rd := true, aa := true } f = false → Clean (descChecks f.aa.toNat d) → quantShapeBad d = false →
       tensorInShare e d = true → Unblocked e (spansOf d false) →
       ∃ t q, exec (.dqn c f u) s = .next t ∧ OnlyRegs e u q s t ∧ q.s = r.s ∧ q.a = r.a ∧ q.p = r.p
        ∧ (∀ n, n ≠ f.rd.toNat → vreg q n = vreg r n)
        ∧ q.q = { r.q with dqskew := satInc r.q.dqskew ((List.range (rowBlocks d)).filter fun n => (b n).cause != 0).length }
        ∧ ∀ i, i < 512 → velem (vreg q f.rd.toNat) i =
            if 64 * rowBlocks d ≤ i then 0
            else if (b (i / 64)).cause ≠ 0 then 0x7E00
            else if d.e0 ≤ i ∨ emptyHdr (b (i / 64)).h = true then 0
            else dequant d.tscale (b (i / 64)).h (feedVal ((b (i / 64)).ops.getD (i % 64) [])) % 65536)
    ∧ (let k := f.xf.toNat % 8
       stray { mod := 1, rd := true, xf := 7 } f = false → k < 5 →
       ∃ t, exec (.stat c ⟨f, u⟩) s = .next t ∧ OnlyRegs e u (setS f.rd (readQ r.q k)
         { r with q := if f.mod.getLsbD 0 then clearQ r.q k else r.q }) s t))
  ∧ ((∀ (cb : List Byte) (fmt : Nat) (par : Option (Nat × Nat × Nat)) (nz : Bool) (xs : List (Option Nat)), fmt < 7 →
      (quantBlock cb fmt par nz xs).codes.length = xs.length
      ∧ ((∀ x ∈ xs.filterMap id, x % 2 ^ 31 = 0) → (quantBlock cb fmt par nz xs).body = 0 ∧ (quantBlock cb fmt par nz xs).sat = 0
          ∧ (quantBlock cb fmt par nz xs).coll = (if nz then 1 else 0) ∧ (quantBlock cb fmt par nz xs).sclamp = 0
          ∧ (quantBlock cb fmt par nz xs).nonfin = 0)
      ∧ (∀ z k sc x, z ≤ zeroTop fmt → (codeElem cb fmt z k sc x).code < 2 ^ elemBits fmt))
  ∧ (∀ p q, 0 < q → 2 * (p - q * rneQuot p q) ≤ q ∧ 2 * (q * rneQuot p q - p) ≤ q
      ∧ (2 * (p % q) = q → rneQuot p q % 2 = 0))
  ∧ (∀ up x, (clampScale up x).1 < 256 ∧ 8 ≤ (clampScale up x).1)
  ∧ (∀ q k n, k < 5 → readQ (bumpQ q k n) k = satInc (readQ q k) n ∧ readQ (clearQ q k) k = 0
      ∧ ∀ j, j < 5 → j ≠ k → readQ (bumpQ q k n) j = readQ q j ∧ readQ (clearQ q k) j = readQ q j))

/-- Tier 2, R113 to R118, R152: SEMW with a count that covers it takes n, adds n to its job's net holding and writes 0; with t = 0 and no
cover it writes 1 and takes nothing; otherwise its sequencer waits with the instruction not complete; SEMW_TIMEOUT ends a wait with 1 and
takes nothing. SEMS of an own-cluster semaphore with no waiter in the cluster adds n and lowers its job's holding, and publishes the
core's writes to the cluster. A FENCE with no HXCH queued completes. At CORE scope nothing is published; at CLUSTER scope the core's
writes enter its cluster's stacks, where every core of the cluster reads them; at DEVICE scope the stacks are empty too: what they held
stands in DRAM, unless its line is poisoned or its channel has failed, and no other cluster keeps an older copy of it. No register but the
instruction offset changes.
Where the spec leaves a reading or an order open it follows the model's choice (log entries 12, 18). -/
def Obligations.SemaphoresAndFences : Prop :=
  ((∀ (s : State) (c : Nat) (e : Env) (f : Fields) (u : List Upset), Issues s c e → fetchLost u = false →
    let r := e.core.regs
    let n := f.imm.toNat % 2 ^ 16
    let wait := f.imm.toNat / 2 ^ 24 % 2 ^ 24
    let k := f.xf.toNat % 256
    let sem := e.res.semBase + k
    let cl := cluAt s (c / 4)
    let have' := tget cl.sems 0 sem
    (stray { rd := true, xf := 0xFF, imm := 0x0000FFFFFF00FFFF } f = false → n ≠ 0 → k < e.prog.nsem →
      (n ≤ have' → ∃ t, exec (.semw c ⟨f, u⟩) s = .next t ∧ regsAt t e.ph = { setS f.rd 0 r with pc := r.pc + 16 }
          ∧ tget (cluAt t (c / 4)).sems 0 sem = have' - n
          ∧ heldBy (cluAt t (c / 4)) sem e.part.job = heldBy cl sem e.part.job + n
          ∧ (∀ x y, (x, y) ≠ (sem, e.part.job) → heldBy (cluAt t (c / 4)) x y = heldBy cl x y)
          ∧ (∀ j, j ≠ sem → tget (cluAt t (c / 4)).sems 0 j = tget cl.sems 0 j)
          ∧ (∀ j, j ≠ c / 4 → cluAt t j = cluAt s j) ∧ (∀ j, KeepsStore (coreAt s j) (coreAt t j))
          ∧ t = { s with cores := t.cores, clusters := t.clusters, islands := t.islands, err := t.err, host := t.host } ∧ Reports u s t)
      ∧ (have' < n → wait = 0 → ∃ t, exec (.semw c ⟨f, u⟩) s = .next t ∧ OnlyRegs e u (setS f.rd 1 r) s t)
      ∧ (have' < n → wait ≠ 0 → ∃ t, exec (.semw c ⟨f, u⟩) s = .next t
          ∧ (coreAt t e.ph).part = some { e.part with wait := .semw sem n f.rd.toNat } ∧ regsAt t e.ph = r
          ∧ OnlyCores u s t ∧ ∀ j, KeepsStore (coreAt s j) (coreAt t j)))
    ∧ (let m := f.imm.toNat % 2 ^ 16
       stray { mod := 1, xf := 0xFF, imm := 0xFFFF } f = false → f.mod.getLsbD 0 = false → m ≠ 0 → k < e.prog.nsem →
       e.core.halo = [] → e.part.dead = false → have' + m ≤ 65535 →
       (∀ i, i < 5 → ∀ p, (coreAt s (5 * (c / 4) + i)).part = some p → ∀ a b d, p.wait ≠ .semw a b d) →
       ∃ t, exec (.sems c ⟨f, u⟩) s = .next t ∧ regsAt t e.ph = { r with pc := r.pc + 16 }
        ∧ tget (cluAt t (c / 4)).sems 0 sem = have' + m
        ∧ heldBy (cluAt t (c / 4)) sem e.part.job = heldBy cl sem e.part.job - m
        ∧ (∀ x y, (x, y) ≠ (sem, e.part.job) → heldBy (cluAt t (c / 4)) x y = heldBy cl x y)
        ∧ (∀ j, j ≠ sem → tget (cluAt t (c / 4)).sems 0 j = tget cl.sems 0 j)
        ∧ (coreAt t e.ph).writes = [] ∧ (coreAt t e.ph).carrel = e.core.carrel
        ∧ t = { s with free := t.free, cores := t.cores, clusters := t.clusters, islands := t.islands, err := t.err, host := t.host }
        ∧ Reports u s t))
  ∧ ∀ (s : State) (c : Nat) (e : Env) (p : Part) (sem n rd : Nat), waitingEnv s c = some e → (coreAt s e.ph).part = some p →
      p.wait = .semw sem n rd →
      ∃ t, exec (.semwTimeout c) s = .next t
        ∧ regsAt t e.ph = { setS (BitVec.ofNat 5 rd) 1 (regsAt s e.ph) with pc := (regsAt s e.ph).pc + 16 }
        ∧ t = { s with cores := t.cores, islands := t.islands } ∧ ∀ j, KeepsStore (coreAt s j) (coreAt t j))
  ∧ (∀ (s : State) (c : Nat) (e : Env) (f : Fields) (u : List Upset), Issues s c e → fetchLost u = false →
    stray { mod := 3 } f = false → e.core.halo = [] →
    let r := e.core.regs
    let cl := c / 4
    (∀ k, f.mod.toNat % 4 = k → k < 3 → ∃ t, exec (.fence c ⟨f, u⟩) s = .next t ∧ regsAt t e.ph = { r with pc := r.pc + 16 }
      ∧ (∀ j, j ≠ e.ph → regsAt t j = regsAt s j ∧ KeepsStore (coreAt s j) (coreAt t j)) ∧ (coreAt t e.ph).carrel = e.core.carrel
      ∧ t = { s with cores := t.cores, clusters := t.clusters, islands := t.islands, mem := t.mem, err := t.err, host := t.host }
      ∧ Reports u s t
      ∧ (∀ j, j ≠ cl → (k < 2 → cluAt t j = cluAt s j) ∧ cluAt t j = { cluAt s j with stackLines := (cluAt t j).stackLines })
      ∧ (k = 0 → (coreAt t e.ph).writes = e.core.writes ∧ cluAt t cl = cluAt s cl ∧ t.mem = s.mem)
      ∧ (k = 1 → (coreAt t e.ph).writes = [] ∧ t.mem = s.mem ∧ (rising e.core.writes = true →
          ∀ a, tfind (cluAt t cl).stackLines a = (tfind e.core.writes a).or (tfind (cluAt s cl).stackLines a)))
      ∧ (k = 2 → (coreAt t e.ph).writes = [] ∧ (cluAt t cl).stackLines = []
          ∧ (rising e.core.writes = true → rising (cluAt s cl).stackLines = true →
              let out := fun a => (tfind e.core.writes a).or (tfind (cluAt s cl).stackLines a)
              (∀ j, j ≠ cl → ∀ a, tfind (cluAt t j).stackLines a = if (out a).isSome then none else tfind (cluAt s j).stackLines a)
              ∧ (memWf 0 s.mem.dram = true → (∀ m, (tget s.mem.channels {} m).poison = [] ∧ (tget s.mem.channels {} m).failed = false) →
                  ∀ a, dramByte t a = (out a).getD (dramByte s a))))))

/-- Tier 2, R120 to R124, R152, R174: TAKE gives s[RD] the tally's value and adds its step, holding at all ones; CLAIM of a FREE or RELEASED
key wins it for this part and writes 1, of a key WON or COMMITTED writes 0 and changes nothing, so the first of two wins; one beyond the
program's CLAIMS raises CLAIM_LIMIT; one of a key whose COMMIT still copies waits; a presumed-dead part, or one whose job is gone, wins none and
writes 0.
Where the spec leaves a reading or an order open it follows the model's choice (log entries 18, 23). -/
def Obligations.TalliesAndClaims : Prop :=
  ∀ (s : State) (c : Nat) (e : Env) (f : Fields) (u : List Upset), Issues s c e → fetchLost u = false →
    let r := e.core.regs
    (let d := f.imm.toNat % 2 ^ 16
     let k := f.xf.toNat % 64
     let other := f.mod.getLsbD 0
     let cl := if other then f.xf.toNat / 256 % 8 else c / 4
     ∀ res, residencyOf s cl e.part.ctx = some res → d ≠ 0 → k < e.prog.ntally →
     stray { mod := 1, rd := true, xf := if other then 0x73F else 0x3F, imm := 0xFFFF } f = false →
     let v := tget (cluAt s cl).tallies 0 (res.tallyBase + k)
     ∃ t, exec (.take c ⟨f, u⟩) s = .next t ∧ regsAt t e.ph = { setS f.rd v r with pc := r.pc + 16 }
      ∧ (tget (cluAt t cl).tallies 0 (res.tallyBase + k)).toNat = min (v.toNat + d) 0xFFFFFFFF
      ∧ (∀ i, i ≠ res.tallyBase + k → tget (cluAt t cl).tallies 0 i = tget (cluAt s cl).tallies 0 i)
      ∧ (∀ i, i ≠ cl → cluAt t i = cluAt s i) ∧ cluAt t cl = { cluAt s cl with tallies := (cluAt t cl).tallies }
      ∧ (∀ i, KeepsStore (coreAt s i) (coreAt t i)) ∧ t = { s with cores := t.cores, clusters := t.clusters, islands := t.islands, err := t.err, host := t.host } ∧ Reports u s t)
    ∧ (∀ j, jobOf s e.part.job = some j → stray { rd := true, ra := true, imm := 0xFFFFFFFF } f = false → e.part.dead = false →
       let key := sreg r f.ra + f.imm.extractLsb' 0 32
       let n := frameNumber s j
       let was := (claimAt s j.ctx n key).map (·.state)
       (was = none ∨ was = some .released → e.part.claims < e.prog.claims →
          ∃ t, exec (.claim c ⟨f, u⟩) s = .next t ∧ regsAt t e.ph = { setS f.rd 1 r with pc := r.pc + 16 }
            ∧ (claimAt t j.ctx n key).map (·.state) = some (.won e.part.job e.part.started)
            ∧ (∀ x y k, (x, y, k) ≠ (j.ctx, n, key) → claimAt t x y k = claimAt s x y k)
            ∧ (∀ i, KeepsStore (coreAt s i) (coreAt t i)) ∧ t = { s with cores := t.cores, claims := t.claims, islands := t.islands, err := t.err, host := t.host } ∧ Reports u s t)
       ∧ (was = none ∨ was = some .released → e.prog.claims ≤ e.part.claims → e.core.halo = [] →
          ∃ t, exec (.claim c ⟨f, u⟩) s = .next t ∧ (coreAt t e.ph).part = none ∧ (coreAt t e.ph).fault = some { address := r.pc, detail := 0x0007 }
            ∧ (coreAt t e.ph).carrel = e.core.carrel)
       ∧ ((∃ a b, was = some (.won a b)) ∨ was = some .committed → ∃ t, exec (.claim c ⟨f, u⟩) s = .next t ∧ OnlyRegs e u (setS f.rd 0 r) s t)
       ∧ ((∃ a b, was = some (.publishing a b)) → ∃ t, exec (.claim c ⟨f, u⟩) s = .next t ∧ OnlyCores u s t ∧ ∀ i, regsAt t i = regsAt s i))
    ∧ (stray { rd := true, ra := true, imm := 0xFFFFFFFF } f = false → e.part.dead = true ∨ jobOf s e.part.job = none →
       ∃ t, exec (.claim c ⟨f, u⟩) s = .next t ∧ OnlyRegs e u (setS f.rd 0 r) s t)

/-- Tier 2, R114, R122, R123: a COMMIT of a claim that this part has WON makes it COMMITTED and publishes its range at CLUSTER or DEVICE
scope: the core reads the copied bytes there, in the stacks or in DRAM, and at DEVICE scope no cluster keeps an older copy; a COMMIT of
any other claim, or of a part whose job is gone, writes nothing and goes on.
Where the spec leaves a reading or an order open it follows the model's choice (log entries 12, 18). -/
def Obligations.CommitPublishes : Prop :=
  ∀ (s : State) (c : Nat) (e : Env) (f : Fields) (u : List Upset), Issues s c e → Readable u →
    let r := e.core.regs
    let d := descOf (areg r f.ad)
    let t := descOf (areg r f.aa)
    let key := sreg r f.ra + f.imm.extractLsb' 0 32
    stray { mod := 1, ra := true, ad := true, aa := true, imm := 0xFFFFFFFF } f = false →
    Clean (descChecks f.ad.toNat d) → Clean (descChecks f.aa.toNat t) → shapeOk false d t = true → d.glob = true → t.glob = false →
    tensorInShare e d = true → tensorInShare e t = true → (∀ q ∈ tensorRanges d, importsMeeting s e.part.ctx q.1 q.2 = []) →
    Unblocked e (spansOf t false) →
    (∀ j, jobOf s e.part.job = some j →
      let n := frameNumber s j
      let won := (claimAt s j.ctx n key).map (·.state) = some (.won e.part.job e.part.started) ∧ e.part.dead = false
    (won → ChannelsFit s → rising e.core.writes = true → rising (cluAt s (c / 4)).stackLines = true → memWf 0 s.mem.dram = true →
      (∀ m, (tget s.mem.channels {} m).poison = [] ∧ (tget s.mem.channels {} m).failed = false) →
      ∃ v, exec (.commit c f u) s = .next v ∧ regsAt v e.ph = { r with pc := r.pc + 16 }
        ∧ (claimAt v j.ctx n key).map (·.state) = some .committed
        ∧ (∀ x y k, (x, y, k) ≠ (j.ctx, n, key) → claimAt v x y k = claimAt s x y k)
        ∧ (coreAt v e.ph).carrel = e.core.carrel ∧ (∀ i, i ≠ e.ph → KeepsStore (coreAt s i) (coreAt v i))
        ∧ (∀ b k, globalKey s e b = some k → Alone s e b →
            let byte := byteAfter (copyWrites e.ctx.codebooks (spaceByte s e false) u false d t) b (spaceByte s e true b)
            spaceByte v e true b = byte
              ∧ (f.mod.getLsbD 0 = true → byte ≠ spaceByte s e true b → dramByte v k = byte ∧ ∀ i, tfind (cluAt v i).stackLines k = none)))
    ∧ (¬ won → ∃ v, exec (.commit c f u) s = .next v ∧ OnlyRegs e u r s v))
    ∧ (jobOf s e.part.job = none → ∃ v, exec (.commit c f u) s = .next v ∧ OnlyRegs e u r s v)

/-- Tier 2, R153, R409, R410: PROOF on engines that no upset hits writes 0, leaves the bank it names clear and the engines without a
tile, their recorded widths and TSCALEs as they were; RSDCHK writes how many columns failed to report, 0 without a disabled column.
Where the spec leaves a reading or an order open it follows the model's choice (log entries 2, 104). -/
def Obligations.ProofAndResidueCheck : Prop :=
  ∀ (s : State) (c : Nat) (e : Env) (f : Fields) (u : List Upset), Issues s c e → fetchLost u = false →
    let r := e.core.regs
    let mask := f.xf.toNat % 4
    let bank := f.xf.toNat / 4 % 4
    (stray { rd := true, xf := 0xF } f = false → mask ≠ 0 → bank < e.prog.accBanks →
      (∀ n, n < 2 → nbit mask n = true → hitsEngine u n = false) →
      ∃ t, exec (.proof c f u) s = .next t ∧ regsAt t e.ph = { setS f.rd 0 r with pc := r.pc + 16 } ∧ OnlyCores u s t
        ∧ (coreAt t e.ph).carrel = e.core.carrel
        ∧ ∀ n, n < 2 →
          let g := engAt e.core n
          let g' := engAt (coreAt t e.ph) n
          (nbit mask n = false → g' = g)
          ∧ (nbit mask n = true → g'.h0 = { g.h0 with loaded := false } ∧ g'.h1 = { g.h1 with loaded := false } ∧ g'.tile = [] ∧ g'.colPoison = 0
              ∧ g'.split = g.split
              ∧ ∀ m, if m / 128 = e.res.bankBase + bank then tget g'.acc 0 m = 0 ∧ tget g'.accState 0 m = 0
                     else tget g'.acc 0 m = tget g.acc 0 m ∧ tget g'.accState 0 m = tget g.accState 0 m))
    ∧ (stray { rd := true, xf := 3 } f = false → mask ≠ 0 →
      ∃ t, exec (.rsdchk c f u) s = .next t ∧ OnlyRegs e u (setS f.rd (BitVec.ofNat 32
        (u.filter fun x => match x with | .residue g _ col => nbit mask g && decide (col < 512) | _ => false).length) r) s t)

/-- Tier 2, R235, R236, R286, Table 9.4: a PPC call whose partition is served in this slot completes: s[RD] takes the number of boxes
kept, the records that the list has room for stand at AD, 32 bytes each, and every other byte of that space stays; a call of a partition
that this slot does not serve waits. Suppression keeps at most MAXKEEP boxes, each one of the list, and no kept box overlaps an earlier one
beyond the limit.
Where the spec leaves a reading or an order open it follows the model's choice (log entries 5, 17). -/
def Obligations.PostProcessing : Prop :=
  (∀ (s : State) (c : Nat) (e : Env) (f : Fields) (u : List Upset), Issues s c e → Readable u →
    let r := e.core.regs
    let fn := f.mod.toNat % 4
    let a := descOf (areg r f.aa)
    let d := descOf (areg r f.ad)
    let k := f.imm.toNat % 256
    let cl := cluAt s (c / 4)
    let l := ppcList s e f
    stray { mod := 3, rd := true, aa := true, ad := true, imm := 0xFF } f = false → fn ≠ 3 → k < e.ctx.boxes.length →
    Clean (descChecks f.ad.toNat d) → inShare e d.glob d.base (spanBytes d) = true → d.glob = false →
    (fn ≠ 1 → Clean (descChecks f.aa.toNat a) ∧ a.fmt = 7 ∧ headInShare e a (boxTab (e.ctx.boxes.getD k [])) = true
      ∧ (a.glob = true → ∀ q ∈ tensorRanges a, importsMeeting s e.part.ctx q.1 q.2 = [])) →
    Unblocked e (spansOf d true ++ (if fn = 1 then [] else spansOf a false)) →
    (cl.calls = [] → slotFor (ppShares s) cl.slot [e.ctx.part] = some e.ctx.part → memWf 0 e.core.carrel = true →
      ∃ t, exec (.ppc c f u) s = .next t ∧ regsAt t e.ph = { setS f.rd (BitVec.ofNat 32 l.length) r with pc := r.pc + 16 }
        ∧ (∀ b, spaceByte t e false b = byteAfter ((List.range (min l.length (spanBytes d / 32))).map fun n =>
            (d.base + 32 * n, ((l[n]?).map candBytes).getD [])) b (spaceByte s e false b))
        ∧ t.claims = s.claims ∧ t.jobs = s.jobs ∧ t.mem = s.mem ∧ t.clusters = s.clusters)
    ∧ (slotFor (ppShares s) cl.slot (e.ctx.part :: cl.calls.map (·.part)) ≠ some e.ctx.part →
      ∃ t, exec (.ppc c f u) s = .next t ∧ (coreAt t e.ph).part = some { e.part with wait := .ppc } ∧ regsAt t e.ph = r
        ∧ (cluAt t (c / 4)).calls = cl.calls ++ [{ core := c, part := e.ctx.part, f := f }]
        ∧ ∀ b, spaceByte t e false b = spaceByte s e false b))
  ∧ ∀ (t : BoxTab) (n : Nat) (l : List Cand), (suppress t n l).length ≤ n ∧ (suppress t n l).Sublist l
      ∧ (suppress t n l).Pairwise fun x y => ¬ ((t.agnostic = true ∨ y.cls = x.cls) ∧ flt fmt32 t.iouTh (iou x y) = true)

/-- Tier 2, R103, R118, R124, R409: END with no HXCH queued ends the part: it leaves its core, and none of its claims stays WON. While
other parts of its job run, the job only notes that this one has ended; the last part of an ADAPT job ends the job and counts the
stream's adaptation.
Where the spec leaves a reading or an order open it follows the model's choice (log entries 94). -/
def Obligations.EndOfAPart : Prop :=
  ∀ (s : State) (c : Nat) (e : Env) (f : Fields) (u : List Upset) (j : Job), Issues s c e → stray {} f = false → e.core.halo = [] →
    jobOf s e.part.job = some j → e.part.dead = false → e.prog.bands < 2 → e.ctx.part ≠ 0 →
    fetchLost u = false → e.core.testDue = false →
    ∃ t, exec (.endPart c f u) s = .next t ∧ (coreAt t e.ph).part = none
      ∧ (∀ k ∈ t.claims, k.state ≠ .won e.part.job e.part.started)
      ∧ (j.ended.length + 1 ≠ e.prog.gang →
          t.jobs = (s.jobs.map fun k => if k.id = e.part.job then { k with ended := k.ended ++ [e.part.idx] } else k)
          ∧ t.streams = s.streams ∧ ∀ i, i ≠ e.ph → regsAt t i = regsAt s i)
      ∧ (j.ended.length + 1 = e.prog.gang → j.role = 4 → hasHolding s j.id = false → banded s j = false →
          jobOf t j.id = none ∧ (strm t j.stream).adapt = min ((strm s j.stream).adapt + 1) 65535)

/-- Tier 2, R125, R126, R128, R129, Tables 5.2 and 5.3: an instruction with a non-zero IMM bit that it does not use is ILLEGAL: with no HXCH
queued the core's part ends, and its fault record holds the instruction's address and cause 0x02.
Where the spec leaves a reading or an order open it follows the model's choice (log entries 14). -/
def Obligations.StrayBitsAreIllegal : Prop :=
  ∀ p ∈ aethodTable, p.1 ∉ [(0x02 : BitVec 8), 0x03, 0x04, 0x21] →
    ∀ (s : State) (c : Nat) (e : Env) (f : Fields), Issues s c e → f.imm.getLsbD 63 = true → e.core.halo = [] →
      ∃ t, exec (p.2 c f) s = .next t ∧ (coreAt t e.ph).part = none
        ∧ (coreAt t e.ph).fault = some { address := e.core.regs.pc, detail := 0x0201 }
        ∧ (coreAt t e.ph).carrel = e.core.carrel

/-- Tier 2, R103 to R105, R277, R289, Table 4.2: JOB_START of an eligible job at the head of a queue on free cores starts every part of it:
s1 to s6 hold stream, frame number, part, core, share base and attempt, every other scalar and vector 0, every mask all ones, the program's
banks clear, no tile held, and the part stands at ENTRY; the program's tallies take their initial values and its semaphores 0.
Where the spec leaves a reading or an order open it follows the model's choice (log entries 19, 25). -/
def Obligations.JobStartEntersParts : Prop :=
  ∀ (s : State) (j : Job) (d : Ctx) (g : Prog) (res : Residency) (cores : List Nat), ready s = true →
    jobOf s j.id = some j → ctxAt s j.ctx = some d → jobProg s j = some g → banded s j = false → eligible s j = true →
    mayStart s j g cores = true → (∃ q ∈ cores, j.state = .queued q ∧ (firstEligible s q).map (·.id) = some j.id) →
    residencyOf s (cores.headD 0 / 4) j.ctx = some res → (cores.filterMap (servedBy s)).Nodup →
    ∃ t, exec (.jobStart (.queued j.id) cores) s = .next t
      ∧ ((jobOf t j.id).map fun k => (k.state, k.cores, k.ended, k.cluster)) = some (.running, cores, [], cores.headD 0 / 4)
      ∧ (∀ i, i < g.ntally → tget (cluAt t (cores.headD 0 / 4)).tallies 0 (res.tallyBase + i) = g.tallyInit.getD i 0)
      ∧ (∀ i, i < g.nsem → tget (cluAt t (cores.headD 0 / 4)).sems 0 (res.semBase + i) = 0)
      ∧ (∀ ph, ph ∉ cores.filterMap (servedBy s) → coreAt t ph = coreAt s ph)
      ∧ ∀ i c ph, cores[i]? = some c → servedBy s c = some ph →
          let k := coreAt t ph
          let w : Nat → Word := BitVec.ofNat 32
          (∃ p, k.part = some p ∧ p.job = j.id ∧ p.idx = i ∧ p.ctx = j.ctx ∧ p.prog = j.prog ∧ p.wait = .none ∧ p.claims = 0 ∧ p.dead = false)
          ∧ k.regs.pc = g.entry ∧ k.fault = none ∧ k.regs.q = {}
          ∧ (∀ n, sreg k.regs n = match n.toNat with
              | 1 => w j.stream | 2 => w (((frameOf s j.stream j.frame).bind (·.num)).getD 0) | 3 => w i | 4 => w c | 5 => w res.carrelBase
              | 6 => w (min j.attempt 1) | _ => 0)
          ∧ (∀ n, vreg k.regs n = 0) ∧ (∀ n, preg k.regs n = BitVec.allOnes 512) ∧ (∀ n, areg k.regs n = 0)
          ∧ (∀ n, n < 2 → (engAt k n).h0.loaded = false ∧ (engAt k n).h1.loaded = false ∧ (engAt k n).tile = []
              ∧ ∀ m, res.bankBase ≤ m / 128 → m / 128 < res.bankBase + g.accBanks →
                  tget (engAt k n).acc 0 m = 0 ∧ tget (engAt k n).accState 0 m = 0)

/-- Tier 2, R281, R291, R295, R296: STEAL moves the first stealable job of the longest queue of the nearest clusters that have one (the free
core's own, the others of its die, the other die) to the free core's queue, and changes no other job. EVICTION takes the slot of the residency
blocked longest of a partition other than 0 whose residencies
are all blocked while a context waits, and keeps its share and every other residency; EVICTION_DONE frees the slot for the waiting
context.
Where the spec leaves a reading or an order open it follows the model's choice (log entries 19). -/
def Obligations.StealAndEviction : Prop :=
  (∀ (s : State) (c q : Nat) (j : Job), ready s = true → queueLen s c = 0 → coreFree s (partOfCore s c) c = true →
    let mine := fun (k : Nat) => k ∈ coresIn s (partOfCore s c) ∧ k ≠ c
    let far := fun (k : Nat) => if k / 4 = c / 4 then 0 else if k / 16 = c / 16 then 1 else 2
    mine q → stealable s c q = some j →
    (∀ k, mine k → k ≠ q → (stealable s c k).isSome → far q < far k ∨ (far q = far k ∧ queueLen s k < queueLen s q)) →
    queueLen s q < 2 ^ 32 →
    ∃ t, exec (.steal c) s = .next t
      ∧ t.jobs = s.jobs.map (fun k => if k.id = j.id then { k with state := .queued c, cluster := c / 4 } else k)
      ∧ t.cores = s.cores ∧ t.streams = s.streams ∧ t.ctxs = s.ctxs)
  ∧ ((∀ (s : State) (cl p : Nat) (w : Nat) (slot : Nat) (r : Residency), ready s = true → p ≠ 0 → cl < 8 → (cluAt s cl).evicting = none →
      let mine := (cluAt s cl).residencies.filter fun x => x.2.part == p
      (slot, r) ∈ mine → (partAt s p).slots.getD cl 0 ≤ mine.length → (∀ x ∈ mine, residencyBlocked s cl x.2.ctx = true) →
      (waitingCtxs s p cl).head? = some w → rising (cluAt s cl).residencies = true →
      (∀ x ∈ mine, x ≠ (slot, r) → r.blockedAt < x.2.blockedAt) → r.carrelKib < 2 ^ 16 → r.ctx < 2 ^ 16 →
      (∀ x ∈ mine, x.2.carrelKib < 2 ^ 16 ∧ x.2.ctx < 2 ^ 16) →
      ∃ t, exec (.eviction cl p) s = .next t ∧ (cluAt t cl).evicting = some (slot, r.ctx, w)
        ∧ tfind (cluAt t cl).residencies slot = none
        ∧ (∀ k, k ≠ slot → tfind (cluAt t cl).residencies k = tfind (cluAt s cl).residencies k)
        ∧ (∀ i, (strm t i).home = if (strm s i).ctx = r.ctx ∧ (strm s i).home = some cl then none else (strm s i).home))
  ∧ (∀ (s : State) (p cl : Nat), p = 0 → exec (.eviction cl p) s = .next s)
  ∧ (∀ (s : State) (cl slot old w : Nat) (d : Ctx), ready s = true → (cluAt s cl).evicting = some (slot, old, w) → ctxAt s w = some d →
      progsOf d 1 = [] → ∀ n r, fitResidency { s with clusters := tset s.clusters cl { cluAt s cl with evicting := none } } w d cl = some (n, r) →
      ∃ t, exec (.evictionDone cl) s = .next t ∧ (cluAt t cl).evicting = none
        ∧ (tfind (cluAt t cl).residencies n).map (fun x => (x.ctx, x.carrelBase, x.carrelKib, x.bankBase)) = some (w, r.carrelBase, r.carrelKib, r.bankBase)))

/-- Tier 2, R119, R170, R292 to R294: a PREEMPT whose victim holds nothing sets it aside with its registers and tiles, at once where nothing is
queued, else once what is queued has completed, and fences a victim that holds; it queues the pre-emptor there. A save that is done marks it,
writes the vector registers into the save area and changes no carrel byte outside it; PART_RESUME puts the part back with its registers, tiles
and condemnations while the accumulators stay in place; the hold limit aborts a fenced part's job.
Where the spec leaves a reading or an order open it follows the model's choice (log entries 19, 26). -/
def Obligations.PreemptionKeepsParts : Prop :=
  (∀ (s : State) (j : Job) (d : Ctx) (g : Prog) (cl q c ph : Nat) (v : Part), ready s = true → jobOf s j.id = some j →
      ctxAt s j.ctx = some d → jobProg s j = some g → g.gang = 1 → j.state = .queued q → eligible s j = true → preempting s j.id = false →
      (residentClusters s j.ctx).filter (fun k => (cluAt s k).inService && (!banded s j || k == j.cluster)) = [cl] →
      (∀ k ∈ coresInClu s d.part cl, coreFree s d.part k = false) →
      (victims s d.part cl (prioKey j.role j.prio)).head? = some (ph, v) →
      (coresInClu s d.part cl).find? (fun k => servedBy s k == some ph) = some c → (coreAt s ph).part = some v →
      let holds := hasHolding s v.job || hasCredit s v.job
      ∃ t, exec (.preempt j.id) s = .next t
        ∧ KeepsStore (coreAt s ph) (coreAt t ph) ∧ regsAt t ph = regsAt s ph ∧ (∀ k, k ≠ ph → coreAt t k = coreAt s k)
        ∧ (jobOf t j.id).map (fun k => (k.state, k.cluster)) = some (.queued c, cl)
        ∧ (holds = true → (coreAt t ph).part = some { v with fenced := some j.id } ∧ (coreAt t ph).saved = (coreAt s ph).saved)
        ∧ (holds = false → atBoundary (coreAt s ph) = false →
            (coreAt t ph).part = some { v with fenced := none, halted := some j.id } ∧ (coreAt t ph).saved = (coreAt s ph).saved)
        ∧ (holds = false → atBoundary (coreAt s ph) = true → (coreAt t ph).part = none ∧ (coreAt t ph).saved =
            { part := { v with wait := .none, fenced := none, halted := none }, regs := (coreAt s ph).regs, e0 := (coreAt s ph).e0,
              e1 := (coreAt s ph).e1, byJob := j.id } :: (coreAt s ph).saved))
  ∧ (∀ (s : State) (c ph : Nat) (v : Saved) (res : Residency), ready s = true → servedBy s c = some ph →
      (coreAt s ph).saved.find? (fun w => !w.done) = some v → residencyOf s (c / 4) v.part.ctx = some res → jobOf s v.byJob = none →
      memWf 0 (coreAt s ph).carrel = true →
      ∃ t, exec (.preemptSaveDone c) s = .next t
        ∧ (coreAt t ph).saved = (coreAt s ph).saved.map (fun w => if w.part.started = v.part.started then { w with done := true } else w)
        ∧ (coreAt t ph).part = (coreAt s ph).part ∧ regsAt t ph = regsAt s ph
        ∧ memWf 0 (coreAt t ph).carrel = true
        ∧ (139264 ≤ res.carrelBase + 1024 * res.carrelKib → ∀ n i, n < 32 → i < 1024 →
            memGet 0 (coreAt t ph).carrel (res.carrelBase + 1024 * res.carrelKib - 40960 + 1024 * n + i) = (vreg v.regs n).extractLsb' (8 * i) 8)
        ∧ ∀ b, (b < res.carrelBase + 1024 * res.carrelKib - 139264 ∨ res.carrelBase + 1024 * res.carrelKib ≤ b) →
            139264 ≤ res.carrelBase + 1024 * res.carrelKib → memGet 0 (coreAt t ph).carrel b = memGet 0 (coreAt s ph).carrel b)
  ∧ (∀ (s : State) (c ph : Nat) (v : Saved), ready s = true → servedBy s c = some ph → (coreAt s ph).saved = [v] → v.done = true →
      (coreAt s ph).part = none → (coreAt s ph).inSlot = false → s.pwr.stopped.contains ph = false → firstEligible s c = none →
      (coreAt s ph).wiped = false →
      ∃ t, exec (.partResume c) s = .next t ∧ (coreAt t ph).part = some v.part ∧ regsAt t ph = v.regs ∧ (coreAt t ph).saved = []
        ∧ (coreAt t ph).e0 = { v.e0 with
            acc := (coreAt s ph).e0.acc, accState := (coreAt s ph).e0.accState, accCheck := (coreAt s ph).e0.accCheck }
        ∧ (coreAt t ph).e1 = { v.e1 with
            acc := (coreAt s ph).e1.acc, accState := (coreAt s ph).e1.accState, accCheck := (coreAt s ph).e1.accCheck }
        ∧ (coreAt t ph).carrel = (coreAt s ph).carrel ∧ ∀ k, k ≠ ph → coreAt t k = coreAt s k)
  ∧ (∀ (s : State) (c ph : Nat) (p : Part), ready s = true → servedBy s c = some ph → (coreAt s ph).part = some p → p.fenced.isSome = true →
      ∃ t, exec (.holdLimitExpiry c) s = .next t ∧ jobOf t p.job = none ∧ ((jobOf s p.job).isSome → ∀ k ∈ t.claims, ∀ i, k.state ≠ .won p.job i))

/-- Tier 2, R16, R87 to R89, R286, R396, R397: CORE_MOVE of a core queued for test begins the copy to the spare, and gives a logical core that
left service a repaired spare, with nothing copied; CARREL_COPY_DONE makes the spare serve the logical core with the copied carrel: zeros from a
wiped or unreadable core and in every line that reads uncorrectable; a poll of a core that answers in time changes nothing of the core,
one silent for 1,000,000 steward cycles presumes its part dead; a steward's watchdog clears its semaphores, tallies and stacks and leaves
it no started job, and withdraws the cluster at a second expiry; a slot's end moves the round of 64 slots on.
Where the spec leaves a reading or an order open it follows the model's choice (log entries 19, 23, 99). -/
def Obligations.StewardRules : Prop :=
  (∀ (s : State) (c ph sp : Nat), ready s = true → servedBy s c = some ph → (cluAt s (c / 4)).spare = some sp → (coreAt s ph).part = none →
      (coreAt s ph).inSlot = false → (cluAt s (c / 4)).moving = none → (cluAt s (c / 4)).standin = none → (cluAt s (c / 4)).testing = none →
      (coreAt s ph).health = .queued → (coreAt s ph).saved = [] →
      ∃ t, exec (.coreMove c) s = .next t ∧ (cluAt t (c / 4)).moving = some (c % 4, ph, 5 * (c / 4) + sp) ∧ servedBy t c = some ph
        ∧ (coreAt t ph).carrel = (coreAt s ph).carrel ∧ (coreAt t ph).writes = [])
  ∧ (∀ (s : State) (c sp : Nat), ready s = true → c < 32 → servedBy s c = none → (cluAt s (c / 4)).inService = true → sp < 5 →
      (cluAt s (c / 4)).spare = some sp → (cluAt s (c / 4)).moving = none → (cluAt s (c / 4)).standin = none → (cluAt s (c / 4)).testing = none →
      ∃ t, exec (.coreMove c) s = .next t ∧ servedBy t c = some (5 * (c / 4) + sp) ∧ (cluAt t (c / 4)).standin = some (c % 4)
        ∧ (coreAt t (5 * (c / 4) + sp)).carrel = [] ∧ ∀ k, k ≠ 5 * (c / 4) + sp → coreAt t k = coreAt s k)
  ∧ (∀ (s : State) (c old new : Nat) (unreadable : Bool) (lost : List Nat), ready s = true → (cluAt s (c / 4)).moving = some (c % 4, old, new) → c < 32 → old ≠ new →
      5 * (c / 4) ≤ new → new < 5 * (c / 4) + 5 → (cluAt s (c / 4)).inService = true →
      ∃ t, exec (.carrelCopyDone ⟨c, unreadable, lost⟩) s = .next t ∧ servedBy t c = some new ∧ (cluAt t (c / 4)).moving = none
        ∧ (cluAt t (c / 4)).standin = some (c % 4)
        ∧ (∀ b, memGet 0 (coreAt t new).carrel b = if (coreAt s old).wiped = true ∨ unreadable = true ∨ b / 64 ∈ lost then 0
            else memGet 0 (coreAt s old).carrel b)
        ∧ regsAt t new = {} ∧ (coreAt t new).e0 = {} ∧ (coreAt t new).e1 = {} ∧ ∀ k, k ≠ new → k ≠ old → coreAt t k = coreAt s k)
  ∧ (∀ (s : State) (c ph : Nat) (p : Part), ready s = true → servedBy s c = some ph → (coreAt s ph).part = some p → p.dead = false →
      (∀ n, n < 25000000 → (∀ r ∈ s.fab.remotes, r.core ≠ ph) → exec (.stewardPoll c (.answered n)) s = .next s)
      ∧ (∀ n, 1000000 ≤ n → ∃ t, exec (.stewardPoll c (.silent n)) s = .next t ∧ t = presumeDead c ph p s
          ∧ (jobOf s p.job = none → (coreAt t ph).part = some { p with dead := true, wait := .none } ∧ (coreAt t ph).carrel = (coreAt s ph).carrel)))
  ∧ (∀ (s : State) (cl : Nat), ready s = true → cl < 8 → (cluAt s cl).inService = true →
      (∃ t, exec (.stewardWatchdog cl false) s = .next t ∧ (cluAt t cl).sems = [] ∧ (cluAt t cl).holdings = [] ∧ (cluAt t cl).tallies = []
        ∧ (cluAt t cl).stackLines = [] ∧ (cluAt t cl).batches = [] ∧ (cluAt t cl).inService = true
        ∧ (cluAt t cl).expiries = (cluAt s cl).expiries + 1 ∧ (∀ j ∈ t.jobs, j.cluster = cl → j ∈ s.jobs → j.state = .waiting)
        ∧ ∀ i, (strm s i).home = some cl → (strm t i).archive.valid = [])
      ∧ (1 ≤ (cluAt s cl).expiries → ∃ t, exec (.stewardWatchdog cl true) s = .next t ∧ (cluAt t cl).inService = false
          ∧ ∀ c, c / 4 = cl → servedBy t c = none))
  ∧ (∀ (s : State), ready s = true →
      (∀ cl, cl < 8 → (cluAt s cl).calls = [] → ∃ t, exec (.slotEnd (.post cl)) s = .next t
        ∧ cluAt t cl = { cluAt s cl with slot := ((cluAt s cl).slot + 1) % 64, calls := [] } ∧ (∀ k, k ≠ cl → cluAt t k = cluAt s k)
        ∧ t = { s with clusters := t.clusters })
      ∧ ∃ t, exec (.slotEnd .cellar) s = .next t ∧ t.mem.slot = (s.mem.slot + 1) % 64)

/-- Tier 2, R66, R67, R88, R412 to R414, R418, R445, R451: IN_SERVICE_TEST_START takes a core whose logical identity a stand-in holds, at level 0,
under
test and opens its census; a queued media core with another of its partition in service is withdrawn for its test. IN_SERVICE_TEST_END
makes a core that passes the cluster's spare, retires one that failed or that its spares cannot repair, records a repair, and reports each with a
TEST event. A test slot
starts on an idle core of partition 0 and destroys its accumulators and weights; its end counts it, and a mismatch makes SAFE_OK not-OK at
once, sets every clean count back, counts TESTFAIL and queues the core; an interval that ends with fewer than 25 slots counts TESTLATE and
queues the core.
Where the spec leaves a reading or an order open it follows the model's choice (log entries 66, 102). -/
def Obligations.TestsInService : Prop :=
  ((∀ (s : State) (ph n : Nat), ready s = true → ph < 40 → outForTest s ph = some n → (cluAt s (ph / 5)).inService = true →
      (cluAt s (ph / 5)).testing = none → s.pwr.level = 0 →
      ∃ t, exec (.inServiceTestStart (.core ph)) s = .next t ∧ (coreAt t ph).health = .underTest
        ∧ (cluAt t (ph / 5)).testing = some (ph % 5) ∧ (tget t.islands {} ph).censusKind = 3
        ∧ (∀ k, k ≠ ph → coreAt t k = coreAt s k) ∧ t.jobs = s.jobs ∧ t.streams = s.streams)
  ∧ (∀ (s : State) (n p : Nat), ready s = true → n < 32 → (mediaAt s n).state = 0 → (mediaAt s n).testQueued = true → s.pwr.level = 0 →
      (List.range 4).find? (fun p => (partAt s p).present && nbit (partAt s p).media n) = some p →
      (mediaIn s p).filter (· != n) ≠ [] →
      ∃ t, exec (.inServiceTestStart (.media n)) s = .next t ∧ (mediaAt t n).state = 3 ∧ (tget t.islands {} (48 + n)).censusKind = 3
        ∧ ∀ k, k ≠ n → mediaAt t k = mediaAt s k)
  ∧ (∀ (s : State) (ph : Nat) (o : TestOutcome), ready s = true → ph < 40 → (cluAt s (ph / 5)).testing = some (ph % 5) →
      ∃ t, exec (.inServiceTestEnd (.core ph) o) s = .next t ∧ (cluAt t (ph / 5)).testing = none ∧ (coreAt t ph).carrel = []
        ∧ (fnAt t 0).eventSeq = (fnAt s 0).eventSeq + 1 ∧ t.err.cnt = s.err.cnt
        ∧ (let k := match o with | .repaired x => takeEntries [x] ph (coreAt s ph) | _ => coreAt s ph
           ((coreAt t ph).bad0, (coreAt t ph).bad1, (coreAt t ph).sramFixes) = (k.bad0, k.bad1, k.sramFixes)
           ∧ (o = .retired ∨ beyondRepair k = true → (coreAt t ph).health = .withdrawn ∧ (cluAt t (ph / 5)).spare = none
                ∧ (cluAt t (ph / 5)).standin = (cluAt s (ph / 5)).standin)
           ∧ (o ≠ .retired → beyondRepair k = false → (coreAt t ph).health = .inService ∧ (cluAt t (ph / 5)).standin = none
                ∧ (cluAt t (ph / 5)).spare = some (ph % 5)))
        ∧ (∀ x, o = .repaired x → t.nv.record = some { seq := (s.nv.record.getD {}).seq + 1,
                                                       entries := ((s.nv.record.getD {}).entries ++ [x]).take 512 })
        ∧ ((∀ x, o ≠ .repaired x) → t.nv = s.nv))
  ∧ (∀ (s : State) (n : Nat) (o : TestOutcome), ready s = true → n < 32 → (mediaAt s n).state = 3 →
      ∃ t, exec (.inServiceTestEnd (.media n) o) s = .next t ∧ (mediaAt t n).state = (if o = .retired then 2 else 0)
        ∧ (mediaAt t n).testQueued = false ∧ ∀ k, k ≠ n → mediaAt t k = mediaAt s k))
  ∧ ((∀ (s : State) (c ph : Nat), ready s = true → s.pwr.level < 4 → c < 32 → servedBy s c = some ph → partOfCore s c = 0 →
      (coreAt s ph).part = none → (coreAt s ph).saved = [] → (coreAt s ph).inSlot = false → s.pwr.stopped.contains ph = false →
      (cluAt s (c / 4)).moving = none → (∀ j ∈ s.jobs, j.state ≠ .queued c) → pictureNear s c = false →
      ∃ t, exec (.testSlotStart c false) s = .next t ∧ (coreAt t ph).inSlot = true ∧ (coreAt t ph).e0 = {} ∧ (coreAt t ph).e1 = {}
        ∧ (coreAt t ph).carrel = (coreAt s ph).carrel ∧ (∀ k, k ≠ ph → coreAt t k = coreAt s k) ∧ t = { s with cores := t.cores })
  ∧ (∀ (s : State) (c ph : Nat), ready s = true → servedBy s c = some ph → (coreAt s ph).inSlot = true → (s.jobs.map (·.id)).Nodup →
      (coreAt s ph).part = none →
      (∃ t, exec (.testSlotEnd c false) s = .next t ∧ (coreAt t ph).inSlot = false
        ∧ (coreAt t ph).slots = min ((coreAt s ph).slots + 1) 25 ∧ t = { s with cores := t.cores })
      ∧ ∃ t, exec (.testSlotEnd c true) s = .next t ∧ t.saf.ok = false ∧ t.saf.lineA = (if s.saf.ok then false else s.saf.lineA)
        ∧ t.saf.testfail = satInc s.saf.testfail ∧ (∀ n, (tget t.saf.watches {} n).clean = 0)
        ∧ ((coreAt s ph).health = .inService → (coreAt t ph).health = .queued) ∧ (∀ j ∈ t.jobs, j ∈ s.jobs → j.state ≠ .queued c))
  ∧ (∀ (s : State) (c ph : Nat), ready s = true → servedBy s c = some ph → partOfCore s c = 0 → s.saf.held = false →
      (coreAt s ph).part = none → (coreAt s ph).testDue = false →
      ∃ t, exec (.testIntervalExpiry c) s = .next t ∧ (coreAt t ph).slots = 0
        ∧ ((coreAt s ph).slots = 25 → t.saf = s.saf ∧ (coreAt t ph).health = (coreAt s ph).health)
        ∧ ((coreAt s ph).slots < 25 → t.saf.testlate = satInc s.saf.testlate
            ∧ ((coreAt s ph).health = .inService → (coreAt t ph).health = .queued))))

/-- Tier 2, R142, R238 to R241, R288: a crop joins its program's open batch in the order of arrival, gathered from the sampled positions of its
bins, and its frame holds it as out; a slot with a source block that fails its check, or whose source is poisoned, is corrupt and is filled with
empty blocks; a batch that reaches TARGET, or whose window expires, issues as a job of the highest priority of its crops' streams whose mask
marks the corrupt slots invalid.
Where the spec leaves a reading or an order open it follows the model's choice (log entries 31, 88). -/
def Obligations.BatchesFillAndIssue : Prop :=
  (∀ (s : State) (cl ctx prog id num : Nat) (k : Crop) (c : Ctx) (g : Prog) (b : Batcher) (f : Frame) (x : Batch), ready s = true → cl < 8 →
      (residencyOf s cl ctx).isSome → ctxAt s ctx = some c → c.progs[prog]? = some g → g.role = 1 → c.batchers[g.aux]? = some b →
      (strm s id).frames.find? (fun f => f.num == some num) = some f → f.ctx = ctx → f.result = none → f.stage = .jobs →
      (∀ y ∈ f.crops, y.prog ≠ prog) →
      (cluAt s cl).batches = [x] → x.ctx = ctx → x.prog = prog → x.slots.length + 1 < b.target → OwnOrders s id →
      ∃ t, exec (.batchCropArrival cl ctx prog id num [k]) s = .next t
        ∧ (frameOf t id f.order).map (·.crops) = some (f.crops ++ [{ prog := prog, cand := 0 }])
        ∧ (cluAt t cl).batches = [{ x with slots := x.slots ++ [{ stream := id, frame := f.order, cand := 0,
                                                                   corrupt := (gather s cl ctx c b k).2 || x.buf.isNone }] }]
        ∧ t.jobs = s.jobs)
  ∧ (∀ (s : State) (cl ctx : Nat) (c : Ctx) (b : Batcher) (k : Crop),
      let d := layerDesc ctx b
      let l := (binsOf ctx b k).flatMap (binBlocks s cl c d)
      (binsOf ctx b k).length = b.rh * b.rw ∧ (gather s cl ctx c b k).1.length = l.length
      ∧ ((gather s cl ctx c b k).2 = false → (gather s cl ctx c b k).1 = l.map (fun y => (y.1, y.2.1))
          ∧ (quantised d.fmt = true → ∀ y ∈ l, skewOf y.2.1 y.2.2 false = none))
      ∧ ((gather s cl ctx c b k).2 = true → ∀ y ∈ (gather s cl ctx c b k).1, emptyHdr y.2 = true ∧ ∀ z ∈ y.1, z = 0))
  ∧ (∀ (s : State) (cl ctx prog : Nat) (x : Batch) (first : BatchSlot), ready s = true → cl < 8 →
      (cluAt s cl).batches.find? (fun b => b.ctx == ctx && b.prog == prog) = some x → x.slots.head? = some first →
      (∀ j ∈ s.jobs, j.id ≠ s.order) → (∀ d, ctxAt s ctx = some d → ((d.progs[prog]?).map (·.bands)).getD 1 < 2) →
      ∃ t, exec (.batchWindowExpiry cl ctx prog) s = .next t
        ∧ (∀ b ∈ (cluAt t cl).batches, ¬ (b.ctx = ctx ∧ b.prog = prog))
        ∧ ∃ j, jobOf t s.order = some j ∧ j.role = 1 ∧ j.ctx = x.ctx ∧ j.prog = x.prog ∧ j.buf = x.buf
          ∧ j.frames = x.slots.map (fun y => (y.stream, y.frame)) ∧ j.mask = x.slots.map (fun y => !y.corrupt) ∧ j.cands = x.slots.map (·.cand)
          ∧ (∀ y ∈ x.slots, (strm s y.stream).prio ≤ j.prio))
  ∧ ∀ (a b : Word) (k n size : Nat), 0 < size → sampleAt a b k n size < size

/-- Tier 2, R242, R246 to R248: a TRACKER_STEP of the stream's next analysed frame finishes its result with the zone set in force. A track
keeps its id and a new one takes the next; with the tracker state lost no earlier track lives on. No frame but that one gets a result.
Where the spec leaves a reading or an order open it follows the model's choice (log entries 32, 87). -/
def Obligations.TrackerSteps : Prop :=
  ∀ (s : State) (id entry : Nat) (dets : List Det) (lost : Bool) (f : Frame) (c : Ctx), ready s = true →
    trackerFrame (strm s id) = some f → ctxAt s f.ctx = some c → c.tracker ≠ [] →
    (∀ g ∈ (strm s id).frames, ∀ h ∈ (strm s id).frames, g.order = h.order → g = h) →
    ∃ t, exec (.trackerStep id entry dets lost) s = .next t ∧ (strm t id).trackPts = some f.pts
      ∧ (∃ g, frameOf t id f.order = some g ∧ g.stage = .finished ∧ g.zset = some (strm s id).zones
          ∧ (g.result = some .folio ∨ g.result = some (.gap 4)) ∧ g.recs.length ≤ 1024)
      ∧ (strm s id).nextTrack ≤ (strm t id).nextTrack
      ∧ (∀ k ∈ (strm t id).tracks, (lost = false ∧ f.resChange = false ∧ ∃ k0 ∈ (strm s id).tracks, k0.id = k.id)
            ∨ (strm s id).nextTrack ≤ k.id ∧ k.id < (strm t id).nextTrack)
      ∧ (∀ o, o ≠ f.order → (frameOf t id o).map (·.result) = (frameOf s id o).map (·.result))
      ∧ ∀ i, i ≠ id → strm t i = strm s i

/-- Tier 2, R121, R247, R250, R253, R254, R387, R388, R395, R408, R418: FOLIO_COMMIT of the next finished frame of a stream seals it in order. A gap
folio
gives every Spigot binding of its stream a new sequence, count 0 and stale; a gap of a watched stream makes SAFE_OK not-OK and sets its
clean count back, a folio in time with agreeing checks raises it; a frame of an unwatched stream changes no safety register but the words
of its bindings. The frame's claims end with its seal, and the tracks of the stream with a gap folio of a RESCHANGE picture. REORDER_STALL_LIMIT
gives the oldest unsealed frame of a stream, while a later one holds a result, its own: a
ready-tensor frame gets LOST_INPUT, any other ABORTED unless it has a result by then; with no later result nothing happens.
Where the spec leaves a reading or an order open it follows the model's choice (log entries 33, 84, 93). -/
def Obligations.CommitsAndStalls : Prop :=
  (∀ (s : State) (id cycle : Nat) (f : Frame), ready s = true → s.pwr.level < 4 → nextCommit (strm s id) = some f →
    sentinelHolds s id f = false → sentinelJobs s id f.order = [] → (strm s id).closing = none → (strm s id).state = .running →
    s.host.linkLost = false → s.saf.held = false →
    (∀ g ∈ (strm s id).frames, ∀ h ∈ (strm s id).frames, g.order = h.order → g = h) →
    let word := fun (t : State) i => (zoneWord t i).toNat
    let kept := fun (g : Frame) => { g with resChange := false, trackReset := false }
    let gap := ∃ r, f.result = some (.gap r)
    (watched s id = false → ∃ t, exec (.folioCommit id cycle) s = .next t ∧ (strm t id).sealedNum = f.num
        ∧ (frameOf t id f.order).map (fun g => (g.sealed, g.num, g.result)) = some (true, f.num, f.result)
        ∧ (∀ g, g ≠ f.order → (frameOf t id g).map kept = (frameOf s id g).map kept)
        ∧ (gap → f.resChange = true → (strm t id).tracks = []) ∧ (∀ k ∈ t.claims, k ∈ s.claims ∧ (k.stream = id → f.num ≠ some k.frame))
        ∧ t.saf = { s.saf with zones := t.saf.zones }
        ∧ (gap → (s.saf.bound.map (·.1)).Nodup → ∀ b ∈ s.saf.bound, b.2.1 = id →
            word t b.1 / 65536 = (word s b.1 / 65536 + 1) % 256 ∧ word t b.1 % 256 = 0 ∧ nbit (word t b.1) 10 = true)
        ∧ ∀ i, (∀ b ∈ s.saf.bound, b.1 = i → b.2.1 ≠ id) → zoneWord t i = zoneWord s i)
    ∧ (watched s id = true → gap → ∃ t, exec (.folioCommit id cycle) s = .next t ∧ t.saf.ok = false ∧ (strm t id).sealedNum = f.num
        ∧ ∀ n, (tget s.saf.watches {} n).stream = id → (tfind s.saf.watches n).isSome → (tget t.saf.watches {} n).clean = 0)
    ∧ (∀ n, watched s id = true → watchOf s id = some n → f.result = some .folio → disagrees s id f = false → f.proofBad = false →
        cycle - f.admitted ≤ 200 * (tget s.saf.watches {} n).budget →
        (∀ k, (tget s.saf.watches {} k).en = true → (tget s.saf.watches {} k).stream = id → k = n) → rising s.saf.watches = true →
        ∃ t, exec (.folioCommit id cycle) s = .next t ∧ (tget t.saf.watches {} n).clean = (tget s.saf.watches {} n).clean + 1
          ∧ (s.saf.ok = true → t.saf.ok = true) ∧ (t.saf.ok = true → s.saf.ok = true ∨ s.saf.arm = true)))
  ∧ (∀ (s : State) (id : Nat) (f : Frame), ready s = true → oldestFrame (strm s id) = some f → f.result = none →
    (∀ g ∈ (strm s id).frames, ∀ h ∈ (strm s id).frames, g.order = h.order → g = h) →
    ((strm s id).frames.any (fun g => g.order != f.order && !g.sealed && g.result.isSome) = true →
      ∃ t, exec (.reorderStallLimit id) s = .next t
        ∧ (f.stage = .tensors → (frameOf t id f.order).map (fun g => (g.result, g.stage)) = some (some (.gap 1), .finished) ∧ t.jobs = s.jobs)
        ∧ (f.stage ≠ .tensors → s.jobs = [] →
            (frameOf t id f.order).map (fun g => (g.result, g.stage)) = some (some (.gap 8), .finished)))
    ∧ ((strm s id).frames.any (fun g => g.order != f.order && !g.sealed && g.result.isSome) = false →
        exec (.reorderStallLimit id) s = .next s))

/-- Tier 2, R254, R337, R338, R348, R349: FOLIO_DELIVERY of a stream's oldest sealed folio, the first of its ring, writes its bytes with the
SEAL into the ring's area, one entry with PHASE at the device's index, moves that index on by one, and the frame leaves the device.
Where the spec leaves a reading or an order open it follows the model's choice (log entries 33, 75). -/
def Obligations.FolioDeliveries : Prop :=
  ∀ (s : State) (id : Nat) (f : Frame) (off : Nat), running s = true → s.host.linkUp = true → s.host.linkLost = false →
    leastBy (fun g : Frame => g.sealOrder) ((strm s id).frames.filter (·.sealed)) = some f →
    let r := ringAt s f.ring
    let b := folioOf id f
    r.enable = true → r.kind = 2 → r.full = false → (firstOnRing s f.ring).any (fun p => p.1 == id && p.2.order == f.order) = true →
    areaOffset r b.length = some off → memWf 0 s.host.mem = true →
    (∀ p n q, f.folioPtr = some p → poolSpanning s (strm s id).part p = some (n, q) → q.starts p = true) →
    ∃ t, exec (.folioDelivery id) s = .next t ∧ frameOf t id f.order = none
      ∧ (ringAt t f.ring).tail = (r.tail + 1) % r.size ∧ (ringAt t f.ring).head = r.head
      ∧ (ringAt t f.ring).phase = (if (r.tail + 1) % r.size = 0 then !r.phase else r.phase)
      ∧ (∀ i, i < 63 → memGet 0 t.host.mem (r.base.toNat + 64 * r.tail + i) = (folioEntry id f off b.length).getD i 0)
      ∧ memGet 0 t.host.mem (r.base.toNat + 64 * r.tail + 63) = (if r.phase then 1 else 0)
      ∧ (r.area.toNat + off + b.length ≤ r.base.toNat + 64 * r.tail ∨ r.base.toNat + 64 * r.tail + 64 ≤ r.area.toNat + off →
          ∀ i, i < b.length → memGet 0 t.host.mem (r.area.toNat + off + i) = b.getD i 0)
      ∧ (∀ x, (x < r.area.toNat + off ∨ r.area.toNat + off + b.length ≤ x) →
          (x < r.base.toNat + 64 * r.tail ∨ r.base.toNat + 64 * r.tail + 64 ≤ x) → memGet 0 t.host.mem x = memGet 0 s.host.mem x)
      ∧ off + b.length ≤ max (r.areaSz * 65536) b.length

/-- Tier 2, R319 to R326, R331: a draw in its partition's slot that the reservations allow hands one free buffer to the owner, else it changes no
pool; a return by the holder frees the buffer, any other is rejected and counted with the pools as they were; a reclaim frees a quarantined
buffer; a rebuild enters what is lost again and ends.
Where the spec leaves a reading or an order open it follows the model's choice (log entries 27, 28, 85). -/
def Obligations.CellarRules : Prop :=
  ∀ (s : State) (n : Nat) (q : Pool), upAt s nocIsland = true → poolAt s n = some q →
    (∀ o, slotFor (celShares s) s.mem.slot [q.part] = some q.part →
      (∀ c, mayDraw q o = true → pickPtr q (ownerFn s o) = some c → q.cache.Nodup → ∃ t q', exec (.cellarDraw n o false) s = .next t
          ∧ poolAt t n = some q' ∧ q'.held = q.held ++ [(c.1, o, ownerFn s o)] ∧ q'.free + 1 = q.free
          ∧ (∀ x ∈ q'.cache ++ q'.store, x ∈ q.cache ++ q.store) ∧ (∀ k, k ≠ n → poolAt t k = poolAt s k))
      ∧ (mayDraw q o = false → exec (.cellarDraw n o false) s = .next s))
    ∧ (∀ o, slotFor (celShares s) s.mem.slot [q.part] ≠ some q.part → ∃ t, exec (.cellarDraw n o false) s = .next t
        ∧ t = { s with mem := { s.mem with waiting := s.mem.waiting ++ [(n, o)] } })
    ∧ (∀ o ptr, poolSpanning s q.part ptr = some (n, q) →
      (∀ h, q.starts ptr = true → q.held.find? (fun h => h.1 == ptr && h.2.1 == o) = some h → q.reserves ≠ [] → q.bad = false → ∃ t q',
          exec (.cellarReturn q.part ptr o) s = .next t ∧ poolAt t n = some q' ∧ q'.held = q.held.filter (fun g => g.1 != ptr)
          ∧ q'.free = q.free + 1 ∧ (ptr, h.2.2) ∈ q'.cache ++ q'.store ∧ q'.badret = q.badret)
      ∧ (q.starts ptr = false ∨ q.held.find? (fun h => h.1 == ptr && h.2.1 == o) = none → ∃ t,
          exec (.cellarReturn q.part ptr o) s = .next t ∧ poolAt t n = some { q with badret := satInc q.badret }
          ∧ (∀ k, k ≠ n → poolAt t k = poolAt s k) ∧ tget t.err.cnt 0 1 = satInc (tget s.err.cnt 0 1)))
    ∧ (∀ ptr c, q.quarantined.find? (fun c => c.1 == ptr) = some c → q.reserves ≠ [] → q.bad = false → ∃ t q',
        exec (.quarantineReclaim n ptr) s = .next t ∧ poolAt t n = some q' ∧ q'.quarantined = q.quarantined.filter (· != c)
        ∧ q'.free = q.free + 1 ∧ (ptr, c.2) ∈ q'.cache ++ q'.store)
    ∧ (q.rebuilding = true → (∃ t q', exec (.cellarRebuildDone n false) s = .next t ∧ poolAt t n = some q' ∧ q'.rebuilding = false
          ∧ q'.held = q.held ∧ q'.free = q.free + (lostPtrs q).length)
        ∧ ∃ t, exec (.cellarRebuildDone n true) s = .next t ∧ ((partAt s q.part).c3 = false → q.part < 4 → (partAt t q.part).c3 = true))

/-- Tier 2, R307, R309 to R315, R318, R401: a controller's refreshes are postponed to at most 8 owed; a corrected read is counted, and the
sixteenth of a device within 24 hours marks it failed; an uncorrectable scrub poisons its line in the large configuration; three failed
replays fail the channel, with a C3 fault of its owner; a granule of the zero map is zeroed and leaves the map. A channel that failed or
is not used answers nothing. The address map. Two offsets of a partition never lie in the same byte of a channel, consecutive 256-byte
granules go round its channels, every offset below 256 times the channels' number times the granules of the smallest one has a place, and
the map is undone by offsetOf.
Where the spec leaves a reading or an order open it follows the model's choice (log entries 29, 86). -/
def Obligations.DramChannels : Prop :=
  (∀ (s : State) (ch : Nat),
    let c := tget s.mem.channels {} ch
    let after := fun (t : State) => tget t.mem.channels {} ch
    (channelRuns s ch = false → ∀ rank b e line a n, exec (.dramRefresh ch rank b) s = .next s ∧ exec (.dramRetrain ch rank) s = .next s
      ∧ exec (.dramScrub ch line e) s = .next s ∧ exec (.dramAlert ch a n) s = .next s ∧ exec (.zeroMapGranule ch) s = .next s)
    ∧ (channelRuns s ch = true →
      (∀ rank, rank < c.ranks → ∀ b, ∃ t, exec (.dramRefresh ch rank b) s = .next t
          ∧ tget (after t).owed 0 rank = (if b then min (tget c.owed 0 rank + 1) 8 else 0) ∧ (after t).poison = c.poison
          ∧ (∀ k, k ≠ ch → tget t.mem.channels {} k = tget s.mem.channels {} k) ∧ t.mem.dram = s.mem.dram)
      ∧ (∀ rank, rank < c.ranks → ∃ t, exec (.dramRetrain ch rank) s = .next t
          ∧ t = { s with mem := { s.mem with channels := t.mem.channels } } ∧ after t = { c with retrain := satInc c.retrain })
      ∧ (∀ line, 64 * line < c.gib * 2 ^ 30 → c.zeroMap.contains (line / 1024) = false →
          exec (.dramScrub ch line .clean) s = .next s
          ∧ (∀ rank dev aged, rank < c.ranks → dev < 20 → secondFailing c rank dev = true →
              exec (.dramScrub ch line (.corrected rank dev aged)) s = exec (.dramScrub ch line .uncorrectable) s)
          ∧ (∀ rank dev aged, rank < c.ranks → dev < 20 → secondFailing c rank dev = false →
              ∃ t, exec (.dramScrub ch line (.corrected rank dev aged)) s = .next t
              ∧ (after t).ce = satInc c.ce ∧ (after t).ue = c.ue ∧ t.mem.dram = s.mem.dram ∧ (after t).poison = c.poison
              ∧ let e := if rank = 0 then c.erased0 else c.erased1
                let e' := if rank = 0 then (after t).erased0 else (after t).erased1
                e'.getLsbD dev = (e.getLsbD dev || decide (16 ≤ tget c.corrected 0 (20 * rank + dev) - aged + 1))
                ∧ ∀ k, k < 20 → k ≠ dev → e'.getLsbD k = e.getLsbD k)
          ∧ ∃ t, exec (.dramScrub ch line .uncorrectable) s = .next t ∧ (after t).ue = satInc c.ue
              ∧ (c.rdimm = true → line ∈ (after t).poison) ∧ (c.rdimm = false → (after t).poison = c.poison)
              ∧ tget t.err.cnt 0 0 = satInc (tget s.err.cnt 0 0))
      ∧ (∀ a n, ∃ t, exec (.dramAlert ch a n) s = .next t
          ∧ (c.rdimm = true → 3 ≤ n → (after t).failed = true ∧ (c.owner < 4 → (partAt t c.owner).c3 = true))
          ∧ (c.rdimm = true → n < 3 → (after t).failed = false ∧ (after t).replay = satInc c.replay (n + 1) ∧ t.mem.dram = s.mem.dram)
          ∧ (c.rdimm = false → (after t).ue = c.ue ∧ (after t).replay = c.replay ∧ (after t).failed = false))
      ∧ (∀ g r, c.zeroMap = g :: r → ∃ t, exec (.zeroMapGranule ch) s = .next t ∧ (after t).zeroMap = r.filter (· != g)
          ∧ ∀ o, o / 65536 = g → o < 2 ^ 35 → memGet 0 t.mem.dram (dramKey ch o) = 0)))
  ∧ (∀ (s : State) (p : Nat),
    (∀ x y a, dramAt s p x = some a → dramAt s p y = some a → x = y)
    ∧ (∀ x m o, dramAt s p x = some (m, o) → o < capOf s m ∧ m ∈ partChannels s p ∧ o % 256 = x % 256
        ∧ (partChannels s p)[x / 256 % (partChannels s p).length]? = some m)
    ∧ (∀ x, (∀ m ∈ partChannels s p, 256 * (x / 256 / (partChannels s p).length) + 256 ≤ capOf s m) → partChannels s p ≠ [] →
        (dramAt s p x).isSome)
    ∧ (ChannelsFit s → ∀ x m o, dramAt s p x = some (m, o) → offsetOf s p (dramKey m o) = some x)
    ∧ (ChannelsFit s → ∀ x y k, keyOf s p x = some k → keyOf s p y = some k → x = y))

/-- Tier 2, R97, R98, R143, Table 4.5: an HXCH posts its send or receive and goes on; where its partner's posting already waits and agrees, the two
are matched, and where it does not agree the instruction faults with cause 0x0D. The transfer of a matched pair writes the receiver's carrel
range and takes both postings from their queues, and nothing else of a carrel changes. A posting whose partner has not issued ends with
HALO_TIMEOUT, the fault record names its instruction, and nothing lands; where both arrive together and the timeout wins, both ends record it.
Where the spec leaves a reading or an order open it follows the model's choice (log entries 18). -/
def Obligations.HaloTransfers : Prop :=
  (∀ (s : State) (c : Nat) (e : Env) (f : Fields) (u : List Upset), Issues s c e → fetchLost u = false →
      let h := posting e f
      let d := descOf h.desc
      let q := 4 * (c / 4) + h.partner
      stray { mod := 1, ad := true, xf := 7 } f = false → Clean (descChecks f.ad.toNat d) → d.glob = false → h.partner ≠ c % 4 →
      tensorInShare e d = true → Unblocked e (spansOf d h.recv) → servedBy s q ≠ some e.ph →
      let posted := fun (t : State) (x : Halo) => regsAt t e.ph = { e.core.regs with pc := e.core.regs.pc + 16 }
        ∧ (coreAt t e.ph).halo = e.core.halo ++ [x] ∧ (coreAt t e.ph).carrel = e.core.carrel ∧ (coreAt t e.ph).writes = e.core.writes
        ∧ (coreAt t e.ph).e0 = e.core.e0 ∧ (coreAt t e.ph).e1 = e.core.e1 ∧ (∀ k, k ≠ e.ph → regsAt t k = regsAt s k) ∧ OnlyCores u s t
      (postedOn s q (c % 4) h.port (!h.recv) false = [] →
        ∃ t, exec (.hxch c ⟨f, u⟩) s = .next t ∧ posted t h ∧ ∀ k, k ≠ e.ph → KeepsStore (coreAt s k) (coreAt t k))
      ∧ ∀ g r ph, postedOn s q (c % 4) h.port (!h.recv) false = g :: r → servedBy s q = some ph →
        (haloAgrees h.desc g.desc = true → ∃ t, exec (.hxch c ⟨f, u⟩) s = .next t ∧ posted t { h with paired := true }
          ∧ (coreAt t ph).halo = amendFirst (fun x => x == g) (fun x => { x with paired := true }) (coreAt s ph).halo
          ∧ ∀ k, k ≠ e.ph → (coreAt t k).carrel = (coreAt s k).carrel ∧ (k ≠ ph → (coreAt t k).halo = (coreAt s k).halo))
        ∧ (haloAgrees h.desc g.desc = false → e.core.halo = [] → ∃ t x, exec (.hxch c ⟨f, u⟩) s = .next t
          ∧ (coreAt t e.ph).fault = some x ∧ x.address = e.core.regs.pc ∧ x.detail.toNat % 65536 = 0x0D01))
  ∧ (∀ (s : State) (c port : Nat) (e p : Env) (u : List Upset) (h g : Halo), waitingEnv s c = some e →
      e.core.halo.find? (fun h => h.port == port && !h.recv && h.paired && h.fault.isNone) = some h →
      (postedOn s (4 * (c / 4) + h.partner) (c % 4) port true true).head? = some g →
      waitingEnv s (4 * (c / 4) + h.partner) = some p → p.ph ≠ e.ph → (descOf g.desc).glob = false → memWf 0 p.core.carrel = true →
      (readLost u = false → (∀ x ∈ [e, p], x.part.stopping = false ∧ x.part.halted = none ∧ (∀ y ∈ x.core.halo, y.fault = none)
          ∧ ∀ y, x.core.part = some y → ∀ a b d, y.wait ≠ .failing a b d) →
        ∃ t, exec (.haloTransferDone c port u) s = .next t
          ∧ (∀ b, spaceByte t p false b = byteAfter (haloWrites (spaceByte s e false) (descOf g.desc) (descOf h.desc)) b (spaceByte s p false b))
          ∧ (coreAt t e.ph).carrel = e.core.carrel ∧ (coreAt t e.ph).halo = e.core.halo.erase h
          ∧ (coreAt t p.ph).halo = p.core.halo.erase g ∧ (∀ k, regsAt t k = regsAt s k) ∧ OnlyCores u s t)
      ∧ (readLost u = true → e.part.stopping = false → e.core.halo = [h] → (∀ y, e.core.part = some y → y.wait = .none) →
        ∃ t, exec (.haloTransferDone c port u) s = .next t ∧ (coreAt t e.ph).fault = some { address := h.pc, detail := 0x0504 }
          ∧ (coreAt t p.ph).carrel = p.core.carrel))
  ∧ ∀ (s : State) (c port : Nat) (recv race : Bool) (e : Env) (h : Halo), waitingEnv s c = some e → e.part.stopping = false →
      e.core.halo = [h] → h.port = port → h.recv = recv → h.fault = none → (∀ y, e.core.part = some y → y.wait = .none) →
      (h.paired = false → ∃ t, exec (.haloTimeout c port ⟨recv, race⟩) s = .next t
        ∧ (coreAt t e.ph).fault = some { address := h.pc, detail := 5 }
        ∧ (coreAt t e.ph).part = none ∧ ∀ k, (coreAt t k).carrel = (coreAt s k).carrel)
      ∧ (h.paired = true → race = false → exec (.haloTimeout c port ⟨recv, race⟩) s = .next s)
      ∧ ∀ (p : Env) (g : Halo) (j : Job), h.paired = true → race = true → waitingEnv s (4 * (c / 4) + h.partner) = some p → p.ph ≠ e.ph →
        (postedOn s (4 * (c / 4) + h.partner) (c % 4) port (!recv) true).getLast? = some g → p.core.halo = [g] → g.fault = none →
        p.part.stopping = false → p.part.dead = false → (∀ y, p.core.part = some y → y.wait = .none) → p.core.testDue = false →
        jobOf s p.part.job = some j → j.haloRuns = 0 → banded s j = false → e.core.fault = none →
        ∃ t, exec (.haloTimeout c port ⟨recv, race⟩) s = .next t ∧ (coreAt t e.ph).fault = some { address := h.pc, detail := 5 }
          ∧ (coreAt t p.ph).fault = some { address := g.pc, detail := 5 } ∧ ∀ k, (coreAt t k).carrel = (coreAt s k).carrel

/-- Tier 2, R204 to R207, R209 to R213, R215 to R217, Tables 8.2 and 8.4: a link change sets the port's status; a frame outside 64 to 9,216
bytes or with a wrong FCS counts as bad and does nothing else; one for the host goes to the driver's posted buffer with its entry; a
matched datagram of a running stream on the device path waits for the depacketiser; the transmitter sends a posted frame with its FCS and
writes DONE into its entry; RXTAIL and TXTAIL move the driver's index. RTP_PACKET takes the oldest waiting datagram: one of a paused
partition is shed, one of a stream that does not run counts as NOTRUN, one that is no RTP of the payload type as BADRTP; the next packet
in sequence is delivered, and a NAL unit of the open access unit joins it behind a start code; a packet up to 63 ahead is held.
RTP_HOLD_EXPIRY gives the missing numbers up as lost and delivers the packet that waited.
Where the spec leaves a reading or an order open it follows the model's choice (log entries 48, 78 to 80). -/
def Obligations.PortsAndPackets : Prop :=
  ((∀ (s : State) (n kind : Nat) (up : Bool), upAt s 98 = true → n < 2 → (up = true → kind = 1 ∨ kind = 2) →
      ∃ t, exec (.ethLinkChange n up kind) s = .next t ∧ portAt t n = { portAt s n with pstat := if up then 1 + 2 * kind else 0 }
        ∧ (∀ k, k ≠ n → portAt t k = portAt s k) ∧ t = { s with ports := t.ports })
  ∧ (∀ (s : State) (n : Nat) (b : List Byte) (entries : List HostRead), upAt s 98 = true → n < 2 → nbit (portAt s n).pstat 0 = true →
      let p := portAt s n
      let x := b.take (b.length - 4)
      (b.length < 64 ∨ 9216 < b.length ∨ leAt b (b.length - 4) 4 ≠ crc32e x →
        ∃ t v, exec (.ethFrameReceive n b entries) s = .next t
          ∧ portAt t n = { p with rxfrm := satInc p.rxfrm, badfrm := satInc p.badfrm, rx := { p.rx with unannounced := v } }
          ∧ (v = p.rx.unannounced ∨ v = 0) ∧ (∀ k, k ≠ n → portAt t k = portAt s k) ∧ t = { s with ports := t.ports, host := t.host })
      ∧ (∀ e more, seeFrame p.mac.toNat (portMarred s n) b = .host → entries = .data e :: more → posted s n p.rx = true → x.length ≤ leAt e 8 2 →
          memWf 0 s.host.mem = true →
        ∃ t, exec (.ethFrameReceive n b entries) s = .next t ∧ (portAt t n).rx.head = (p.rx.head + 1) % p.rx.entries
          ∧ (portAt t n).hrxpkt = satInc p.hrxpkt ∧ (portAt t n).hrxdrop = p.hrxdrop ∧ t.streams = s.streams
          ∧ (∀ i, i < 16 → memGet 0 t.host.mem (p.rx.base.toNat + 16 * p.rx.head + i)
              = (slice e 0 10 ++ leBytes 2 x.length ++ leBytes 2 0xFFFF ++ leBytes 1 (1 + 2 * n) ++ [0]).getD i 0)
          ∧ ∀ i, i < x.length → (leAt e 0 8 + i < p.rx.base.toNat + 16 * p.rx.head ∨ p.rx.base.toNat + 16 * p.rx.head + 16 ≤ leAt e 0 8 + i) →
              memGet 0 t.host.mem (leAt e 0 8 + i) = x.getD i 0)
      ∧ (∀ m u flow id key, seeFrame p.mac.toNat (portMarred s n) b = .udp m u → flowOf s m = some (flow, id) →
          tfind s.flows flow = some (key, id) → pausedPart s (strm s id).part = false → (strm s id).state = .running →
          (strm s id).hostPath = false → (strm s id).switching = false →
        let d := (strm s id).dep
        ∃ t, exec (.ethFrameReceive n b entries) s = .next t
          ∧ strm t id = { strm s id with dep := { d with
              fifo := d.fifo ++ [u]
              clock := match rtpOf (leAt key 39 1 % 128) u with
                | some q => some (q.ts, arrivalPts d q.ts)
                | none => d.clock } }
          ∧ (∀ k, k ≠ id → strm t k = strm s k)
          ∧ t = { s with ports := t.ports, streams := t.streams, islands := t.islands, host := t.host }))
  ∧ (∀ (s : State) (n : Nat) (e b : List Byte), upAt s 98 = true → n < 2 → posted s n (portAt s n).tx = true → goodTx e = true →
      let r := (portAt s n).tx
      let out := leAt e 10 1 % 2
      let x := slice b 0 (leAt e 8 2)
      nbit (portAt s out).pstat 0 = true → memWf 0 s.host.mem = true →
      ∃ t, exec (.ethTransmit n (.data e) (.data b)) s = .next t ∧ (portAt t out).sent = (portAt s out).sent ++ [x ++ leBytes 4 (crc32e x)]
        ∧ (portAt t out).txfrm = satInc (portAt s out).txfrm ∧ (portAt t n).tx.head = (r.head + 1) % r.entries
        ∧ memGet 0 t.host.mem (r.base.toNat + 16 * r.head + 11) = 1 ∧ t.streams = s.streams
        ∧ ∀ a, a < r.base.toNat + 16 * r.head ∨ r.base.toNat + 16 * r.head + 16 ≤ a → memGet 0 t.host.mem a = memGet 0 s.host.mem a)
  ∧ ∀ (s : State) (n : Nat) (v : Word), running s = true → blockUp s 98 = true → s.host.linkUp = true → n < 2 →
      (∃ t, exec (.rxtail 0 n v) s = .next t ∧ t.streams = s.streams
        ∧ portAt t n = { portAt s n with rx := { (portAt s n).rx with tail := v.toNat % 4096 % (portAt s n).rx.entries, written := 0 } })
      ∧ ∃ t, exec (.txtail 0 n v) s = .next t ∧ t.streams = s.streams
        ∧ portAt t n = { portAt s n with tx := { (portAt s n).tx with tail := v.toNat % 4096 % (portAt s n).tx.entries, written := 0 } })
  ∧ (∀ (s : State) (id cycle : Nat) (key : List Byte), upAt s 98 = true → keyOfStream s id = some key →
    let st := strm s id
    let fmt := bits (leAt key 38 1) 2 1
    (∀ b r, st.dep.fifo = b :: r →
      let d := { st.dep with fifo := r }
      let only := fun (t : State) (x : Stream) => strm t id = x ∧ (∀ k, k ≠ id → strm t k = strm s k) ∧ t = { s with streams := t.streams }
      (pausedPart s st.part = true → ∃ t, exec (.rtpPacket id cycle) s = .next t
          ∧ only t { st with dep := d, cnt := { st.cnt with shed := st.cnt.shed + 1 } })
      ∧ (pausedPart s st.part = false → st.state ≠ .running → ∃ t, exec (.rtpPacket id cycle) s = .next t
          ∧ only t { st with dep := d, cnt := { st.cnt with notrun := st.cnt.notrun + 1 } })
      ∧ (pausedPart s st.part = false → st.state = .running →
          (rtpOf (leAt key 39 1 % 128) b = none → ∃ t, exec (.rtpPacket id cycle) s = .next t
            ∧ only t { st with dep := d, cnt := { st.cnt with badrtp := st.cnt.badrtp + 1 } })
          ∧ (∀ p, rtpOf (leAt key 39 1 % 128) b = some p → st.dep.ssrc = some p.ssrc → st.dep.probe = none →
              (p.seq = st.dep.next → p.seq < 65536 → st.dep.held = [] → fmt = 0 → 1 ≤ leAt p.payload 0 1 % 32 → leAt p.payload 0 1 % 32 ≤ 23 →
                p.payload ≠ [] → p.marker = false → st.dep.opened = true → (∃ q, st.dep.base = some (p.ts, q)) → st.dep.lossBefore = false →
                st.dep.inFragment = false →
                ∃ t, exec (.rtpPacket id cycle) s = .next t ∧ (strm t id).dep.bytes = st.dep.bytes ++ [0, 0, 0, 1] ++ p.payload
                  ∧ (strm t id).dep.next = (p.seq + 1) % 65536 ∧ (strm t id).cnt = { st.cnt with delivered := st.cnt.delivered + 1 }
                  ∧ (strm t id).dep.lossMarks = st.dep.lossMarks ∧ (∀ k, k ≠ id → strm t k = strm s k) ∧ t = { s with streams := t.streams })
              ∧ (1 ≤ seqAhead st.dep p.seq → seqAhead st.dep p.seq ≤ 63 → (∀ h ∈ st.dep.held, h.seq ≠ p.seq) →
                ∃ t, exec (.rtpPacket id cycle) s = .next t
                  ∧ only t { st with dep := { d with rival := none, held := st.dep.held ++ [p] } }))))
    ∧ (∀ h, st.state = .running → st.dep.held = [h] → h.seq < 65536 → st.dep.next < 65536 → 1 ≤ seqAhead st.dep h.seq →
        seqAhead st.dep h.seq ≤ 63 → h.marker = false → st.dep.opened = false →
        ∃ t, exec (.rtpHoldExpiry id cycle) s = .next t ∧ (strm t id).dep.held = [] ∧ (strm t id).dep.next = (h.seq + 1) % 65536
          ∧ (strm t id).cnt.lost = st.cnt.lost + seqAhead st.dep h.seq))

/-- Tier 2, R180, R184, R190 to R195, R198, R221, R222: DECODE_START puts the access unit that is next by priority and arrival on an idle media
core with a frame buffer, and a refused sequence gives its gap without one; PICTURE_DECODED frees the core, an access unit of which no coding
unit is decoded gets the gap DECODE_FAIL, a picture waits for its output in its buffer with the taint of its blocks, concealed where the data
ends short or a block is tainted, and a completion after the watchdog or a memory fault won is only counted; MEDIA_WATCHDOG frees the core,
counts, and the first time leaves the frame for one more attempt; PREPROCESS_START puts the next picture on an idle unit; PREPROCESS_DONE
gives a frame the tensors of its outputs, a failure the first time one more run, the second time COMPUTE_FAULT.
Where the spec leaves a reading or an order open it follows the model's choice (log entries 9, 89, 90, 92, 114). -/
def Obligations.PicturesAndTensors : Prop :=
  (∀ (s : State) (id core : Nat) (f : Frame) (head : AuHead), upAt s (48 + core) = true →
      (mediaIn s (strm s id).part).contains core = true → (mediaAt s core).state = 0 → pausedPart s (strm s id).part = false →
      nextDecoded s (strm s id).part core = some (id, f) →
      (∀ p, (strm s id).refused = none → f.hasPicture = true → head.failure = none → (strm s id).started = true ∨ head.randomAccess = true →
        head.shows = none → shedsOdd s (strm s id) = false → (drawFor 1 (.stream id) (strm s id).owner s).1 = some p →
        ∃ t, exec (.decodeStart id core none head) s = .next t ∧ (mediaAt t core).state = 1 ∧ (mediaAt t core).stream = id
          ∧ (mediaAt t core).order = f.order ∧ (mediaAt t core).buf = some p ∧ (strm t id).frames = (strm s id).frames
          ∧ (∀ k, k ≠ core → mediaAt t k = mediaAt s k) ∧ t.jobs = s.jobs)
      ∧ (∀ r, (strm s id).refused = some r → OwnOrders s id →
        ∃ t, exec (.decodeStart id core none head) s = .next t ∧ (frameOf t id f.order).map (·.result) = some (some (.gap r))
          ∧ (mediaAt t core).state = 0)
      ∧ ((strm s id).refused = none → f.hasPicture = false → OwnOrders s id →
        ∃ t, exec (.decodeStart id core none head) s = .next t ∧ (frameOf t id f.order).map (·.result) = some (some (.gap 1))
          ∧ (mediaAt t core).state = 0))
  ∧ (∀ (s : State) (core : Nat) (pic : PicFact), upAt s (48 + core) = true → core < 32 →
      let m := mediaAt s core
      let st := strm s m.stream
      (m.state ≠ 1 → 0 < m.lateDue → ∃ t, exec (.pictureDecoded core pic) s = .next t
          ∧ mediaAt t core = { m with lateDue := m.lateDue - 1, wdlate := satInc m.wdlate } ∧ t = { s with media := t.media })
      ∧ (∀ f p, m.state = 1 → m.buf = some p → frameOf s m.stream m.order = some f → f.result = none → OwnOrders s m.stream →
          let ok := unitsDecoded s st f pic
          let taint := taintOf st (seqOf st) pic ok
          ((∀ b ∈ ok, b = false) → ∃ t, exec (.pictureDecoded core pic) s = .next t ∧ (mediaAt t core).state = 0
            ∧ (frameOf t m.stream m.order).map (·.result) = some (some (.gap 2)))
          ∧ (true ∈ ok → pic.hidden = false → ∃ t, exec (.pictureDecoded core pic) s = .next t ∧ (mediaAt t core).state = 0
              ∧ (mediaAt t core).pict = satInc m.pict ∧ (frameOf t m.stream m.order).map (·.buf) = some (some p)
              ∧ (m.randomAccess = false → (frameOf t m.stream m.order).map (fun g => (g.concealed, g.partialPic))
                  = some (endsShort f ok || taint.any (fun t => t), endsShort f ok))))
      ∧ (∀ (f : Frame) (memory : Bool), m.state = 1 → frameOf s m.stream m.order = some f → f.result = none →
          ∃ t, exec (.mediaWatchdog core memory) s = .next t ∧ (mediaAt t core).state = (if 1 ≤ m.fails then 2 else 0)
            ∧ (mediaAt t core).wdog = min (m.wdog + 1) 255 ∧ (mediaAt t core).lateDue = m.lateDue + 1
            ∧ (m.fails = 0 → (f.attempts = 0 → (frameOf t m.stream m.order).map (fun g => (g.attempts, g.lastMedia, g.result)) = some (1, some core, none))
              ∧ (1 ≤ f.attempts → (frameOf t m.stream m.order).map (·.result) = some (some (.gap 2))))))
  ∧ (∀ (s : State) (unit id : Nat) (f : Frame), upAt s nocIsland = true → (ppUnits s (strm s id).part).contains unit = true →
      (ppuAt s unit).work = none → nextServed s (strm s id).part = some (id, f) → f.lastUnit ≠ some unit →
      ∃ t, exec (.preprocessStart unit id) s = .next t ∧ ppuAt t unit = { ppuAt s unit with work := some (id, f.order) }
        ∧ (∀ k, k ≠ unit → ppuAt t k = ppuAt s k) ∧ t = { s with ppus := t.ppus })
  ∧ ∀ (s : State) (unit id order : Nat) (f : Frame) (failed : Bool), upAt s nocIsland = true → (ppuAt s unit).work = some (id, order) →
      frameOf s id order = some f → f.stage = .preproc →
      (∀ a, failed = false → framePic s id f = some a → picBad s a f = false →
        ∃ t, exec (.preprocessDone unit failed) s = .next t ∧ (ppuAt t unit).work = none
          ∧ (frameOf t id order).map (·.inputs) = some (List.zip (List.range f.outs.length)
              (f.outs.map fun o => (tensorOut o f.winW f.winH (outElems s a f o)).1)))
      ∧ (failed = true ∨ (∃ a, framePic s id f = some a ∧ picBad s a f = true) →
        (f.ppTries = 0 → ∃ t, exec (.preprocessDone unit failed) s = .next t ∧ (ppuAt t unit).work = none
          ∧ (frameOf t id order).map (fun g => (g.ppTries, g.lastUnit, g.stage, g.result)) = some (1, some unit, .preproc, f.result))
        ∧ (1 ≤ f.ppTries → f.result = none → ∃ t, exec (.preprocessDone unit failed) s = .next t ∧ (ppuAt t unit).work = none
          ∧ (frameOf t id order).map (·.result) = some (some (.gap 7))))

/-- Tier 2, R263 to R265, R271 to R274: ENCODE_START starts the earliest ready picture among the clips of an idle core, and nothing at a shed
level; ENCODE_DONE adds the picture to its clip and writes its coded bytes behind the index area, ends the clip where the host buffer cannot
hold them, and counts a completion that lost to the watchdog; a watchdog's first win leaves the clip for one more attempt on another core where
there is one that runs fewer than 8 clips, its second ends it; the WAIT of a clip that still takes pictures closes it, which ends it once the
pictures that came are coded.
Where the spec leaves a reading or an order open it follows the model's choice (log entries 81, 92, 115). -/
def Obligations.ClipPictures : Prop :=
  (∀ (s : State) (core p : Nat) (k : Clip), upAt s (80 + core) = true → core < 4 → (encAt s core).state = 0 → partOfEnc s core = some p →
      (s.pwr.level ≠ 0 → exec (.encodeStart core) s = .next s)
      ∧ (s.pwr.level = 0 → (∀ x ∈ s.clips, x.part = p → x.core = none → x.ended = true) →
          leastBy (fun k : Clip => ((headReady k).map (·.arrived)).getD 0) ((clipsOn s core).filter fun k => (headReady k).isSome) = some k →
          ∃ t, exec (.encodeStart core) s = .next t ∧ encAt t core = { encAt s core with state := 1, clip := some (k.fn, k.id) }
            ∧ (∀ n, n ≠ core → encAt t n = encAt s n) ∧ t.host = s.host ∧ t.clips.length = s.clips.length
            ∧ (k.coded ≠ 0 → t.clips = s.clips)))
  ∧ (∀ (s : State) (core rows repl headers qps : Nat) (z : CodeEnd), upAt s (80 + core) = true → core < 4 →
      let n := encAt s core
      (n.state ≠ 1 → 0 < n.lateDue → ∃ t, exec (.encodeDone core rows repl headers qps z) s = .next t
          ∧ encAt t core = { n with lateDue := n.lateDue - 1, wdlate := satInc n.wdlate } ∧ t = { s with encs := t.encs })
      ∧ (∀ c k r, n.state = 1 → n.clip = some c → clipOf s c.1 c.2 = some k → k.ready.head? = some r → k.thumb = false →
          let bits := (codedBytes s k r ⟨rows, repl, headers, qps, z.file⟩).2
          (k.hlen < indexArea k.maxPic + k.bytes + bits.length → ∃ t, exec (.encodeDone core rows repl headers qps z) s = .next t
              ∧ clipOf t c.1 c.2 = none ∧ (encAt t core).pict = n.pict)
          ∧ (indexArea k.maxPic + k.bytes + bits.length ≤ k.hlen → k.closed = false → k.coded + 1 < k.maxPic →
              ∃ t, exec (.encodeDone core rows repl headers qps z) s = .next t
                ∧ (clipOf t c.1 c.2).map (fun x => (x.coded, x.bytes, x.ready, x.lastPts))
                    = some (k.coded + 1, k.bytes + bits.length, k.ready.drop 1, r.pts)
                ∧ (encAt t core).pict = satInc n.pict ∧ (encAt t core).state = 0
                ∧ ((∀ x ∈ (strm s k.stream).bufs, bufNeeded { x with clips := x.clips - 1 } = true) →
                    (s.host.linkUp = true → memWf 0 s.host.mem = true → ∀ i, i < bits.length →
                      memGet 0 t.host.mem (k.haddr + indexArea k.maxPic + k.bytes + i) = bits.getD i 0)
                    ∧ (s.host.linkUp = false → t.host.mem = s.host.mem)))))
  ∧ (∀ (s : State) (core : Nat) (memory : Bool) (c : Nat × Word) (k : Clip), upAt s (80 + core) = true → core < 4 → (encAt s core).state = 1 →
      (encAt s core).clip = some c → clipOf s c.1 c.2 = some k →
      ∃ t, exec (.encoderWatchdog core memory) s = .next t ∧ (encAt t core).state = 0 ∧ (encAt t core).wdog = min ((encAt s core).wdog + 1) 255
        ∧ (encAt t core).lateDue = (encAt s core).lateDue + 1
        ∧ (k.attempts = 0 → (clipOf t c.1 c.2).map (fun x => (x.attempts, x.coded, x.ready)) = some (1, k.coded, k.ready)
          ∧ (∀ n, (clipOf t c.1 c.2).bind (·.core) = some n → n ≠ core → (clipsOn s n).length < 8)
          ∧ ((∀ n, n < 4 → n ≠ core → (encsIn s k.part).contains n = false) → (clipOf t c.1 c.2).bind (·.core) = some core))
        ∧ (1 ≤ k.attempts → clipOf t c.1 c.2 = none))
  ∧ ∀ (s : State) (fn : Nat) (id : Word) (k : Clip), upAt s nocIsland = true → clipOf s fn id = some k →
      (s.pwr.level ≠ 0 → exec (.clipWaitExpiry fn id) s = .next s)
      ∧ (s.pwr.level = 0 → k.closed = false →
        (k.ready = [] → ∃ t, exec (.clipWaitExpiry fn id) s = .next t ∧ clipOf t fn id = none ∧ t.jobs = s.jobs)
        ∧ (k.ready ≠ [] → (∀ x ∈ s.clips, x.fn = fn → x.id = id → x = k) → ∃ t, exec (.clipWaitExpiry fn id) s = .next t
            ∧ clipOf t fn id = some { k with closed := true, timedOut := true }))

/-- Tier 2, R299 to R303, Table 11.11: STREAM_OPEN of a closed stream opens it with the block's settings; START, PAUSE and DRAIN move it as
Table 11.11 says and give NOOP where it stands there already; CLOSE closes it and every frame has its result, with OK or NOOP; each accepted
slip completes with its receipt's status.
Where the spec leaves a reading or an order open it follows the model's choice (log entries 72, 75). -/
def Obligations.StreamStates : Prop :=
  (∀ (s : State) (x : SlipIn) (bs : List Byte) (c : Ctx) (ring : Nat), x.block = .data bs →
      let b := slice bs 0 x.len.toNat
      let id := leAt b 0 2
      let fn := sender s x
      let flow := if nbit (leAt b 5 1) 0 then none else (List.range 1024).find? fun n => (tfind s.flows n).isNone
      Accepts s x 0x03 (namesBlock s x fun _ => true) → goodFields { align := 64 } x = true → goodBlock false x.len.toNat b = true →
      leAt bs 0 2 = id → leAt bs 2 2 = leAt b 2 2 →
      reuseFits s (leAt b 2 2) (leAt b 6 1) = true → ctxAt s (leAt b 2 2) = some c → c.owner = fn → (strm s id).state = .closed →
      (nbit (leAt b 5 1) 0 = false → flow.isSome ∧ ∀ f ∈ s.flows, matchPart f.2.1 = matchPart (keyOfBlock b) → f.2.2 = id) →
      goodEnv (envOfBlock b) = true → folioRingOf s fn id = some ring →
      (reserveStream id (envOfBlock b) (leAt b 2 2) c.part fn s).isSome →
      ∃ t, exec (.streamOpen x) s = .next t ∧ Completed x.ring 0x03 x.tag s t 0 (BitVec.ofNat 256 (flow.getD 0xFFFF))
        ∧ (let st := strm t id
           st.state = .opened ∧ st.owner = fn ∧ st.ctx = leAt b 2 2 ∧ st.part = c.part ∧ st.prio = leAt b 4 1 % 8 ∧ st.env = envOfBlock b
             ∧ st.outs = outsOf b ∧ st.flow = flow ∧ st.ring = ring ∧ st.nextTrack = 1 ∧ st.tracks = [] ∧ st.zones = [])
        ∧ (∀ k, k ≠ id → strm t k = strm s k) ∧ t.jobs = s.jobs ∧ t.saf = s.saf)
  ∧ (∀ (s : State) (x : SlipIn), x.target.toNat < 1024 → goodFields { target := true } x = true →
      let id := x.target.toNat
      let st := strm s id
      (Accepts s x 0x07 (namesStream s id none) → st.state = .closed → st.closing = none →
        ∃ t, exec (.streamClose x) s = .next t ∧ Completed x.ring 0x07 x.tag s t 1 0 ∧ t.streams = s.streams)
      ∧ (st.owner = sender s x →
      (∀ c, ctxAt s st.ctx = some c → c.owner = st.owner → c.part = st.part → Accepts s x 0x04 (namesStream s id none) →
        ((st.state = .opened ∨ st.state = .paused) → ∃ t, exec (.streamStart x) s = .next t ∧ Completed x.ring 0x04 x.tag s t 0 0
          ∧ (strm t id).state = .running ∧ (strm t id).frames = st.frames ∧ (strm t id).nextTrack = st.nextTrack
          ∧ (strm t id).nextNum = (if st.state = .opened then 0 else st.nextNum) ∧ (strm t id).archive.valid = [] ∧ (strm t id).adapt = 0
          ∧ (∀ k, k ≠ id → strm t k = strm s k) ∧ t.jobs = s.jobs)
        ∧ (st.state = .running → ∃ t, exec (.streamStart x) s = .next t ∧ Completed x.ring 0x04 x.tag s t 1 0 ∧ t.streams = s.streams ∧ t.saf = s.saf)
        ∧ ((st.state = .draining ∨ st.state = .faulted) → ∃ t, exec (.streamStart x) s = .next t ∧ Completed x.ring 0x04 x.tag s t 0x12 0
          ∧ t.streams = s.streams ∧ t.saf = s.saf))
      ∧ (Accepts s x 0x05 (namesStream s id none) →
        (st.state = .running → ∃ t, exec (.streamPause x) s = .next t ∧ Completed x.ring 0x05 x.tag s t 0 0 ∧ (strm t id).state = .paused
          ∧ (strm t id).frames.length = st.frames.length ∧ ∀ n, (tget t.saf.watches {} n).en = (tget s.saf.watches {} n).en)
        ∧ (st.state = .paused → ∃ t, exec (.streamPause x) s = .next t ∧ Completed x.ring 0x05 x.tag s t 1 0 ∧ t.streams = s.streams)
        ∧ (st.state = .opened ∨ st.state = .draining ∨ st.state = .faulted →
          ∃ t, exec (.streamPause x) s = .next t ∧ Completed x.ring 0x05 x.tag s t 0x12 0 ∧ t.streams = s.streams))
      ∧ (Accepts s x 0x06 (namesStream s id none) →
        ((st.state = .running ∨ st.state = .paused) → ∃ t, exec (.streamDrain x) s = .next t ∧ Completed x.ring 0x06 x.tag s t 0 0
          ∧ (strm t id).state = (if st.frames.all (·.sealed) then .opened else .draining) ∧ (strm t id).frames.length = st.frames.length)
        ∧ (st.state = .draining → ∃ t, exec (.streamDrain x) s = .next t ∧ Completed x.ring 0x06 x.tag s t 1 0)
        ∧ (st.state = .opened ∨ st.state = .faulted →
          ∃ t, exec (.streamDrain x) s = .next t ∧ Completed x.ring 0x06 x.tag s t 0x12 0 ∧ t.streams = s.streams))
      ∧ (Accepts s x 0x07 (namesStream s id none) →
        st.state ≠ .closed → ∃ t, exec (.streamClose x) s = .next t ∧ (strm t id).state = .closed
          ∧ (∀ f ∈ (strm t id).frames, f.result.isSome) ∧ (ringAt t x.ring).head = ((ringAt s x.ring).head + 1) % (ringAt s x.ring).size
          ∧ (st.frames = [] → Completed x.ring 0x07 x.tag s t 0 0))))

/-- Tier 2, R182, R218, R219, R224, R248, R300, R423: a STREAM_RECONF whose envelope leaves its ranges or that of STREAM_OPEN gives NO_CAPABILITY;
an accepted one waits for the next admitted frame with the parts that CHANGE marks, its path and boundary judging records from now on and
its HOLD the flow; an accepted FEED admits a frame, or adds a tensor to the frame that
waits for it; an accepted ZONE_SET replaces the stream's zone records and its Spigot bindings, those no longer named stale and
disabled.
Where the spec leaves a reading or an order open it follows the model's choice (log entries 34, 36, 73, 74). -/
def Obligations.StreamChanges : Prop :=
  (∀ (s : State) (x : SlipIn) (bs : List Byte), x.block = .data bs →
      let b := slice bs 0 x.len.toNat
      let id := leAt b 0 2
      let ch := leAt b 8 2
      let st := strm s id
      let ctx := if nbit ch 5 then leAt b 2 2 else soonCtx st
      Accepts s x 0x08 (namesBlock s x fun b => nbit (leAt b 8 2) 5) → goodFields { align := 64 } x = true →
      goodBlock true x.len.toNat b = true → st.owner = sender s x → ch ≠ 0 →
      (st.state = .opened ∨ st.state = .paused ∨ st.state = .running ∧ nbit ch 5 = false) →
      (nbit ch 1 = true ∨ nbit ch 5 = true → reuseFits s ctx (if nbit ch 1 then leAt b 6 1 else (soonOuts st).length) = true) →
      (nbit ch 5 = true → ∃ c, ctxAt s ctx = some c ∧ c.owner = sender s x ∧ c.part = st.part) →
      (keepsEnvelope st.env0 (envOfBlock b) = false → ∃ t, exec (.streamReconf x) s = .next t ∧ Completed x.ring 0x08 x.tag s t 0x14 0
        ∧ t.streams = s.streams)
      ∧ (keepsEnvelope st.env0 (envOfBlock b) = true → ∃ t, exec (.streamReconf x) s = .next t ∧ Completed x.ring 0x08 x.tag s t 0 0
        ∧ (let st' := if nbit ch 2 then switchPath (nbit (leAt b 5 1) 1) (leAt b 80 8) st else st
           strm t id = { st' with
             nextConf := if ch &&& 0x37 = 0 then st.nextConf else if st.nextConf.isEmpty then b else mergeConf st.nextConf b
             hold100us := if nbit ch 3 = true ∧ st.flow.isSome = true then leAt b 72 1 else st.hold100us })
        ∧ (∀ k, k ≠ id → strm t k = strm s k) ∧ t.jobs = s.jobs ∧ t.saf = s.saf))
  ∧ (∀ (s : State) (x : SlipIn) (r e : List Byte) (cycle : Nat) (pic ra : Bool), x.block = .data r → x.extra = .data e →
      let p := r.drop 16
      let kind := leAt r 6 2
      let id := leAt p 0 2
      let pts := leAt p 8 8
      let st := strm s id
      Accepts s x 0x09 (namesStream s id none) → leAt r 16 2 = id → goodFields { align := 8 } x = true → goodRecord x.len.toNat r = true →
      feedRefusal (sender s x) r ra s = none → admits s st = true → st.blocked = false →
      (kind < 3 → pic = true) →
      (kind = 4 → tensorFrame st pts = none) →
      ∃ t, exec (.feed x cycle pic ra) s = .next t ∧ Completed x.ring 0x09 x.tag s t 0 0 ∧ (strm t id).admittedCount = st.admittedCount + 1
        ∧ (strm t id).highPts = some (max (st.highPts.getD 0) pts) ∧ (strm t id).frames.length = st.frames.length + 1
        ∧ ∃ f ∈ (strm t id).frames, f.pts = pts ∧ f.admitted = cycle ∧ f.order ≠ s.order)
  ∧ (∀ (s : State) (x : SlipIn) (r e : List Byte) (cycle : Nat) (pic ra : Bool) (f : Frame), x.block = .data r → x.extra = .data e →
      let p := r.drop 16
      let id := leAt p 0 2
      Accepts s x 0x09 (namesStream s id none) → leAt r 16 2 = id → leAt r 6 2 = 4 → goodFields { align := 8 } x = true →
      goodRecord x.len.toNat r = true → feedRefusal (sender s x) r ra s = none → admits s (strm s id) = true →
      tensorFrame (strm s id) (leAt p 8 8) = some f → OwnOrders s id →
      ∃ t, exec (.feed x cycle pic ra) s = .next t ∧ Completed x.ring 0x09 x.tag s t 0 0
        ∧ (frameOf t id f.order).map (fun g => (g.tensors, g.inputs)) = some (leAt p 16 2 :: f.tensors, tset f.inputs (leAt p 16 2) (p.drop 32)))
  ∧ ∀ (s : State) (x : SlipIn) (b : List Byte), x.block = .data b →
      let id := x.target.toNat
      let k := x.len.toNat / 96
      let l := (List.range k).map (zoneOf b)
      Accepts s x 0x0A (namesStream s id none) → goodFields { target := true, align := 64 } x = true → x.len.toNat % 96 = 0 → k ≤ 64 →
      goodZones b k = true → (strm s id).owner = sender s x → (strm s id).state ≠ .closed → (strm s id).state ≠ .faulted →
      takenIndex s id l = false → rising s.saf.bound = true →
      ∃ t, exec (.zoneSet x) s = .next t ∧ Completed x.ring 0x0A x.tag s t 0 0 ∧ strm t id = { strm s id with zones := l }
        ∧ (∀ j, j ≠ id → strm t j = strm s j) ∧ t.saf = { s.saf with zones := t.saf.zones, bound := t.saf.bound }
        ∧ (∀ z ∈ l, z.bound = true → tfind t.saf.bound z.spigot = some (id, z.zone) ∧ zoneWord t z.spigot = zoneWord s z.spigot)
        ∧ (∀ i z, tfind s.saf.bound i = some (id, z) → (∀ y ∈ l, y.bound = true → y.spigot ≠ i) →
            tfind t.saf.bound i = none ∧ zoneWord t i = staleWord true (zoneWord s i))
        ∧ (∀ i j z, tfind s.saf.bound i = some (j, z) → j ≠ id → tfind t.saf.bound i = some (j, z) ∧ zoneWord t i = zoneWord s i)

/-- Tier 2, R279, R280, R297, R374, R459, Table 11.6: an accepted CONTEXT_LOAD of a free id defines the context of its block and image with an
account of its own and is measured; over an idle definition it replaces it at once, over a busy one its receipt waits; CONTEXT_EVICT of an
idle context discards it with its account and windows, of a busy one its receipt waits; CONTEXT_REPLACE_SWAP completes what waited. A refused load
changes no definition.
Where the spec leaves a reading or an order open it follows the model's choice (log entries 70, 71). -/
def Obligations.ContextSlips : Prop :=
  (∀ (s : State) (x : SlipIn) (bs img : List Byte), x.block = .data bs → x.extra = .data img →
      let b := slice bs 0 64
      let id := leAt b 0 2
      let fn := sender s x
      Accepts s x 0x01 { keys := [ctxKey id], part := some (leAt b 2 1) } → goodFields { align := 64 } x = true → x.len = 64 →
      (∀ st, loadRefusal s fn b img = some st →
        ∃ t, exec (.contextLoad x) s = .next t ∧ Completed x.ring 0x01 x.tag s t st 0 ∧ t.ctxs = s.ctxs ∧ t.nextCtxs = s.nextCtxs
          ∧ t.mem = s.mem ∧ t.sec = s.sec)
      ∧ (loadRefusal s fn b img = none →
        (ctxAt s id = none ∨ ctxBusy s id = false → tfind s.nextCtxs id = none → rising s.ctxs = true →
          ∃ t, exec (.contextLoad x) s = .next t ∧ Completed x.ring 0x01 x.tag s t 0 0 ∧ t.sec.nload = s.sec.nload + 1
            ∧ (∃ c, ctxAt t id = some c ∧ c.owner = fn ∧ c.part = leAt b 2 1 ∧ c.clusters = leAt b 3 1 ∧ c.ways = leAt b 4 1
                ∧ c.ilen = leAt b 16 8 ∧ c.globalLen = leAt img 16 8 ∧ c.progs.length = sectCount img 1 ∧ c.codebooks = sectBytes img 4
                ∧ c.faulted = false ∧ c.leaving = none)
            ∧ tget t.accounts {} id = {} ∧ (∀ k, k ≠ id → (ctxAt t k).isSome = (ctxAt s k).isSome))
        ∧ (∀ c, ctxAt s id = some c → ctxBusy s id = true →
          ∃ t, exec (.contextLoad x) s = .next t ∧ (ctxAt t id).map (fun d => (d.owner, d.part, d.leaving)) = some (c.owner, c.part, some (x.ring, s.order))
            ∧ (tfind t.nextCtxs id).isSome ∧ t.sec.nload = s.sec.nload + 1 ∧ t.jobs = s.jobs
            ∧ ∃ k ∈ (ringAt t x.ring).taken, k.id = s.order ∧ k.done = none)))
  ∧ (∀ (s : State) (x : SlipIn) (c : Ctx), goodFields { target := true } x = true →
      let id := x.target.toNat
      Accepts s x 0x02 { keys := [ctxKey id], part := (ctxAt s id).map (·.part) } → ctxAt s id = some c → c.owner = sender s x →
      ctxInUse s id = false →
      (ctxBusy s id = false → tfind s.nextCtxs id = none → rising s.ctxs = true →
        ∃ t, exec (.contextEvict x) s = .next t ∧ Completed x.ring 0x02 x.tag s t 0 0 ∧ ctxAt t id = none
          ∧ (∀ n, (tget t.fab.wins {} n).ctx = id → (tget t.fab.wins {} n).valid = false) ∧ (∀ k, k ≠ id → ctxAt t k = ctxAt s k))
      ∧ (ctxBusy s id = true → ∃ t, exec (.contextEvict x) s = .next t ∧ (ctxAt t id).map (·.leaving) = some (some (x.ring, s.order))
          ∧ t.jobs = s.jobs ∧ ∃ k ∈ (ringAt t x.ring).taken, k.id = s.order ∧ k.done = none))
  ∧ ∀ (s : State) (id ring slip : Nat) (c : Ctx), ready s = true → ctxAt s id = some c → c.leaving = some (ring, slip) →
      (ctxBusy s id = true → exec (.contextReplaceSwap id) s = .next s)
      ∧ (ctxBusy s id = false → rising s.ctxs = true →
        ∃ t, exec (.contextReplaceSwap id) s = .next t
          ∧ (∀ d, tfind s.nextCtxs id = some d → (ctxAt t id).map (fun x => (x.owner, x.part, x.codebooks, x.progs)) = some (d.owner, d.part, d.codebooks, d.progs))
          ∧ (tfind s.nextCtxs id = none → ctxAt t id = none)
          ∧ ∀ k ∈ (ringAt t ring).taken, k.id = slip → ∃ st, k.done = some (0, st, 0))

/-- Tier 2, R257, R258, R260, R263, R274, Table 10.2: an accepted CAPTURE or THUMB whose partition has a working set free starts the clip of its
block with OK; HOLD sets the hold depth; CANCEL of an open clip ends it, gives NOOP where the end of the clip wins against it, and BAD_TARGET
where no open clip has the id.
Where the spec leaves a reading or an order open it follows the model's choice (log entries 76, 81). -/
def Obligations.ClipRequests : Prop :=
  ∀ (s : State) (x : SlipIn) (bs : List Byte), x.block = .data bs → goodFields { align := 64 } x = true → x.len = 320 →
    let b := slice bs 0 320
    let id := leAt b 0 2
    let fn := sender s x
    let clip := BitVec.ofNat 32 (leAt b 4 4)
    let st := strm s id
    leAt bs 0 2 = id → id < 1024 → st.state ≠ .closed → st.owner = fn →
    Accepts s x 0x0B { namesStream s id none with cancel := leAt b 2 1 == 2 } →
    (st.state ≠ .faulted →
      (∀ p, (drawClip st.part fn s).1 = some p → (s.clips.filter fun k => k.part == st.part && !k.ended).length < 64 →
          rangeGone st (leAt b 16 8) = false → clipOf s fn clip = none →
        (leAt b 2 1 = 0 → goodCapture (leastCap (scaledNow st (bits (leAt b 3 1) 4 3))) b = true →
            (scaledNow st (bits (leAt b 3 1) 4 3)).1 ≤ 3840 → (scaledNow st (bits (leAt b 3 1) 4 3)).2 ≤ 2160 →
          ∃ t, exec (.capture x) s = .next t ∧ Completed x.ring 0x0B x.tag s t 0 0
            ∧ (clipOf t fn clip).map (fun k => (k.stream, k.part, k.thumb, k.first, k.last, k.coded, k.buf))
              = some (id, st.part, false, leAt b 8 8, leAt b 16 8, 0, some p) ∧ t.jobs = s.jobs)
        ∧ (leAt b 2 1 = 3 → goodThumb b = true →
          ∃ t, exec (.thumb x) s = .next t ∧ Completed x.ring 0x0B x.tag s t 0 0
            ∧ (clipOf t fn clip).map (fun k => (k.stream, k.part, k.thumb, k.first, k.last, k.coded, k.buf))
              = some (id, st.part, true, leAt b 8 8, leAt b 16 8, 0, some p) ∧ t.jobs = s.jobs))
      ∧ (leAt b 2 1 = 1 → goodHold b = true → ∃ t, exec (.hold x) s = .next t ∧ Completed x.ring 0x0B x.tag s t 0 0
          ∧ (strm t id).hold = leAt b 28 2 ∧ (strm t id).frames = st.frames ∧ t.jobs = s.jobs))
    ∧ (leAt b 2 1 = 2 → goodCancel b = true →
        (∀ k, s.clips.find? (fun k => k.is fn clip && k.stream == id) = some k → k.ended = false →
          ∃ t, exec (.cancel x) s = .next t ∧ Completed x.ring 0x0B x.tag s t 0 0 ∧ clipOf t fn clip = none)
        ∧ (∀ k, s.clips.find? (fun k => k.is fn clip && k.stream == id) = some k → k.ended = true →
          ∃ t, exec (.cancel x) s = .next t ∧ Completed x.ring 0x0B x.tag s t (if x.endWins then 1 else 0x11) 0 ∧ t.clips = s.clips)
        ∧ (s.clips.find? (fun k => k.is fn clip && k.stream == id) = none →
          ∃ t, exec (.cancel x) s = .next t ∧ Completed x.ring 0x0B x.tag s t 0x11 0 ∧ t.clips = s.clips))

/-- Tier 2, R283 to R285, R344, R345, R352, R480: an accepted PARTITION_SET gives the four partitions their records; RING_ASSIGN gives its range
of rings to a function at their reset values; a FENCE with nothing admitted completes, else it waits for those frames; QUERY writes the
selector's record to host memory and its length into RESULT.
Where the spec leaves a reading or an order open it follows the model's choice (log entries 77). -/
def Obligations.AssignmentSlips : Prop :=
  (∀ (s : State) (x : SlipIn) (bs : List Byte), x.block = .data bs → goodFields { align := 64 } x = true → x.len = 256 →
      let b := slice bs 0 256
      Accepts s x 0x0C {} → sender s x = 0 → goodParts s b = true →
      ((∀ p, p < 4 → assignment (partAt s p) = partOf b p) →
        ∃ t, exec (.partitionSet x) s = .next t ∧ Completed x.ring 0x0C x.tag s t 1 0 ∧ t.parts = s.parts)
      ∧ ((∃ p, p < 4 ∧ assignment (partAt s p) ≠ partOf b p) →
          (∀ c ∈ s.ctxs, c.2.part < 4 → assignment (partAt s c.2.part) = partOf b c.2.part) →
          (∀ c ∈ s.streams, c.2.state = .closed ∨ (c.2.part < 4 → assignment (partAt s c.2.part) = partOf b c.2.part)) →
        ∃ t, exec (.partitionSet x) s = .next t ∧ Completed x.ring 0x0C x.tag s t 0 0
          ∧ (∀ p, p < 4 → assignment (partAt t p) = partOf b p ∧ (partAt t p).c3 = (partAt s p).c3)
          ∧ t.ctxs = s.ctxs ∧ t.streams = s.streams ∧ t.cores = s.cores))
  ∧ (∀ (s : State) (x : SlipIn), goodFields { args := 5 } x = true → Accepts s x 0x0D {} →
      let a := x.args.toNat
      let first := a % 2 ^ 16
      let last := a / 2 ^ 16 % 2 ^ 16
      let fn := a / 2 ^ 32 % 256
      x.ring = 0 → 2 < first → first ≤ last → last < 4096 → fn ≤ 31 → fnPresent s fn = true →
      (∀ n, first ≤ n → n ≤ last → (ringAt s n).enable = false) → (∃ n, first ≤ n ∧ n ≤ last ∧ (ringAt s n).owner ≠ fn) →
      ∃ t, exec (.ringAssign x) s = .next t ∧ Completed 0 0x0D x.tag s t 0 0
        ∧ (∀ n, first ≤ n → n ≤ last → ringAt t n = if (ringAt s n).owner = fn then ringAt s n else { ringReset n with owner := fn })
        ∧ (∀ n, n ≠ 0 → n < first ∨ last < n → ringAt t n = ringAt s n))
  ∧ (∀ (s : State) (x : SlipIn), goodFields {} x = true → Accepts s x 0x0E {} →
      (framesOf s (sender s x) = [] → ∃ t, exec (.fenceSlip x) s = .next t ∧ Completed x.ring 0x0E x.tag s t 0 0)
      ∧ (framesOf s (sender s x) ≠ [] → (ringAt s x.ring).taken = [] → ∃ t, exec (.fenceSlip x) s = .next t
          ∧ (ringAt t x.ring).taken.map (fun k => (k.id, k.done, k.awaits)) = [(s.order, none, some (framesOf s (sender s x)))]
          ∧ t.streams = s.streams))
  ∧ ∀ (s : State) (x : SlipIn) (l : List Word), goodFields { align := 64, args := 4 } x = true → Accepts s x 0x0F {} →
      mailRecord s (sender s x) (x.args.toNat % 2 ^ 32) = some l → x.args.toNat % 2 ^ 32 ≤ 0xC0001 → x.args.toNat % 2 ^ 32 / 2 ^ 16 ≠ 0x0A →
      let b := recordBytes l
      b.length ≤ x.len.toNat → memWf 0 s.host.mem = true →
      ∃ t, exec (.query x) s = .next t ∧ Completed x.ring 0x0F x.tag s t 0 (BitVec.ofNat 256 b.length)
        ∧ (∀ i, i < b.length → memGet 0 t.host.mem (x.addr.toNat + i) = b.getD i 0)
        ∧ (∀ a, a < x.addr.toNat ∨ x.addr.toNat + b.length ≤ a → memGet 0 t.host.mem a = memGet 0 s.host.mem a)
        ∧ t.streams = s.streams ∧ t.ctxs = s.ctxs

/-- Tier 2, R446, R447, R449, R450, R465, Tables 17.7 and 17.8: SHUTDOWN closes every stream, removes every context, sets the marker and goes
to SHUT with OK; with the Kiln bit the pass begins; a group starts only within 90 % of the cap; KILN_DONE and KILN_SHED_TIMEOUT report,
set the marker and complete the slip; REPAIR in SHUT burns the entries that its list names and uses up rows and the challenge.
Where the spec leaves a reading or an order open it follows the model's choice (log entries 46, 51 to 53). -/
def Obligations.ShutdownAndKiln : Prop :=
  (∀ (s : State) (x : SlipIn), goodFields { args := 1 } x = true → x.args.toNat < 2 → Accepts s x 0x10 {} → x.ring = 0 → s.saf.arm = false →
      sealsWait s = false →
      (s.pwr.stage = 7 →
        (x.args.toNat = 0 → ∃ t, exec (.shutdown x) s = .next t ∧ Completed 0 0x10 x.tag s t 0 0 ∧ t.pwr.stage = 8 ∧ t.nv.marker = true
          ∧ t.ctxs = [] ∧ (∀ id, (strm t id).state = .closed) ∧ t.nv = { s.nv with marker := true })
        ∧ (x.args.toNat = 1 → ∃ t, exec (.kilnPass x) s = .next t ∧ t.pwr.stage = 9 ∧ t.pwr.kiln.running = true
          ∧ t.pwr.kiln.paused = (t.pwr.level != 0) ∧ t.pwr.kiln.receipt = some (0, s.order) ∧ t.ctxs = [] ∧ (∀ id, (strm t id).state = .closed)
          ∧ t.nv = s.nv ∧ ∃ k ∈ (ringAt t 0).taken, k.id = s.order))
      ∧ (s.pwr.stage = 8 → x.args.toNat = 0 → ∃ t, exec (.shutdown x) s = .next t ∧ Completed 0 0x10 x.tag s t 1 0 ∧ t.pwr = s.pwr ∧ t.nv = s.nv))
  ∧ (∀ (s : State) (g : Nat), s.pwr.resetting = false → s.pwr.kiln.running = true → s.pwr.kiln.paused = false → g ≠ 0 →
      s.pwr.kiln.groups.contains g = false →
      (10 * kilnPower [g] ≤ 9 * powerCap s → ∃ t, exec (.kilnGroupStart g) s = .next t ∧ t = { s with pwr := { s.pwr with kiln := t.pwr.kiln } }
        ∧ g ∈ t.pwr.kiln.groups ∧ 10 * kilnPower t.pwr.kiln.groups ≤ 9 * powerCap s ∧ (∀ k ∈ t.pwr.kiln.groups, k = g ∨ k ∈ s.pwr.kiln.groups))
      ∧ (9 * powerCap s < 10 * kilnPower [g] → exec (.kilnGroupStart g) s = .next s))
  ∧ (∀ (s : State) (es : List (BitVec 128)) (ms arrays units peak ring slip : Nat), s.pwr.resetting = false → s.pwr.kiln.running = true →
      s.pwr.kiln.receipt = some (ring, slip) →
      let seq := ((s.nv.record.map (·.seq)).getD 0) + 1
      (s.pwr.kiln.paused = false → ∃ t, exec (.kilnDone es ms arrays units peak) s = .next t ∧ t.pwr.stage = 8 ∧ t.nv.marker = true
        ∧ t.pwr.kiln.running = false ∧ t.pwr.kiln.report.map (fun r => (r.status, r.ms, r.entries.length, r.seq)) = some (0, ms, (es ++ dramEntries s).length, seq)
        ∧ t.nv.record.map (·.seq) = some seq ∧ (∀ r, t.nv.record = some r → r.entries.length ≤ 512)
        ∧ t.nv = { s.nv with record := t.nv.record, otherRecord := s.nv.record, marker := true }
        ∧ ∀ k ∈ (ringAt t ring).taken, k.id = slip → ∃ st, k.done = some (0, st, 0))
      ∧ (s.pwr.kiln.paused = true → ∃ t, exec (.kilnShedTimeout es ms arrays units peak) s = .next t ∧ t.pwr.stage = 8
        ∧ t.nv = { s.nv with marker := true } ∧ t.pwr.kiln.running = false ∧ t.pwr.kiln.report.map (fun r => (r.status, r.seq)) = some (1, 0)
        ∧ ∀ k ∈ (ringAt t ring).taken, k.id = slip → ∃ st, k.done = some (0, st, 0)))
  ∧ ∀ (s : State) (x : SlipIn) (b : List Byte) (l : List Nat), x.block = .data b → goodFields { align := 64 } x = true → x.len = 29920 →
      Accepts s x 0x11 {} → repairList (b.take 64) s = some l → s.pwr.stage = 8 →
      (authGood 0x11 (slice b 0 64) (slice b 64 29856) true s = true → l.length ≤ s.nv.rowsLeft →
        ∃ t, exec (.repair x) s = .next t ∧ Completed x.ring 0x11 x.tag s t 0 0 ∧ t.sec = { s.sec with challenge := none }
          ∧ t.nv.rowsLeft = s.nv.rowsLeft - l.length ∧ t.nv.fused = s.nv.fused ++ l.map (fun i => (repairEntries s).getD i 0)
          ∧ t.nv.lcs = s.nv.lcs ∧ t.nv.secver = s.nv.secver ∧ (repairEntries t).length = (repairEntries s).length)
      ∧ (authGood 0x11 (slice b 0 64) (slice b 64 29856) true s = false →
        ∃ t, exec (.repair x) s = .next t ∧ Completed x.ring 0x11 x.tag s t 0x15 0 ∧ t.nv = s.nv ∧ t.sec = { s.sec with challenge := none })

/-- Tier 2, R457, R461 to R467, Tables 18.5 to 18.8: ATTEST queues a report and ATTEST_SIGN_DONE writes the oldest with its nonce and
completes it; IMAGE_UPDATE holds the image for programming and IMAGE_UPDATE_DONE puts it into flash, or leaves no valid image behind a bad
readback; TRANSITION and DEBUG_UNLOCK end in a reset with DRAM wiped, the life cycle at the target and the debug marks set; HOST_BOOT_GO
starts a verification and a failed one leaves the code and waits.
Where the spec leaves a reading or an order open it follows the model's choice (log entries 53 to 55). -/
def Obligations.LifecycleSlips : Prop :=
  (∀ (s : State) (x : SlipIn) (bs : List Byte), x.block = .data bs → goodFields { align := 64 } x = true →
      let b := slice bs 0 128
      let op := leAt bs 4 1
      (x.len = 128 ∨ x.len = 29984) → goodLifecycle x.len.toNat b s = true → Accepts s x 0x12 {} →
      (op = 0 → s.nv.lcs = 1 ∨ s.nv.lcs = 2 → s.sec.attq.length < 9 → ∃ t, exec (.attest x) s = .next t
        ∧ t.sec = { s.sec with attq := s.sec.attq ++ [(x.ring, s.order, leAt bs 28 8, BitVec.ofNat 512 (leAt bs 40 64))] } ∧ t.nv = s.nv
        ∧ ∃ k ∈ (ringAt t x.ring).taken, k.id = s.order ∧ k.done = none)
      ∧ (∀ e, op = 1 → x.extra = .data e → x.ring = 0 →
          let has := leAt bs 16 8 != 0
          let image := slice e 0 (leAt bs 24 4)
          let board := slice e (leAt bs 24 4) 256
          (has = true → imageCheck (leAt bs 24 4) image s = 0) → (leAt bs 28 8 ≠ 0 → goodBoard board = true) →
          ∃ t, exec (.imageUpdate x) s = .next t ∧ t.nv = s.nv
            ∧ t.sec = { s.sec with update := some (0, s.order, if has then image else [], if leAt bs 28 8 != 0 then board else []) })
      ∧ (op = 2 → x.ring = 0 → sealsWait s = false → s.saf.arm = false →
          let target := leAt bs 5 1
          target ∈ targetsOf s.nv.lcs →
          (target = 3 → s.nv.lcs ≠ 0 → authGood 0x12 (slice bs 0 128) (slice bs 128 29856) false s = true) →
          ∃ t, exec (.transition x) s = .next t ∧ t.nv.lcs = target ∧ t.pwr.resetting = true ∧ t.pwr.stage = 0 ∧ t.mem.dram = []
            ∧ t.nv = { keysFor target (BitVec.ofNat 512 (leAt bs 40 64)) s.nv with lcs := target }
            ∧ t.ctxs = [] ∧ t.streams = [] ∧ t.sec.challenge = none)
      ∧ (op = 3 → x.ring = 0 → sealsWait s = false → s.saf.arm = false → authGood 0x12 (slice bs 0 128) (slice bs 128 29856) true s = true →
          ∃ t, exec (.debugUnlock x) s = .next t ∧ t.sec.jtag = true ∧ t.sec.debug = true ∧ t.nv = s.nv ∧ t.mem.dram = []
            ∧ t.pwr.resetting = true ∧ t.pwr.stage = 0 ∧ t.host.linkUp = s.host.linkUp))
  ∧ (∀ (s : State) (ring slip addr : Nat) (nonce : BitVec 512) (rest : List (Nat × Nat × Nat × BitVec 512)), running s = true →
      s.sec.attq = (ring, slip, addr, nonce) :: rest →
      ∃ t, exec .attestSignDone s = .next t ∧ t.sec = { s.sec with attq := rest } ∧ t.nv = s.nv
        ∧ (s.host.linkUp = true → memWf 0 s.host.mem = true →
            (∀ i, i < 512 → memGet 0 t.host.mem (addr + i) = (attestBody s nonce).getD i 0)
            ∧ ∀ i, i < 64 → memGet 0 t.host.mem (addr + 32 + i) = (leBytes 64 nonce.toNat).getD i 0)
        ∧ (s.host.linkUp = false → t.host.mem = s.host.mem)
        ∧ ∀ k ∈ (ringAt t ring).taken, k.id = slip → ∃ st, k.done = some (0, st, 0))
  ∧ (∀ (s : State) (ring slip : Nat) (image board : List Byte), running s = true → s.sec.update = some (ring, slip, image, board) → image ≠ [] →
      (∃ t, exec (.imageUpdateDone true) s = .next t ∧ t.nv = { s.nv with flash := image, board := if board.isEmpty then s.nv.board else board }
        ∧ t.sec.update = none ∧ ∀ k ∈ (ringAt t ring).taken, k.id = slip → ∃ st, k.done = some (0, st, 0))
      ∧ ∃ t, exec (.imageUpdateDone false) s = .next t ∧ t.nv = { s.nv with flash := [] } ∧ t.sec.update = none
        ∧ ∀ k ∈ (ringAt t ring).taken, k.id = slip → ∃ st, k.done = some (0x30, st, 0))
  ∧ ∀ (s : State) (v : Word), s.pwr.resetting = false → s.pwr.stage = 2 →
      (s.host.linkUp = true → blockUp s 100 = true → nbit v.toNat 31 = true → s.sec.verifying = false → 29936 ≤ bits v.toNat 21 0 → bits v.toNat 21 0 ≤ 2097152 →
        ∃ t, exec (.hostBootGo 0 v) s = .next t ∧ t = { s with sec := { s.sec with verifying := true, hbLen := bits v.toNat 21 0 } })
      ∧ (s.sec.verifying = true →
        let image := memBytes 0 s.sec.staging 0 s.sec.hbLen
        (imageCheck s.sec.hbLen image s ≠ 0 → ∃ t, exec .hostImageVerified s = .next t
          ∧ t = { s with sec := { s.sec with verifying := false, hbCode := imageCheck s.sec.hbLen image s } })
        ∧ (imageCheck s.sec.hbLen image s = 0 → s.pwr.facts.isSome → ∃ t, exec .hostImageVerified s = .next t ∧ t.sec.verifying = false
          ∧ t.pwr.hostBoot = true ∧ t.pwr.stage ≠ 2 ∧ t.sec.imageSecver = leAt image 6 1 ∧ t.nv = s.nv))

/-- Tier 2, R337 to R342, R346, R347, R353, Tables 13.3, 13.4 and 13.8: a doorbell moves the host's index of an enabled ring, a bad one is
counted; RING_CFG starts a ring anew, is refused and counted, or disables it; RECEIPT_WRITE writes the oldest complete receipt with its
PHASE bit and moves the receipt ring's index; an entry that could not be read completes with BAD_SLIP and AER is told; moderation and unmasking send
the message; a read that times out completes the slip with
TIMEOUT and counts the late completion.
Where the spec leaves a reading or an order open it follows the model's choice (log entries 38, 82, 83). -/
def Obligations.RingsAndReceipts : Prop :=
  (∀ (s : State) (fn n : Nat) (v : Word), ownsRing s fn n = true →
      let r := ringAt s n
      (r.enable = false ∨ r.size ≤ v.toNat →
        ∃ t, exec (.doorbell fn n v []) s = .next t ∧ t = setRing n { r with baddb := satInc r.baddb } s)
      ∧ (r.enable = true → v.toNat < r.size → r.kind = 0 →
        (∃ t, exec (.doorbell fn n v []) s = .next t ∧ t = setRing n { r with tail := v.toNat } s)
        ∧ ∀ u : RawSlip, (u.unread = true → mayTake (setRing n { r with tail := v.toNat } s) n 0 {} = true →
              refusal s n 0 {} = none → ∃ t, exec (.doorbell fn n v [u]) s = .next t ∧ Completed n 0 0 s t 0x10 0
                ∧ t.host.advisory = satInc s.host.advisory)
          ∧ (u.unread = false → (u.opcode = 0 ∨ 0x12 < u.opcode.toNat) → mayTake (setRing n { r with tail := v.toNat } s) n u.opcode.toNat {} = true →
            refusal s n u.opcode.toNat {} = none →
            ∃ t, exec (.doorbell fn n v [u]) s = .next t ∧ Completed n u.opcode.toNat u.tag s t 0x10 0))
      ∧ (r.enable = true → v.toNat < r.size → r.kind ≠ 0 →
        (r.span r.head r.tail < r.span v.toNat r.tail →
          ∃ t, exec (.doorbell fn n v []) s = .next t ∧ t = setRing n { r with baddb := satInc r.baddb } s)
        ∧ (r.span v.toNat r.tail ≤ r.span r.head r.tail →
          ∃ t, exec (.doorbell fn n v []) s = .next t ∧ (ringAt t n).head = v.toNat ∧ (ringAt t n).tail = r.tail ∧ (ringAt t n).baddb = r.baddb
            ∧ (∀ k, k ≠ n → ringAt t k = ringAt s k) ∧ t = { s with host := t.host }))
      ∧ (nbit v.toNat 31 = true →
        let q := cfgFields n v r
        (r.enable = false → refusesEnable s q = false → ∃ t, exec (.ringEnable fn n v) s = .next t
          ∧ (let a := ringAt t n
             a.enable = true ∧ a.head = 0 ∧ a.tail = 0 ∧ a.phase = true ∧ a.seq = 0 ∧ a.kind = q.kind ∧ a.s = q.s ∧ a.pair = q.pair ∧ a.vector = q.vector
               ∧ a.base = r.base ∧ a.owner = r.owner ∧ a.spans = [])
          ∧ (∀ k, k ≠ n → ringAt t k = ringAt s k) ∧ t = { s with host := t.host, err := t.err })
        ∧ (r.enable = false → refusesEnable s q = true → ∃ t, exec (.ringEnable fn n v) s = .next t ∧ (ringAt t n).enable = false
          ∧ (ringAt t n).baddb = satInc r.baddb ∧ ∀ k, k ≠ n → ringAt t k = ringAt s k)
        ∧ (r.enable = true → ∃ t, exec (.ringEnable fn n v) s = .next t ∧ t = { s with err := t.err }))
      ∧ (nbit v.toNat 31 = false → r.enable = true → (v &&& 0x7EFFF7FF).toNat = r.cfg - 2 ^ 31 →
        (keepsRing s n r = false → ∃ t, exec (.ringDisable fn n v) s = .next t
          ∧ ringAt t n = { r with enable := false, unannounced := 0, merges := [] } ∧ (∀ k, k ≠ n → ringAt t k = ringAt s k)
          ∧ t = { s with host := t.host, err := t.err })
        ∧ (keepsRing s n r = true → ∃ t, exec (.ringDisable fn n v) s = .next t ∧ t = { s with err := t.err })))
  ∧ (∀ (s : State) (n : Nat) (k : Taken) (rest : List Taken) (d : Nat × Nat × BitVec 256), s.host.linkUp = true → n < 4096 →
      (ringAt s n).taken = k :: rest → k.done = some d → (ringAt s n).pair ≠ n →
      let p := ringAt s (ringAt s n).pair
      let a := p.base.toNat + 64 * p.tail
      p.enable = true → p.kind = 1 →
      (p.full = false → memWf 0 s.host.mem = true → ∃ t, exec (.receiptWrite n) s = .next t ∧ (ringAt t n).taken = rest
        ∧ (ringAt t (ringAt s n).pair).tail = (p.tail + 1) % p.size
        ∧ (ringAt t (ringAt s n).pair).phase = (if (p.tail + 1) % p.size = 0 then !p.phase else p.phase)
        ∧ (∀ i, i < 63 → memGet 0 t.host.mem (a + i) = (receiptBytes n k d).getD i 0)
        ∧ memGet 0 t.host.mem (a + 63) = (if p.phase then 1 else 0)
        ∧ (∀ x, x < a ∨ a + 64 ≤ x → memGet 0 t.host.mem x = memGet 0 s.host.mem x) ∧ t = { s with host := t.host })
      ∧ (p.full = true → exec (.receiptWrite n) s = .next s))
  ∧ (∀ (s : State) (n : Nat), s.host.linkUp = true → n < 4096 → (ringAt s n).enable = true → (ringAt s n).kind ≠ 0 → (ringAt s n).modTime ≠ 0 →
      0 < (ringAt s n).unannounced →
      let r := ringAt s n
      let f := fnAt s r.owner
      ∃ t, exec (.msixModerationExpiry n) s = .next t ∧ ringAt t n = { r with unannounced := 0, merges := [] }
        ∧ (f.msixEnable = true → f.fnMask = false → r.vector ∈ f.unmasked → t.host.msix = { fn := r.owner, vector := r.vector } :: s.host.msix)
        ∧ (f.msixEnable = true → f.fnMask = true ∨ r.vector ∉ f.unmasked → t.host.msix = s.host.msix ∧ r.vector ∈ (fnAt t r.owner).pendingVec)
        ∧ t = { s with host := t.host } ∧ t.host.mem = s.host.mem)
  ∧ (∀ (s : State) (fn v : Nat) (cfg : PciCfg), s.host.linkUp = true → fnPresent s fn = true → v < msixVectors fn →
      ∃ t, exec (.msixUnmask fn v cfg) s = .next t ∧ v ∈ (fnAt t fn).unmasked ∧ (fnAt t fn).msixEnable = cfg.msixEnable ∧ (fnAt t fn).fnMask = cfg.fnMask
        ∧ (v ∈ (fnAt s fn).pendingVec → cfg.msixEnable = true → cfg.fnMask = false → { fn := fn, vector := v } ∈ t.host.msix ∧ v ∉ (fnAt t fn).pendingVec)
        ∧ (cfg.fnMask = true → t.host.msix = s.host.msix ∧ (fnAt t fn).pendingVec = (fnAt s fn).pendingVec)
        ∧ (∀ n, ringAt t n = ringAt s n) ∧ t = { s with host := t.host })
  ∧ ∀ (s : State) (n : Nat) (u : Option RawSlip), n < 4096 →
      let x := u.getD { opcode := 0, tag := 0 }
      mayTake s n x.opcode.toNat {} = true → refusal s n x.opcode.toNat {} = none →
      ∃ t, exec (.pcieCompletionTimeout n u) s = .next t ∧ Completed n x.opcode.toNat x.tag s t 0x21 0 ∧ t.host.lateCpl = satInc s.host.lateCpl

/-- Tier 2, R335, R355, R356, R358, Table 13.11: BAR2 writes and reads the selected partition's DRAM, or the staging area while the device
waits for an image; a function-level reset of a VF returns its rings and its own state to reset and closes what it owns; PF0's ends VF
Enable, every window and the lost link; a lost link discards and counts what waits; its return disables every ring, and its HOST_LINK
event finds none and is counted as dropped.
Where the spec leaves a reading or an order open it follows the model's choice (log entries 64, 65). -/
def Obligations.HostLinkRules : Prop :=
  (∀ (s : State) (off : Nat) (b : List Byte), stagingMapped s = false → bar2Mapped s = true → ChannelsFit s → memWf 0 s.mem.dram = true →
      off + b.length ≤ 2 ^ s.host.bar2Size →
      (∀ i k, i < b.length → keyOf s s.host.bar2Part (off + i) = some k → dramPoisoned s k = false) →
      ∃ t, exec (.bar2Write off b) s = .next t
        ∧ (∀ i k, i < b.length → keyOf s s.host.bar2Part (off + i) = some k → dramByte t k = b.getD i 0)
        ∧ (∀ k, (∀ i, i < b.length → keyOf s s.host.bar2Part (off + i) ≠ some k) → dramByte t k = dramByte s k)
        ∧ t = { s with mem := t.mem, host := { s.host with bar2Written := t.host.bar2Written } })
  ∧ (∀ (s : State) (off : Nat) (b : List Byte), stagingMapped s = true → memWf 0 s.sec.staging = true → off + b.length ≤ 2 ^ s.host.bar2Size →
      off + b.length ≤ 2097152 →
      ∃ t, exec (.bar2Write off b) s = .next t ∧ (∀ i, i < b.length → memGet 0 t.sec.staging (off + i) = b.getD i 0)
        ∧ (∀ x, x < off ∨ off + b.length ≤ x → memGet 0 t.sec.staging x = memGet 0 s.sec.staging x)
        ∧ t = { s with sec := { s.sec with staging := t.sec.staging } })
  ∧ (∀ (s : State) (off n : Nat), s.host.linkUp = true → off + n ≤ 2 ^ s.host.bar2Size →
      ∃ t, exec (.bar2Read off n) s = .next t ∧ t = { s with host := { s.host with bar2Data := t.host.bar2Data, bar2Poisoned := t.host.bar2Poisoned } }
        ∧ (stagingMapped s = false → bar2Mapped s = true → t.host.bar2Data = dramRead s s.host.bar2Part off n
            ∧ (t.host.bar2Poisoned = true ↔ ∃ i k, i < n ∧ keyOf s s.host.bar2Part (off + i) = some k ∧ dramPoisoned s k = true))
        ∧ (stagingMapped s = false → bar2Mapped s = false → t.host.bar2Data = List.replicate n 0 ∧ t.host.bar2Poisoned = false))
  ∧ (∀ (s : State) (fn : Nat), s.host.linkUp = true → s.pwr.resetting = false → fn < 32 →
      (fn ≠ 0 → fn ≤ s.host.numVfs → ∃ t, exec (.functionLevelReset fn) s = .next t ∧ fnAt t fn = {} ∧ t.host.numVfs = s.host.numVfs
        ∧ (∀ n, (ringAt s n).owner = fn → ringAt t n = { ringReset n with owner := fn })
        ∧ (∀ n, (ringAt s n).owner ≠ fn → (ringAt t n).head = (ringAt s n).head ∧ (ringAt t n).enable = (ringAt s n).enable
            ∧ (ringAt t n).owner = (ringAt s n).owner)
        ∧ (s.err.c4 = false → (∀ id, (strm s id).owner = fn → (strm t id).state = .closed)
            ∧ ∀ id c, ctxAt s id = some c → c.owner = fn → ctxAt t id = none))
      ∧ (fn = 0 → ∃ t, exec (.functionLevelReset fn) s = .next t ∧ t.host.numVfs = 0 ∧ t.host.linkLost = false ∧ t.host.bar2Part = 1
        ∧ (∀ n, (tget t.fab.wins {} n).valid = false) ∧ ∀ n, (ringAt s n).owner < 32 → (ringAt t n).enable = false))
  ∧ (∀ (s : State), s.host.linkUp = true → s.pwr.resetting = false →
      ∃ t, exec .hostLinkDown s = .next t ∧ t.host.linkUp = false ∧ t.host.linkLost = true
        ∧ t.host.discReceipts = satInc s.host.discReceipts ((s.host.rings.map fun r => (r.2.taken.filter fun k => k.done.isSome).length).sum)
        ∧ t.host.discFolios = satInc s.host.discFolios ((s.streams.map fun x => (x.2.frames.filter (·.sealed)).length).sum)
        ∧ t.host.mem = s.host.mem ∧ t.host.msix = s.host.msix ∧ t.host.inta = false)
  ∧ ∀ (s : State), s.host.linkUp = false → s.host.linkLost = true → s.pwr.resetting = false →
      ∃ t, exec .hostLinkUp s = .next t ∧ t.host.linkUp = true ∧ (∀ n, (ringAt t n).enable = false) ∧ t.err.evdrop = satInc s.err.evdrop
        ∧ t.host.linkLost = true ∧ t.streams = s.streams ∧ t.jobs = s.jobs ∧ t.mem = s.mem

/-- Tier 2, R360, R361, R364 to R367, R369, R374, R381 to R385: a trained link comes up with its width and neighbour, or isolated when its
root disagrees; a silent one goes down, a draining one to training; replays, FEC and RETRAIN take links to their states; the walk elects
the lowest serial, which takes (0, 0), and every other device the coordinates it is offered; windows become valid, are refused, or are
cleared; level 4 takes every link down.
Where the spec leaves a reading or an order open it follows the model's choice (log entries 60, 61, 63). -/
def Obligations.FabricLinks : Prop :=
  (∀ (s : State) (n w : Nat) (nb : BitVec 16) (root : Dword), fabricRuns s = true → n ∈ fabPorts s → (fabPort s n).state < 2 → (w = 1 ∨ w = 2) →
      let isolated := s.fab.walk = 2 ∧ nb ≠ 0xFFFE ∧ root ≠ s.fab.lowest
      ∃ t, exec (.fabLinkUp n w nb root) s = .next t ∧ (isolated → (fabPort t n).state = 3 ∧ t.fab.split = true)
        ∧ (¬ isolated → (fabPort t n).state = 2 ∧ t.fab.split = s.fab.split)
        ∧ (fabPort t n).width = w ∧ (fabPort t n).neighbour = nb ∧ (fabPort t n).root = root
        ∧ (∀ k, k ≠ n → linkOf t k = linkOf s k) ∧ t.mem = s.mem ∧ t.cores = s.cores)
  ∧ (∀ (s : State) (n : Nat), ready s = true → portUp s n = true →
      (s.fab.enable = true → ∃ t, exec (.fabLinkDown n) s = .next t ∧ (fabPort t n).state = (if (fabPort s n).state = 4 then 1 else 0)
        ∧ (fabPort t n).neighbour = 0xFFFE ∧ (fabPort t n).used = [] ∧ ∀ k, k ≠ n → linkOf t k = linkOf s k)
      ∧ (∃ t, exec (.flitReplay n false) s = .next t ∧ (fabPort t n).replays = 1 ∧ (fabPort t n).state = (fabPort s n).state
          ∧ t.fab.replay = satInc s.fab.replay)
      ∧ ∃ t, exec (.flitReplay n true) s = .next t ∧ t.fab.replay = satInc s.fab.replay
          ∧ ((fabPort s n).replays < 7 → (fabPort t n).replays = (fabPort s n).replays + 1 ∧ (fabPort t n).state = (fabPort s n).state)
          ∧ (7 ≤ (fabPort s n).replays → (fabPort t n).state = 1))
  ∧ (∀ (s : State) (n : Nat) (ok : Bool), fabricRuns s = true → n ∈ fabPorts s →
      ((fabPort s n).state < 2 → ∃ t, exec (.fabTrainRetry n ok) s = .next t ∧ (fabPort t n).state = (if ok then 1 else 0))
      ∧ ((fabPort s n).state = 2 → ∃ t, exec (.fecRetrain n) s = .next t ∧ (fabPort t n).state = 4 ∧ (fabPort t n).draining = true))
  ∧ (∀ (s : State) (v : Word), fabReaches s 0 = true → fabricRuns s = true →
      (nbit v.toNat 0 = false → bits v.toNat 7 4 ≠ 0 → ∃ t, exec (.retrain 0 v) s = .next t
        ∧ ∀ n, n < 4 → (fabPort t n).state = if nbit v.toNat (4 + n) = true ∧ (fabPort s n).state = 2 then 4 else (fabPort s n).state)
      ∧ (nbit v.toNat 0 = true → bits v.toNat 7 4 = 0 →
        ((∀ w ∈ s.fab.wins, w.2.valid = false) → ∃ t, exec (.walk 0 v) s = .next t ∧ t.fab.walk = 1 ∧ t.fab.root = false ∧ t.fab.call = 0xFFFE
          ∧ t.fab.lowest = s.nv.serial ∧ t.fab.peers = [] ∧ t = { s with fab := t.fab })
        ∧ ((∃ w ∈ s.fab.wins, w.2.valid = true) → exec (.walk 0 v) s = .next s)))
  ∧ (∀ (s : State), (s.fab.linksDownDue = true → s.pwr.level = 4 → ∃ t, exec .shedLinksDown s = .next t
        ∧ (∀ n, n < 4 → (fabPort t n).state = 0) ∧ t.fab.linksDownDue = false ∧ t.pwr = s.pwr)
      ∧ (fabricRuns s = true → s.fab.walk = 1 →
        (∃ t, exec .catSend s = .next t ∧ (∃ l, t.fab.out = s.fab.out ++ l) ∧ (∀ n, linkOf t n = linkOf s n)
          ∧ t = { s with fab := { s.fab with ports := t.fab.ports, out := t.fab.out, held := t.fab.held, fwd := t.fab.fwd }, islands := t.islands }
          ∧ ∀ n ∈ fabPorts s, portUp s n = true → ∃ p, p.type = 0x01
              ∧ p.payload = leBytes 32 (Config.catPayload s.nv.serial s.fab.lowest s.fab.domain s.fab.call).toNat
              ∧ ((n, p) ∈ t.fab.out ∨ { input := 4, pkt := p, ways := [(n, false)] } ∈ t.fab.held)
              ∧ (ClearPort s n → (n, p) ∈ t.fab.out))
        ∧ (s.fab.call = 0xFFFE → s.fab.lowest = s.nv.serial → ∃ t, exec .rootElection s = .next t ∧ t.fab.root = true ∧ t.fab.call = 0
          ∧ t.fab.walk = 2 ∧ t.fab.walks = satInc s.fab.walks)
        ∧ (s.fab.lowest ≠ s.nv.serial → exec .rootElection s = .next s)))
  ∧ (∀ (s : State) (n x y : Nat) (serial lowest : Dword) (dom : Byte) (call : BitVec 16), fabricRuns s = true → portUp s n = true →
      (∃ t, exec (.cat n serial lowest dom call) s = .next t
        ∧ t.fab.lowest = (if s.fab.walk = 1 ∧ lowest.toNat < s.fab.lowest.toNat then lowest else s.fab.lowest)
        ∧ (fabPort t n).serial = serial ∧ (fabPort t n).domain = dom ∧ (fabPort t n).root = lowest ∧ (fabPort t n).neighbour = call
        ∧ (fabPort t n).state = (fabPort s n).state
        ∧ (call ≠ 0xFFFE → let p := tget t.fab.peers {} call.toNat
            p.known = true ∧ p.serial = serial ∧ p.domain = dom ∧ p.ports = (tget s.fab.peers {} call.toNat).ports)
        ∧ t = { s with fab := t.fab })
      ∧ (x < s.fab.sx → y < s.fab.sy →
        (s.fab.call = 0xFFFE → ∃ t, exec (.assign n x y) s = .next t ∧ t.fab.call = callAt x y ∧ t.fab.walk = 2 ∧ t.fab.root = s.fab.root)
        ∧ (s.fab.call ≠ 0xFFFE → s.fab.call = callAt x y → exec (.assign n x y) s = .next s)
        ∧ (s.fab.call ≠ 0xFFFE → s.fab.call ≠ callAt x y → ∃ t, exec (.assign n x y) s = .next t ∧ t.fab.call = s.fab.call
          ∧ (fabPort t n).state = 3 ∧ t.fab.miswired = true)))
  ∧ (∀ (s : State) (call ports : BitVec 16), fabricRuns s = true → call ≠ 0xFFFE → call ≠ s.fab.call →
      ∃ t, exec (.linkstate call ports) s = .next t ∧ (tget t.fab.peers {} call.toNat).ports = ports
        ∧ (∀ k, k ≠ call.toNat → tget t.fab.peers {} k = tget s.fab.peers {} k) ∧ t.fab.ports = s.fab.ports ∧ t.fab.wins = s.fab.wins)
  ∧ ∀ (s : State) (n : Nat) (v : Word), fabReaches s 0 = true →
      (n < 256 →
        let w := tget s.fab.wins {} n
        (w.valid = false → nbit v.toNat 31 = true → ∃ t, exec (.fabWinValid 0 n v) s = .next t
          ∧ tget t.fab.wins {} n = { winCtl v.toNat w with valid := !refusesWindow s n (winCtl v.toNat w) }
          ∧ (∀ k, k ≠ n → tget t.fab.wins {} k = tget s.fab.wins {} k) ∧ t = { s with fab := { s.fab with wins := t.fab.wins }, err := t.err })
        ∧ (w.valid = true → nbit v.toNat 31 = true → ∃ t, exec (.fabWinValid 0 n v) s = .next t ∧ t.fab = s.fab)
        ∧ (w.valid = true → nbit v.toNat 31 = false → winCtl v.toNat w = w → ∃ t, exec (.fabWinClear 0 n v) s = .next t
          ∧ tget t.fab.wins {} n = { w with valid := false } ∧ ∀ k, k ≠ n → tget t.fab.wins {} k = tget s.fab.wins {} k)
        ∧ (w.valid = true → nbit v.toNat 31 = false → winCtl v.toNat w ≠ w → ∃ t, exec (.fabWinClear 0 n v) s = .next t ∧ t.fab = s.fab))
      ∧ (nbit v.toNat 31 = true →
        (s.fab.lock = true → exec (.fabCfgEnable 0 v) s = .next s)
        ∧ (s.fab.lock = false → goodFabCfg v.toNat = true → ∃ t, exec (.fabCfgEnable 0 v) s = .next t ∧ t.fab.enable = true
          ∧ t.fab.torus = nbit v.toNat 30 ∧ t.fab.sx = bits v.toNat 15 8 + 1 ∧ t.fab.sy = bits v.toNat 7 0 + 1 ∧ t.fab.enabledOnce = true
          ∧ (s.fab.enabledOnce = false → t.fab.walk = 1 ∧ t.fab.call = 0xFFFE) ∧ t.mem = s.mem ∧ t.cores = s.cores))

/-- Tier 2, R363, R364, R368, R371, R376 to R379, Tables 14.2 to 14.5: once the flits before it are in, a packet for another device goes on with
one hop less where its buffer credits are held and waits in its input buffer where they are not, and an ill-formed one is dropped and
counted; a request to an EXPORT window is answered with DATA, ACK or a NAK of its reason, and a write lands; DATA and ACK end the access
of a core, which goes on with the next instruction, and with the ACK of a COMMIT its copy counts as published; NAK 3 sends a packet again
once; every other NAK and the timeout fault the core.
Where the spec leaves a reading or an order open it follows the model's choice (log entries 42, 60, 62). -/
def Obligations.FabricAccesses : Prop :=
  (∀ (s : State) (n : Nat) (p : Packet),
      let s0 := flitsArrive s
      let h : Nat → Bool → HeldPacket := fun m esc => { input := n, pkt := p, ways := [(m, esc)] }
      arrives s0 n p = true → p.dst ≠ s0.fab.call →
      (dropsPacket p = true → ∃ t, exec (.forward n p) s = .next t ∧ t = { s0 with fab := { s0.fab with drop := satInc s0.fab.drop } })
      ∧ (dropsPacket p = false → s0.fab.call ≠ 0xFFFE → p.dst ≠ 0xFFFF → ∀ m esc, egress s0 p.dst = some (m, esc) → s0.fab.held = [] →
          m < 4 → 2 ≤ (fabPort s0 m).state →
          let q := leaving s0 (h m esc) m esc
          q = { p with ttl := p.ttl - 1, ctrl := q.ctrl, hcrc := q.hcrc } ∧ q.ctrl.toNat % 4 = p.ctrl.toNat % 4 ∧ hcrcOk q = true
          ∧ ∃ t, exec (.forward n p) s = .next t ∧ t = { s0 with fab := t.fab, islands := t.islands }
            ∧ (hasCredits s0 m q = true → t.fab.out = s0.fab.out ++ [(m, q)] ∧ t.fab.fwd = satInc s0.fab.fwd ∧ t.fab.held = []
                ∧ tget (fabPort t m).used 0 (bufferOf q) = tget (fabPort s0 m).used 0 (bufferOf q) + (32 + p.payload.length + 63) / 64)
            ∧ (hasCredits s0 m q = false → t.fab.out = s0.fab.out ∧ t.fab.fwd = s0.fab.fwd ∧ t.fab.held = [h m esc]))
      ∧ (dropsPacket p = false → s0.fab.call ≠ 0xFFFE → p.dst = 0xFFFF → ∃ t, exec (.forward n p) s = .next t
          ∧ ∀ m ∈ fabPorts s0, m ≠ n → portUp s0 m = true → ClearPort s0 m →
            ∃ q, (m, q) ∈ t.fab.out ∧ q.ttl = p.ttl - 1 ∧ q.payload = p.payload ∧ q.dst = p.dst))
  ∧ (∀ (s : State) (n m : Nat) (esc : Bool) (p : Packet),
      let s0 := flitsArrive s
      arrives s0 n p = true → p.dst = s0.fab.call → dropsPacket p = false → pcrcOk p = true → egress s0 p.src = some (m, esc) → m < 4 →
      ClearPort s0 m →
      let answered := fun (t : State) (type off : Nat) (b : List Byte) =>
        ∃ q, t.fab.out = s0.fab.out ++ [(m, q)] ∧ q.type.toNat = type ∧ q.txid = p.txid ∧ q.dst = p.src ∧ q.src = s0.fab.call ∧ q.payload = b ∧ q.offset.toNat = off
          ∧ hcrcOk q = true ∧ pcrcOk q = true
      let len := p.payload.length
      let x := tget s0.fab.wins {} p.win.toNat
      (∀ w, p.type = 0x10 → refusalOf s0 p p.rlen.toNat false = none → exportPlace s0 p = some w → exportPoisoned s0 w.2.1 w.2.2 p.rlen.toNat = false →
        ∃ t, exec (.read n p) s = .next t ∧ t.mem = s.mem ∧ t.cores = s.cores
          ∧ answered t 0x20 0 ((List.range p.rlen.toNat).map fun i => ((shareKey s0 w.2.1 (w.2.2 + i)).map (dramByte s0)).getD 0))
      ∧ (∀ r, p.type = 0x10 → refusalOf s0 p p.rlen.toNat false = some r →
        ∃ t, exec (.read n p) s = .next t ∧ answered t 0x22 r [] ∧ t.fab.nakCount = satInc s.fab.nakCount ∧ t.mem = s.mem)
      ∧ (∀ w, p.type = 0x11 → refusalOf s0 p len true = none → exportPlace s0 p = some w → writeLost s0 w.2.1 w.2.2 len = false →
        memWf 0 s.mem.dram = true → (∀ i k, i < len → shareKey s0 w.2.1 (w.2.2 + i) = some k → dramPoisoned s0 k = false
            ∧ ∀ j, j < len → shareKey s0 w.2.1 (w.2.2 + j) = some k → j = i) →
        ∃ t, exec (.write n p) s = .next t ∧ answered t 0x21 0 []
          ∧ (∀ i k, i < len → shareKey s0 w.2.1 (w.2.2 + i) = some k → dramByte t k = p.payload.getD i 0)
          ∧ (∀ k, (∀ i, i < len → shareKey s0 w.2.1 (w.2.2 + i) ≠ some k) → dramByte t k = dramByte s k) ∧ t.cores = s.cores)
      ∧ (∀ r, p.type = 0x11 → refusalOf s0 p len true = some r →
        ∃ t, exec (.write n p) s = .next t ∧ answered t 0x22 r [] ∧ t.fab.nakCount = satInc s.fab.nakCount ∧ t.mem = s.mem)
      ∧ (∀ r, p.type = 0x12 → refusalOf s0 p 0 true = none → residencyOf s0 x.sigClu x.ctx = some r → x.sigEn = true → x.sigSem < r.nsem →
        tget (cluAt s0 x.sigClu).sems 0 (r.semBase + x.sigSem) < 65535 →
        (∀ i, i < 5 → ∀ q, (coreAt s (5 * x.sigClu + i)).part = some q → ∀ a b d, q.wait ≠ .semw a b d) →
        ∃ t, exec (.writeSig n p) s = .next t ∧ answered t 0x21 0 []
          ∧ tget (cluAt t x.sigClu).sems 0 (r.semBase + x.sigSem) = tget (cluAt s x.sigClu).sems 0 (r.semBase + x.sigSem) + 1
          ∧ (∀ k, k ≠ r.semBase + x.sigSem → tget (cluAt t x.sigClu).sems 0 k = tget (cluAt s x.sigClu).sems 0 k) ∧ t.mem = s.mem ∧ t.cores = s.cores))
  ∧ (∀ (s : State) (n m : Nat) (esc : Bool) (p : Packet),
      let s0 := flitsArrive s
      arrives s0 n p = true → p.dst = s0.fab.call → dropsPacket p = false → pcrcOk p = false → egress s0 p.src = some (m, esc) → m < 4 →
      ClearPort s0 m →
      let refused := fun (t : State) => (∃ q, t.fab.out = s0.fab.out ++ [(m, q)] ∧ q.type = 0x22 ∧ q.txid = p.txid ∧ q.dst = p.src ∧ q.offset = 3)
        ∧ t.fab.nakCount = satInc s.fab.nakCount ∧ t.mem = s.mem ∧ t.cores = s.cores ∧ t.clusters = s.clusters
      (p.type = 0x10 → ∃ t, exec (.read n p) s = .next t ∧ refused t) ∧ (p.type = 0x11 → ∃ t, exec (.write n p) s = .next t ∧ refused t)
        ∧ (p.type = 0x12 → ∃ t, exec (.writeSig n p) s = .next t ∧ refused t)
        ∧ (p.type = 0x20 → ∃ t, exec (.dataResp p) s = .next t ∧ refused t))
  ∧ ∀ (s : State) (p : Packet) (r : Remote), fabricRuns s = true → p.dst = s.fab.call → dropsPacket p = false → awaited s p = some r →
      (∀ x ∈ s.fab.remotes, x.sent = true) → rising s.cores = true → (∀ k q, (coreAt s k).part = some q → q.fenced = none) →
      let s0 := flitsArrive s
      let ended := fun (t : State) => (regsAt t r.core).pc = (regsAt s r.core).pc + 16 ∧ (∀ x ∈ t.fab.remotes, x.core ≠ r.core)
        ∧ (∀ q, (coreAt t r.core).part = some q → q.wait = .none) ∧ ∀ j, j ≠ r.core → regsAt t j = regsAt s j
      let faulted := fun (t : State) (d : Word) => (coreAt t r.core).part = none
        ∧ (coreAt t r.core).fault = some { address := (regsAt s r.core).pc, detail := d }
      (∀ c e dst src turn, p.type = 0x20 → pcrcOk p = true → r.kind = .load → packetsOf s r.core = [r] → logicalOf s r.core = some c →
        waitingEnv s c = some e → GoesOn e → remoteOpOf s r.core = some (.load dst src turn) → memWf 0 (coreAt s r.core).carrel = true →
        ∃ t, exec (.dataResp p) s = .next t ∧ ended t
          ∧ ∀ b, spaceByte t e false b = byteAfter (copyWrites e.ctx.codebooks
              (fetchedByte [{ r with answered := true, data := slice p.payload 0 r.len }]) [] turn (descOf dst) (descOf src)) b (spaceByte s e false b))
      ∧ (p.type = 0x20 → pcrcOk p = true → r.kind = .load → (∃ x ∈ packetsOf s r.core, x.txid ≠ r.txid ∧ x.answered = false) →
        ∃ t, exec (.dataResp p) s = .next t
          ∧ t.fab.remotes = s.fab.remotes.map (fun x => if x.txid = r.txid then { x with answered := true, data := slice p.payload 0 r.len } else x)
          ∧ ∀ j, regsAt t j = regsAt s j)
      ∧ (∀ c e, p.type = 0x21 → r.kind = .store → packetsOf s r.core = [r] → logicalOf s r.core = some c → waitingEnv s c = some e → GoesOn e →
        (remoteOpOf s r.core = some .store → ∃ t, exec (.ack p) s = .next t ∧ ended t ∧ t.mem = s.mem)
        ∧ (∀ key j, remoteOpOf s r.core = some (.commit key) → wantsSignal s e.part.ctx r = false → jobOf s e.part.job = some j →
          ∃ t, exec (.ack p) s = .next t ∧ ended t ∧ t.mem = s.mem ∧ (claimAt t j.ctx (frameNumber s j) key).map (·.state) = some .committed))
      ∧ (p.type = 0x22 → p.offset.toNat % 256 = 3 → r.resent = false → ∃ t, exec (.nak p) s = .next t
          ∧ t.fab.remotes = s.fab.remotes.map (fun x => if x.txid = r.txid then { x with resent := true } else x)
          ∧ (∀ m esc, egress s0 r.peer = some (m, esc) → m < 4 → ClearPort s0 m → r.data.length ≤ 4096 →
              ∃ q, t.fab.out = s0.fab.out ++ [(m, q)] ∧ q.txid.toNat = r.txid % 65536 ∧ q.dst = r.peer)
          ∧ t.cores = s.cores)
      ∧ (∀ c e, logicalOf s r.core = some c → waitingEnv s c = some e → (remoteOpOf s r.core).isSome → e.part.stopping = false →
          e.core.halo = [] → ready s = true →
          (p.type = 0x22 → p.offset.toNat % 256 ≠ 3 ∨ r.resent = true → ∃ t, exec (.nak p) s = .next t
            ∧ faulted t (if p.offset.toNat % 256 = 1 ∨ p.offset.toNat % 256 = 2 then 0x0202 else 0x0504))
          ∧ ((∀ x ∈ s.fab.remotes, x.txid = r.txid → x = r) → ∃ t, exec (.remotePacketTimeout r.txid) s = .next t ∧ faulted t 0x0504
            ∧ t.fab.tmo = satInc s.fab.tmo))

/-- Tier 2, R405, R407, R417 to R423, R426 to R428, Tables 16.2 and 16.4: a silence timer that ends marks the stream's bound zones stale in
place and takes SAFE_OK low; the lines change level together; ARM is refused with the first cause of its list, DISARM is not-OK at once; a
watch entry is enabled or refused; a lockstep mismatch holds the island; the Spigot answers READ_ZONE, READ_RUN, READ_STATUS and ECHO with
a word and its check code, and drives nothing for an unlisted command or a released select.
Where the spec leaves a reading or an order open it follows the model's choice (log entries 56, 57). -/
def Obligations.SpigotAndSafeOk : Prop :=
  (∀ (s : State) (id : Nat), s.pwr.resetting = false → s.err.c4 = false → s.saf.held = false → watched s id = true → timedWatch s id = true →
      (strm s id).state = .running → rising s.saf.bound = true → rising s.saf.watches = true →
      ∃ t, exec (.silenceExpiry id) s = .next t ∧ t.saf.silenceCount = satInc s.saf.silenceCount ∧ t.saf.ok = false
        ∧ (s.saf.ok = true → t.saf.lineA = false ∧ t.saf.lineB = false ∧ t.saf.notok = satInc s.saf.notok ∧ t.saf.statusSeq = s.saf.statusSeq + 1)
        ∧ (∀ i z, tfind s.saf.bound i = some (id, z) → zoneWord t i = staleWord false (zoneWord s i))
        ∧ (∀ i, (∀ z, tfind s.saf.bound i ≠ some (id, z)) → zoneWord t i = zoneWord s i)
        ∧ (∀ n, let w := tget s.saf.watches {} n
            tget t.saf.watches {} n = if w.en = true ∧ w.stream = id then { w with silenced := true, timer := false, clean := 0 }
              else if w.stream = id then { w with clean := 0 } else w)
        ∧ t = { s with saf := t.saf })
  ∧ (∀ (s : State), s.saf.held = false → s.pwr.resetting = false →
      (s.saf.ok = true → ∃ t, exec .safeOkToggle s = .next t ∧ t = { s with saf := { s.saf with lineA := !s.saf.lineA, lineB := s.saf.lineA } })
      ∧ (s.saf.ok = false → exec .safeOkToggle s = .next s))
  ∧ (∀ (s : State) (v : Word), safReaches s 0 = true →
      (nbit v.toNat 0 = true → s.saf.arm = false →
        (s.saf.lock = false → ∃ t, exec (.arm 0 v) s = .next t ∧ t.saf = { s.saf with cause := 1 } ∧ t = { s with saf := t.saf, err := t.err })
        ∧ (s.saf.lock = true → (partAt s 0).present = false ∨ (partAt s 0).c3 = true → ∃ t, exec (.arm 0 v) s = .next t ∧ t.saf = { s.saf with cause := 2 })
        ∧ (s.saf.lock = true → (partAt s 0).present = true → (partAt s 0).c3 = false → s.varMis = false → s.saf.held = false →
          (keepsFtti s = false → ∃ t, exec (.arm 0 v) s = .next t ∧ t.saf = { s.saf with cause := 3 })
          ∧ (keepsFtti s = true ↔ ∀ w ∈ s.saf.watches, w.2.en = true → 200 * w.2.budget + 2 * s.saf.half ≤ 200000 * s.saf.ftti
              ∧ 200 * w.2.silence + 2 * s.saf.half ≤ 200000 * s.saf.ftti)
          ∧ (keepsFtti s = true → ∃ t, exec (.arm 0 v) s = .next t ∧ t.saf.arm = true ∧ t.saf.cause = 0 ∧ t.saf.ok = false
            ∧ (∀ n, tget t.saf.watches {} n = { tget s.saf.watches {} n with clean := 0 }) ∧ t = { s with saf := t.saf, err := t.err })))
      ∧ (nbit v.toNat 0 = false → ∃ t, exec (.disarm 0 v) s = .next t ∧ t.saf.arm = false ∧ t.saf.ok = false
          ∧ (s.saf.ok = true → t.saf.lineA = false ∧ t.saf.lineB = false) ∧ t.saf.watches = s.saf.watches ∧ t = { s with saf := t.saf, err := t.err })
      ∧ ∀ n, n < 64 → nbit v.toNat 31 = true →
        let id := bits v.toNat 9 0
        let w := tget s.saf.watches {} n
        (s.saf.lock = false → s.saf.held = false → refusesWatch s n id = false →
          (w.en = false ∨ w.stream ≠ id → ∃ t, exec (.watchEnable 0 n v) s = .next t
            ∧ tget t.saf.watches {} n = { budget := w.budget, silence := w.silence, en := true, stream := id, timer := (strm s id).state == .running }
            ∧ (∀ k, k ≠ n → tget t.saf.watches {} k = tget s.saf.watches {} k) ∧ t = { s with saf := { s.saf with watches := t.saf.watches }, err := t.err })
          ∧ (w.en = true → w.stream = id → ∃ t, exec (.watchEnable 0 n v) s = .next t ∧ t.saf = s.saf))
        ∧ (s.saf.lock = true ∨ refusesWatch s n id = true → exec (.watchEnable 0 n v) s = .next s))
  ∧ (∀ (s : State), s.pwr.resetting = false → s.err.c4 = false →
      (s.saf.held = false → ∃ t, exec .lockstepMismatch s = .next t ∧ t.saf.held = true ∧ t.saf.arm = false ∧ t.saf.ok = false ∧ t.saf.lineA = false
        ∧ t.saf.lineB = false ∧ t.saf.spigot = .released ∧ (partAt t 0).c3 = true)
      ∧ (s.saf.held = true → exec .lockstepMismatch s = .next s))
  ∧ (∀ (s : State) (i : Byte), spigotUp s = true →
      let answers := fun (c : Instr) (o : SpigotOut) => ∃ t, exec c s = .next t ∧ t = { s with saf := { s.saf with spigot := o } }
      answers (.readZone i) (.word (spigotWord (zoneWord s i.toNat)))
      ∧ ((∀ k w, s.saf.spigot ≠ .run k w) → answers (.readRun i) (.run ((i.toNat + 1) % 256) (spigotWord (zoneWord s i.toNat))))
      ∧ (∀ k w, s.saf.spigot = .run k w → answers (.readRun i) (.run ((k + 1) % 256) (spigotWord (zoneWord s k))))
      ∧ (i = 0 → answers (.readStatus i) (.word (spigotWord (statusBits s)))) ∧ (i ≠ 0 → answers (.readStatus i) .released)
      ∧ answers (.echo i) (.word (spigotWord (echoBits i))) ∧ answers .spigotCsDeassert .released
      ∧ (i ∉ [(0x5A : Byte), 0x5B, 0x3C, 0x66] → answers (.spigotUnlistedCommand i) .released))
  ∧ (∀ (s : State) (i : Byte), spigotUp s = false → ∃ t, exec (.readZone i) s = .next t ∧ t.saf.spigot = .released)
  ∧ ∀ w : BitVec 24, (spigotWord w).toNat / 256 = w.toNat
      ∧ (spigotWord w).toNat % 256 = crc8Byte (crc8Byte (crc8Byte 0xFF (w.toNat / 65536)) (w.toNat / 256 % 256)) (w.toNat % 256)

/-- Tier 2, R17, R431 to R434, R436, R438 to R444, R501, Tables 17.5, 17.6 and 21.10: three low samples in a row demand a level, which takes
effect at once, and the level falls by one; VDD_SI below its threshold holds the safety island; throttling follows cap and temperature; a
thermal trip and a lost crystal are C4; an island's clock stops and goes on; a die below nine lane groups is withdrawn; each reset keeps
what its table keeps; a boot goes to FAILED, to a wait for the host, or on, and its last step runs the device.
Where the spec leaves a reading or an order open it follows the model's choice (log entries 50, 67 to 69). -/
def Obligations.PowerAndReset : Prop :=
  (∀ (s : State) (l : List (SampleRail × Nat)) (b : Bool), s.pwr.resetting = false →
      ∃ t, exec (.shedSample l b) s = .next t ∧ s.pwr.level ≤ t.pwr.level ∧ t.nv = s.nv
        ∧ t.pwr.brakeSamples = (if b && running s then min (s.pwr.brakeSamples + 1) 3 else 0)
        ∧ (∀ r v i k, l = [(r, v)] → shedRail r = some i → 1 ≤ k → k ≤ 4 → v < shedBelow s k → 2 ≤ tget s.pwr.samples 0 (10 * k + i) →
            k ≤ t.pwr.level ∧ t.pwr.droop = true)
        ∧ (b = true → running s = true → 2 ≤ s.pwr.brakeSamples → brakeOf s ≤ t.pwr.level ∧ t.pwr.brake = true)
        ∧ (∀ v, l = [(.si, v)] → v < 900 → 2 ≤ s.pwr.siSamples → t.saf.held = true))
  ∧ (∀ (s : State), s.pwr.resetting = false → s.pwr.demand < s.pwr.level →
      ∃ t, exec .shedLevelFall s = .next t ∧ t.pwr.level = s.pwr.level - 1 ∧ t.nv = s.nv
        ∧ tget t.pwr.shedCount 0 (s.pwr.level - 1) = satInc (tget s.pwr.shedCount 0 (s.pwr.level - 1)))
  ∧ (∀ (s : State) (w : Nat) (temp : Int) (sensor : Nat), s.pwr.resetting = false →
      (∃ t, exec (.powerEstimate w temp sensor) s = .next t ∧ t.pwr.est = w ∧ t.pwr.temp = temp ∧ t.pwr.sensor = sensor
        ∧ t.pwr.throttle = (if 100 ≤ temp ∨ powerCap s < w then min (s.pwr.throttle + 1) 64 else s.pwr.throttle - 1) ∧ t.nv = s.nv)
      ∧ (temp < 115 → exec (.thermalTrip temp) s = .next s)
      ∧ (115 ≤ temp → s.err.c4 = false → ∃ t, exec (.thermalTrip temp) s = .next t ∧ t.err.c4 = true ∧ t.err.c4Source = 0x0E ∧ t.saf.ok = false
          ∧ t.saf.lineA = false ∧ t.saf.lineB = false ∧ t.saf.driven = false)
      ∧ (s.pwr.crystalLost = false → ∃ t, exec .crystalLoss s = .next t ∧ t.pwr.crystalLost = true ∧ t.err.c4 = true ∧ t.saf.ok = false
          ∧ t.saf.lineA = false ∧ t.saf.lineB = false))
  ∧ (∀ (s : State) (n : Nat), s.pwr.resetting = false →
      (n ≤ 101 → adaptive n = true → n ∉ s.pwr.stopped → ∃ t, exec (.islandClockStop n) s = .next t
        ∧ t = { s with pwr := { s.pwr with stopped := n :: s.pwr.stopped }, islands := t.islands }
        ∧ tget (tget t.islands {} n).census 0 1 = satInc (tget (tget s.islands {} n).census 0 1))
      ∧ (∃ t, exec (.islandClockRestart n) s = .next t ∧ t = { s with pwr := { s.pwr with stopped := t.pwr.stopped } }
          ∧ ∀ k, k ∈ t.pwr.stopped ↔ k ∈ s.pwr.stopped ∧ k ≠ n)
      ∧ (n < 2 → s.err.c4 = false → (tget s.dies {} n).withdrawn = false →
          let d := tget s.dies {} n
          ∃ t, exec (.laneGroupFailure n) s = .next t ∧ (tget t.dies {} n).lanes = d.lanes - 1
            ∧ ((tget t.dies {} n).withdrawn = true ↔ d.lanes - 1 < 9)
            ∧ (d.lanes - 1 < 9 → ∀ c, 4 * n ≤ c → c < 4 * n + 4 → (cluAt t c).inService = false)
            ∧ (9 ≤ d.lanes - 1 → t.clusters = s.clusters)))
  ∧ (∀ (s : State) (r : SampleRail), r ∉ s.pwr.railsUp →
      ∃ t, exec (.powerRailRise r) s = .next t ∧ t.pwr.railsUp = r :: s.pwr.railsUp
        ∧ ((∃ q, railStep q < railStep r ∧ q ∉ s.pwr.railsUp) → t.pwr.orderFaults = s.pwr.orderFaults + 1)
        ∧ ((∀ q, railStep q < railStep r → q ∈ s.pwr.railsUp) → t.pwr.orderFaults = s.pwr.orderFaults)
        ∧ t = { s with pwr := { s.pwr with railsUp := t.pwr.railsUp, orderFaults := t.pwr.orderFaults } })
  ∧ (∀ (s : State) (r : SampleRail) (m : Nat) (v : Word),
      let cold := fun (t : State) => t.pwr.resetting = true ∧ t.pwr.stage = 0 ∧ t.pwr.level = 0 ∧ t.mem.dram = [] ∧ t.ctxs = [] ∧ t.streams = []
        ∧ t.jobs = [] ∧ t.cores = [] ∧ t.saf = {} ∧ t.sec = {} ∧ t.err = {} ∧ t.nv = s.nv ∧ t.host.linkUp = false ∧ t.host.mem = s.host.mem
        ∧ t.pwr.railsUp = s.pwr.railsUp
      (∃ t, exec .coldReset s = .next t ∧ cold t)
      ∧ ((r = .aon ∨ r = .bd ∨ r = .io) → m < 800 → ∃ t, exec (.brownOut r m) s = .next t ∧ cold t)
      ∧ (800 ≤ m → exec (.brownOut r m) s = .next s)
      ∧ (s.pwr.resetting = false ∨ s.pwr.coldBoot = false → ∃ t, exec .warmReset s = .next t ∧ t.pwr.resetting = true ∧ t.pwr.stage = 0
          ∧ t.pwr.warm = true ∧ t.pwr.level = s.pwr.level ∧ t.pwr.cap = s.pwr.cap ∧ t.mem.dram = s.mem.dram ∧ t.ctxs = [] ∧ t.streams = [] ∧ t.jobs = []
          ∧ t.saf = {} ∧ t.nv = s.nv ∧ t.host.linkUp = false ∧ t.host.rings = [])
      ∧ (s.host.linkUp = true → s.pwr.resetting = false → blockUp s 85 = true →
          (nbit v.toNat 0 = true → bits v.toNat 31 24 = 0xD5 → ∃ t, exec (.deviceReset 0 v) s = .next t ∧ t.pwr.resetting = true ∧ t.pwr.stage = 0
            ∧ t.pwr.warm = true ∧ t.mem.dram = s.mem.dram ∧ t.ctxs = [] ∧ t.streams = [] ∧ t.jobs = [] ∧ t.nv = s.nv ∧ t.host.linkUp = true
            ∧ t.host.rings = [] ∧ t.saf.arm = false ∧ t.saf.lock = s.saf.lock ∧ t.saf.ok = false ∧ t.saf.bound = [] ∧ t.saf.ftti = s.saf.ftti)
          ∧ (nbit v.toNat 0 = true → bits v.toNat 31 24 ≠ 0xD5 → exec (.deviceReset 0 v) s = .next s)
          ∧ (nbit v.toNat 0 = false → ∃ t, exec (.deviceReset 0 v) s = .next t
            ∧ t = { s with host := { s.host with bar2Part := bits v.toNat 5 4 }, err := t.err })))
  ∧ ∀ (s : State) (f : BootFacts),
      (s.pwr.resetting = true → (∀ r ∈ allRails, r ∈ s.pwr.railsUp) →
        let src := if s.pwr.deviceBoot then s.pwr.bootSrc else f.bootSrc % 4
        ∃ t, exec (.bootStart f) s = .next t ∧ t.pwr.resetting = false ∧ t.host.linkUp = (!s.pwr.deviceBoot || s.host.linkUp)
          ∧ s.nv.lcs ≤ t.nv.lcs ∧ (s.nv.lcs < 4 → f.fuseError = false → tornTo s.nv = none → t.pwr.bootSrc = src)
          ∧ (f.fuseError = true → t.pwr.stage = 15 ∧ t.pwr.fail = 0x01)
          ∧ (f.fuseError = false → s.nv.lcs = 4 → t.pwr.stage = 15 ∧ t.pwr.fail = 0x16)
          ∧ (f.fuseError = false → s.nv.lcs < 4 → tornTo s.nv = none →
              (goodBoard (f.board.getD s.nv.board) = false → t.pwr.stage = 15 ∧ t.pwr.fail = 0x15)
              ∧ (goodBoard (f.board.getD s.nv.board) = true → src = 1 → t.pwr.stage = 2)
              ∧ (goodBoard (f.board.getD s.nv.board) = true → src ≠ 1 →
                  (imageCheck 2097152 (f.flash.getD s.nv.flash) s ≠ 0 →
                    t.pwr.stage = 2 ∧ t.pwr.fail = imageCheck 2097152 (f.flash.getD s.nv.flash) s)
                  ∧ (imageCheck 2097152 (f.flash.getD s.nv.flash) s = 0 →
                    t.pwr.stage = (if s.pwr.coldBoot then 5 else 4) ∨ t.pwr.stage = 15 ∧ (t.pwr.fail = 0x02 ∨ t.pwr.fail = 0x03)))))
      ∧ ((∃ r ∈ allRails, r ∉ s.pwr.railsUp) → exec (.bootStart f) s = .next s)
      ∧ (s.pwr.resetting = false → s.err.c4 = false → s.pwr.stage = 4 ∨ s.pwr.stage = 5 →
        ∃ t, exec .bootReady s = .next t ∧ t.pwr.stage = 7 ∧ t.saf.driven = !s.varMis ∧ t.nv.marker = false
          ∧ t.pwr.unclean = (s.pwr.unclean || !s.nv.marker)
          ∧ t.nv.secver = (if s.sec.imageCommit then max s.nv.secver s.sec.imageSecver else s.nv.secver) ∧ t.nv.lcs = s.nv.lcs)

/-- Tier 2, R333, R334, R431, R469 to R484, R492, Tables 17.9, 19.1, 19.3, 19.6: MBX_SEL starts a fill, whose record or UNKNOWN stands in the
mailbox when it is done; a lock register locks its block; PMU_EVTn takes a listed event; a register write reaches one location, a value
out of range keeps the old one, PWR_SHEDTH resets to its defaults and takes whole values of its ranges alone, a write of part of a word changes
nothing; a parity mismatch is marked once and has its effect; SMBus reads
give the registers while the always-on island answers.
Where the spec leaves a reading or an order open it follows the model's choice (log entries 47, 58, 59). -/
def Obligations.RegistersAndMailbox : Prop :=
  State.reset.pwr.shedth = BitVec.ofNat 32 (188 + 256 * 182 + 65536 * 176 + 16777216 * 170)
  ∧ (∀ (s : State) (fn : Nat) (v : Word), hostReaches s fn = true →
      ∃ t, exec (.mbxSel fn v) s = .next t
        ∧ fnAt t fn = { fnAt s fn with mbxSel := v, mbxGen := (fnAt s fn).mbxGen + 1, mbxValid := false, mbxUnknown := false, mbxBusy := true, mbxData := [] }
        ∧ (∀ k, k ≠ fn → fnAt t k = fnAt s k) ∧ t = { s with host := { s.host with fns := t.host.fns } })
  ∧ (∀ (s : State) (fn : Nat), s.pwr.resetting = false → (fnAt s fn).mbxBusy = true →
      let g := fnAt s fn
      (∀ l, mailRecord s fn g.mbxSel.toNat = some l → ∃ t, exec (.mailboxFillDone fn) s = .next t
        ∧ fnAt t fn = { g with mbxBusy := false, mbxValid := true, mbxUnknown := false, mbxLen := l.length, mbxData := l }
        ∧ (g.mbxSel = 0xC0002 → fn = 0 → t.sec.challenge.isSome ∧ t.sec = { s.sec with challenge := t.sec.challenge })
        ∧ (g.mbxSel ≠ 0xC0002 ∨ fn ≠ 0 → t.sec = s.sec) ∧ (∀ k, k ≠ fn → fnAt t k = fnAt s k))
      ∧ (mailRecord s fn g.mbxSel.toNat = none → ∃ t, exec (.mailboxFillDone fn) s = .next t
        ∧ fnAt t fn = { g with mbxBusy := false, mbxValid := true, mbxUnknown := true, mbxLen := 0, mbxData := [] }))
  ∧ (∀ (s : State) (v : Word), pf0Reaches s 0 = true →
      (nbit v.toNat 0 = true →
        (pwrLocked s = false → ∃ t, exec (.lock 0 0x020004 v) s = .next t ∧ t = { s with pwr := { s.pwr with lock := true }, err := t.err })
        ∧ (running s = true → s.saf.held = false → s.saf.lock = false →
            ∃ t, exec (.lock 0 0x030004 v) s = .next t ∧ t = { s with saf := { s.saf with lock := true }, err := t.err })
        ∧ (running s = true → blockUp s 84 = true → s.fab.lock = false →
            ∃ t, exec (.lock 0 0x060004 v) s = .next t ∧ t = { s with fab := { s.fab with lock := true }, err := t.err }))
      ∧ (∀ n, n < 8 → running s = true → blockUp s 84 = true → islandDown s s.pmuIsl = false → s.err.parity.contains 0x050000 = false →
          let old := tget (tget s.islands {} s.pmuIsl).evt 0 n
          ∃ t, exec (.pmuEvt 0 n v) s = .next t
            ∧ (let e := tget (tget t.islands {} s.pmuIsl).evt 0 n
               nbit e.toNat 31 = nbit v.toNat 31 ∧ nbit e.toNat 30 = (nbit v.toNat 30 && n != 7)
               ∧ e.toNat % 256 = (if v.toNat % 256 ∈ islandEvents s.pmuIsl then v.toNat % 256 else old.toNat % 256))
            ∧ (∀ k, k ≠ s.pmuIsl → tget t.islands {} k = tget s.islands {} k) ∧ t = { s with islands := t.islands }))
  ∧ (∀ (s : State) (w : RegWrite),
      (w.whole = false → exec (.registerWrite w) s = .next s)
      ∧ (w.size = 4 → w.offset % 4 ≠ 0 → exec (.registerWrite w) s = .next s)
      ∧ (w.whole = true → w.size = 4 → w.offset = 0x40 → hostReaches s w.fn = true → ∃ t, exec (.registerWrite w) s = .next t
          ∧ fnAt t w.fn = { fnAt s w.fn with scratch := BitVec.ofNat 32 (w.value.toNat % 2 ^ 32) } ∧ (∀ k, k ≠ w.fn → fnAt t k = fnAt s k)
          ∧ t = { s with host := { s.host with fns := t.host.fns }, err := t.err })
      ∧ (w.whole = true → w.size = 4 → w.offset = 0x020000 → w.fn = 0 → pf0Reaches s 0 = true →
          (pwrLocked s = false → 120 ≤ bits w.value.toNat 8 0 → bits w.value.toNat 8 0 ≤ 400 →
            ∃ t, exec (.registerWrite w) s = .next t ∧ t = { s with pwr := { s.pwr with cap := bits w.value.toNat 8 0 }, err := t.err })
          ∧ (pwrLocked s = true ∨ bits w.value.toNat 8 0 < 120 ∨ 400 < bits w.value.toNat 8 0 → exec (.registerWrite w) s = .next s))
      ∧ (w.whole = true → w.size = 4 → w.offset = 0x020008 → w.fn = 0 → pf0Reaches s 0 = true → pwrLocked s = false →
          let v := w.value.toNat
          let t1 := bits v 7 0
          let t2 := bits v 15 8
          let t3 := bits v 23 16
          let t4 := bits v 31 24
          let good := 180 ≤ t1 ∧ t1 ≤ 194 ∧ 174 ≤ t2 ∧ t2 ≤ 190 ∧ 168 ≤ t3 ∧ t3 ≤ 186 ∧ 160 ≤ t4 ∧ t4 ≤ 180 ∧ t2 + 2 ≤ t1 ∧ t3 + 2 ≤ t2 ∧ t4 + 2 ≤ t3
          (good → ∃ t, exec (.registerWrite w) s = .next t ∧ t = { s with pwr := { s.pwr with shedth := BitVec.ofNat 32 (v % 2 ^ 32) }, err := t.err })
          ∧ (¬ good → exec (.registerWrite w) s = .next s)))
  ∧ (let d := State.reset.pwr.shedth.toNat
     bits d 7 0 = 188 ∧ bits d 15 8 = 182 ∧ bits d 23 16 = 176 ∧ bits d 31 24 = 170)
  ∧ (∀ (s : State) (l : Nat), 1 ≤ l → l ≤ 4 → s.pwr.level < l → s.err.parity = [] →
      shedBelow s l = 5 * bits s.pwr.shedth.toNat (8 * l - 1) (8 * l - 8))
  ∧ (∀ (s : State) (off : Nat), exec (.parityScan off false) s = .next s
      ∧ (s.pwr.resetting = false → s.err.c4 = false → alreadyMarred off s = true → exec (.parityScan off true) s = .next s)
      ∧ (s.pwr.resetting = false → s.err.c4 = false → alreadyMarred off s = false →
        (off = 0x20 ∨ off = 0x40 → ∃ t, exec (.parityScan off true) s = .next t ∧ t.err.parity = off :: s.err.parity
          ∧ tget t.err.cnt 0 2 = satInc (tget s.err.cnt 0 2) ∧ t.streams = s.streams ∧ t.mem = s.mem)
        ∧ (off ∈ [0x020000, 0x020004, 0x020008, 0x02000C] → ∃ t, exec (.parityScan off true) s = .next t ∧ off ∈ t.err.parity
          ∧ (partAt t 0).c3 = true ∧ t.saf.lock = s.saf.lock)
        ∧ (∀ n o, n < 4096 → o ≤ 0x1C → o % 4 = 0 → off = 0x400000 + 0x400 * n + o → ∃ t, exec (.parityScan off true) s = .next t
          ∧ off ∈ t.err.parity ∧ (ringAt t n).enable = false)))
  ∧ ∀ (s : State),
      let reads := fun (c : Instr) (w : Word) => (smbusUp s = true → ∃ t, exec c s = .next t ∧ t = { s with smbus := some w })
        ∧ (smbusUp s = false → ∃ t, exec c s = .next t ∧ t = { s with smbus := none })
      reads .smbusDevId (devId s) ∧ reads .smbusPwrLevel (pwrLevelReg s) ∧ reads .smbusPwrBoot (pwrBootReg s) ∧ reads .smbusPwrTemp (pwrTempReg s)
        ∧ reads .smbusPwrEst (pwrEstReg s)

/-- Tier 2, R97, R113 to R117, R123, R145 to R148, R184, R198, R221, R222, R263 to R265, R282, R291: these commands do their work when the
conditions of the spec hold: a tile load, a bank clear, a drain to a vector register, a reduction, a curve, a semaphore taken or given, a fence and a
commit end with the next instruction in turn; a wait that times out goes on; a job is stolen, a residency evicted and replaced; a media core, a
pre-processing unit and an encoder core start and finish a picture, or lose it to the watchdog; a clip closes when its wait expires. Each is said
by one effect here, the statements above say the rest of each.
Where the spec leaves a reading or an order open it follows the model's choice (log entries 9, 14, 18, 19, 114, 115). -/
def Obligations.CommandsComplete : Prop :=
  (∀ (s : State) (c : Nat) (e : Env) (f : Fields) (u : List Upset), Issues s c e → Readable u → e.core.halo = [] →
    let r := e.core.regs
    let eng := f.xf.toNat % 4
    let half := f.xf.toNat / 4 % 4
    let d := descOf (areg r f.ad)
    let a := descOf (areg r f.aa)
    let next := fun (i : Instr) (p : State → Prop) => ∃ t, exec i s = .next t ∧ (regsAt t e.ph).pc = r.pc + 16 ∧ p t
    (stray { ad := true, xf := 0xF } f = false → (eng = 1 ∨ eng = 2) → half < 3 → Clean (descChecks f.ad.toNat d) → weightShapeBad d half = false →
      inShare e false d.base (spanBytes d) = true → inShare e false d.hbase (4 * weightHdrs d) = true →
      next (.wld c f u) fun t => (if half = 2 then (engAt (coreAt t e.ph) (eng - 1)).h1 else (engAt (coreAt t e.ph) (eng - 1)).h0).loaded = true)
    ∧ (stray { xf := 0x3F } f = false → eng ≠ 0 → half ≤ f.xf.toNat / 16 % 4 → f.xf.toNat / 16 % 4 < e.prog.accBanks →
      next (.aclr c ⟨f, u⟩) fun t => ∀ n, n < 2 → nbit eng n = true → tget (engAt (coreAt t e.ph) n).acc 0 (128 * (e.res.bankBase + half)) = 0)
    ∧ (stray { mod := 0xF, rd := true, aa := f.mod.getLsbD 3, xf := 0xF, imm := 0x01FF0000000003FF } f = false → f.mod.getLsbD 2 = true →
      f.mod.toNat % 4 = 1 → (eng = 1 ∨ eng = 2) → half = 0 → f.imm.toNat % 1024 = 1 → f.imm.toNat / 2 ^ 48 % 512 < 128 * e.prog.accBanks →
      (f.mod.getLsbD 3 = true → Clean (descChecks f.aa.toNat a)) → (∀ x ∈ u, ∀ i j k, x ≠ .accumulator i j k) →
      (∀ j, j < 512 → colState (tget (engAt e.core (eng - 1)).accState 0 (128 * e.res.bankBase + f.imm.toNat / 2 ^ 48 % 512)) j = 0) →
      next (.adrn c f u) fun t => (coreAt t e.ph).carrel = e.core.carrel)
    ∧ (stray { mod := 0x1F, rd := true, ra := true, pm := true } f = false → f.mod.toNat / 4 % 8 < 3 → f.mod.toNat % 4 ≠ 3 →
      EvenIf (f.mod.toNat % 4) [f.ra] → next (.vred c f u) fun t => (regsAt t e.ph).v = r.v)
    ∧ (stray { rd := true, ra := true, pm := true, imm := 0xF } f = false → (e.ctx.curves[f.imm.toNat % 16]?).isSome →
      next (.vcurve c f u) fun t => (regsAt t e.ph).s = r.s)
    ∧ (let n := f.imm.toNat % 2 ^ 16
       let sem := e.res.semBase + f.xf.toNat % 256
       let have' := tget (cluAt s (c / 4)).sems 0 sem
       n ≠ 0 → f.xf.toNat % 256 < e.prog.nsem →
       (stray { rd := true, xf := 0xFF, imm := 0x0000FFFFFF00FFFF } f = false → n ≤ have' →
          next (.semw c ⟨f, u⟩) fun t => tget (cluAt t (c / 4)).sems 0 sem = have' - n)
       ∧ (stray { mod := 1, xf := 0xFF, imm := 0xFFFF } f = false → f.mod.getLsbD 0 = false → e.part.dead = false → have' + n ≤ 65535 →
          (∀ i, i < 5 → ∀ p, (coreAt s (5 * (c / 4) + i)).part = some p → ∀ x y z, p.wait ≠ .semw x y z) →
          next (.sems c ⟨f, u⟩) fun t => tget (cluAt t (c / 4)).sems 0 sem = have' + n))
    ∧ (stray { mod := 3 } f = false → f.mod.toNat % 4 < 3 → next (.fence c ⟨f, u⟩) fun t => (coreAt t e.ph).carrel = e.core.carrel)
    ∧ (∀ j, stray { mod := 1, ra := true, ad := true, aa := true, imm := 0xFFFFFFFF } f = false → Clean (descChecks f.ad.toNat d) →
      Clean (descChecks f.aa.toNat a) → shapeOk false d a = true → d.glob = true → a.glob = false → tensorInShare e d = true →
      tensorInShare e a = true → (∀ q ∈ tensorRanges d, importsMeeting s e.part.ctx q.1 q.2 = []) → jobOf s e.part.job = some j → e.part.dead = false →
      let key := sreg r f.ra + f.imm.extractLsb' 0 32
      (claimAt s j.ctx (frameNumber s j) key).map (·.state) = some (.won e.part.job e.part.started) →
      next (.commit c f u) fun t => (claimAt t j.ctx (frameNumber s j) key).map (·.state) = some .committed))
  ∧ (∀ (s : State) (c : Nat) (e : Env) (p : Part) (sem n rd : Nat), waitingEnv s c = some e → (coreAt s e.ph).part = some p → p.wait = .semw sem n rd →
      ∃ t, exec (.semwTimeout c) s = .next t ∧ (regsAt t e.ph).pc = (regsAt s e.ph).pc + 16)
  ∧ (∀ (s : State) (c q : Nat), ready s = true → queueLen s c = 0 → coreFree s (partOfCore s c) c = true → q ∈ coresIn s (partOfCore s c) → q ≠ c →
      (stealable s c q).isSome → (∀ k, queueLen s k < 2 ^ 32) →
      ∃ t j, exec (.steal c) s = .next t ∧ j ∈ t.jobs ∧ j.state = .queued c ∧ j.cluster = c / 4)
  ∧ (∀ (s : State) (cl p : Nat), ready s = true → p ≠ 0 → cl < 8 → (cluAt s cl).evicting = none →
      let mine := (cluAt s cl).residencies.filter fun x => x.2.part == p
      mine ≠ [] → (partAt s p).slots.getD cl 0 ≤ mine.length → (∀ x ∈ mine, residencyBlocked s cl x.2.ctx = true) → waitingCtxs s p cl ≠ [] →
      ∃ t, exec (.eviction cl p) s = .next t ∧ (cluAt t cl).evicting.isSome)
  ∧ (∀ (s : State) (cl slot old w : Nat), ready s = true → (cluAt s cl).evicting = some (slot, old, w) → ctxAt s w = none →
      ∃ t, exec (.evictionDone cl) s = .next t ∧ (cluAt t cl).evicting = none)
  ∧ (∀ (s : State) (id core p : Nat) (f : Frame) (head : AuHead), upAt s (48 + core) = true → (mediaIn s (strm s id).part).contains core = true →
      (mediaAt s core).state = 0 → pausedPart s (strm s id).part = false → nextDecoded s (strm s id).part core = some (id, f) →
      (strm s id).refused = none → f.hasPicture = true → head.failure = none → head.randomAccess = true → head.shows = none →
      shedsOdd s (strm s id) = false → (drawFor 1 (.stream id) (strm s id).owner s).1 = some p →
      ∃ t, exec (.decodeStart id core none head) s = .next t ∧ (mediaAt t core).state = 1)
  ∧ (∀ (s : State) (core p : Nat) (pic : PicFact) (f : Frame) (lost : Bool), upAt s (48 + core) = true → core < 32 → (mediaAt s core).state = 1 →
      (mediaAt s core).buf = some p → frameOf s (mediaAt s core).stream (mediaAt s core).order = some f → f.result = none →
      (true ∈ unitsDecoded s (strm s (mediaAt s core).stream) f pic → pic.hidden = false → ∃ t, exec (.pictureDecoded core pic) s = .next t
        ∧ (mediaAt t core).state = 0 ∧ (mediaAt t core).pict = satInc (mediaAt s core).pict)
      ∧ ∃ t, exec (.mediaWatchdog core lost) s = .next t ∧ (mediaAt t core).lateDue = (mediaAt s core).lateDue + 1)
  ∧ (∀ (s : State) (unit id : Nat) (f : Frame), upAt s nocIsland = true →
      ((ppUnits s (strm s id).part).contains unit = true → (ppuAt s unit).work = none → nextServed s (strm s id).part = some (id, f) →
        f.lastUnit ≠ some unit → ∃ t, exec (.preprocessStart unit id) s = .next t ∧ (ppuAt t unit).work = some (id, f.order))
      ∧ ((ppuAt s unit).work = some (id, f.order) → ∃ t, exec (.preprocessDone unit false) s = .next t ∧ (ppuAt t unit).work = none))
  ∧ (∀ (s : State) (core p rows repl headers qps : Nat) (z : CodeEnd) (k : Clip) (r : ClipPic) (lost : Bool), upAt s (80 + core) = true → core < 4 →
      ((encAt s core).state = 0 → partOfEnc s core = some p → s.pwr.level = 0 → k ∈ clipsOn s core → (headReady k).isSome →
        (∀ x ∈ s.clips, x.core = none → x.ended = true) → ∃ t, exec (.encodeStart core) s = .next t ∧ (encAt t core).state = 1)
      ∧ ((encAt s core).state = 1 → (encAt s core).clip = some (k.fn, k.id) → clipOf s k.fn k.id = some k → k.ready.head? = some r →
        (indexArea k.maxPic + k.bytes + (codedBytes s k r ⟨rows, repl, headers, qps, z.file⟩).2.length ≤ k.hlen →
          ∃ t, exec (.encodeDone core rows repl headers qps z) s = .next t
          ∧ (encAt t core).state = 0 ∧ (encAt t core).pict = satInc (encAt s core).pict)
        ∧ ∃ t, exec (.encoderWatchdog core lost) s = .next t ∧ (encAt t core).lateDue = (encAt s core).lateDue + 1))
  ∧ ∀ (s : State) (fn : Nat) (id : Word) (k : Clip), upAt s nocIsland = true → clipOf s fn id = some k → s.pwr.level = 0 → k.closed = false →
      k.ready = [] → ∃ t, exec (.clipWaitExpiry fn id) s = .next t ∧ clipOf t fn id = none

/-- Tier 3, R453, R454, R462 to R464, Tables 18.1 and 18.8: no command of any kind takes the life cycle, the security version, a revoked key
or the fuse rows back, or changes the serial number and the variant; this holds of every step from every state. -/
def Obligations.FusesNeverGoBack : Prop :=
  ∀ s t : State, step s = .next t → s.nv.lcs ≤ t.nv.lcs ∧ s.nv.secver ≤ t.nv.secver ∧ s.nv.revoke &&& t.nv.revoke = s.nv.revoke
    ∧ t.nv.rowsLeft ≤ s.nv.rowsLeft ∧ t.nv.serial = s.nv.serial ∧ t.nv.variantS = s.nv.variantS ∧ s.nv.fused <+: t.nv.fused

/-- Tier 3: every command, in every state, ends in a next state: none is refused and none faults the model; and no command adds to or takes
from the queue of those that wait (the model's own queue, log entry 1). -/
def Obligations.EveryCommandIsTaken : Prop := ∀ (c : Instr) (s : State), ∃ t, exec c s = .next t ∧ t.pending = s.pending
end

