-- ==== Sys2Proof/Laws/Tab.lean ====
section
/-! SUPPORT. Laws/Tab.lean: reading back from tables and memories, and that a memory keeps its canonical form. -/

namespace Sys2Proof.Machine

variable {α : Type}

/-- A table read at the index just set gives the value set. -/
@[simp] theorem tget_tset_self (t : Tab α) (d v : α) (k : Nat) : tget (tset t k v) d k = v := by
  induction t with
  | nil => simp [tset, tget]
  | cons p r ih =>
    obtain ⟨i, w⟩ := p
    simp only [tset]
    split
    · simp [tget]
    · split <;> simp_all [tget]

/-- Setting an entry leaves every other index. -/
theorem tget_tset_ne (t : Tab α) (d v : α) {j k : Nat} (h : j ≠ k) : tget (tset t k v) d j = tget t d j := by
  induction t with
  | nil => simp [tset, tget, Ne.symm h]
  | cons p r ih =>
    obtain ⟨i, w⟩ := p
    simp only [tset]
    split
    · simp [tget, Ne.symm h]
    · split
      · next hi => subst hi; simp [tget, Ne.symm h]
      · simp only [tget]; split <;> simp_all

/-- What a table reads after one entry is set. -/
theorem tget_tset (t : Tab α) (d v : α) (j k : Nat) : tget (tset t k v) d j = if j = k then v else tget t d j := by
  split
  · next h => subst h; simp
  · next h => exact tget_tset_ne t d v h

/-- A table lists the entry just set. -/
@[simp] theorem tfind_tset_self (t : Tab α) (v : α) (k : Nat) : tfind (tset t k v) k = some v := by
  induction t with
  | nil => simp [tset, tfind]
  | cons p r ih =>
    obtain ⟨i, w⟩ := p
    simp only [tset]
    split
    · simp [tfind]
    · split <;> simp_all [tfind]

/-- Listing an entry leaves every other index. -/
theorem tfind_tset_ne (t : Tab α) (v : α) {j k : Nat} (h : j ≠ k) : tfind (tset t k v) j = tfind t j := by
  induction t with
  | nil => simp [tset, tfind, Ne.symm h]
  | cons p r ih =>
    obtain ⟨i, w⟩ := p
    simp only [tset]
    split
    · simp [tfind, Ne.symm h]
    · split
      · next hi => subst hi; simp [tfind, Ne.symm h]
      · simp only [tfind]; split <;> simp_all

theorem tfind_tset (t : Tab α) (v : α) (j k : Nat) : tfind (tset t k v) j = if j = k then some v else tfind t j := by
  split
  · next h => subst h; induction t with
    | nil => simp [tset, tfind]
    | cons p r ih =>
      obtain ⟨i, w⟩ := p
      simp only [tset]
      split
      · simp [tfind]
      · split
        · simp [tfind]
        · next h => simp [tfind, h, ih]
  · next h => exact tfind_tset_ne t v h

theorem tget_of_tfind (t : Tab α) (d v : α) {k : Nat} (h : tfind t k = some v) : tget t d k = v := by
  induction t with
  | nil => simp [tfind] at h
  | cons p r ih =>
    obtain ⟨i, w⟩ := p
    simp only [tfind, tget] at *
    split <;> simp_all

/-- A changed table at any index. -/
theorem tget_tmap (t : Tab α) (d : α) (f : Nat → α → α) (k : Nat) (h : f k d = d) :
    tget (tmap t f) d k = f k (tget t d k) := by
  induction t with
  | nil => simp [tmap, tget, h]
  | cons p r ih =>
    obtain ⟨i, w⟩ := p
    simp only [tmap, List.map_cons, tget] at *
    split
    · next hi => subst hi; rfl
    · exact ih

/-! ### Rising tables and canonical memories -/

theorem risingAbove_mono {b c : Nat} (h : c ≤ b) {t : Tab α} (ht : risingAbove b t = true) : risingAbove c t = true := by
  cases t with
  | nil => rfl
  | cons p r =>
    obtain ⟨i, w⟩ := p
    simp [risingAbove] at *
    exact ⟨by omega, ht.2⟩

theorem tget_risingAbove {b : Nat} {t : Tab α} (d : α) (ht : risingAbove b t = true) {k : Nat} (h : k ≤ b) : tget t d k = d := by
  induction t generalizing b with
  | nil => rfl
  | cons p r ih =>
    obtain ⟨i, w⟩ := p
    simp [risingAbove] at ht
    have : ¬ i = k := by omega
    simp only [tget, this, if_false]
    exact ih ht.2 (by omega)

theorem risingAbove_tset {b : Nat} {t : Tab α} {k : Nat} (v : α) (hk : b < k) (ht : risingAbove b t = true) :
    risingAbove b (tset t k v) = true := by
  induction t generalizing b with
  | nil => simp [tset, risingAbove, hk]
  | cons p r ih =>
    obtain ⟨i, w⟩ := p
    simp [risingAbove] at ht
    simp only [tset]
    split
    · next h => simp [risingAbove, hk, h, ht.2]
    · split
      · next h => subst h; simp [risingAbove, hk, ht.2]
      · simp [risingAbove, ht.1]; exact ih (by omega) ht.2

/-- A table keeps its rising order when an entry is set. -/
theorem rising_tset {t : Tab α} (k : Nat) (v : α) (ht : rising t = true) : rising (tset t k v) = true := by
  cases t with
  | nil => rfl
  | cons p r =>
    obtain ⟨i, w⟩ := p
    simp only [rising] at ht
    simp only [tset]
    split
    · next h => simp [rising, risingAbove, h, ht]
    · split
      · next h => subst h; simpa [rising] using ht
      · simp only [rising]; exact risingAbove_tset v (by omega) ht

theorem risingAbove_tdrop {b : Nat} {t : Tab α} (k : Nat) (ht : risingAbove b t = true) : risingAbove b (tdrop t k) = true := by
  induction t generalizing b with
  | nil => rfl
  | cons p r ih =>
    obtain ⟨i, w⟩ := p
    simp [risingAbove] at ht
    simp only [tdrop]
    split
    · exact risingAbove_mono (by omega) (ih ht.2)
    · simp [risingAbove, ht.1]; exact ih ht.2

theorem rising_of_risingAbove {b : Nat} {t : Tab α} (h : risingAbove b t = true) : rising t = true := by
  cases t with
  | nil => rfl
  | cons p r => obtain ⟨i, w⟩ := p; simp [risingAbove] at h; simpa [rising] using h.2

/-- A table keeps its rising order when an entry is dropped. -/
theorem rising_tdrop {t : Tab α} (k : Nat) (ht : rising t = true) : rising (tdrop t k) = true := by
  cases t with
  | nil => rfl
  | cons p r =>
    obtain ⟨i, w⟩ := p
    simp only [rising] at ht
    simp only [tdrop]
    split
    · exact rising_of_risingAbove (risingAbove_tdrop k ht)
    · simp only [rising]; exact risingAbove_tdrop k ht

theorem risingAbove_filter {b : Nat} {t : Tab α} (p : Nat × α → Bool) (ht : risingAbove b t = true) :
    risingAbove b (t.filter p) = true := by
  induction t generalizing b with
  | nil => rfl
  | cons q r ih =>
    obtain ⟨i, w⟩ := q
    simp [risingAbove] at ht
    simp only [List.filter_cons]
    split
    · simp [risingAbove, ht.1]; exact ih ht.2
    · exact risingAbove_mono (by omega) (ih ht.2)

/-- A table keeps its rising order when entries are filtered out. -/
theorem rising_filter {t : Tab α} (p : Nat × α → Bool) (ht : rising t = true) : rising (t.filter p) = true := by
  cases t with
  | nil => rfl
  | cons q r =>
    obtain ⟨i, w⟩ := q
    simp only [rising] at ht
    simp only [List.filter_cons]
    split
    · simp only [rising]; exact risingAbove_filter p ht
    · exact rising_of_risingAbove (risingAbove_filter p ht)

theorem mem_tdrop {t : Tab α} {k : Nat} {x : Nat × α} (h : x ∈ tdrop t k) : x ∈ t := by
  induction t with
  | nil => simp [tdrop] at h
  | cons p r ih =>
    obtain ⟨i, w⟩ := p
    simp only [tdrop] at h
    split at h
    · exact List.mem_cons_of_mem _ (ih h)
    · rcases List.mem_cons.1 h with h | h
      · simp [h]
      · exact List.mem_cons_of_mem _ (ih h)

theorem mem_tset {t : Tab α} {k : Nat} {v : α} {x : Nat × α} (h : x ∈ tset t k v) : x = (k, v) ∨ x ∈ t := by
  induction t with
  | nil => simp [tset] at h; exact .inl h
  | cons p r ih =>
    obtain ⟨i, w⟩ := p
    simp only [tset] at h
    split at h
    · rcases List.mem_cons.1 h with h | h
      · exact .inl h
      · exact .inr h
    · split at h
      · rcases List.mem_cons.1 h with h | h
        · exact .inl h
        · exact .inr (List.mem_cons_of_mem _ h)
      · rcases List.mem_cons.1 h with h | h
        · exact .inr (by simp [h])
        · rcases ih h with h | h
          · exact .inl h
          · exact .inr (List.mem_cons_of_mem _ h)

/-- Writing one byte keeps a memory canonical. -/
theorem memWf_memSet {d : Byte} {m : List Host.Cell} (a : Nat) (v : Byte) (h : memWf d m = true) : memWf d (memSet d m a v) = true := by
  simp only [memWf, Bool.and_eq_true, List.all_eq_true] at *
  unfold memSet
  split
  · exact ⟨rising_tdrop a h.1, fun x hx => h.2 x (mem_tdrop hx)⟩
  · next hv =>
    refine ⟨rising_tset a v h.1, fun x hx => ?_⟩
    rcases mem_tset hx with hx | hx
    · subst hx; simpa using hv
    · exact h.2 x hx

/-- Writing bytes keeps a memory canonical. -/
theorem memWf_memWrite {d : Byte} (bs : List Byte) {m : List Host.Cell} (a : Nat) (h : memWf d m = true) :
    memWf d (memWrite d m a bs) = true := by
  induction bs generalizing m a with
  | nil => exact h
  | cons b r ih => exact ih (a + 1) (memWf_memSet a b h)

/-- Forgetting bytes keeps a memory canonical. -/
theorem memWf_filter {d : Byte} {m : List Host.Cell} (p : Host.Cell → Bool) (h : memWf d m = true) : memWf d (m.filter p) = true := by
  simp only [memWf, Bool.and_eq_true, List.all_eq_true] at *
  exact ⟨rising_filter p h.1, fun x hx => h.2 x (List.mem_filter.1 hx).1⟩

/-- A table's entry after one is dropped. -/
theorem tget_tdrop (t : Tab α) (d : α) (j k : Nat) : tget (tdrop t k) d j = if j = k then d else tget t d j := by
  induction t with
  | nil => simp [tdrop, tget]
  | cons p r ih =>
    obtain ⟨i, w⟩ := p
    simp only [tdrop, tget]
    split
    · next h =>
      subst h
      rw [ih]
      split
      · rfl
      · next hj => rw [if_neg (Ne.symm hj)]
    · next h =>
      simp only [tget]
      split
      · next h2 => subst h2; rw [if_neg h]
      · exact ih

theorem tfind_tdrop (t : Tab α) (j k : Nat) : tfind (tdrop t k) j = if j = k then none else tfind t j := by
  induction t with
  | nil => simp [tdrop, tfind]
  | cons p r ih =>
    obtain ⟨i, w⟩ := p
    simp only [tdrop, tfind]
    split
    · next h =>
      subst h
      rw [ih]
      split
      · rfl
      · next hj => rw [if_neg (Ne.symm hj)]
    · next h =>
      simp only [tfind]
      split
      · next h2 => subst h2; rw [if_neg h]
      · exact ih

/-- A byte of a memory after one byte is written. -/
theorem memGet_memSet {d : Byte} (m : List Host.Cell) (a j : Nat) (v : Byte) :
    memGet d (memSet d m a v) j = if j = a then v else memGet d m j := by
  unfold memGet memSet
  split
  · next hv => rw [tget_tdrop, hv]
  · exact tget_tset m d v j a

/-- A byte of a memory after bytes are written: the byte written there, or what it held. -/
theorem memGet_memWrite {d : Byte} (bs : List Byte) (m : List Host.Cell) (a j : Nat) :
    memGet d (memWrite d m a bs) j = if a ≤ j ∧ j < a + bs.length then bs.getD (j - a) 0 else memGet d m j := by
  induction bs generalizing m a with
  | nil => simp [memWrite]
  | cons b r ih =>
    rw [memWrite, ih, memGet_memSet]
    simp only [List.length_cons]
    by_cases h1 : j = a
    · subst h1
      rw [if_neg (by omega), if_pos rfl, if_pos (by omega)]
      simp
    · by_cases h2 : a + 1 ≤ j ∧ j < a + 1 + r.length
      · have : j - a = (j - (a + 1)) + 1 := by omega
        rw [if_pos h2, if_pos (by omega), this]
        simp
      · rw [if_neg h2, if_neg h1, if_neg (by omega)]

end Sys2Proof.Machine
end

