-- ==== Sys2Proof/Laws/Cores.lean ====
section
/-! SUPPORT. Laws/Cores.lean: what the shared operations of the compute cores touch. -/

namespace Sys2Proof.Machine

/-! ### One core -/

@[simp] theorem coreAt_setCore (s : State) (k j : Nat) (c : Core) : coreAt (setCore k c s) j = if j = k then c else coreAt s j :=
  tget_tset s.cores {} c j k

@[simp] theorem coreAt_modCore (s : State) (k j : Nat) (f : Core → Core) :
    coreAt (modCore k f s) j = if j = k then f (coreAt s k) else coreAt s j := coreAt_setCore s k j _

/-- A change of one core touches the core table alone. -/
theorem modCore_only (k : Nat) (f : Core → Core) (s : State) : OnlyCoresQuiet s (modCore k f s) := rfl

theorem OnlyCoresQuiet.refl (s : State) : OnlyCoresQuiet s s := rfl

theorem OnlyCoresQuiet.trans {s t u : State} (h : OnlyCoresQuiet s t) (g : OnlyCoresQuiet t u) : OnlyCoresQuiet s u := by
  unfold OnlyCoresQuiet at *; rw [g, h]

theorem OnlyCores.refl (u : List Upset) (s : State) : OnlyCores u s s := ⟨rfl, fun _ => ⟨rfl, rfl⟩, fun _ _ => rfl⟩

theorem OnlyCores.trans {u : List Upset} {s t v : State} (h : OnlyCores u s t) (g : OnlyCores u t v) : OnlyCores u s v where
  fields := by
    have h1 := h.fields
    have g1 := g.fields
    rw [g1, h1]
  quiet := fun hu => by
    obtain ⟨a, b⟩ := h.quiet hu
    obtain ⟨c, d⟩ := g.quiet hu
    exact ⟨c.trans a, by rw [d, b]⟩
  totals := fun hu k => by rw [g.totals hu k, h.totals hu k]

theorem OnlyCoresQuiet.toOnlyCores {u : List Upset} {s t : State} (h : OnlyCoresQuiet s t) : OnlyCores u s t where
  fields := by unfold OnlyCoresQuiet at h; rw [h]
  quiet := fun _ => by unfold OnlyCoresQuiet at h; rw [h]; exact ⟨rfl, rfl⟩
  totals := fun _ k => by unfold OnlyCoresQuiet at h; rw [h]; rfl

/-! ### Counting, retiring -/

/-- Counting events changes one island's counters. -/
theorem countEv_islands (isl code n : Nat) (s : State) : ∃ i, countEv isl code n s = { s with islands := i } := by
  unfold countEv
  simp only
  split
  · exact ⟨s.islands, rfl⟩
  · exact ⟨_, rfl⟩

@[simp] theorem countEv_cores (isl code n : Nat) (s : State) : (countEv isl code n s).cores = s.cores := by
  obtain ⟨i, h⟩ := countEv_islands isl code n s
  rw [h]

@[simp] theorem coreAt_countEv (isl code n : Nat) (s : State) (k : Nat) : coreAt (countEv isl code n s) k = coreAt s k := by
  unfold coreAt; rw [countEv_cores]

theorem countEv_only (isl code n : Nat) (s : State) : OnlyCoresQuiet s (countEv isl code n s) := by
  obtain ⟨i, h⟩ := countEv_islands isl code n s
  rw [h]; rfl

theorem KeepsStore.refl (a : Core) : KeepsStore a a := ⟨rfl, rfl, rfl, rfl, rfl, rfl⟩

theorem KeepsStore.trans {a b c : Core} (h : KeepsStore a b) (g : KeepsStore b c) : KeepsStore a c :=
  ⟨g.carrel.trans h.carrel, g.writes.trans h.writes, g.e0.trans h.e0, g.e1.trans h.e1, g.halo.trans h.halo, g.fault.trans h.fault⟩

/-- What a part's leaving its core keeps: every core's registers and stores, and all of the device but core records and counters. -/
structure KeepsCores (s t : State) : Prop where
  regs : ∀ k, regsAt t k = regsAt s k
  stores : ∀ k, KeepsStore (coreAt s k) (coreAt t k)
  rest : OnlyCoresQuiet s t

theorem KeepsCores.refl (s : State) : KeepsCores s s := ⟨fun _ => rfl, fun _ => .refl _, .refl s⟩

theorem KeepsCores.trans {s t u : State} (h : KeepsCores s t) (g : KeepsCores t u) : KeepsCores s u :=
  ⟨fun k => (g.regs k).trans (h.regs k), fun k => (h.stores k).trans (g.stores k), h.rest.trans g.rest⟩

theorem KeepsCores.foldl {β : Type} (f : State → β → State) (h : ∀ s b, KeepsCores s (f s b)) (l : List β) (s : State) :
    KeepsCores s (l.foldl f s) := by
  induction l generalizing s with
  | nil => exact .refl s
  | cons b r ih => exact (h s b).trans (ih _)

theorem countEv_keeps (isl code n : Nat) (s : State) : KeepsCores s (countEv isl code n s) :=
  ⟨fun k => by simp [regsAt], fun k => by rw [coreAt_countEv]; exact .refl _, countEv_only isl code n s⟩

/-- Pre-empting a part sets its registers and tiles aside and leaves them as they stand (R119). -/
theorem preemptNow_keeps (ph j : Nat) (s : State) : KeepsCores s (preemptNow ph j s) := by
  unfold preemptNow
  refine KeepsCores.trans (t := modCore ph _ s) ⟨fun k => ?_, fun k => ?_, modCore_only _ _ s⟩ (countEv_keeps _ _ _ _)
  · unfold regsAt
    rw [coreAt_modCore]
    split
    · next h => subst h; split <;> rfl
    · rfl
  · rw [coreAt_modCore]
    split
    · next h => subst h; split <;> exact ⟨rfl, rfl, rfl, rfl, rfl, rfl⟩
    · exact .refl _

/-- The end of a fence sets the part aside, or lets it stop issue; its registers and stores stand (R119, R293). -/
theorem endFence_keeps (ph j : Nat) (s : State) : KeepsCores s (endFence ph j s) := by
  unfold endFence
  split
  · exact preemptNow_keeps _ _ s
  · refine ⟨fun k => ?_, fun k => ?_, modCore_only _ _ s⟩
    · unfold regsAt
      rw [coreAt_modCore]
      split
      · next h => subst h; rfl
      · rfl
    · rw [coreAt_modCore]
      split
      · next h => subst h; exact ⟨rfl, rfl, rfl, rfl, rfl, rfl⟩
      · exact .refl _

/-- Ending the fences of a job changes no register and no store (R293). -/
theorem settleFences_keeps (job : Nat) (s : State) : KeepsCores s (settleFences job s) := by
  unfold settleFences
  split
  · exact .refl s
  · refine KeepsCores.foldl _ (fun s c => ?_) _ s
    split
    · split
      · exact endFence_keeps _ _ s
      · exact .refl s
    · exact .refl s

/-- A retired instruction moves its core's instruction offset and changes no other register and no store. -/
theorem retire_keeps (ph pc : Nat) (s : State) :
    regsAt (retire ph pc s) ph = { regsAt s ph with pc := pc } ∧ (∀ k, k ≠ ph → regsAt (retire ph pc s) k = regsAt s k)
      ∧ (∀ k, KeepsStore (coreAt s k) (coreAt (retire ph pc s) k)) ∧ OnlyCoresQuiet s (retire ph pc s) := by
  have h1 : ∀ k, coreAt (countEv ph 0x10 1 (modCore ph (fun k => { k with regs := { k.regs with pc := pc } }) s)) k
      = if k = ph then { coreAt s ph with regs := { (coreAt s ph).regs with pc := pc } } else coreAt s k := by
    intro k; rw [coreAt_countEv, coreAt_modCore]
  have h2 : KeepsCores (countEv ph 0x10 1 (modCore ph (fun k => { k with regs := { k.regs with pc := pc } }) s)) (retire ph pc s) := by
    unfold retire
    simp only
    split
    · exact settleFences_keeps _ _
    · exact .refl _
  refine ⟨?_, fun k hk => ?_, fun k => ?_, OnlyCoresQuiet.trans (OnlyCoresQuiet.trans (modCore_only _ _ s) (countEv_only _ _ _ _)) h2.rest⟩
  · rw [h2.regs ph]; unfold regsAt; rw [h1, if_pos rfl]
  · rw [h2.regs k]; unfold regsAt; rw [h1, if_neg hk]
  · refine KeepsStore.trans ?_ (h2.stores k)
    rw [h1]
    split
    · next h => subst h; exact ⟨rfl, rfl, rfl, rfl, rfl, rfl⟩
    · exact .refl _

/-! ### Issue -/

/-- An instruction that issues names the core it issues on. -/
theorem Issues.core {s : State} {c : Nat} {e : Env} (h : Issues s c e) : e.core = coreAt s e.ph ∧ e.c = c := by
  unfold Issues envOf at h
  split at h
  · cases h
  · split at h
    · cases h
    · simp only at h
      split at h
      · cases h
      · split at h
        · cases h
        · split at h
          · cases h
          · split at h
            · split at h
              · cases h; exact ⟨rfl, rfl⟩
              · cases h
            · cases h

/-- An instruction that issues, is fetched and does not fault. -/
theorem issue_done {s t : State} {c : Nat} {e : Env} {u : List Upset} {f : Env → State → Verdict} (h : Issues s c e) (hu : fetchLost u = false)
    (hf : f e (noteCorrected c e.ph u s) = .done t) : issue c u s f = .next (retire e.ph (e.core.regs.pc + 16) t) := by
  unfold issue
  rw [show envOf s c = some e from h]
  simp [hu, hf]

/-- Of a list of checks that do not fail there is no worst. -/
theorem worst_clean {l : List Check} (h : Clean l) : worst l = none := by
  unfold worst
  have : l.filter (fun k => k.bad) = [] := by
    rw [List.filter_eq_nil_iff]; intro k hk; simp [h k hk]
  rw [this]; rfl

/-- An instruction whose checks pass takes effect. -/
theorem checked_clean {l a : List Check} (s : State) (k : Unit → Verdict) (h : Clean l) (g : Clean a) : checked l a s k = k () := by
  unfold checked
  rw [worst_clean h]
  have : a.find? (fun b => b.bad) = none := by
    rw [List.find?_eq_none]; intro b hb; simp [g b hb]
  simp only [this]

end Sys2Proof.Machine
end

