-- ==== Sys2Proof/Laws/Ops.lean ====
section
/-! SUPPORT. Laws/Ops.lean: what the shared operations touch: rings and events touch the host island and the error unit, a charge the
accounts, a write of a core its own memory. -/

namespace Sys2Proof.Machine

/-! ### The host island -/

/-- Only the host island's state differs. -/
def HostOnly (s t : State) : Prop := t = { s with host := t.host }

theorem HostOnly.refl (s : State) : HostOnly s s := rfl
theorem HostOnly.trans {s t u : State} (h : HostOnly s t) (g : HostOnly t u) : HostOnly s u := by
  unfold HostOnly at *; rw [g, h]

theorem setRing_host (n : Nat) (r : Ring) (s : State) : HostOnly s (setRing n r s) := rfl
theorem modRing_host (n : Nat) (f : Ring → Ring) (s : State) : HostOnly s (modRing n f s) := rfl
theorem modFn_host (n : Nat) (f : Func → Func) (s : State) : HostOnly s (modFn n f s) := rfl
theorem hostWrite_host (a : Nat) (bs : List Byte) (s : State) : HostOnly s (hostWrite a bs s) := rfl
theorem driveInta_host (s : State) : HostOnly s (driveInta s) := rfl
theorem ringDrop_host (n : Nat) (s : State) : HostOnly s (ringDrop n s) := rfl

theorem sendMsix_host (f v : Nat) (s : State) : HostOnly s (sendMsix f v s) := by
  unfold sendMsix; simp only; split
  · rfl
  · split <;> rfl

theorem announce_host (n : Nat) (s : State) : HostOnly s (announce n s) := by
  unfold announce; exact (setRing_host _ _ s).trans (sendMsix_host _ _ _)

theorem ringPut_host (n : Nat) (l : List Byte) (s : State) : HostOnly s (ringPut n l s) := by
  unfold ringPut
  simp only
  refine HostOnly.trans ?_ (driveInta_host _)
  split
  · exact HostOnly.trans (t := setRing n _ (hostWrite _ _ s)) rfl (announce_host _ _)
  · rfl

theorem mergeEvent_host (n : Nat) (m : Mergeable) (s : State) : HostOnly s (mergeEvent n m s) := rfl

theorem newEntry_host (n : Nat) (e : Event) (q : Word) (s : State) : HostOnly s (newEntry n e q s) := by
  unfold newEntry
  simp only
  split
  · exact ringDrop_host _ s
  · refine HostOnly.trans ?_ (ringPut_host _ _ _)
    split <;> rfl

theorem placeEvent_host (n : Nat) (e : Event) (q : Word) (s : State) : HostOnly s (placeEvent n e q s) := by
  unfold placeEvent
  simp only
  split
  · split
    · exact mergeEvent_host _ _ s
    · exact newEntry_host _ _ _ s
  · exact newEntry_host _ _ _ s

/-! ### Events -/

/-- Only the host island's and the error unit's state differ. -/
def HostErr (s t : State) : Prop := t = { s with host := t.host, err := t.err }

theorem HostErr.refl (s : State) : HostErr s s := rfl
theorem HostErr.trans {s t u : State} (h : HostErr s t) (g : HostErr t u) : HostErr s u := by
  unfold HostErr at *; rw [g, h]
theorem HostOnly.toErr {s t : State} (h : HostOnly s t) : HostErr s t := by
  unfold HostErr HostOnly at *; rw [h]

theorem countClass_touches (e : Event) (s : State) : HostErr s (countClass e s) := by
  unfold countClass; split <;> rfl

theorem deliverEvent_touches (e : Event) (q : Word) (s : State) : HostErr s (deliverEvent e q s) := by
  unfold deliverEvent
  split
  · rfl
  · split
    · rfl
    · exact (placeEvent_host _ _ _ _).toErr

/-- Reporting an event touches the rings, the counts and nothing else (R391, R392). -/
theorem emit_touches (e : Event) (s : State) : HostErr s (emit e s) :=
  ((countClass_touches e s).trans (modFn_host _ _ _).toErr).trans (deliverEvent_touches _ _ _)

theorem emitC0_touches (a b c : Nat) (l : List Nat) (s : State) : HostErr s (emitC0 a b c l s) := emit_touches _ s

theorem HostErr.cores {s t : State} (h : HostErr s t) : t.cores = s.cores := by unfold HostErr at h; rw [h]
theorem HostErr.coreAt {s t : State} (h : HostErr s t) (k : Nat) : Machine.coreAt t k = Machine.coreAt s k := by
  unfold Machine.coreAt; rw [h.cores]

/-! ### Corrected errors, charges -/

/-- Corrected errors are counted and reported; no core is touched. -/
theorem noteCorrected_cores (c ph : Nat) (u : List Upset) (s : State) : (noteCorrected c ph u s).cores = s.cores := by
  unfold noteCorrected
  induction u generalizing s with
  | nil => rfl
  | cons x r ih =>
    rw [List.foldl_cons, ih]
    split
    · rw [countEv_cores]; exact (emitC0_touches _ _ _ _ s).cores
    · exact (emitC0_touches _ _ _ _ s).cores
    · rfl

/-- Only event counters, the host island and the error unit differ. -/
def ReportsOnly (s t : State) : Prop := ∃ i h r, t = { s with islands := i, host := h, err := r }

theorem ReportsOnly.refl (s : State) : ReportsOnly s s := ⟨_, _, _, rfl⟩
theorem ReportsOnly.trans {s t u : State} (h : ReportsOnly s t) (g : ReportsOnly t u) : ReportsOnly s u := by
  obtain ⟨_, _, _, rfl⟩ := h
  obtain ⟨_, _, _, rfl⟩ := g
  exact ⟨_, _, _, rfl⟩
theorem ReportsOnly.foldl {β : Type} (f : State → β → State) (h : ∀ s b, ReportsOnly s (f s b)) (l : List β) (s : State) :
    ReportsOnly s (l.foldl f s) := by
  induction l generalizing s with
  | nil => exact .refl s
  | cons b r ih => exact (h s b).trans (ih _)
theorem HostErr.reports {s t : State} (h : HostErr s t) : ReportsOnly s t := by
  unfold HostErr at h; rw [h]; exact ⟨_, _, _, rfl⟩
theorem countEv_reports (isl code n : Nat) (s : State) : ReportsOnly s (countEv isl code n s) := by
  obtain ⟨_, h⟩ := countEv_islands isl code n s
  rw [h]; exact ⟨_, _, _, rfl⟩

theorem noteCorrected_reports (c ph : Nat) (u : List Upset) (s : State) : ReportsOnly s (noteCorrected c ph u s) := by
  unfold noteCorrected
  refine ReportsOnly.foldl _ (fun s x => ?_) u s
  split
  · exact (emitC0_touches 0x01 c 0 [] s).reports.trans (countEv_reports _ _ _ _)
  · exact (emitC0_touches 0x01 c 0 [] s).reports
  · exact .refl s

theorem noteCorrected_none (c ph : Nat) (u : List Upset) (s : State) (h : Unreported u) : noteCorrected c ph u s = s := by
  unfold noteCorrected
  induction u generalizing s with
  | nil => rfl
  | cons x r ih =>
    rw [List.foldl_cons]
    rw [ih _ ⟨fun g => h.1 (by simp [g]), fun g => h.2 (by simp [g])⟩]
    split
    · exact absurd (by simp) h.1
    · exact absurd (by simp) h.2
    · rfl

/-- What corrected errors leave: nothing but counters and their event (R80, R93). -/
theorem noteCorrected_only (c ph : Nat) (u : List Upset) (s : State) : OnlyCores u s (noteCorrected c ph u s) := by
  refine ⟨?_, fun h => ?_, fun h k => ?_⟩
  · obtain ⟨_, _, _, h⟩ := noteCorrected_reports c ph u s
    rw [h]
  · rw [noteCorrected_none c ph u s h]; exact ⟨rfl, rfl⟩
  · rw [noteCorrected_none c ph u s h]

@[simp] theorem coreAt_noteCorrected (c ph : Nat) (u : List Upset) (s : State) (k : Nat) :
    coreAt (noteCorrected c ph u s) k = coreAt s k := by
  unfold coreAt; rw [noteCorrected_cores]

theorem charge_cores (ctx : Nat) (f : Account → Account) (s : State) : (charge ctx f s).cores = s.cores := by
  unfold charge; split <;> rfl

@[simp] theorem coreAt_charge (ctx : Nat) (f : Account → Account) (s : State) (k : Nat) : coreAt (charge ctx f s) k = coreAt s k := by
  unfold coreAt; rw [charge_cores]

/-- A charge touches the accounts and the owner's total alone (R298). -/
theorem charge_only (u : List Upset) (ctx : Nat) (f : Account → Account) (s : State) : OnlyCores u s (charge ctx f s) := by
  unfold charge
  split
  · exact .refl u s
  · refine ⟨rfl, fun _ => ⟨rfl, rfl⟩, fun _ k => ?_⟩
    simp only [modFn, fnAt, tget_tset]
    split
    · next h => subst h; rfl
    · rfl

/-! ### Instructions that only change registers -/

/-- An instruction that changes its core's registers after effects `t` that touch no core. -/
theorem regsDone_only {s t : State} {c : Nat} {e : Env} {u : List Upset} {f : Env → State → Verdict} {g : Regs → Regs} (h : Issues s c e)
    (hu : fetchLost u = false) (hc : ∀ k, coreAt t k = coreAt s k) (ho : OnlyCores u s t)
    (hf : f e (noteCorrected c e.ph u s) = regsDone e t g) : ∃ v, issue c u s f = .next v ∧ OnlyRegs e u (g e.core.regs) s v := by
  refine ⟨_, issue_done h hu hf, ?_⟩
  obtain ⟨r1, r2, r3, r4⟩ := retire_keeps e.ph (e.core.regs.pc + 16) (modCore e.ph (fun k => { k with regs := g k.regs }) t)
  refine ⟨?_, fun k hk => ?_, fun k => ?_, ho.trans ((OnlyCoresQuiet.trans (modCore_only _ _ t) r4).toOnlyCores)⟩
  · rw [r1]; simp [regsAt, h.core.1, hc]
  · rw [r2 k hk]; simp [regsAt, hk, hc]
  · refine KeepsStore.trans ?_ (r3 k)
    rw [coreAt_modCore, ← hc]
    split
    · next h => subst h; exact ⟨rfl, rfl, rfl, rfl, rfl, rfl⟩
    · exact .refl _

end Sys2Proof.Machine
end

