-- ==== Sys2Proof/Laws/Memory.lean ====
section
/-! SUPPORT. Laws/Memory.lean: the DRAM address map (R307) and what writes of a core leave in its carrel and its global share (R93, R113). -/

namespace Sys2Proof.Machine

/-! ### The DRAM address map -/

theorem partChannels_nodup (s : State) (p : Nat) : (partChannels s p).Nodup := by
  unfold partChannels usedChannels
  exact (List.nodup_range.filter _).filter _

/-- What the address map says of a partition offset that has a place. -/
theorem dramAt_some {s : State} {p x m o : Nat} (h : dramAt s p x = some (m, o)) :
    let k := (partChannels s p).length
    0 < k ∧ (partChannels s p)[x / 256 % k]? = some m ∧ o = 256 * (x / 256 / k) + x % 256 ∧ o < capOf s m := by
  simp only
  unfold dramAt at h
  simp only at h
  split at h
  · cases h
  · next hk =>
    have hk' : 0 < (partChannels s p).length := Nat.pos_of_ne_zero hk
    have hl := Nat.mod_lt (x / 256) hk'
    split at h
    · next hc =>
      simp only [Option.some.injEq, Prod.mk.injEq] at h
      obtain ⟨h1, h2⟩ := h
      refine ⟨hk', ?_, h2.symm, ?_⟩
      · rw [← h1, List.getD_eq_getElem?_getD, List.getElem?_eq_getElem hl]; rfl
      · rw [← h1, ← h2]; exact hc
    · cases h

/-- Two partition offsets never share a byte of DRAM (R307). -/
theorem dramAt_inj {s : State} {p x y : Nat} {a : Nat × Nat} (h : dramAt s p x = some a) (g : dramAt s p y = some a) : x = y := by
  obtain ⟨m, o⟩ := a
  obtain ⟨hk, h1, h2, -⟩ := dramAt_some h
  obtain ⟨-, g1, g2, -⟩ := dramAt_some g
  have hi : x / 256 % (partChannels s p).length = y / 256 % (partChannels s p).length := by
    have hl := Nat.mod_lt (x / 256) hk
    exact (List.getElem?_inj hl (partChannels_nodup s p)).mp (h1.trans g1.symm)
  have hq : x / 256 / (partChannels s p).length = y / 256 / (partChannels s p).length := by omega
  have hb : x % 256 = y % 256 := by omega
  have hg : x / 256 = y / 256 := by
    rw [← Nat.div_add_mod (x / 256) (partChannels s p).length, ← Nat.div_add_mod (y / 256) (partChannels s p).length, hq, hi]
  rw [← Nat.div_add_mod x 256, ← Nat.div_add_mod y 256, hg, hb]

theorem keyOf_inj {s : State} {p x y k : Nat} (hf : ChannelsFit s) (h : keyOf s p x = some k) (g : keyOf s p y = some k) : x = y := by
  unfold keyOf at h g
  rw [Option.map_eq_some_iff] at h g
  obtain ⟨⟨m, o⟩, h1, h2⟩ := h
  obtain ⟨⟨n, q⟩, g1, g2⟩ := g
  have ho := Nat.lt_of_lt_of_le (dramAt_some h1).2.2.2 (hf m)
  have hq := Nat.lt_of_lt_of_le (dramAt_some g1).2.2.2 (hf n)
  unfold dramKey at h2 g2
  simp only at h2 g2
  have e1 : m = n := by omega
  have e2 : o = q := by omega
  subst e1; subst e2
  exact dramAt_inj h1 g1

/-! ### Writes of a core -/

/-- Only the carrel and the unpublished writes of one core differ. -/
structure CoreSpace (ph : Nat) (s t : State) : Prop where
  rest : ∃ v, t = { s with cores := v }
  others : ∀ j, j ≠ ph → coreAt t j = coreAt s j
  own : ∃ k w, coreAt t ph = { coreAt s ph with carrel := k, writes := w }

theorem CoreSpace.refl (ph : Nat) (s : State) : CoreSpace ph s s := ⟨⟨_, rfl⟩, fun _ _ => rfl, _, _, rfl⟩

theorem CoreSpace.trans {ph : Nat} {s t u : State} (h : CoreSpace ph s t) (g : CoreSpace ph t u) : CoreSpace ph s u := by
  obtain ⟨⟨v, rfl⟩, h2, k, w, h3⟩ := h
  obtain ⟨⟨x, rfl⟩, g2, j, y, g3⟩ := g
  exact ⟨⟨x, rfl⟩, fun i hi => (g2 i hi).trans (h2 i hi), j, y, by rw [g3, h3]⟩

theorem putGlobal_space (e : Env) (a : Nat) (b : Byte) (s : State) : CoreSpace e.ph s (putGlobal e a b s) := by
  unfold putGlobal
  split
  · exact ⟨⟨_, rfl⟩, fun j hj => by simp [hj], _, _, by rw [coreAt_modCore, if_pos rfl]⟩
  · exact .refl _ s

theorem putGlobals_space (e : Env) (bs : List Byte) (a : Nat) (s : State) : CoreSpace e.ph s (putGlobals e a bs s) := by
  induction bs generalizing a s with
  | nil => exact .refl _ s
  | cons b r ih => exact (putGlobal_space e a b s).trans (ih _ _)

/-- A write of a core touches its carrel and its unpublished writes alone. -/
theorem spaceWrite_space (e : Env) (glob : Bool) (a : Nat) (bs : List Byte) (s : State) : CoreSpace e.ph s (spaceWrite e glob a bs s) := by
  unfold spaceWrite
  split
  · exact putGlobals_space e bs a s
  · exact ⟨⟨_, rfl⟩, fun j hj => by simp [hj], _, _, by rw [coreAt_modCore, if_pos rfl]⟩

theorem spaceWrites_space (e : Env) (glob : Bool) (l : List (Nat × List Byte)) (s : State) : CoreSpace e.ph s (spaceWrites e glob l s) := by
  unfold spaceWrites
  induction l generalizing s with
  | nil => exact .refl _ s
  | cons x r ih => exact (spaceWrite_space e glob x.1 x.2 s).trans (ih _)

/-- Where a global address lies depends on no core. -/
theorem CoreSpace.key {ph : Nat} {s t : State} (h : CoreSpace ph s t) (e : Env) (a : Nat) : globalKey t e a = globalKey s e a := by
  obtain ⟨⟨v, rfl⟩, -, -⟩ := h; rfl

theorem CoreSpace.alone {ph : Nat} {s t : State} (h : CoreSpace ph s t) {e : Env} {b : Nat} (f : Alone s e b) : Alone t e b := by
  intro a ha
  rw [h.key, h.key] at ha
  exact f a ha

/-- One written global byte as the core reads it. -/
theorem globalByte_putGlobal {s : State} {e : Env} (a b : Nat) (v : Byte) (hb : (globalKey s e b).isSome) (hf : Alone s e b) :
    globalByte (putGlobal e a v s) e b = if b = a then v else globalByte s e b := by
  obtain ⟨j, hj⟩ := Option.isSome_iff_exists.mp hb
  unfold putGlobal
  split
  · next k ha =>
    have hg : ∀ x, globalKey (modCore e.ph (fun c => { c with writes := tset c.writes k v }) s) e x = globalKey s e x := fun _ => rfl
    have hc : cluAt (modCore e.ph (fun c => { c with writes := tset c.writes k v }) s) (e.c / 4) = cluAt s (e.c / 4) := rfl
    have hd : ∀ x, dramByte (modCore e.ph (fun c => { c with writes := tset c.writes k v }) s) x = dramByte s x := fun _ => rfl
    unfold globalByte
    rw [hg, hj, coreAt_modCore, if_pos rfl, hc]
    simp only [hd]
    by_cases h : b = a
    · subst h
      rw [ha] at hj
      cases hj
      simp
    · rw [if_neg h, tfind_tset_ne]
      rintro rfl
      exact h (hf a (ha.trans hj.symm)).symm
  · next ha =>
    rw [if_neg]
    rintro rfl
    rw [ha] at hb
    cases hb

/-- Reading the global share after one run of writes to it. -/
theorem globalByte_putGlobals {e : Env} (bs : List Byte) {s : State} (a b : Nat) (hf : Alone s e b) (hb : (globalKey s e b).isSome) :
    globalByte (putGlobals e a bs s) e b = if a ≤ b ∧ b < a + bs.length then bs.getD (b - a) 0 else globalByte s e b := by
  induction bs generalizing s a with
  | nil => unfold putGlobals; rw [if_neg (by simp)]
  | cons v r ih =>
    unfold putGlobals
    have hs := putGlobal_space e a v s
    rw [ih (a + 1) (hs.alone hf) (by rw [hs.key]; exact hb), globalByte_putGlobal a b v hb hf]
    by_cases h : b = a
    · subst h; simp
    · by_cases h2 : a + 1 ≤ b ∧ b < a + 1 + r.length
      · rw [if_pos h2, if_pos (by simp only [List.length_cons]; omega)]
        rw [show b - a = (b - (a + 1)) + 1 by omega]
        simp
      · rw [if_neg h2, if_neg h, if_neg (by simp only [List.length_cons]; omega)]

/-- A byte of the space written, after one run. -/
theorem spaceByte_spaceWrite {s : State} {e : Env} (glob : Bool) (a b : Nat) (bs : List Byte)
    (hw : glob = false → memWf 0 (coreAt s e.ph).carrel = true) (hf : glob = true → Alone s e b)
    (hb : glob = true → (globalKey s e b).isSome) :
    spaceByte (spaceWrite e glob a bs s) e glob b = if a ≤ b ∧ b < a + bs.length then bs.getD (b - a) 0 else spaceByte s e glob b := by
  cases glob with
  | true => exact globalByte_putGlobals bs a b (hf rfl) (hb rfl)
  | false =>
    unfold spaceByte spaceWrite
    simp only [Bool.false_eq_true, if_false, coreAt_modCore, if_true]
    exact memGet_memWrite bs _ a b

/-- The other space is as it was. -/
theorem spaceByte_spaceWrite_other {s : State} {e : Env} (glob : Bool) (a b : Nat) (bs : List Byte) :
    spaceByte (spaceWrite e glob a bs s) e (!glob) b = spaceByte s e (!glob) b := by
  cases glob with
  | false =>
    unfold spaceByte spaceWrite globalByte
    simp only [Bool.false_eq_true, if_false, Bool.not_false, if_true, coreAt_modCore]
    rfl
  | true =>
    unfold spaceByte spaceWrite
    simp only [Bool.not_true, Bool.false_eq_true, if_false, if_true]
    induction bs generalizing s a with
    | nil => rfl
    | cons v r ih =>
      unfold putGlobals
      rw [ih]
      unfold putGlobal
      split
      · rw [coreAt_modCore, if_pos rfl]
      · rfl

/-- Every run keeps the carrel's canonical form. -/
theorem spaceWrite_wf {s : State} {e : Env} (glob : Bool) (a : Nat) (bs : List Byte) (hw : memWf 0 (coreAt s e.ph).carrel = true) :
    memWf 0 (coreAt (spaceWrite e glob a bs s) e.ph).carrel = true := by
  cases glob with
  | false =>
    unfold spaceWrite
    simp only [Bool.false_eq_true, if_false, coreAt_modCore, if_true]
    exact memWf_memWrite bs a hw
  | true =>
    have h : ∀ (bs : List Byte) (a : Nat) (s : State), (coreAt (putGlobals e a bs s) e.ph).carrel = (coreAt s e.ph).carrel := by
      intro bs
      induction bs with
      | nil => intro a s; rfl
      | cons v r ih =>
        intro a s
        unfold putGlobals
        rw [ih]
        unfold putGlobal
        split
        · rw [coreAt_modCore, if_pos rfl]
        · rfl
    unfold spaceWrite
    simp only [if_true, h]
    exact hw

/-- A byte of the space written, after several runs. -/
theorem spaceByte_spaceWrites {e : Env} (glob : Bool) (l : List (Nat × List Byte)) {s : State} (b : Nat)
    (hw : glob = false → memWf 0 (coreAt s e.ph).carrel = true) (hf : glob = true → Alone s e b)
    (hb : glob = true → (globalKey s e b).isSome) :
    spaceByte (spaceWrites e glob l s) e glob b = byteAfter l b (spaceByte s e glob b) := by
  unfold spaceWrites byteAfter
  induction l generalizing s with
  | nil => rfl
  | cons x r ih =>
    have hs := spaceWrite_space e glob x.1 x.2 s
    rw [List.foldl_cons, List.foldl_cons, ih (fun h => spaceWrite_wf glob x.1 x.2 (hw h)) (fun h => hs.alone (hf h))
      (fun h => by rw [hs.key]; exact hb h), spaceByte_spaceWrite glob x.1 b x.2 hw hf hb]

theorem spaceByte_spaceWrites_other {e : Env} (glob : Bool) (l : List (Nat × List Byte)) {s : State} (b : Nat) :
    spaceByte (spaceWrites e glob l s) e (!glob) b = spaceByte s e (!glob) b := by
  unfold spaceWrites
  induction l generalizing s with
  | nil => rfl
  | cons x r ih => rw [List.foldl_cons, ih, spaceByte_spaceWrite_other]

/-! ### Instructions that write memory -/

/-- What a core reads depends on its carrel, its writes, its cluster's stacks and DRAM. -/
theorem spaceByte_congr {s t : State} (e : Env) (g : Bool) (b : Nat) (hc : (coreAt t e.ph).carrel = (coreAt s e.ph).carrel)
    (hw : (coreAt t e.ph).writes = (coreAt s e.ph).writes) (hk : ∀ x, globalKey t e x = globalKey s e x)
    (hl : cluAt t (e.c / 4) = cluAt s (e.c / 4)) (hd : ∀ x, dramByte t x = dramByte s x) : spaceByte t e g b = spaceByte s e g b := by
  unfold spaceByte globalByte
  rw [hc, hw, hk, hl]
  simp only [hd]

theorem OnlyCores.key {u : List Upset} {s t : State} (h : OnlyCores u s t) (e : Env) (x : Nat) : globalKey t e x = globalKey s e x := by
  rw [h.fields]; rfl
theorem OnlyCores.alone {u : List Upset} {s t : State} (h : OnlyCores u s t) {e : Env} {b : Nat} (f : Alone s e b) : Alone t e b := by
  intro a ha
  rw [h.key, h.key] at ha
  exact f a ha
theorem OnlyCores.reads {u : List Upset} {s t : State} (h : OnlyCores u s t) (e : Env) (g : Bool) (b : Nat)
    (hc : (coreAt t e.ph).carrel = (coreAt s e.ph).carrel) (hw : (coreAt t e.ph).writes = (coreAt s e.ph).writes) :
    spaceByte t e g b = spaceByte s e g b :=
  spaceByte_congr e g b hc hw (h.key e) (by rw [h.fields]; rfl) (fun x => by rw [h.fields]; rfl)

theorem CoreSpace.only {ph : Nat} {s t : State} (u : List Upset) (h : CoreSpace ph s t) : OnlyCores u s t := by
  obtain ⟨⟨v, rfl⟩, -, -⟩ := h
  exact ⟨rfl, fun _ => ⟨rfl, rfl⟩, fun _ _ => rfl⟩

/-- An instruction that writes memory and then its core's registers, after effects `t` that touch no core. -/
theorem writesDone_only {s t : State} {c : Nat} {e : Env} {u : List Upset} {f : Env → State → Verdict} {glob : Bool} {w : List (Nat × List Byte)}
    {g : Regs → Regs} (h : Issues s c e) (hu : fetchLost u = false) (hc : ∀ k, coreAt t k = coreAt s k) (ho : OnlyCores u s t)
    (hw : glob = false → memWf 0 (coreAt s e.ph).carrel = true)
    (hv : f e (noteCorrected c e.ph u s) = .done (modCore e.ph (fun k => { k with regs := g k.regs }) (spaceWrites e glob w t))) :
    ∃ v, issue c u s f = .next v ∧ OnlyWrites e u glob w (g e.core.regs) s v := by
  refine ⟨_, issue_done h hu hv, ?_⟩
  have hs := spaceWrites_space e glob w t
  generalize hx : spaceWrites e glob w t = x at hs
  obtain ⟨r1, r2, r3, r4⟩ := retire_keeps e.ph (e.core.regs.pc + 16) (modCore e.ph (fun k => { k with regs := g k.regs }) x)
  have own : KeepsStore (coreAt x e.ph) (coreAt (modCore e.ph (fun k => { k with regs := g k.regs }) x) e.ph) := by
    rw [coreAt_modCore, if_pos rfl]; exact ⟨rfl, rfl, rfl, rfl, rfl, rfl⟩
  have all := own.trans (r3 e.ph)
  have rest : OnlyCores u x (retire e.ph (e.core.regs.pc + 16) (modCore e.ph (fun k => { k with regs := g k.regs }) x)) :=
    (OnlyCoresQuiet.trans (modCore_only _ _ x) r4).toOnlyCores
  obtain ⟨k, y, hk⟩ := hs.own
  refine ⟨?_, fun j hj => ⟨?_, ?_⟩, fun b hb => ?_, fun b => ?_, ⟨?_, ?_⟩, ⟨?_, ?_⟩, (ho.trans (hs.only u)).trans rest⟩
  · rw [r1]; unfold regsAt; rw [coreAt_modCore, if_pos rfl, hk, hc, h.core.1]
  · rw [r2 j hj]; unfold regsAt; rw [coreAt_modCore, if_neg hj, hs.others j hj, hc]
  · refine KeepsStore.trans ?_ (r3 j)
    rw [coreAt_modCore, if_neg hj, hs.others j hj, hc]; exact .refl _
  · rw [rest.reads e glob b all.carrel all.writes, ← hx, spaceByte_spaceWrites glob w b (by rw [hc]; exact hw) (fun q => ho.alone (hb q).2)
      (fun q => by rw [ho.key]; exact (hb q).1), ho.reads e glob b (by rw [hc]) (by rw [hc])]
  · rw [rest.reads e (!glob) b all.carrel all.writes, ← hx, spaceByte_spaceWrites_other, ho.reads e (!glob) b (by rw [hc]) (by rw [hc])]
  · rw [all.e0, hk, hc]
  · rw [all.e1, hk, hc]
  · rw [all.halo, hk, hc]
  · rw [all.fault, hk, hc]

end Sys2Proof.Machine
end

