-- ==== Sys2Proof/Laws/Aethod.lean ====
section
/-! SUPPORT. Laws/Aethod.lean: the steps an Aethod instruction's proof takes: its checks, its spans, the windows, and how it completes. -/

namespace Sys2Proof.Machine

theorem Clean.nil : Clean [] := by intro x hx; cases hx
theorem Clean.cons {k : Check} {l : List Check} (h : k.bad = false) (g : Clean l) : Clean (k :: l) := by
  intro x hx
  rcases List.mem_cons.mp hx with rfl | hx
  exacts [h, g x hx]
theorem Clean.append {l m : List Check} (h : Clean l) (g : Clean m) : Clean (l ++ m) := by
  intro x hx
  rcases List.mem_append.mp hx with hx | hx
  exacts [h x hx, g x hx]

/-- An instruction whose spans meet no queued HXCH does not wait. -/
theorem clearOf_unblocked {e : Env} {l : List Span} {s : State} {k : Unit → Verdict} (h : Unblocked e l) : clearOf e l s k = k () := by
  unfold clearOf; unfold Unblocked at h; rw [h]; rfl

/-- A tensor that meets no IMPORT window of its context is clear of them. -/
theorem liesIn_clear {s : State} {e : Env} {d : Desc} (h : d.glob = true → ∀ q ∈ tensorRanges d, importsMeeting s e.part.ctx q.1 q.2 = []) :
    liesIn s e d = .clear := by
  unfold liesIn
  cases hg : d.glob with
  | false => simp
  | true =>
    have : (tensorRanges d).all (fun r => (importsMeeting s e.part.ctx r.1 r.2).isEmpty) = true := by
      rw [List.all_eq_true]; intro q hq; rw [h hg q hq]; rfl
    simp [this]

/-- A core's registers written over with what they are. -/
theorem tset_tget {α : Type} (t : Tab α) (d : α) (k : Nat) (j : Nat) : tget (tset t k (tget t d k)) d j = tget t d j := by
  rw [tget_tset]; split
  · next h => rw [h]
  · rfl

/-- An instruction that only writes memory, after effects `t` that touch no core. -/
theorem copyDone_only {s t : State} {c : Nat} {e : Env} {u : List Upset} {f : Env → State → Verdict} {glob : Bool} {w : List (Nat × List Byte)}
    (h : Issues s c e) (hu : fetchLost u = false) (hc : ∀ k, coreAt t k = coreAt s k) (ho : OnlyCores u s t)
    (hw : glob = false → memWf 0 (coreAt s e.ph).carrel = true)
    (hv : f e (noteCorrected c e.ph u s) = .done (spaceWrites e glob w t)) :
    ∃ v, issue c u s f = .next v ∧ OnlyWrites e u glob w e.core.regs s v := by
  refine ⟨_, issue_done h hu hv, ?_⟩
  have hs := spaceWrites_space e glob w t
  generalize hx : spaceWrites e glob w t = x at hs
  obtain ⟨r1, r2, r3, r4⟩ := retire_keeps e.ph (e.core.regs.pc + 16) x
  have all := r3 e.ph
  have rest : OnlyCores u x (retire e.ph (e.core.regs.pc + 16) x) := r4.toOnlyCores
  obtain ⟨k, y, hk⟩ := hs.own
  refine ⟨?_, fun j hj => ⟨?_, ?_⟩, fun b hb => ?_, fun b => ?_, ⟨?_, ?_⟩, ⟨?_, ?_⟩, (ho.trans (hs.only u)).trans rest⟩
  · rw [r1]; unfold regsAt; rw [hk, hc, h.core.1]
  · rw [r2 j hj]; unfold regsAt; rw [hs.others j hj, hc]
  · refine KeepsStore.trans ?_ (r3 j)
    rw [hs.others j hj, hc]; exact .refl _
  · rw [rest.reads e glob b all.carrel all.writes, ← hx, spaceByte_spaceWrites glob w b (by rw [hc]; exact hw) (fun q => ho.alone (hb q).2)
      (fun q => by rw [ho.key]; exact (hb q).1), ho.reads e glob b (by rw [hc]) (by rw [hc])]
  · rw [rest.reads e (!glob) b all.carrel all.writes, ← hx, spaceByte_spaceWrites_other, ho.reads e (!glob) b (by rw [hc]) (by rw [hc])]
  · rw [all.e0, hk, hc]
  · rw [all.e1, hk, hc]
  · rw [all.halo, hk, hc]
  · rw [all.fault, hk, hc]

end Sys2Proof.Machine
end

