-- ==== Sys2Proof/Laws/State.lean ====
section
/-! SUPPORT. Laws/State.lean: the fields of State under its named updates, and what each update of a unit reads back as. -/

namespace Sys2Proof.Machine

@[simp] theorem reset_pending : State.reset.pending = [] := rfl

/-! ### What each update leaves -/

/-- useFree changes only free of State. -/
@[simp] theorem useFree_fields (n : Nat) (s : State) :
    (useFree n s).pending = s.pending ∧ (useFree n s).order = s.order ∧ (useFree n s).cores = s.cores ∧
    (useFree n s).clusters = s.clusters ∧ (useFree n s).ctxs = s.ctxs ∧ (useFree n s).nextCtxs = s.nextCtxs ∧
    (useFree n s).jobs = s.jobs ∧ (useFree n s).claims = s.claims ∧ (useFree n s).parts = s.parts ∧ (useFree n s).accounts = s.accounts ∧
    (useFree n s).streams = s.streams ∧ (useFree n s).flows = s.flows ∧ (useFree n s).media = s.media ∧ (useFree n s).encs = s.encs ∧
    (useFree n s).clips = s.clips ∧ (useFree n s).ppus = s.ppus ∧ (useFree n s).ports = s.ports ∧ (useFree n s).ppload = s.ppload ∧
    (useFree n s).host = s.host ∧ (useFree n s).mem = s.mem ∧ (useFree n s).fab = s.fab ∧ (useFree n s).saf = s.saf ∧
    (useFree n s).pwr = s.pwr ∧ (useFree n s).nv = s.nv ∧ (useFree n s).sec = s.sec ∧ (useFree n s).err = s.err ∧
    (useFree n s).islands = s.islands ∧ (useFree n s).pmuIsl = s.pmuIsl ∧ (useFree n s).dies = s.dies ∧ (useFree n s).varMis = s.varMis ∧
    (useFree n s).strapHigh = s.strapHigh ∧ (useFree n s).smbus = s.smbus := by
  and_intros <;> rfl

/-- beginCensus changes only islands of State. -/
@[simp] theorem beginCensus_fields (i k : Nat) (s : State) :
    (beginCensus i k s).pending = s.pending ∧ (beginCensus i k s).free = s.free ∧ (beginCensus i k s).order = s.order ∧
    (beginCensus i k s).cores = s.cores ∧ (beginCensus i k s).clusters = s.clusters ∧ (beginCensus i k s).ctxs = s.ctxs ∧
    (beginCensus i k s).nextCtxs = s.nextCtxs ∧ (beginCensus i k s).jobs = s.jobs ∧ (beginCensus i k s).claims = s.claims ∧
    (beginCensus i k s).parts = s.parts ∧ (beginCensus i k s).accounts = s.accounts ∧ (beginCensus i k s).streams = s.streams ∧
    (beginCensus i k s).flows = s.flows ∧ (beginCensus i k s).media = s.media ∧ (beginCensus i k s).encs = s.encs ∧
    (beginCensus i k s).clips = s.clips ∧ (beginCensus i k s).ppus = s.ppus ∧ (beginCensus i k s).ports = s.ports ∧
    (beginCensus i k s).ppload = s.ppload ∧ (beginCensus i k s).host = s.host ∧ (beginCensus i k s).mem = s.mem ∧
    (beginCensus i k s).fab = s.fab ∧ (beginCensus i k s).saf = s.saf ∧ (beginCensus i k s).pwr = s.pwr ∧ (beginCensus i k s).nv = s.nv ∧
    (beginCensus i k s).sec = s.sec ∧ (beginCensus i k s).err = s.err ∧ (beginCensus i k s).pmuIsl = s.pmuIsl ∧
    (beginCensus i k s).dies = s.dies ∧ (beginCensus i k s).varMis = s.varMis ∧ (beginCensus i k s).strapHigh = s.strapHigh ∧
    (beginCensus i k s).smbus = s.smbus := by
  and_intros <;> rfl

/-- resetIsland changes only islands of State. -/
@[simp] theorem resetIsland_fields (i : Nat) (s : State) :
    (resetIsland i s).pending = s.pending ∧ (resetIsland i s).free = s.free ∧ (resetIsland i s).order = s.order ∧
    (resetIsland i s).cores = s.cores ∧ (resetIsland i s).clusters = s.clusters ∧ (resetIsland i s).ctxs = s.ctxs ∧
    (resetIsland i s).nextCtxs = s.nextCtxs ∧ (resetIsland i s).jobs = s.jobs ∧ (resetIsland i s).claims = s.claims ∧
    (resetIsland i s).parts = s.parts ∧ (resetIsland i s).accounts = s.accounts ∧ (resetIsland i s).streams = s.streams ∧
    (resetIsland i s).flows = s.flows ∧ (resetIsland i s).media = s.media ∧ (resetIsland i s).encs = s.encs ∧
    (resetIsland i s).clips = s.clips ∧ (resetIsland i s).ppus = s.ppus ∧ (resetIsland i s).ports = s.ports ∧
    (resetIsland i s).ppload = s.ppload ∧ (resetIsland i s).host = s.host ∧ (resetIsland i s).mem = s.mem ∧
    (resetIsland i s).fab = s.fab ∧ (resetIsland i s).saf = s.saf ∧ (resetIsland i s).pwr = s.pwr ∧ (resetIsland i s).nv = s.nv ∧
    (resetIsland i s).sec = s.sec ∧ (resetIsland i s).err = s.err ∧ (resetIsland i s).pmuIsl = s.pmuIsl ∧
    (resetIsland i s).dies = s.dies ∧ (resetIsland i s).varMis = s.varMis ∧ (resetIsland i s).strapHigh = s.strapHigh ∧
    (resetIsland i s).smbus = s.smbus := by
  and_intros <;> rfl

/-- setCore changes only cores of State. -/
@[simp] theorem setCore_fields (k : Nat) (c : Core) (s : State) :
    (setCore k c s).pending = s.pending ∧ (setCore k c s).free = s.free ∧ (setCore k c s).order = s.order ∧
    (setCore k c s).clusters = s.clusters ∧ (setCore k c s).ctxs = s.ctxs ∧ (setCore k c s).nextCtxs = s.nextCtxs ∧
    (setCore k c s).jobs = s.jobs ∧ (setCore k c s).claims = s.claims ∧ (setCore k c s).parts = s.parts ∧
    (setCore k c s).accounts = s.accounts ∧ (setCore k c s).streams = s.streams ∧ (setCore k c s).flows = s.flows ∧
    (setCore k c s).media = s.media ∧ (setCore k c s).encs = s.encs ∧ (setCore k c s).clips = s.clips ∧ (setCore k c s).ppus = s.ppus ∧
    (setCore k c s).ports = s.ports ∧ (setCore k c s).ppload = s.ppload ∧ (setCore k c s).host = s.host ∧ (setCore k c s).mem = s.mem ∧
    (setCore k c s).fab = s.fab ∧ (setCore k c s).saf = s.saf ∧ (setCore k c s).pwr = s.pwr ∧ (setCore k c s).nv = s.nv ∧
    (setCore k c s).sec = s.sec ∧ (setCore k c s).err = s.err ∧ (setCore k c s).islands = s.islands ∧ (setCore k c s).pmuIsl = s.pmuIsl ∧
    (setCore k c s).dies = s.dies ∧ (setCore k c s).varMis = s.varMis ∧ (setCore k c s).strapHigh = s.strapHigh ∧
    (setCore k c s).smbus = s.smbus := by
  and_intros <;> rfl

/-- modCore changes only cores of State. -/
@[simp] theorem modCore_fields (k : Nat) (f : Core → Core) (s : State) :
    (modCore k f s).pending = s.pending ∧ (modCore k f s).free = s.free ∧ (modCore k f s).order = s.order ∧
    (modCore k f s).clusters = s.clusters ∧ (modCore k f s).ctxs = s.ctxs ∧ (modCore k f s).nextCtxs = s.nextCtxs ∧
    (modCore k f s).jobs = s.jobs ∧ (modCore k f s).claims = s.claims ∧ (modCore k f s).parts = s.parts ∧
    (modCore k f s).accounts = s.accounts ∧ (modCore k f s).streams = s.streams ∧ (modCore k f s).flows = s.flows ∧
    (modCore k f s).media = s.media ∧ (modCore k f s).encs = s.encs ∧ (modCore k f s).clips = s.clips ∧ (modCore k f s).ppus = s.ppus ∧
    (modCore k f s).ports = s.ports ∧ (modCore k f s).ppload = s.ppload ∧ (modCore k f s).host = s.host ∧ (modCore k f s).mem = s.mem ∧
    (modCore k f s).fab = s.fab ∧ (modCore k f s).saf = s.saf ∧ (modCore k f s).pwr = s.pwr ∧ (modCore k f s).nv = s.nv ∧
    (modCore k f s).sec = s.sec ∧ (modCore k f s).err = s.err ∧ (modCore k f s).islands = s.islands ∧ (modCore k f s).pmuIsl = s.pmuIsl ∧
    (modCore k f s).dies = s.dies ∧ (modCore k f s).varMis = s.varMis ∧ (modCore k f s).strapHigh = s.strapHigh ∧
    (modCore k f s).smbus = s.smbus := by
  and_intros <;> rfl

/-- modClu changes only clusters of State. -/
@[simp] theorem modClu_fields (c : Nat) (f : Cluster → Cluster) (s : State) :
    (modClu c f s).pending = s.pending ∧ (modClu c f s).free = s.free ∧ (modClu c f s).order = s.order ∧ (modClu c f s).cores = s.cores ∧
    (modClu c f s).ctxs = s.ctxs ∧ (modClu c f s).nextCtxs = s.nextCtxs ∧ (modClu c f s).jobs = s.jobs ∧
    (modClu c f s).claims = s.claims ∧ (modClu c f s).parts = s.parts ∧ (modClu c f s).accounts = s.accounts ∧
    (modClu c f s).streams = s.streams ∧ (modClu c f s).flows = s.flows ∧ (modClu c f s).media = s.media ∧ (modClu c f s).encs = s.encs ∧
    (modClu c f s).clips = s.clips ∧ (modClu c f s).ppus = s.ppus ∧ (modClu c f s).ports = s.ports ∧ (modClu c f s).ppload = s.ppload ∧
    (modClu c f s).host = s.host ∧ (modClu c f s).mem = s.mem ∧ (modClu c f s).fab = s.fab ∧ (modClu c f s).saf = s.saf ∧
    (modClu c f s).pwr = s.pwr ∧ (modClu c f s).nv = s.nv ∧ (modClu c f s).sec = s.sec ∧ (modClu c f s).err = s.err ∧
    (modClu c f s).islands = s.islands ∧ (modClu c f s).pmuIsl = s.pmuIsl ∧ (modClu c f s).dies = s.dies ∧
    (modClu c f s).varMis = s.varMis ∧ (modClu c f s).strapHigh = s.strapHigh ∧ (modClu c f s).smbus = s.smbus := by
  and_intros <;> rfl

/-- modStrm changes only streams of State. -/
@[simp] theorem modStrm_fields (id : Nat) (f : Stream → Stream) (s : State) :
    (modStrm id f s).pending = s.pending ∧ (modStrm id f s).free = s.free ∧ (modStrm id f s).order = s.order ∧
    (modStrm id f s).cores = s.cores ∧ (modStrm id f s).clusters = s.clusters ∧ (modStrm id f s).ctxs = s.ctxs ∧
    (modStrm id f s).nextCtxs = s.nextCtxs ∧ (modStrm id f s).jobs = s.jobs ∧ (modStrm id f s).claims = s.claims ∧
    (modStrm id f s).parts = s.parts ∧ (modStrm id f s).accounts = s.accounts ∧ (modStrm id f s).flows = s.flows ∧
    (modStrm id f s).media = s.media ∧ (modStrm id f s).encs = s.encs ∧ (modStrm id f s).clips = s.clips ∧
    (modStrm id f s).ppus = s.ppus ∧ (modStrm id f s).ports = s.ports ∧ (modStrm id f s).ppload = s.ppload ∧
    (modStrm id f s).host = s.host ∧ (modStrm id f s).mem = s.mem ∧ (modStrm id f s).fab = s.fab ∧ (modStrm id f s).saf = s.saf ∧
    (modStrm id f s).pwr = s.pwr ∧ (modStrm id f s).nv = s.nv ∧ (modStrm id f s).sec = s.sec ∧ (modStrm id f s).err = s.err ∧
    (modStrm id f s).islands = s.islands ∧ (modStrm id f s).pmuIsl = s.pmuIsl ∧ (modStrm id f s).dies = s.dies ∧
    (modStrm id f s).varMis = s.varMis ∧ (modStrm id f s).strapHigh = s.strapHigh ∧ (modStrm id f s).smbus = s.smbus := by
  and_intros <;> rfl

/-- modFrame changes only streams of State. -/
@[simp] theorem modFrame_fields (id o : Nat) (f : Frame → Frame) (s : State) :
    (modFrame id o f s).pending = s.pending ∧ (modFrame id o f s).free = s.free ∧ (modFrame id o f s).order = s.order ∧
    (modFrame id o f s).cores = s.cores ∧ (modFrame id o f s).clusters = s.clusters ∧ (modFrame id o f s).ctxs = s.ctxs ∧
    (modFrame id o f s).nextCtxs = s.nextCtxs ∧ (modFrame id o f s).jobs = s.jobs ∧ (modFrame id o f s).claims = s.claims ∧
    (modFrame id o f s).parts = s.parts ∧ (modFrame id o f s).accounts = s.accounts ∧ (modFrame id o f s).flows = s.flows ∧
    (modFrame id o f s).media = s.media ∧ (modFrame id o f s).encs = s.encs ∧ (modFrame id o f s).clips = s.clips ∧
    (modFrame id o f s).ppus = s.ppus ∧ (modFrame id o f s).ports = s.ports ∧ (modFrame id o f s).ppload = s.ppload ∧
    (modFrame id o f s).host = s.host ∧ (modFrame id o f s).mem = s.mem ∧ (modFrame id o f s).fab = s.fab ∧
    (modFrame id o f s).saf = s.saf ∧ (modFrame id o f s).pwr = s.pwr ∧ (modFrame id o f s).nv = s.nv ∧ (modFrame id o f s).sec = s.sec ∧
    (modFrame id o f s).err = s.err ∧ (modFrame id o f s).islands = s.islands ∧ (modFrame id o f s).pmuIsl = s.pmuIsl ∧
    (modFrame id o f s).dies = s.dies ∧ (modFrame id o f s).varMis = s.varMis ∧ (modFrame id o f s).strapHigh = s.strapHigh ∧
    (modFrame id o f s).smbus = s.smbus := by
  and_intros <;> rfl

/-- modDep changes only streams of State. -/
@[simp] theorem modDep_fields (id : Nat) (f : Depack → Depack) (s : State) :
    (modDep id f s).pending = s.pending ∧ (modDep id f s).free = s.free ∧ (modDep id f s).order = s.order ∧
    (modDep id f s).cores = s.cores ∧ (modDep id f s).clusters = s.clusters ∧ (modDep id f s).ctxs = s.ctxs ∧
    (modDep id f s).nextCtxs = s.nextCtxs ∧ (modDep id f s).jobs = s.jobs ∧ (modDep id f s).claims = s.claims ∧
    (modDep id f s).parts = s.parts ∧ (modDep id f s).accounts = s.accounts ∧ (modDep id f s).flows = s.flows ∧
    (modDep id f s).media = s.media ∧ (modDep id f s).encs = s.encs ∧ (modDep id f s).clips = s.clips ∧ (modDep id f s).ppus = s.ppus ∧
    (modDep id f s).ports = s.ports ∧ (modDep id f s).ppload = s.ppload ∧ (modDep id f s).host = s.host ∧ (modDep id f s).mem = s.mem ∧
    (modDep id f s).fab = s.fab ∧ (modDep id f s).saf = s.saf ∧ (modDep id f s).pwr = s.pwr ∧ (modDep id f s).nv = s.nv ∧
    (modDep id f s).sec = s.sec ∧ (modDep id f s).err = s.err ∧ (modDep id f s).islands = s.islands ∧ (modDep id f s).pmuIsl = s.pmuIsl ∧
    (modDep id f s).dies = s.dies ∧ (modDep id f s).varMis = s.varMis ∧ (modDep id f s).strapHigh = s.strapHigh ∧
    (modDep id f s).smbus = s.smbus := by
  and_intros <;> rfl

/-- modCnt changes only streams of State. -/
@[simp] theorem modCnt_fields (id : Nat) (f : IngestCount → IngestCount) (s : State) :
    (modCnt id f s).pending = s.pending ∧ (modCnt id f s).free = s.free ∧ (modCnt id f s).order = s.order ∧
    (modCnt id f s).cores = s.cores ∧ (modCnt id f s).clusters = s.clusters ∧ (modCnt id f s).ctxs = s.ctxs ∧
    (modCnt id f s).nextCtxs = s.nextCtxs ∧ (modCnt id f s).jobs = s.jobs ∧ (modCnt id f s).claims = s.claims ∧
    (modCnt id f s).parts = s.parts ∧ (modCnt id f s).accounts = s.accounts ∧ (modCnt id f s).flows = s.flows ∧
    (modCnt id f s).media = s.media ∧ (modCnt id f s).encs = s.encs ∧ (modCnt id f s).clips = s.clips ∧ (modCnt id f s).ppus = s.ppus ∧
    (modCnt id f s).ports = s.ports ∧ (modCnt id f s).ppload = s.ppload ∧ (modCnt id f s).host = s.host ∧ (modCnt id f s).mem = s.mem ∧
    (modCnt id f s).fab = s.fab ∧ (modCnt id f s).saf = s.saf ∧ (modCnt id f s).pwr = s.pwr ∧ (modCnt id f s).nv = s.nv ∧
    (modCnt id f s).sec = s.sec ∧ (modCnt id f s).err = s.err ∧ (modCnt id f s).islands = s.islands ∧ (modCnt id f s).pmuIsl = s.pmuIsl ∧
    (modCnt id f s).dies = s.dies ∧ (modCnt id f s).varMis = s.varMis ∧ (modCnt id f s).strapHigh = s.strapHigh ∧
    (modCnt id f s).smbus = s.smbus := by
  and_intros <;> rfl

/-- modBuf changes only streams of State. -/
@[simp] theorem modBuf_fields (id p : Nat) (f : FrameBuf → FrameBuf) (s : State) :
    (modBuf id p f s).pending = s.pending ∧ (modBuf id p f s).free = s.free ∧ (modBuf id p f s).order = s.order ∧
    (modBuf id p f s).cores = s.cores ∧ (modBuf id p f s).clusters = s.clusters ∧ (modBuf id p f s).ctxs = s.ctxs ∧
    (modBuf id p f s).nextCtxs = s.nextCtxs ∧ (modBuf id p f s).jobs = s.jobs ∧ (modBuf id p f s).claims = s.claims ∧
    (modBuf id p f s).parts = s.parts ∧ (modBuf id p f s).accounts = s.accounts ∧ (modBuf id p f s).flows = s.flows ∧
    (modBuf id p f s).media = s.media ∧ (modBuf id p f s).encs = s.encs ∧ (modBuf id p f s).clips = s.clips ∧
    (modBuf id p f s).ppus = s.ppus ∧ (modBuf id p f s).ports = s.ports ∧ (modBuf id p f s).ppload = s.ppload ∧
    (modBuf id p f s).host = s.host ∧ (modBuf id p f s).mem = s.mem ∧ (modBuf id p f s).fab = s.fab ∧ (modBuf id p f s).saf = s.saf ∧
    (modBuf id p f s).pwr = s.pwr ∧ (modBuf id p f s).nv = s.nv ∧ (modBuf id p f s).sec = s.sec ∧ (modBuf id p f s).err = s.err ∧
    (modBuf id p f s).islands = s.islands ∧ (modBuf id p f s).pmuIsl = s.pmuIsl ∧ (modBuf id p f s).dies = s.dies ∧
    (modBuf id p f s).varMis = s.varMis ∧ (modBuf id p f s).strapHigh = s.strapHigh ∧ (modBuf id p f s).smbus = s.smbus := by
  and_intros <;> rfl

/-- modPart changes only parts of State. -/
@[simp] theorem modPart_fields (p : Nat) (f : Partition → Partition) (s : State) :
    (modPart p f s).pending = s.pending ∧ (modPart p f s).free = s.free ∧ (modPart p f s).order = s.order ∧
    (modPart p f s).cores = s.cores ∧ (modPart p f s).clusters = s.clusters ∧ (modPart p f s).ctxs = s.ctxs ∧
    (modPart p f s).nextCtxs = s.nextCtxs ∧ (modPart p f s).jobs = s.jobs ∧ (modPart p f s).claims = s.claims ∧
    (modPart p f s).accounts = s.accounts ∧ (modPart p f s).streams = s.streams ∧ (modPart p f s).flows = s.flows ∧
    (modPart p f s).media = s.media ∧ (modPart p f s).encs = s.encs ∧ (modPart p f s).clips = s.clips ∧ (modPart p f s).ppus = s.ppus ∧
    (modPart p f s).ports = s.ports ∧ (modPart p f s).ppload = s.ppload ∧ (modPart p f s).host = s.host ∧ (modPart p f s).mem = s.mem ∧
    (modPart p f s).fab = s.fab ∧ (modPart p f s).saf = s.saf ∧ (modPart p f s).pwr = s.pwr ∧ (modPart p f s).nv = s.nv ∧
    (modPart p f s).sec = s.sec ∧ (modPart p f s).err = s.err ∧ (modPart p f s).islands = s.islands ∧ (modPart p f s).pmuIsl = s.pmuIsl ∧
    (modPart p f s).dies = s.dies ∧ (modPart p f s).varMis = s.varMis ∧ (modPart p f s).strapHigh = s.strapHigh ∧
    (modPart p f s).smbus = s.smbus := by
  and_intros <;> rfl

/-- modJob changes only jobs of State. -/
@[simp] theorem modJob_fields (id : Nat) (f : Job → Job) (s : State) :
    (modJob id f s).pending = s.pending ∧ (modJob id f s).free = s.free ∧ (modJob id f s).order = s.order ∧
    (modJob id f s).cores = s.cores ∧ (modJob id f s).clusters = s.clusters ∧ (modJob id f s).ctxs = s.ctxs ∧
    (modJob id f s).nextCtxs = s.nextCtxs ∧ (modJob id f s).claims = s.claims ∧ (modJob id f s).parts = s.parts ∧
    (modJob id f s).accounts = s.accounts ∧ (modJob id f s).streams = s.streams ∧ (modJob id f s).flows = s.flows ∧
    (modJob id f s).media = s.media ∧ (modJob id f s).encs = s.encs ∧ (modJob id f s).clips = s.clips ∧ (modJob id f s).ppus = s.ppus ∧
    (modJob id f s).ports = s.ports ∧ (modJob id f s).ppload = s.ppload ∧ (modJob id f s).host = s.host ∧ (modJob id f s).mem = s.mem ∧
    (modJob id f s).fab = s.fab ∧ (modJob id f s).saf = s.saf ∧ (modJob id f s).pwr = s.pwr ∧ (modJob id f s).nv = s.nv ∧
    (modJob id f s).sec = s.sec ∧ (modJob id f s).err = s.err ∧ (modJob id f s).islands = s.islands ∧ (modJob id f s).pmuIsl = s.pmuIsl ∧
    (modJob id f s).dies = s.dies ∧ (modJob id f s).varMis = s.varMis ∧ (modJob id f s).strapHigh = s.strapHigh ∧
    (modJob id f s).smbus = s.smbus := by
  and_intros <;> rfl

/-- modMedia changes only media of State. -/
@[simp] theorem modMedia_fields (n : Nat) (f : Media → Media) (s : State) :
    (modMedia n f s).pending = s.pending ∧ (modMedia n f s).free = s.free ∧ (modMedia n f s).order = s.order ∧
    (modMedia n f s).cores = s.cores ∧ (modMedia n f s).clusters = s.clusters ∧ (modMedia n f s).ctxs = s.ctxs ∧
    (modMedia n f s).nextCtxs = s.nextCtxs ∧ (modMedia n f s).jobs = s.jobs ∧ (modMedia n f s).claims = s.claims ∧
    (modMedia n f s).parts = s.parts ∧ (modMedia n f s).accounts = s.accounts ∧ (modMedia n f s).streams = s.streams ∧
    (modMedia n f s).flows = s.flows ∧ (modMedia n f s).encs = s.encs ∧ (modMedia n f s).clips = s.clips ∧
    (modMedia n f s).ppus = s.ppus ∧ (modMedia n f s).ports = s.ports ∧ (modMedia n f s).ppload = s.ppload ∧
    (modMedia n f s).host = s.host ∧ (modMedia n f s).mem = s.mem ∧ (modMedia n f s).fab = s.fab ∧ (modMedia n f s).saf = s.saf ∧
    (modMedia n f s).pwr = s.pwr ∧ (modMedia n f s).nv = s.nv ∧ (modMedia n f s).sec = s.sec ∧ (modMedia n f s).err = s.err ∧
    (modMedia n f s).islands = s.islands ∧ (modMedia n f s).pmuIsl = s.pmuIsl ∧ (modMedia n f s).dies = s.dies ∧
    (modMedia n f s).varMis = s.varMis ∧ (modMedia n f s).strapHigh = s.strapHigh ∧ (modMedia n f s).smbus = s.smbus := by
  and_intros <;> rfl

/-- modEnc changes only encs of State. -/
@[simp] theorem modEnc_fields (n : Nat) (f : Enc → Enc) (s : State) :
    (modEnc n f s).pending = s.pending ∧ (modEnc n f s).free = s.free ∧ (modEnc n f s).order = s.order ∧ (modEnc n f s).cores = s.cores ∧
    (modEnc n f s).clusters = s.clusters ∧ (modEnc n f s).ctxs = s.ctxs ∧ (modEnc n f s).nextCtxs = s.nextCtxs ∧
    (modEnc n f s).jobs = s.jobs ∧ (modEnc n f s).claims = s.claims ∧ (modEnc n f s).parts = s.parts ∧
    (modEnc n f s).accounts = s.accounts ∧ (modEnc n f s).streams = s.streams ∧ (modEnc n f s).flows = s.flows ∧
    (modEnc n f s).media = s.media ∧ (modEnc n f s).clips = s.clips ∧ (modEnc n f s).ppus = s.ppus ∧ (modEnc n f s).ports = s.ports ∧
    (modEnc n f s).ppload = s.ppload ∧ (modEnc n f s).host = s.host ∧ (modEnc n f s).mem = s.mem ∧ (modEnc n f s).fab = s.fab ∧
    (modEnc n f s).saf = s.saf ∧ (modEnc n f s).pwr = s.pwr ∧ (modEnc n f s).nv = s.nv ∧ (modEnc n f s).sec = s.sec ∧
    (modEnc n f s).err = s.err ∧ (modEnc n f s).islands = s.islands ∧ (modEnc n f s).pmuIsl = s.pmuIsl ∧ (modEnc n f s).dies = s.dies ∧
    (modEnc n f s).varMis = s.varMis ∧ (modEnc n f s).strapHigh = s.strapHigh ∧ (modEnc n f s).smbus = s.smbus := by
  and_intros <;> rfl

/-- modClip changes only clips of State. -/
@[simp] theorem modClip_fields (fn : Nat) (id : Word) (f : Clip → Clip) (s : State) :
    (modClip fn id f s).pending = s.pending ∧ (modClip fn id f s).free = s.free ∧ (modClip fn id f s).order = s.order ∧
    (modClip fn id f s).cores = s.cores ∧ (modClip fn id f s).clusters = s.clusters ∧ (modClip fn id f s).ctxs = s.ctxs ∧
    (modClip fn id f s).nextCtxs = s.nextCtxs ∧ (modClip fn id f s).jobs = s.jobs ∧ (modClip fn id f s).claims = s.claims ∧
    (modClip fn id f s).parts = s.parts ∧ (modClip fn id f s).accounts = s.accounts ∧ (modClip fn id f s).streams = s.streams ∧
    (modClip fn id f s).flows = s.flows ∧ (modClip fn id f s).media = s.media ∧ (modClip fn id f s).encs = s.encs ∧
    (modClip fn id f s).ppus = s.ppus ∧ (modClip fn id f s).ports = s.ports ∧ (modClip fn id f s).ppload = s.ppload ∧
    (modClip fn id f s).host = s.host ∧ (modClip fn id f s).mem = s.mem ∧ (modClip fn id f s).fab = s.fab ∧
    (modClip fn id f s).saf = s.saf ∧ (modClip fn id f s).pwr = s.pwr ∧ (modClip fn id f s).nv = s.nv ∧ (modClip fn id f s).sec = s.sec ∧
    (modClip fn id f s).err = s.err ∧ (modClip fn id f s).islands = s.islands ∧ (modClip fn id f s).pmuIsl = s.pmuIsl ∧
    (modClip fn id f s).dies = s.dies ∧ (modClip fn id f s).varMis = s.varMis ∧ (modClip fn id f s).strapHigh = s.strapHigh ∧
    (modClip fn id f s).smbus = s.smbus := by
  and_intros <;> rfl

/-- modEth changes only ports of State. -/
@[simp] theorem modEth_fields (n : Nat) (f : Port → Port) (s : State) :
    (modEth n f s).pending = s.pending ∧ (modEth n f s).free = s.free ∧ (modEth n f s).order = s.order ∧ (modEth n f s).cores = s.cores ∧
    (modEth n f s).clusters = s.clusters ∧ (modEth n f s).ctxs = s.ctxs ∧ (modEth n f s).nextCtxs = s.nextCtxs ∧
    (modEth n f s).jobs = s.jobs ∧ (modEth n f s).claims = s.claims ∧ (modEth n f s).parts = s.parts ∧
    (modEth n f s).accounts = s.accounts ∧ (modEth n f s).streams = s.streams ∧ (modEth n f s).flows = s.flows ∧
    (modEth n f s).media = s.media ∧ (modEth n f s).encs = s.encs ∧ (modEth n f s).clips = s.clips ∧ (modEth n f s).ppus = s.ppus ∧
    (modEth n f s).ppload = s.ppload ∧ (modEth n f s).host = s.host ∧ (modEth n f s).mem = s.mem ∧ (modEth n f s).fab = s.fab ∧
    (modEth n f s).saf = s.saf ∧ (modEth n f s).pwr = s.pwr ∧ (modEth n f s).nv = s.nv ∧ (modEth n f s).sec = s.sec ∧
    (modEth n f s).err = s.err ∧ (modEth n f s).islands = s.islands ∧ (modEth n f s).pmuIsl = s.pmuIsl ∧ (modEth n f s).dies = s.dies ∧
    (modEth n f s).varMis = s.varMis ∧ (modEth n f s).strapHigh = s.strapHigh ∧ (modEth n f s).smbus = s.smbus := by
  and_intros <;> rfl

/-- setWork changes only ppus of State. -/
@[simp] theorem setWork_fields (n : Nat) (w : Option (Nat × Nat)) (s : State) :
    (setWork n w s).pending = s.pending ∧ (setWork n w s).free = s.free ∧ (setWork n w s).order = s.order ∧
    (setWork n w s).cores = s.cores ∧ (setWork n w s).clusters = s.clusters ∧ (setWork n w s).ctxs = s.ctxs ∧
    (setWork n w s).nextCtxs = s.nextCtxs ∧ (setWork n w s).jobs = s.jobs ∧ (setWork n w s).claims = s.claims ∧
    (setWork n w s).parts = s.parts ∧ (setWork n w s).accounts = s.accounts ∧ (setWork n w s).streams = s.streams ∧
    (setWork n w s).flows = s.flows ∧ (setWork n w s).media = s.media ∧ (setWork n w s).encs = s.encs ∧ (setWork n w s).clips = s.clips ∧
    (setWork n w s).ports = s.ports ∧ (setWork n w s).ppload = s.ppload ∧ (setWork n w s).host = s.host ∧ (setWork n w s).mem = s.mem ∧
    (setWork n w s).fab = s.fab ∧ (setWork n w s).saf = s.saf ∧ (setWork n w s).pwr = s.pwr ∧ (setWork n w s).nv = s.nv ∧
    (setWork n w s).sec = s.sec ∧ (setWork n w s).err = s.err ∧ (setWork n w s).islands = s.islands ∧ (setWork n w s).pmuIsl = s.pmuIsl ∧
    (setWork n w s).dies = s.dies ∧ (setWork n w s).varMis = s.varMis ∧ (setWork n w s).strapHigh = s.strapHigh ∧
    (setWork n w s).smbus = s.smbus := by
  and_intros <;> rfl

/-- modFab changes only fab of State. -/
@[simp] theorem modFab_fields (f : FabSt → FabSt) (s : State) :
    (modFab f s).pending = s.pending ∧ (modFab f s).free = s.free ∧ (modFab f s).order = s.order ∧ (modFab f s).cores = s.cores ∧
    (modFab f s).clusters = s.clusters ∧ (modFab f s).ctxs = s.ctxs ∧ (modFab f s).nextCtxs = s.nextCtxs ∧ (modFab f s).jobs = s.jobs ∧
    (modFab f s).claims = s.claims ∧ (modFab f s).parts = s.parts ∧ (modFab f s).accounts = s.accounts ∧
    (modFab f s).streams = s.streams ∧ (modFab f s).flows = s.flows ∧ (modFab f s).media = s.media ∧ (modFab f s).encs = s.encs ∧
    (modFab f s).clips = s.clips ∧ (modFab f s).ppus = s.ppus ∧ (modFab f s).ports = s.ports ∧ (modFab f s).ppload = s.ppload ∧
    (modFab f s).host = s.host ∧ (modFab f s).mem = s.mem ∧ (modFab f s).saf = s.saf ∧ (modFab f s).pwr = s.pwr ∧
    (modFab f s).nv = s.nv ∧ (modFab f s).sec = s.sec ∧ (modFab f s).err = s.err ∧ (modFab f s).islands = s.islands ∧
    (modFab f s).pmuIsl = s.pmuIsl ∧ (modFab f s).dies = s.dies ∧ (modFab f s).varMis = s.varMis ∧ (modFab f s).strapHigh = s.strapHigh ∧
    (modFab f s).smbus = s.smbus := by
  and_intros <;> rfl

/-- setPool changes only mem.pools of State. -/
@[simp] theorem setPool_fields (n : Nat) (q : Pool) (s : State) :
    (setPool n q s).pending = s.pending ∧ (setPool n q s).free = s.free ∧ (setPool n q s).order = s.order ∧
    (setPool n q s).cores = s.cores ∧ (setPool n q s).clusters = s.clusters ∧ (setPool n q s).ctxs = s.ctxs ∧
    (setPool n q s).nextCtxs = s.nextCtxs ∧ (setPool n q s).jobs = s.jobs ∧ (setPool n q s).claims = s.claims ∧
    (setPool n q s).parts = s.parts ∧ (setPool n q s).accounts = s.accounts ∧ (setPool n q s).streams = s.streams ∧
    (setPool n q s).flows = s.flows ∧ (setPool n q s).media = s.media ∧ (setPool n q s).encs = s.encs ∧ (setPool n q s).clips = s.clips ∧
    (setPool n q s).ppus = s.ppus ∧ (setPool n q s).ports = s.ports ∧ (setPool n q s).ppload = s.ppload ∧ (setPool n q s).host = s.host ∧
    (setPool n q s).fab = s.fab ∧ (setPool n q s).saf = s.saf ∧ (setPool n q s).pwr = s.pwr ∧ (setPool n q s).nv = s.nv ∧
    (setPool n q s).sec = s.sec ∧ (setPool n q s).err = s.err ∧ (setPool n q s).islands = s.islands ∧ (setPool n q s).pmuIsl = s.pmuIsl ∧
    (setPool n q s).dies = s.dies ∧ (setPool n q s).varMis = s.varMis ∧ (setPool n q s).strapHigh = s.strapHigh ∧
    (setPool n q s).smbus = s.smbus ∧ (setPool n q s).mem.dram = s.mem.dram ∧ (setPool n q s).mem.channels = s.mem.channels ∧
    (setPool n q s).mem.slot = s.mem.slot ∧ (setPool n q s).mem.waiting = s.mem.waiting ∧ (setPool n q s).mem.lastFn = s.mem.lastFn := by
  and_intros <;> rfl

/-- modChan changes only mem.channels of State. -/
@[simp] theorem modChan_fields (m : Nat) (f : Channel → Channel) (s : State) :
    (modChan m f s).pending = s.pending ∧ (modChan m f s).free = s.free ∧ (modChan m f s).order = s.order ∧
    (modChan m f s).cores = s.cores ∧ (modChan m f s).clusters = s.clusters ∧ (modChan m f s).ctxs = s.ctxs ∧
    (modChan m f s).nextCtxs = s.nextCtxs ∧ (modChan m f s).jobs = s.jobs ∧ (modChan m f s).claims = s.claims ∧
    (modChan m f s).parts = s.parts ∧ (modChan m f s).accounts = s.accounts ∧ (modChan m f s).streams = s.streams ∧
    (modChan m f s).flows = s.flows ∧ (modChan m f s).media = s.media ∧ (modChan m f s).encs = s.encs ∧ (modChan m f s).clips = s.clips ∧
    (modChan m f s).ppus = s.ppus ∧ (modChan m f s).ports = s.ports ∧ (modChan m f s).ppload = s.ppload ∧ (modChan m f s).host = s.host ∧
    (modChan m f s).fab = s.fab ∧ (modChan m f s).saf = s.saf ∧ (modChan m f s).pwr = s.pwr ∧ (modChan m f s).nv = s.nv ∧
    (modChan m f s).sec = s.sec ∧ (modChan m f s).err = s.err ∧ (modChan m f s).islands = s.islands ∧ (modChan m f s).pmuIsl = s.pmuIsl ∧
    (modChan m f s).dies = s.dies ∧ (modChan m f s).varMis = s.varMis ∧ (modChan m f s).strapHigh = s.strapHigh ∧
    (modChan m f s).smbus = s.smbus ∧ (modChan m f s).mem.dram = s.mem.dram ∧ (modChan m f s).mem.pools = s.mem.pools ∧
    (modChan m f s).mem.slot = s.mem.slot ∧ (modChan m f s).mem.waiting = s.mem.waiting ∧ (modChan m f s).mem.lastFn = s.mem.lastFn := by
  and_intros <;> rfl

/-- modFn changes only host.fns of State. -/
@[simp] theorem modFn_fields (n : Nat) (f : Func → Func) (s : State) :
    (modFn n f s).pending = s.pending ∧ (modFn n f s).free = s.free ∧ (modFn n f s).order = s.order ∧ (modFn n f s).cores = s.cores ∧
    (modFn n f s).clusters = s.clusters ∧ (modFn n f s).ctxs = s.ctxs ∧ (modFn n f s).nextCtxs = s.nextCtxs ∧
    (modFn n f s).jobs = s.jobs ∧ (modFn n f s).claims = s.claims ∧ (modFn n f s).parts = s.parts ∧ (modFn n f s).accounts = s.accounts ∧
    (modFn n f s).streams = s.streams ∧ (modFn n f s).flows = s.flows ∧ (modFn n f s).media = s.media ∧ (modFn n f s).encs = s.encs ∧
    (modFn n f s).clips = s.clips ∧ (modFn n f s).ppus = s.ppus ∧ (modFn n f s).ports = s.ports ∧ (modFn n f s).ppload = s.ppload ∧
    (modFn n f s).mem = s.mem ∧ (modFn n f s).fab = s.fab ∧ (modFn n f s).saf = s.saf ∧ (modFn n f s).pwr = s.pwr ∧
    (modFn n f s).nv = s.nv ∧ (modFn n f s).sec = s.sec ∧ (modFn n f s).err = s.err ∧ (modFn n f s).islands = s.islands ∧
    (modFn n f s).pmuIsl = s.pmuIsl ∧ (modFn n f s).dies = s.dies ∧ (modFn n f s).varMis = s.varMis ∧
    (modFn n f s).strapHigh = s.strapHigh ∧ (modFn n f s).smbus = s.smbus ∧ (modFn n f s).host.linkUp = s.host.linkUp ∧
    (modFn n f s).host.linkLost = s.host.linkLost ∧ (modFn n f s).host.porN = s.host.porN ∧ (modFn n f s).host.perstN = s.host.perstN ∧
    (modFn n f s).host.numVfs = s.host.numVfs ∧ (modFn n f s).host.bar2Size = s.host.bar2Size ∧
    (modFn n f s).host.bar2Part = s.host.bar2Part ∧ (modFn n f s).host.bar2Data = s.host.bar2Data ∧
    (modFn n f s).host.bar2Poisoned = s.host.bar2Poisoned ∧ (modFn n f s).host.bar2Written = s.host.bar2Written ∧
    (modFn n f s).host.inta = s.host.inta ∧ (modFn n f s).host.mem = s.host.mem ∧ (modFn n f s).host.msix = s.host.msix ∧
    (modFn n f s).host.rings = s.host.rings ∧ (modFn n f s).host.discReceipts = s.host.discReceipts ∧
    (modFn n f s).host.discEvents = s.host.discEvents ∧ (modFn n f s).host.discFolios = s.host.discFolios ∧
    (modFn n f s).host.lateCpl = s.host.lateCpl ∧
    (modFn n f s).host.advisory = s.host.advisory := by
  and_intros <;> rfl

/-- setRing changes only host.rings of State. -/
@[simp] theorem setRing_fields (n : Nat) (r : Ring) (s : State) :
    (setRing n r s).pending = s.pending ∧ (setRing n r s).free = s.free ∧ (setRing n r s).order = s.order ∧
    (setRing n r s).cores = s.cores ∧ (setRing n r s).clusters = s.clusters ∧ (setRing n r s).ctxs = s.ctxs ∧
    (setRing n r s).nextCtxs = s.nextCtxs ∧ (setRing n r s).jobs = s.jobs ∧ (setRing n r s).claims = s.claims ∧
    (setRing n r s).parts = s.parts ∧ (setRing n r s).accounts = s.accounts ∧ (setRing n r s).streams = s.streams ∧
    (setRing n r s).flows = s.flows ∧ (setRing n r s).media = s.media ∧ (setRing n r s).encs = s.encs ∧ (setRing n r s).clips = s.clips ∧
    (setRing n r s).ppus = s.ppus ∧ (setRing n r s).ports = s.ports ∧ (setRing n r s).ppload = s.ppload ∧ (setRing n r s).mem = s.mem ∧
    (setRing n r s).fab = s.fab ∧ (setRing n r s).saf = s.saf ∧ (setRing n r s).pwr = s.pwr ∧ (setRing n r s).nv = s.nv ∧
    (setRing n r s).sec = s.sec ∧ (setRing n r s).err = s.err ∧ (setRing n r s).islands = s.islands ∧ (setRing n r s).pmuIsl = s.pmuIsl ∧
    (setRing n r s).dies = s.dies ∧ (setRing n r s).varMis = s.varMis ∧ (setRing n r s).strapHigh = s.strapHigh ∧
    (setRing n r s).smbus = s.smbus ∧ (setRing n r s).host.linkUp = s.host.linkUp ∧ (setRing n r s).host.linkLost = s.host.linkLost ∧
    (setRing n r s).host.porN = s.host.porN ∧ (setRing n r s).host.perstN = s.host.perstN ∧ (setRing n r s).host.numVfs = s.host.numVfs ∧
    (setRing n r s).host.bar2Size = s.host.bar2Size ∧ (setRing n r s).host.bar2Part = s.host.bar2Part ∧
    (setRing n r s).host.bar2Data = s.host.bar2Data ∧ (setRing n r s).host.bar2Poisoned = s.host.bar2Poisoned ∧
    (setRing n r s).host.bar2Written = s.host.bar2Written ∧ (setRing n r s).host.inta = s.host.inta ∧
    (setRing n r s).host.mem = s.host.mem ∧ (setRing n r s).host.msix = s.host.msix ∧ (setRing n r s).host.fns = s.host.fns ∧
    (setRing n r s).host.discReceipts = s.host.discReceipts ∧ (setRing n r s).host.discEvents = s.host.discEvents ∧
    (setRing n r s).host.discFolios = s.host.discFolios ∧ (setRing n r s).host.lateCpl = s.host.lateCpl ∧
    (setRing n r s).host.advisory = s.host.advisory := by
  and_intros <;> rfl

/-- modRing changes only host.rings of State. -/
@[simp] theorem modRing_fields (n : Nat) (f : Ring → Ring) (s : State) :
    (modRing n f s).pending = s.pending ∧ (modRing n f s).free = s.free ∧ (modRing n f s).order = s.order ∧
    (modRing n f s).cores = s.cores ∧ (modRing n f s).clusters = s.clusters ∧ (modRing n f s).ctxs = s.ctxs ∧
    (modRing n f s).nextCtxs = s.nextCtxs ∧ (modRing n f s).jobs = s.jobs ∧ (modRing n f s).claims = s.claims ∧
    (modRing n f s).parts = s.parts ∧ (modRing n f s).accounts = s.accounts ∧ (modRing n f s).streams = s.streams ∧
    (modRing n f s).flows = s.flows ∧ (modRing n f s).media = s.media ∧ (modRing n f s).encs = s.encs ∧ (modRing n f s).clips = s.clips ∧
    (modRing n f s).ppus = s.ppus ∧ (modRing n f s).ports = s.ports ∧ (modRing n f s).ppload = s.ppload ∧ (modRing n f s).mem = s.mem ∧
    (modRing n f s).fab = s.fab ∧ (modRing n f s).saf = s.saf ∧ (modRing n f s).pwr = s.pwr ∧ (modRing n f s).nv = s.nv ∧
    (modRing n f s).sec = s.sec ∧ (modRing n f s).err = s.err ∧ (modRing n f s).islands = s.islands ∧ (modRing n f s).pmuIsl = s.pmuIsl ∧
    (modRing n f s).dies = s.dies ∧ (modRing n f s).varMis = s.varMis ∧ (modRing n f s).strapHigh = s.strapHigh ∧
    (modRing n f s).smbus = s.smbus ∧ (modRing n f s).host.linkUp = s.host.linkUp ∧ (modRing n f s).host.linkLost = s.host.linkLost ∧
    (modRing n f s).host.porN = s.host.porN ∧ (modRing n f s).host.perstN = s.host.perstN ∧ (modRing n f s).host.numVfs = s.host.numVfs ∧
    (modRing n f s).host.bar2Size = s.host.bar2Size ∧ (modRing n f s).host.bar2Part = s.host.bar2Part ∧
    (modRing n f s).host.bar2Data = s.host.bar2Data ∧ (modRing n f s).host.bar2Poisoned = s.host.bar2Poisoned ∧
    (modRing n f s).host.bar2Written = s.host.bar2Written ∧ (modRing n f s).host.inta = s.host.inta ∧
    (modRing n f s).host.mem = s.host.mem ∧ (modRing n f s).host.msix = s.host.msix ∧ (modRing n f s).host.fns = s.host.fns ∧
    (modRing n f s).host.discReceipts = s.host.discReceipts ∧ (modRing n f s).host.discEvents = s.host.discEvents ∧
    (modRing n f s).host.discFolios = s.host.discFolios ∧ (modRing n f s).host.lateCpl = s.host.lateCpl ∧
    (modRing n f s).host.advisory = s.host.advisory := by
  and_intros <;> rfl

/-- hostWrite changes only host.mem of State. -/
@[simp] theorem hostWrite_fields (a : Nat) (bs : List Byte) (s : State) :
    (hostWrite a bs s).pending = s.pending ∧ (hostWrite a bs s).free = s.free ∧ (hostWrite a bs s).order = s.order ∧
    (hostWrite a bs s).cores = s.cores ∧ (hostWrite a bs s).clusters = s.clusters ∧ (hostWrite a bs s).ctxs = s.ctxs ∧
    (hostWrite a bs s).nextCtxs = s.nextCtxs ∧ (hostWrite a bs s).jobs = s.jobs ∧ (hostWrite a bs s).claims = s.claims ∧
    (hostWrite a bs s).parts = s.parts ∧ (hostWrite a bs s).accounts = s.accounts ∧ (hostWrite a bs s).streams = s.streams ∧
    (hostWrite a bs s).flows = s.flows ∧ (hostWrite a bs s).media = s.media ∧ (hostWrite a bs s).encs = s.encs ∧
    (hostWrite a bs s).clips = s.clips ∧ (hostWrite a bs s).ppus = s.ppus ∧ (hostWrite a bs s).ports = s.ports ∧
    (hostWrite a bs s).ppload = s.ppload ∧ (hostWrite a bs s).mem = s.mem ∧ (hostWrite a bs s).fab = s.fab ∧
    (hostWrite a bs s).saf = s.saf ∧ (hostWrite a bs s).pwr = s.pwr ∧ (hostWrite a bs s).nv = s.nv ∧ (hostWrite a bs s).sec = s.sec ∧
    (hostWrite a bs s).err = s.err ∧ (hostWrite a bs s).islands = s.islands ∧ (hostWrite a bs s).pmuIsl = s.pmuIsl ∧
    (hostWrite a bs s).dies = s.dies ∧ (hostWrite a bs s).varMis = s.varMis ∧ (hostWrite a bs s).strapHigh = s.strapHigh ∧
    (hostWrite a bs s).smbus = s.smbus ∧ (hostWrite a bs s).host.linkUp = s.host.linkUp ∧
    (hostWrite a bs s).host.linkLost = s.host.linkLost ∧ (hostWrite a bs s).host.porN = s.host.porN ∧
    (hostWrite a bs s).host.perstN = s.host.perstN ∧ (hostWrite a bs s).host.numVfs = s.host.numVfs ∧
    (hostWrite a bs s).host.bar2Size = s.host.bar2Size ∧ (hostWrite a bs s).host.bar2Part = s.host.bar2Part ∧
    (hostWrite a bs s).host.bar2Data = s.host.bar2Data ∧ (hostWrite a bs s).host.bar2Poisoned = s.host.bar2Poisoned ∧
    (hostWrite a bs s).host.bar2Written = s.host.bar2Written ∧ (hostWrite a bs s).host.inta = s.host.inta ∧
    (hostWrite a bs s).host.msix = s.host.msix ∧ (hostWrite a bs s).host.rings = s.host.rings ∧
    (hostWrite a bs s).host.fns = s.host.fns ∧ (hostWrite a bs s).host.discReceipts = s.host.discReceipts ∧
    (hostWrite a bs s).host.discEvents = s.host.discEvents ∧ (hostWrite a bs s).host.discFolios = s.host.discFolios ∧
    (hostWrite a bs s).host.lateCpl = s.host.lateCpl ∧
    (hostWrite a bs s).host.advisory = s.host.advisory := by
  and_intros <;> rfl

/-- driveInta changes only host.inta of State. -/
@[simp] theorem driveInta_fields (s : State) :
    (driveInta s).pending = s.pending ∧ (driveInta s).free = s.free ∧ (driveInta s).order = s.order ∧ (driveInta s).cores = s.cores ∧
    (driveInta s).clusters = s.clusters ∧ (driveInta s).ctxs = s.ctxs ∧ (driveInta s).nextCtxs = s.nextCtxs ∧
    (driveInta s).jobs = s.jobs ∧ (driveInta s).claims = s.claims ∧ (driveInta s).parts = s.parts ∧ (driveInta s).accounts = s.accounts ∧
    (driveInta s).streams = s.streams ∧ (driveInta s).flows = s.flows ∧ (driveInta s).media = s.media ∧ (driveInta s).encs = s.encs ∧
    (driveInta s).clips = s.clips ∧ (driveInta s).ppus = s.ppus ∧ (driveInta s).ports = s.ports ∧ (driveInta s).ppload = s.ppload ∧
    (driveInta s).mem = s.mem ∧ (driveInta s).fab = s.fab ∧ (driveInta s).saf = s.saf ∧ (driveInta s).pwr = s.pwr ∧
    (driveInta s).nv = s.nv ∧ (driveInta s).sec = s.sec ∧ (driveInta s).err = s.err ∧ (driveInta s).islands = s.islands ∧
    (driveInta s).pmuIsl = s.pmuIsl ∧ (driveInta s).dies = s.dies ∧ (driveInta s).varMis = s.varMis ∧
    (driveInta s).strapHigh = s.strapHigh ∧ (driveInta s).smbus = s.smbus ∧ (driveInta s).host.linkUp = s.host.linkUp ∧
    (driveInta s).host.linkLost = s.host.linkLost ∧ (driveInta s).host.porN = s.host.porN ∧ (driveInta s).host.perstN = s.host.perstN ∧
    (driveInta s).host.numVfs = s.host.numVfs ∧ (driveInta s).host.bar2Size = s.host.bar2Size ∧
    (driveInta s).host.bar2Part = s.host.bar2Part ∧ (driveInta s).host.bar2Data = s.host.bar2Data ∧
    (driveInta s).host.bar2Poisoned = s.host.bar2Poisoned ∧ (driveInta s).host.bar2Written = s.host.bar2Written ∧
    (driveInta s).host.mem = s.host.mem ∧ (driveInta s).host.msix = s.host.msix ∧ (driveInta s).host.rings = s.host.rings ∧
    (driveInta s).host.fns = s.host.fns ∧ (driveInta s).host.discReceipts = s.host.discReceipts ∧
    (driveInta s).host.discEvents = s.host.discEvents ∧ (driveInta s).host.discFolios = s.host.discFolios ∧
    (driveInta s).host.lateCpl = s.host.lateCpl ∧
    (driveInta s).host.advisory = s.host.advisory := by
  and_intros <;> rfl

/-! ### Reading back what was updated -/

@[simp] theorem mediaAt_modMedia (n k : Nat) (f : Media → Media) (s : State) : mediaAt (modMedia n f s) k = if k = n then f (mediaAt s n) else mediaAt s k := tget_tset s.media {} _ k n

@[simp] theorem encAt_modEnc (n k : Nat) (f : Enc → Enc) (s : State) : encAt (modEnc n f s) k = if k = n then f (encAt s n) else encAt s k := tget_tset s.encs {} _ k n

@[simp] theorem cluAt_modClu (n k : Nat) (f : Cluster → Cluster) (s : State) : cluAt (modClu n f s) k = if k = n then f (cluAt s n) else cluAt s k := tget_tset s.clusters {} _ k n

@[simp] theorem strm_modStrm (n k : Nat) (f : Stream → Stream) (s : State) : strm (modStrm n f s) k = if k = n then f (strm s n) else strm s k := tget_tset s.streams {} _ k n

@[simp] theorem fnAt_modFn (n k : Nat) (f : Func → Func) (s : State) : fnAt (modFn n f s) k = if k = n then f (fnAt s n) else fnAt s k := tget_tset s.host.fns {} _ k n

@[simp] theorem ringAt_setRing_self (n : Nat) (r : Ring) (s : State) : ringAt (setRing n r s) n = r := tget_tset_self _ _ _ _

@[simp] theorem ringAt_modRing_self (n : Nat) (f : Ring → Ring) (s : State) : ringAt (modRing n f s) n = f (ringAt s n) := tget_tset_self _ _ _ _

@[simp] theorem portAt_modEth (n k : Nat) (f : Port → Port) (s : State) : portAt (modEth n f s) k = if k = n then f (portAt s n) else portAt s k := tget_tset s.ports {} _ k n

theorem ringAt_setRing_ne {n k : Nat} (h : k ≠ n) (r : Ring) (s : State) : ringAt (setRing n r s) k = ringAt s k := tget_tset_ne _ _ _ h

@[simp] theorem poolAt_setPool (n k : Nat) (q : Pool) (s : State) : poolAt (setPool n q s) k = if k = n then some q else poolAt s k :=
  tfind_tset s.mem.pools q k n

end Sys2Proof.Machine
end

