-- ==== Sys2Proof/Laws/Rings.lean ====
section
/-! SUPPORT. Laws/Rings.lean: what taking a slip does, and when its receipt is complete (R346, R400). -/

namespace Sys2Proof.Machine

/-- The state once a slip is taken, before its rule runs. -/
def tookSlip (n op : Nat) (tag : Word) (w : Named) (s : State) : State :=
  let r := ringAt s n
  let t : Taken := { id := s.order, seq := r.seq, opcode := op, tag := tag, stream := w.stream, keys := w.keys }
  setRing n { r with head := (r.head + 1) % r.size, seq := (r.seq + 1) % 2 ^ 32, taken := r.taken ++ [t] } { s with order := s.order + 1 }

/-- A slip that may not be taken changes nothing. -/
theorem takeSlip_waits {s : State} {n op : Nat} {w : Named} (tag : Word) (rule : SlipRule) (h : mayTake s n op w = false) :
    takeSlip n op tag w rule s = s := by
  simp [takeSlip, h]

/-- An accepted slip is taken, and its rule answers for it or runs on. -/
theorem takeSlip_accepted {s : State} {n op : Nat} {w : Named} (tag : Word) (rule : SlipRule) (h : mayTake s n op w = true)
    (g : refusal s n op w = none) :
    takeSlip n op tag w rule s = match rule s.order (tookSlip n op tag w s) with
      | (some a, t) => slipDone n s.order a.1 a.2 t
      | (none, t) => t := by
  have g' : refusal (tookSlip n op tag w s) n op w = none := g
  simp only [takeSlip, h, Bool.not_true, Bool.false_eq_true, if_false]
  show (match refusal (tookSlip n op tag w s) n op w with
    | some st => slipDone n s.order st 0 (tookSlip n op tag w s)
    | none => _) = _
  rw [g']
  rfl

/-- A refused slip is taken and completes with the status that refuses it. -/
theorem takeSlip_refused {s : State} {n op st : Nat} {w : Named} (tag : Word) (rule : SlipRule) (h : mayTake s n op w = true)
    (g : refusal s n op w = some st) :
    takeSlip n op tag w rule s = slipDone n s.order st 0 (tookSlip n op tag w s) := by
  have g' : refusal (tookSlip n op tag w s) n op w = some st := g
  simp only [takeSlip, h, Bool.not_true, Bool.false_eq_true, if_false]
  show (match refusal (tookSlip n op tag w s) n op w with
    | some st => slipDone n s.order st 0 (tookSlip n op tag w s)
    | none => _) = _
  rw [g']

/-- Taking a slip changes the order counter and the ring alone. -/
theorem tookSlip_eq (n op : Nat) (tag : Word) (w : Named) (s : State) :
    tookSlip n op tag w s = { s with order := s.order + 1, host := (tookSlip n op tag w s).host } := rfl

/-- A state in which the ring stands as the take left it, but for entries completed since, completes the slip. -/
theorem completed_slipDone {s t : State} {n op : Nat} {tag : Word} {w : Named} (status : Nat) (result : BitVec 256)
    (hh : (ringAt t n).head = (ringAt (tookSlip n op tag w s) n).head)
    (hk : (ringAt t n).taken = (ringAt (tookSlip n op tag w s) n).taken) :
    Completed n op tag s (slipDone n s.order status result t) status result where
  head := by simp [slipDone, hh, tookSlip]
  slip := by
    simp only [slipDone, ringAt_modRing_self, hk]
    simp [tookSlip, amend]

/-- The slip's receipt is complete once its rule answers and leaves the ring as it stands. -/
theorem takeSlip_completed {s t : State} {n op : Nat} {tag : Word} {w : Named} {rule : SlipRule} {status : Nat} {result : BitVec 256}
    (h : mayTake s n op w = true) (g : refusal s n op w = none)
    (hr : rule s.order (tookSlip n op tag w s) = (some (status, result), t))
    (ht : ringAt t n = ringAt (tookSlip n op tag w s) n) :
    Completed n op tag s (takeSlip n op tag w rule s) status result := by
  rw [takeSlip_accepted tag rule h g, hr]
  exact completed_slipDone status result (by rw [ht]) (by rw [ht])

end Sys2Proof.Machine
end

