-- ==== Sys2Proof/Laws/Vector.lean ====
section
/-! SUPPORT. Laws/Vector.lean: rows of elements built by a function and read back, and what a vector result is. -/

namespace Sys2Proof.Machine

/-- Digit k of a number built from its digits, least first. -/
theorem digits_get (B : Nat) (hB : 0 < B) (f : Nat → Nat) (l : List Nat) (k : Nat) (hk : k < l.length) :
    l.foldr (fun i a => f i % B + B * a) 0 / B ^ k % B = f (l.getD k 0) % B := by
  induction l generalizing k with
  | nil => simp at hk
  | cons x r ih =>
    rw [List.foldr_cons]
    cases k with
    | zero => simp [Nat.add_mul_mod_self_left]
    | succ k =>
      rw [pow_succ', ← Nat.div_div_eq_div_mul, Nat.add_mul_div_left _ _ hB, Nat.div_eq_of_lt (Nat.mod_lt _ hB), Nat.zero_add]
      exact ih k (by simpa using hk)

/-- A number built from n digits is below B^n. -/
theorem digits_lt (B : Nat) (hB : 0 < B) (f : Nat → Nat) (l : List Nat) : l.foldr (fun i a => f i % B + B * a) 0 < B ^ l.length := by
  induction l with
  | nil => simp
  | cons x r ih =>
    rw [List.foldr_cons, List.length_cons, pow_succ']
    have := Nat.mod_lt (f x) hB
    have h2 : B * (r.foldr (fun i a => f i % B + B * a) 0 + 1) ≤ B * B ^ r.length := Nat.mul_le_mul_left B ih
    rw [Nat.mul_add] at h2
    omega

theorem velem_vmake (f : Nat → Nat) (i : Nat) (h : i < 512) : velem (vmake f) i = f i % 65536 := by
  unfold velem vmake
  rw [BitVec.extractLsb'_toNat, BitVec.toNat_ofNat, Nat.shiftRight_eq_div_pow]
  have hl := digits_lt 65536 (by decide) f (List.range 512)
  rw [List.length_range] at hl
  have e : (65536 : Nat) ^ 512 = 2 ^ 8192 := by rw [show (65536 : Nat) = 2 ^ 16 by decide, ← pow_mul]
  rw [e] at hl
  rw [Nat.mod_eq_of_lt hl, pow_mul, show (2 : Nat) ^ 16 = 65536 by decide, digits_get 65536 (by decide) f _ i (by simpa using h)]
  simp [h]

theorem getLsbD_pmake (f : Nat → Bool) (i : Nat) (h : i < 512) : (pmake f).getLsbD i = f i := by
  unfold pmake
  have e : ∀ l : List Nat, l.foldr (fun i a => b2n (f i) + 2 * a) 0 = l.foldr (fun i a => b2n (f i) % 2 + 2 * a) 0 := by
    intro l; congr 1; funext i a; unfold b2n; split <;> rfl
  have hl := digits_lt 2 (by decide) (fun i => b2n (f i)) (List.range 512)
  have hg := digits_get 2 (by decide) (fun i => b2n (f i)) (List.range 512) i (by simpa using h)
  rw [List.length_range] at hl
  rw [BitVec.getLsbD_ofNat, e, Nat.testBit_eq_decide_div_mod_eq, hg]
  simp only [h, decide_true, Bool.true_and]
  rw [List.getD_eq_getElem?_getD, List.getElem?_range h]
  cases hf : f i <;> simp [b2n, hf]

theorem velem_vwrite (m : BitVec 512) (old : BitVec 8192) (f : Nat → Nat) (i : Nat) (h : i < 512) :
    velem (vwrite m old f) i = if m.getLsbD i then f i % 65536 else velem old i := by
  unfold vwrite
  rw [velem_vmake _ _ h]
  split
  · rfl
  · unfold velem; exact Nat.mod_eq_of_lt (BitVec.isLt _)

@[simp] theorem vreg_setV (n k : Nat) (v : BitVec 8192) (r : Regs) : vreg (setV n v r) k = if k = n then v else vreg r k := by
  unfold vreg setV; exact tget_tset _ _ _ _ _

theorem velem_lt (v : BitVec 8192) (i : Nat) : velem v i < 65536 := by unfold velem; exact BitVec.isLt _

/-- A masked vector result writes its elements and no other register. -/
theorem putElems_result (ty n : Nat) (m : BitVec 512) (g : Nat → Nat) (r : Regs) : VecResult ty n m g r (putElems ty n m g r) := by
  unfold putElems
  by_cases h : ty = 2
  · rw [if_pos h]
    refine ⟨⟨rfl, rfl, rfl, rfl, rfl⟩, fun k h1 h2 => ?_, fun i hi => ?_⟩
    · simp [h1, h2 h]
    · unfold elemOf
      simp only [h, if_true, vreg_setV, if_neg (show n ≠ n + 1 by omega)]
      rw [velem_vwrite _ _ _ _ hi, velem_vwrite _ _ _ _ hi]
      split
      · have := Nat.div_add_mod (g i % 2 ^ 32) 65536
        omega
      · rfl
  · rw [if_neg h]
    refine ⟨⟨rfl, rfl, rfl, rfl, rfl⟩, fun k h1 _ => ?_, fun i hi => ?_⟩
    · simp [h1]
    · unfold elemOf
      simp only [h, if_false, vreg_setV, if_true]
      rw [velem_vwrite _ _ _ _ hi]
      rfl

/-- A vector instruction whose checks pass. -/
theorem vectorOp_done {s : State} {c : Nat} {e : Env} {u : List Upset} {l : List Check} {g : Env → Regs → Regs} (h : Issues s c e)
    (hu : Readable u) (hl : Clean l) : ∃ v, vectorOp c u l s g = .next v ∧ OnlyRegs e u (g e e.core.regs) s v :=
  regsDone_only (t := noteCorrected c e.ph u s) h hu.1 (fun k => by simp) (noteCorrected_only _ _ _ _) (by
    rw [checked_clean _ _ hl .nil]; simp [hu.2])

end Sys2Proof.Machine
end

