-- ==== Sys2Proof/Machine/Readout.lean ====
section
/-! DEFINITION. Machine/Readout.lean: what a read of a BAR0 register returns: the fields of State assembled into the words of Tables 3.11,
3.12, 7.9, 7.10, 8.9, 10.8, 10.9, 12.5, 12.6, 13.4, 14.8, 15.12, 16.7, 17.9, 18.11, 19.3 to 19.5 and 20.6 (R100, R203, R275, R329, R330,
R384, R401, R428, R452, R468, R471, R477, R478, R489). No command of the table reads a register; these words are what software sees of
State. Reserved bits and locations read zero. -/

namespace Sys2Proof.Machine

/-- A register word from fields given as (lowest bit, value). -/
def fieldWord (l : List (Nat × Nat)) : Word := BitVec.ofNat 32 (l.map fun x => 2 ^ x.1 * x.2).sum

/-- The partition that a unit mask of the partition records assigns unit n to; 0b00 where none does. -/
def ownerPart (s : State) (n : Nat) (mask : Partition → Nat) : Nat :=
  ((List.range 4).find? fun p => (partAt s p).present && nbit (mask (partAt s p)) n).getD 0

/-! ### Clusters, media cores, encoder cores (Tables 3.11, 3.12, 7.9, 7.10, 10.8, 10.9) -/

/-- The code of a core's state in Table 3.11. -/
def healthCode (h : CoreHealth) : Nat :=
  match h with
  | .inService => 0
  | .queued => 1
  | .underTest => 2
  | .withdrawn => 3

/-- CLU_COREn; a logical core without a stand-in shows no physical core (log entry 118). -/
def cluCoreWord (s : State) (cl n : Nat) : Word :=
  match servedBy s (4 * cl + n) with
  | some ph =>
    let k := coreAt s ph
    fieldWord [(16, min k.resflt 255), (12, sparesUsed k.bad1), (8, sparesUsed k.bad0), (6, healthCode k.health), (4, healthCode k.health), (3, 1),
      (0, ph % 5)]
  | none => fieldWord [(6, 3), (4, 3), (0, 7)]

/-- CLU_SPARE. -/
def cluSpareWord (s : State) (cl : Nat) : Word :=
  let c := cluAt s cl
  let free := c.standin.isNone && c.spare.any fun p => (coreAt s (5 * cl + p)).health == .inService
  fieldWord [(7, b2n free), (4, c.standin.getD 7), (0, c.spare.getD 7)]

/-- A register of a cluster's slot: zero until the repair map is in (R100, R470). -/
def cluRead (s : State) (cl off : Nat) : Word :=
  if off = 0x440 then cluSpareWord s cl
  else if 0x400 ≤ off ∧ off < 0x440 ∧ off % 0x10 = 0 then cluCoreWord s cl ((off - 0x400) / 0x10)
  else 0

/-- A register of a media core's slot. -/
def medRead (s : State) (n off : Nat) : Word :=
  let m := mediaAt s n
  match off with
  | 0x00 => fieldWord [(30, m.state % 4), (28, ownerPart s n (·.media)), (16, m.stream % 2048), (8, min m.wdog 255), (0, m.codec % 4)]
  | 0x10 => m.pict
  | 0x14 => m.conc
  | 0x18 => m.partialCount
  | 0x1C => m.resync
  | 0x20 => m.subst
  | 0x24 => m.envref
  | 0x28 => m.nobuf
  | 0x2C => m.wdlate
  | 0x30 => m.rate
  | _ => 0

/-- A register of an encoder core's slot. -/
def encRead (s : State) (e off : Nat) : Word :=
  let k := encAt s e
  match off with
  | 0x00 => fieldWord [(30, k.state % 4), (28, ownerPart s e (·.enc)), (16, (clipsOn s e).length), (8, min k.wdog 255)]
  | 0x10 => k.pict
  | 0x14 => k.capped
  | 0x18 => k.skiprepl
  | 0x1C => k.refrep
  | 0x20 => k.missing
  | 0x24 => k.clips
  | 0x28 => k.wdlate
  | _ => 0

/-! ### Memory and the Cellar (Tables 12.5, 12.6) -/

/-- A register of a memory controller's slot. -/
def memRead (s : State) (m off : Nat) : Word :=
  let c := tget s.mem.channels {} m
  match off with
  | 0x00 => fieldWord [(31, b2n c.used), (30, b2n c.rdimm), (29, b2n c.failed), (28, b2n !c.zeroMap.isEmpty), (26, (c.ranks - 1) % 4), (8, c.gib % 256),
      (0, c.rate % 16)]
  | 0x04 => fieldWord [(0, c.owner % 4)]
  | 0x10 => c.ce
  | 0x14 => c.ue
  | 0x18 => c.replay
  | 0x1C => c.wcrc
  | 0x20 => fieldWord [(0, min c.postMax 8)]
  | 0x24 => c.retrain
  | 0x28 => fieldWord [(0, c.erased0.toNat)]
  | 0x2C => if c.ranks ≤ 1 then 0 else fieldWord [(0, c.erased1.toNat)]
  | _ => 0

/-- A register of a pool; a pool that does not exist reads zero. -/
def celRead (s : State) (off : Nat) : Word :=
  if off < 0x100 ∨ 0x900 ≤ off then 0 else
  match poolAt s ((off - 0x100) / 0x20) with
  | none => 0
  | some q =>
    match off % 0x20 with
    | 0x00 => fieldWord [(31, 1), (28, q.part % 4), (24, q.kind % 8), (8, (q.m - 8) % 16), (0, q.k % 256)]
    | 0x04 => word32 ((q.chunks.map (·.2)).sum)
    | 0x08 => fieldWord [(16, min q.unmet 0xFFFF), (0, min q.free 0xFFFF)]
    | 0x0C => q.quar
    | 0x10 => q.badret
    | _ => 0

/-! ### Ethernet and the fabric (Tables 8.9, 14.8) -/

/-- A register of a host packet ring, at its offset from BASELO. -/
def pktRead (r : PktRing) (off : Nat) : Word :=
  match off with
  | 0x00 => fieldWord [(0, r.base.toNat % 2 ^ 32 / 4096 * 4096)]
  | 0x04 => fieldWord [(0, r.base.toNat / 2 ^ 32)]
  | 0x08 => r.size
  | 0x0C => fieldWord [(0, r.tail % 4096)]
  | 0x10 => fieldWord [(0, r.head % 4096)]
  | 0x14 => fieldWord [(0, r.vec % 2048)]
  | _ => 0

/-- A register of the ETH block. -/
def ethRead (s : State) (off : Nat) : Word :=
  if 0x200 ≤ off then 0 else
  let p := tget s.ports {} (off / 0x100)
  let o := off % 0x100
  if 0x10 ≤ o ∧ o < 0x28 then pktRead p.rx (o - 0x10)
  else if 0x30 ≤ o ∧ o < 0x48 then pktRead p.tx (o - 0x30)
  else match o with
  | 0x00 => fieldWord [(0, p.pstat % 8)]
  | 0x08 => fieldWord [(0, p.mac.toNat % 2 ^ 32)]
  | 0x0C => fieldWord [(0, p.mac.toNat / 2 ^ 32)]
  | 0x80 => p.rxfrm
  | 0x84 => p.badfrm
  | 0x88 => p.hrxpkt
  | 0x8C => p.hrxdrop
  | 0x90 => p.txfrm
  | _ => 0

/-- A register of window n. -/
def winRead (w : Window) (off : Nat) : Word :=
  match off with
  | 0x00 => fieldWord [(31, b2n w.valid), (30, b2n w.exported), (29, b2n w.canRead), (28, b2n w.canWrite), (16, w.ctx % 1024), (0, w.peer.toNat)]
  | 0x04 => fieldWord [(0, w.peerWin % 256), (8, w.sigClu % 8), (11, b2n w.sigEn), (12, w.sigSem % 256)]
  | 0x08 => fieldWord [(0, w.off.toNat % 2 ^ 32 / 65536 * 65536)]
  | 0x0C => fieldWord [(0, w.off.toNat / 2 ^ 32)]
  | 0x10 => fieldWord [(0, w.len / 65536)]
  | _ => 0

/-- FAB_PORTn. -/
def fabPortWord (p : FabPort) : Word := fieldWord [(28, p.state % 16), (26, p.width % 4), (0, p.neighbour.toNat)]

/-- FAB_DETOURi. -/
def detourWord (d : Detour) : Word :=
  fieldWord [(31, 1), (30, b2n d.escape), (28, d.port % 4), (26, d.kind % 4), (8, d.x % 256), (0, d.y % 256)]

/-- A register of the FAB block. -/
def fabRead (s : State) (off : Nat) : Word :=
  let f := s.fab
  if 0x1000 ≤ off ∧ off < 0x3000 then winRead (tget f.wins {} ((off - 0x1000) / 0x20)) (off % 0x20)
  else if 0x400 ≤ off ∧ off < 0x800 then ((f.detours[(off - 0x400) / 4]?).map detourWord).getD 0
  else if 0x20 ≤ off ∧ off < 0x30 then fabPortWord (tget f.ports {} ((off - 0x20) / 4))
  else match off with
  | 0x00 => fieldWord [(31, b2n f.enable), (30, b2n f.torus), (16, f.domain.toNat), (8, (f.sx - 1) % 256), (0, (f.sy - 1) % 256)]
  | 0x04 => fieldWord [(0, b2n f.lock)]
  | 0x10 => fieldWord [(30, f.walk % 4), (29, b2n f.root), (28, b2n f.split), (27, b2n f.miswired), (26, b2n f.detourFull), (0, f.call.toNat)]
  | 0x40 => f.fwd
  | 0x44 => f.drop
  | 0x48 => f.replay
  | 0x4C => f.nakCount
  | 0x50 => f.tmo
  | 0x54 => f.late
  | _ => 0

/-! ### ERR, PWR, SAF, SEC, PMU (Tables 15.12, 17.9, 16.7, 18.11, 20.6) -/

/-- A register of the ERR block. -/
def errRead (s : State) (off : Nat) : Word :=
  if 0x10 ≤ off ∧ off ≤ 0x20 then tget s.err.cnt 0 ((off - 0x10) / 4)
  else match off with
  | 0x00 => fieldWord [(31, b2n s.err.c4), (30, b2n s.host.linkLost), (0, maskOf ((List.range 4).filter fun p => (partAt s p).c3))]
  | 0x04 => if s.err.c4 then fieldWord [(8, s.err.c4Source % 256), (0, s.err.c4Code % 256)] else 0
  | 0x30 => s.err.evdrop
  | 0x34 => s.err.dupres
  | _ => 0

/-- A register of the PWR block. -/
def pwrRead (s : State) (off : Nat) : Word :=
  let p := s.pwr
  match off with
  | 0x00 => fieldWord [(0, p.cap % 512)]
  | 0x04 => fieldWord [(0, b2n p.lock)]
  | 0x08 => p.shedth
  | 0x0C => fieldWord [(0, p.brakeLvl % 8), (4, p.shedPrio % 8), (8, p.istPeriod % 256)]
  | 0x10 => pwrLevelReg s
  | 0x14 => pwrBootReg s
  | 0x18 => pwrTempReg s
  | 0x1C => pwrEstReg s
  | 0x40 => tget p.shedCount 0 1
  | 0x44 => tget p.shedCount 0 2
  | 0x48 => tget p.shedCount 0 3
  | 0x4C => tget p.shedCount 0 4
  | 0x50 => p.throt
  | 0x54 => p.therm
  | 0x58 => p.overCap
  | _ => 0

/-- SAF_STATUS. -/
def safStatusWord (s : State) : Word :=
  fieldWord [(30, if s.saf.held then 3 else if !s.saf.arm then 0 else if s.saf.ok then 2 else 1), (29, b2n (partAt s 0).c3),
    (28, b2n (decide (4 ≤ s.pwr.level))), (24, s.saf.cause % 16)]

/-- A register of a watch entry. -/
def watchRead (w : Watch) (off : Nat) : Word :=
  match off with
  | 0 => fieldWord [(31, b2n w.en), (0, w.stream % 1024)]
  | 4 => fieldWord [(0, w.budget)]
  | 8 => fieldWord [(0, w.silence)]
  | _ => 0

/-- A register of the SAF block. -/
def safRead (s : State) (off : Nat) : Word :=
  let f := s.saf
  if 0x1000 ≤ off ∧ off < 0x1400 then spigotWord (zoneWord s ((off - 0x1000) / 4))
  else if 0x100 ≤ off ∧ off < 0x500 then watchRead (tget f.watches {} ((off - 0x100) / 0x10)) (off % 0x10)
  else match off with
  | 0x00 => fieldWord [(0, b2n f.arm)]
  | 0x04 => fieldWord [(0, b2n f.lock)]
  | 0x08 => safStatusWord s
  | 0x10 => fieldWord [(0, f.ftti)]
  | 0x14 => fieldWord [(0, f.half)]
  | 0x18 => fieldWord [(0, f.cleanN), (8, f.k), (16, f.w)]
  | 0x20 => BitVec.ofNat 32 safProof
  | 0x40 => f.notok
  | 0x44 => f.disagree
  | 0x48 => f.lateCount
  | 0x4C => f.prooffail
  | 0x50 => f.testfail
  | 0x54 => f.testlate
  | 0x58 => f.silenceCount
  | _ => 0

/-- A register of the SEC block. -/
def secRead (s : State) (off : Nat) : Word :=
  match off with
  | 0x00 => fieldWord [(0, s.nv.lcs % 8), (3, b2n s.sec.jtag), (4, b2n s.sec.debug), (8, s.nv.revoke.toNat), (12, s.nv.secver % 64),
      (18, s.sec.imageSecver % 64), (24, b2n (s.nv.oauth != 0 && !s.nv.oauthErased))]
  | 0x08 => fieldWord [(0, s.sec.hbCode % 256), (8, b2n s.sec.verifying), (16, min s.sec.hbIgnored 0xFFFF)]
  | 0x0C => fieldWord [(0, min s.sec.attq.length 9)]
  | _ => 0

/-- A register of the PMU block: the selected island's selections, zero for an island that does not run. -/
def pmuRead (s : State) (off : Nat) : Word :=
  if off = 0 then fieldWord [(0, s.pmuIsl % 128)]
  else if 0x10 ≤ off ∧ off < 0x30 then
    if islandDown s s.pmuIsl then 0 else tget (tget s.islands {} s.pmuIsl).evt 0 ((off - 0x10) / 4)
  else 0

/-! ### RING, DEV and MBX (Tables 13.4, 19.3 to 19.5) -/

/-- A register of a ring's slot. -/
def ringRead (r : Ring) (off : Nat) : Word :=
  match off with
  | 0x00 => fieldWord [(0, r.base.toNat % 2 ^ 32 / 4096 * 4096)]
  | 0x04 => fieldWord [(0, r.base.toNat / 2 ^ 32)]
  | 0x08 => fieldWord [(31, b2n r.enable), (29, r.kind % 4), (25, r.s % 16), (12, r.pair % 4096), (0, r.vector % 2048)]
  | 0x0C => fieldWord [(16, r.folioLast % 1024), (0, r.folioFirst % 1024)]
  | 0x10 => fieldWord [(0, r.area.toNat % 2 ^ 32 / 65536 * 65536)]
  | 0x14 => fieldWord [(0, r.area.toNat / 2 ^ 32)]
  | 0x18 => fieldWord [(0, r.areaSz % 32768)]
  | 0x1C => fieldWord [(16, r.modTime % 65536), (0, r.modCount % 256)]
  | 0x20 => fieldWord [(0, r.head % 65536)]
  | 0x24 => fieldWord [(0, r.tail % 65536)]
  | 0x28 => fieldWord [(0, r.owner % 32)]
  | 0x2C => r.baddb
  | 0x30 => r.drop
  | _ => 0

/-- A register of a function's DEV block. -/
def devRead (s : State) (fn off : Nat) : Word :=
  match off with
  | 0x000 => fieldWord [(0, (devId s).toNat), (29, b2n (fn != 0))]
  | 0x004 => fieldWord [(0, s.nv.serial.toNat % 2 ^ 32)]
  | 0x008 => fieldWord [(0, s.nv.serial.toNat / 2 ^ 32)]
  | 0x00C => fieldWord [(0, fn % 32), (8, if fn = 0 then s.host.numVfs % 32 else 0)]
  | 0x010 => fieldWord [(31, b2n (s.pwr.stage == 7)), (30, b2n s.host.linkLost), (29, b2n s.err.c4), (28, b2n s.varMis), (27, b2n s.saf.arm),
      (0, s.pwr.stage % 16)]
  | 0x020 => if fn = 0 then fieldWord [(4, s.host.bar2Part % 4)] else 0
  | 0x040 => if fn = 0 && s.err.parity.contains 0x40 then 0 else (fnAt s fn).scratch
  | _ => 0

/-- A register of a function's mailbox; no data word shows before VALID (R480). -/
def mbxRead (s : State) (fn off : Nat) : Word :=
  let g := fnAt s fn
  if 0x200 ≤ off ∧ off < 0x400 then if g.mbxValid then g.mbxData.getD ((off - 0x200) / 4) 0 else 0
  else match off with
  | 0x000 => g.mbxSel
  | 0x004 => fieldWord [(31, b2n g.mbxValid), (30, b2n g.mbxUnknown), (29, b2n g.mbxBusy), (0, g.mbxLen % 256)]
  | 0x008 => fieldWord [(0, g.mbxGen.toNat)]
  | _ => 0

/-! ### The map (Table 19.2) -/

/-- A register of a PF0 block at a BAR0 offset from 0x1_0000 on; a block whose island does not run reads zero (R477). -/
def blockRead (s : State) (off : Nat) : Word :=
  let at' := fun (island : Nat) (w : Word) => if islandDown s island then 0 else w
  let o := off % 0x10000
  match off / 0x10000 with
  | 1 => errRead s o
  | 2 => pwrRead s o
  | 3 => at' 99 (safRead s o)
  | 4 => at' 100 (secRead s o)
  | 5 => at' 84 (pmuRead s o)
  | 6 => at' 84 (fabRead s o)
  | 7 => at' 98 (ethRead s o)
  | 0xC => at' 84 (celRead s o)
  | b =>
    if 8 ≤ b ∧ b < 0xC then at' (86 + (off - 0x80000) / 0x8000) (memRead s ((off - 0x80000) / 0x8000) (off % 0x8000))
    else if 0x10 ≤ b ∧ b < 0x20 then
      if running s then at' (40 + (off - 0x100000) / 0x20000) (cluRead s ((off - 0x100000) / 0x20000) (off % 0x20000)) else 0
    else if 0x20 ≤ b ∧ b < 0x28 then at' (48 + (off - 0x200000) / 0x4000) (medRead s ((off - 0x200000) / 0x4000) (off % 0x4000))
    else if b = 0x28 then at' (80 + (off - 0x280000) / 0x4000) (encRead s ((off - 0x280000) / 0x4000) (off % 0x4000))
    else 0

/-- What a 32-bit read of a function at an aligned BAR0 offset returns (R333, R471, R477); write-only registers and doorbells read zero. -/
def readWord (s : State) (fn off : Nat) : Word :=
  if off % 4 ≠ 0 then 0
  else if off < 0x2000 then
    if !hostReaches s fn then 0 else if off < 0x1000 then devRead s fn off else mbxRead s fn (off - 0x1000)
  else if 0x400000 ≤ off ∧ off < 0x800000 then
    let n := (off - 0x400000) / 0x400
    if ownsRing s fn n then ringRead (ringAt s n) (off % 0x400) else 0
  else if 0x10000 ≤ off ∧ off < 0x290000 ∧ pf0Reaches s fn then blockRead s off
  else 0

end Sys2Proof.Machine
end

