-- ==== Sys2Proof/Tests/Slice0.lean ====
section
/-! SUPPORT. Tests/Slice0.lean: small tests of the model: the well-formedness checks, words written out from the spec's encodings, one or two
results of an instruction or a command, and for each statement of Certificates/Slice0/Obligations.lean states and operands that meet its
hypotheses (each theorem `test_meets_<Name>`). -/

namespace Sys2Proof.Machine.Tests

set_option Elab.async false

/-! ### A small device that runs -/

/-- An instruction whose fields are all zero. -/
def fz : Fields := { mod := 0, rd := 0, ra := 0, rb := 0, rc := 0, ad := 0, aa := 0, ab := 0, pm := 0, xf := 0, imm := 0 }

/-- A one-part FRAME program with eight semaphores, four tallies and four accumulator banks. -/
def prog0 : Prog :=
  { role := 0, bands := 0, aux := 0, flags := 0, codeLen := 4096, entry := 0, holdUs := 100, gang := 1, nsem := 8, ntally := 4, accBanks := 4,
    claims := 2, carrelKib := 256, tallyInit := [0, 5, 0, 0], cycleEst := 0, codeAt := 0 }

/-- A context of partition 1 in cluster 0. -/
def ctx0 : Ctx :=
  { owner := 0, part := 1, clusters := 1, ways := 1, ilen := 16384, globalLen := 65536, area := [(65536, 65536), (0, 16384)],
    progs := [prog0],
    codebooks := [], curves := [[]], tracker := [], boxes := [[]], reuses := [], batchers := [] }

/-- Its residency in cluster 0: 256 KiB of each carrel from 64 KiB on. -/
def res0 : Residency :=
  { ctx := 5, part := 1, carrelBase := 65536, carrelKib := 256, bankBase := 0, banks := 4, ways := 1, semBase := 0, nsem := 8, tallyBase := 0,
    ntally := 4, blockedAt := 0 }

/-- The part that runs on core 0. -/
def part0 : Part := { job := 1, idx := 0, ctx := 5, prog := 0, prio := 0, started := 2 }

/-- Its job. -/
def job0 : Job := { id := 1, ctx := 5, prog := 0, stream := 3, frame := 0, role := 0, prio := 0, admitted := 0, state := .running, cores := [0] }

/-- A device that runs, with one context, one channel of DRAM, the given jobs and core 0 as given. -/
def dev (k : Core) : State :=
  { pwr := { stage := 7, resetting := false, coldBoot := false }, host := { linkUp := true }, order := 100,
    mem := { channels := [(0, { used := true, gib := 1, rate := 1 })] }, ctxs := [(5, ctx0)], jobs := [job0],
    clusters := [(0, { residencies := [(0, res0)] })], cores := [(0, k)] }

/-- Core 0 with the registers given. -/
def core (r : Regs) : Core := { part := some part0, regs := r }

/-- The environment of its part. -/
def env (k : Core) : Env := { c := 0, ph := 0, core := k, part := part0, ctx := ctx0, prog := prog0, res := res0 }

/-- The device with these registers in core 0, and its environment. -/
abbrev devR (r : Regs) : State := dev (core r)
abbrev envR (r : Regs) : Env := env (core r)

/-- Core 0 issues, whatever its registers hold. -/
theorem issues_dev (r : Regs) : Issues (devR r) 0 (envR r) := rfl

/-- A descriptor image: the fields given over the default image, VALID. -/
def img (l : List (Nat × Nat × Nat)) : BitVec 256 := l.foldl (fun d x => dput d x.1 x.2.1 x.2.2) (defaultDesc ||| 1)

/-- A tensor of format `fmt` at `base` with its headers `hoff` words on and two extents. -/
def tens (glob fmt base hoff e0 e1 : Nat) (more : List (Nat × Nat × Nat) := []) : BitVec 256 :=
  img ([(1, 1, glob), (5, 2, fmt), (94, 61, base), (115, 95, hoff), (175, 160, e0 - 1), (191, 176, e1 - 1)] ++ more)

/-! ### Scalar, control and descriptor instructions -/

theorem test_meets_RegisterFiles : (1 : BitVec 5) ≠ 0 ∧ (7 : Nat) ≠ 0 := by decide

theorem test_meets_ScalarResults :
    let r : Regs := { s := [(1, 7), (2, 0)] }
    let f := { fz with rd := 3, ra := 1, rb := 2 }
    Issues (devR r) 0 (envR r) ∧ fetchLost [] = false ∧ stray (scalarUses f 0) f = false
      ∧ stray (scalarUses { f with mod := 1 } 1) { f with mod := 1 } = false
      ∧ (stray (scalarUses { f with mod := 2 } 3) { f with mod := 2 } = false ∧ (2 : BitVec 8).toNat % 4 < 3)
      ∧ stray (scalarUses { f with mod := 7 } 7) { f with mod := 7 } = false
      ∧ (let g := { fz with mod := 0x80, rd := 3, imm := 0xFFFFFFFF }
         stray { mod := 0x80, rd := true, imm := 0xFFFFFFFF } g = false ∧ g.mod.getLsbD 7 = true) :=
  ⟨rfl, by decide +kernel⟩

theorem test_meets_BranchesGo :
    let r : Regs := { s := [(1, 4080)], pc := 16 }
    let good : Int → Prop := fun t => 0 ≤ t ∧ t % 16 = 0 ∧ t + 16 ≤ (envR r).prog.codeLen
    let f := { fz with imm := -16 }
    Issues (devR r) 0 (envR r) ∧ fetchLost [] = false ∧ stray {} fz = false ∧ aethodListed (0x06 : BitVec 8).toNat = false ∧ (core r).halo = []
      ∧ (stray { imm := BitVec.allOnes 64 } f = false ∧ good ((16 : Int) + f.imm.toInt))
      ∧ (let g := { f with mod := 5, ra := 1, rb := 2 }
         stray { mod := 7, ra := true, rb := true, imm := BitVec.allOnes 64 } g = false ∧ g.mod.toNat % 8 < 6)
      ∧ stray { rd := true, imm := BitVec.allOnes 64 } { f with rd := 31 } = false
      ∧ (stray { ra := true } { fz with ra := 1 } = false ∧ good (sreg r 1).toNat) :=
  ⟨rfl, by decide +kernel⟩

theorem test_meets_LoadStoreResults :
    let r : Regs := { s := [(1, 327680)] }
    let f := { fz with mod := 0x80, rd := 3, ra := 1, imm := 0xFFFFFFFC }
    let g := { fz with mod := 0x81, rb := 3, ra := 1, imm := 0xFFFFFFFC }
    let a := (sreg r 1 + (0xFFFFFFFC : Word)).toNat
    Issues (devR r) 0 (envR r)
      ∧ (stray { mod := 0x81, rd := true, ra := true, rb := false, imm := 0xFFFFFFFF } f = false ∧ f.mod.getLsbD 7 = true ∧ f.mod.getLsbD 0 = false)
      ∧ (stray { mod := 0x81, rd := false, ra := true, rb := true, imm := 0xFFFFFFFF } g = false ∧ g.mod.getLsbD 7 = true ∧ g.mod.getLsbD 0 = true)
      ∧ a % 4 = 0 ∧ res0.carrelBase ≤ a ∧ a + 4 ≤ res0.carrelBase + 1024 * res0.carrelKib
      ∧ Unblocked (envR r) [{ lo := a, n := 4, wr := true }] ∧ Unblocked (envR r) [{ lo := a, n := 4, wr := false }]
      ∧ fetchLost [] = false ∧ readLost [] = false ∧ memWf 0 (core r).carrel = true :=
  ⟨rfl, by decide +kernel⟩

theorem test_meets_DescriptorRegisters :
    let r : Regs := { s := [(1, 65536), (2, 2)], a := [(1, tens 0 6 65536 16384 64 1), (2, tens 0 9 65536 0 8 8)] }
    let d := descOf (areg r 2)
    Issues (devR r) 0 (envR r)
      ∧ (stray { ad := true, ra := true, imm := 0xFFFFFFFF } { fz with ad := 3, ra := 1, imm := 32 } = false
          ∧ Unblocked (envR r) [{ lo := 65568, n := 32, wr := false }] ∧ Readable [])
      ∧ (stray { mod := 0xFF, ad := true, ra := true, imm := BitVec.allOnes 64 } { fz with mod := 3, ad := 4, imm := 65536 } = false
          ∧ (areg r 4).getLsbD 0 = false ∧ (dsetField defaultDesc 3 65536).isSome = true)
      ∧ (stray { ad := true, aa := true } { fz with ad := 3, aa := 1 } = false ∧ (areg r 1).getLsbD 0 = true)
      ∧ (stray { ad := true, ra := true, rb := true, xf := 3 } { fz with ad := 2, ra := 2, rb := 2 } = false ∧ (areg r 2).getLsbD 0 = true
          ∧ d.fmt ≤ 9 ∧ ((2 : Int) * elemBits d.fmt) % 8 = 0 ∧ (advanced (areg r 2) 4 2).isSome = true)
      ∧ (dsetField (tens 0 6 65536 4 64 1) 0x00 65600).isSome = true ∧ (dsetField defaultDesc 4 1).isSome = true
      ∧ (65536 < 65537 ∨ 65537 = 0) ∧ (dsetField defaultDesc 7 524256).isSome = true :=
  ⟨rfl, by decide +kernel⟩

/-! ### Tile moves, the array and the vector unit -/

theorem channelsFit_dev (k : Core) : ChannelsFit (dev k) := by
  intro m
  by_cases h : m = 0
  · subst h; show 1 * 2 ^ 30 ≤ 2 ^ 35; decide
  · have : 0 ≠ m := fun e => h e.symm
    simp [capOf, dev, tget, this]

theorem test_meets_TileMoves :
    let r : Regs := { a := [(1, tens 0 6 65536 16384 64 2 [(129, 116, 2)]), (2, tens 0 6 131072 16384 64 2 [(129, 116, 2)]),
                            (3, tens 1 6 0 1024 64 2 [(129, 116, 2)]), (4, tens 0 6 196608 1024 2 64 [(129, 116, 2)]),
                            (5, tens 0 9 65536 0 4 8 [(129, 116, 1)]), (6, tens 0 9 131072 0 8 4 [(129, 116, 1)])] }
    let d := descOf (areg r 1)
    let t := descOf (areg r 2)
    let g := descOf (areg r 3)
    Issues (devR r) 0 (envR r) ∧ ChannelsFit (devR r) ∧ Clean (descChecks 1 d) ∧ Clean (descChecks 2 t) ∧ Clean (descChecks 3 g)
      ∧ tensorInShare (envR r) d = true ∧ tensorInShare (envR r) t = true ∧ tensorInShare (envR r) g = true ∧ Readable []
      ∧ memWf 0 (core r).carrel = true ∧ (∀ q ∈ tensorRanges g, importsMeeting (devR r) 5 q.1 q.2 = [])
      ∧ tensorPoisoned (devR r) (envR r) t = false ∧ tensorPoisoned (devR r) (envR r) g = false
      ∧ Unblocked (envR r) (spansOf d true ++ spansOf t false)
      ∧ (stray { mod := 1, ad := true, aa := true } { fz with ad := 1, aa := 2 } = false ∧ shapeOk false d t = true ∧ d.glob = false)
      ∧ (stray { mod := 1, ad := true, aa := true } { fz with mod := 1, ad := 5, aa := 6 } = false
          ∧ shapeOk true (descOf (areg r 5)) (descOf (tens 0 9 131072 0 8 1 [(129, 116, 1), (207, 192, 3)])) = true)
      ∧ (stray { ad := true, aa := true } { fz with ad := 3, aa := 2 } = false ∧ shapeOk false g t = true ∧ g.glob = true ∧ t.glob = false)
      ∧ (shapeOk false d t = true ∧ d.glob = t.glob) :=
  ⟨rfl, channelsFit_dev _, by decide +kernel⟩

theorem test_meets_HeadersAndPacking :
    crcGood (sealHdr 5 0x3C) = true ∧ sealHdr 5 0x3C / 65536 % 256 ≠ 6 ∧ (0 < 7 ∧ (List.replicate 64 15).length = 64) := by decide +kernel

/-- Registers with two masks and a vector of ones. -/
def vregs : Regs := { s := [(1, 0x80000000), (2, 513)], v := [(2, 1), (4, 0x3C00)], p := [(1, 1), (2, 0)] }

theorem test_meets_VectorArithmetic :
    Issues (devR vregs) 0 (envR vregs) ∧ Readable []
      ∧ (let f := { fz with mod := 5, rd := 1, ra := 2, rb := 4, pm := 1 }
         f.mod.toNat % 4 ≠ 3 ∧ EvenIf 1 [f.rd, f.ra, f.rb] ∧ stray { mod := 7, rd := true, ra := true, rb := true, pm := true } f = false)
      ∧ (let f := { fz with mod := 2, rd := 30, ra := 2, rb := 4, pm := 7 }
         f.mod.toNat % 4 ≠ 3 ∧ EvenIf 2 [f.rd, f.ra, f.rb] ∧ stray { mod := 3, rd := true, ra := true, rb := true, pm := true } f = false)
      ∧ (let f := { fz with mod := 2, rd := 30, ra := 2, rb := 4, rc := 6, pm := 7 }
         EvenIf 2 [f.rc] ∧ stray { mod := 3, rd := true, ra := true, rb := true, rc := true, pm := true } f = false) :=
  ⟨rfl, by decide +kernel⟩

theorem test_meets_VectorCompareAndMasks :
    Issues (devR vregs) 0 (envR vregs) ∧ Readable []
      ∧ (let f := { fz with mod := 0x16, rd := 7, ra := 2, rb := 4, pm := 1 }
         stray { mod := 0x1F, rd := true, ra := true, rb := true, pm := true } f = false ∧ f.rd.toNat < 8 ∧ f.mod.toNat / 4 % 8 < 6
           ∧ f.mod.toNat % 4 ≠ 3 ∧ EvenIf 2 [f.ra, f.rb])
      ∧ (let f := { fz with mod := 3, rd := 0, ra := 1, rb := 7 }
         stray { mod := 3, rd := true, ra := true, rb := true } f = false ∧ f.rd.toNat < 8 ∧ f.ra.toNat < 8 ∧ f.rb.toNat < 8)
      ∧ (stray { rd := true, ra := true } { fz with rd := 7, ra := 2 } = false)
      ∧ stray { rd := true, ra := true, rb := true, pm := true } { fz with rd := 31, ra := 2, rb := 4, pm := 1 } = false :=
  ⟨rfl, by decide +kernel⟩

theorem test_meets_VectorConversions :
    Issues (devR vregs) 0 (envR vregs) ∧ Readable []
      ∧ (let f := { fz with mod := 0x19, rd := 1, ra := 2, rb := 4 }
         stray { mod := 0x1F, rd := true, ra := true, rb := true, pm := true } f = false ∧ f.mod.toNat % 4 = 1 ∧ f.mod.toNat / 4 % 8 < 7)
      ∧ (let f := { fz with mod := 2, rd := 30, ra := 2 }
         stray { mod := 0xF, rd := true, ra := true, pm := true } f = false ∧ f.mod.toNat % 4 ≠ 3 ∧ f.mod.toNat / 4 % 4 ≠ 3 ∧ EvenIf 2 [f.rd]
           ∧ EvenIf 0 [f.ra])
      ∧ (let f := { fz with mod := 1, rd := 30, ra := 1 }
         stray { mod := 3, rd := true, ra := true, pm := true } f = false ∧ f.mod.toNat % 4 ≠ 3 ∧ EvenIf 1 [f.rd])
      ∧ stray { rd := true, ra := true, rb := true, pm := true } { fz with rd := 31, ra := 2, rb := 4, pm := 1 } = false
      ∧ (let f := { fz with mod := 1, rd := 31, ra := 1, pm := 2, imm := 511 }
         stray { mod := 1, rd := true, ra := true, pm := f.mod.getLsbD 0, imm := 0x1FF } f = false ∧ f.mod.getLsbD 0 = true)
      ∧ (let f := { fz with rd := 31, ra := 1, imm := 511 }
         stray { mod := 1, rd := true, ra := true, pm := f.mod.getLsbD 0, imm := 0x1FF } f = false ∧ f.mod.getLsbD 0 = false) :=
  ⟨rfl, by decide +kernel⟩

theorem test_meets_VectorReduceAndCurve :
    Issues (devR vregs) 0 (envR vregs) ∧ Readable []
      ∧ (let f := { fz with mod := 9, rd := 1, ra := 2, pm := 1 }
         stray { mod := 0x1F, rd := true, ra := true, pm := true } f = false ∧ f.mod.toNat / 4 % 8 < 3 ∧ f.mod.toNat % 4 = 1 ∧ EvenIf 1 [f.ra]
           ∧ ((List.range 512).filter fun i => (preg vregs f.pm.toNat).getLsbD i) = [0])
      ∧ (let f := { fz with mod := 0, rd := 1, ra := 4, pm := 1 }
         stray { mod := 0x1F, rd := true, ra := true, pm := true } f = false ∧ f.mod.toNat % 4 ≠ 1)
      ∧ (let f := { fz with rd := 1, ra := 4, pm := 1 }
         stray { rd := true, ra := true, pm := true, imm := 0xF } f = false ∧ ctx0.curves[f.imm.toNat % 16]? = some []) :=
  ⟨rfl, by decide +kernel⟩

theorem test_meets_VectorMemory :
    let r : Regs := { vregs with a := [(1, tens 0 8 65536 0 512 1)] }
    let d := descOf (areg r 1)
    Issues (devR r) 0 (envR r) ∧ Readable [] ∧ Clean (descChecks 1 d) ∧ d.glob = false ∧ d.e0 ≤ 512 ∧ d.fmt = 8
      ∧ res0.carrelBase ≤ d.base ∧ d.base + 4 * d.e0 ≤ res0.carrelBase + 1024 * res0.carrelKib
      ∧ (stray { mod := 3, rd := true, aa := true, pm := true } { fz with mod := 2, rd := 30, aa := 1, pm := 1 } = false ∧ EvenIf 2 [30]
          ∧ Unblocked (envR r) [{ lo := d.base, n := d.e0 * 4, wr := false }])
      ∧ (stray { mod := 3, ra := true, aa := true, pm := true } { fz with mod := 2, ra := 30, aa := 1, pm := 1 } = false
          ∧ memWf 0 (core r).carrel = true ∧ Unblocked (envR r) [{ lo := d.base, n := d.e0 * 4, wr := true }]) :=
  ⟨rfl, by decide +kernel⟩

/-- An engine with an INT8 tile of depth 64 and width 4 in the whole of it. -/
def engine0 : Engine :=
  { h0 := { loaded := true, fmt := 6, depth := 64, width := 4, tscale := 0x3F800000 },
    h1 := { loaded := true, fmt := 6, depth := 64, width := 4, tscale := 0x3F800000 } }

/-- Core 0 with a first engine. -/
def coreE (r : Regs) (g : Engine) : Core := { core r with e0 := g }

theorem test_meets_TilesAndBanks :
    let r : Regs := { a := [(1, tens 0 6 65536 1024 64 2 [(129, 116, 2)])] }
    let d := descOf (areg r 1)
    let f := { fz with ad := 1, xf := 0x9 }
    Issues (devR r) 0 (envR r)
      ∧ (stray { ad := true, xf := 0xF } f = false ∧ f.xf.toNat % 4 = 1 ∧ f.xf.toNat / 4 % 4 = 2 ∧ Clean (descChecks 1 d)
          ∧ weightShapeBad d 2 = false ∧ inShare (envR r) false d.base (spanBytes d) = true
          ∧ inShare (envR r) false d.hbase (4 * weightHdrs d) = true
          ∧ Unblocked (envR r) [{ lo := d.base, n := spanBytes d, wr := false }, { lo := d.hbase, n := 4 * weightHdrs d, wr := false }]
          ∧ Readable []
          ∧ (let k : Core := { core r with carrel := memWrite 0 [] 69632 (leBytes 4 (sealHdr 0 0x3C)) }
             weightSkew (dev k) (env k) [] d 0 0 = 0 ∧ weightSkew (dev k) (env k) [] d 1 0 ≠ 0 ∧ rowBlocks d = 1))
      ∧ (stray { xf := 0x3F } { fz with xf := 0x3D } = false ∧ (0x3D : BitVec 13).toNat % 4 ≠ 0
          ∧ (0x3D : BitVec 13).toNat / 4 % 4 ≤ (0x3D : BitVec 13).toNat / 16 % 4 ∧ (0x3D : BitVec 13).toNat / 16 % 4 < prog0.accBanks) :=
  ⟨rfl, by decide +kernel⟩

theorem test_meets_MmaAccumulates :
    let r : Regs := { a := [(1, tens 0 6 65536 1024 64 2 [(129, 116, 2), (28, 21, 1), (20, 18, 0)])] }
    let d := descOf (areg r 1)
    let k := coreE r engine0
    let plain := { fz with aa := 1, xf := 1, imm := 510 * 2 ^ 48 }
    let win := { fz with mod := 1, aa := 1, xf := 1, imm := 2 ^ 48 + 2 ^ 32 + 3 * 2 ^ 16 }
    Issues (dev k) 0 (env k) ∧ Readable [] ∧ (∀ x ∈ ([] : List Upset), ∀ a b k, x ≠ .accumulator a b k ∧ x ≠ .residue a b k)
      ∧ (stray { mod := 1, aa := true, xf := 3, imm := 0x01FF000000000000 } plain = false
          ∧ plain.imm.toNat / 2 ^ 48 % 512 + d.e1 * d.e2 * d.e3 ≤ 128 * prog0.accBanks
          ∧ ∀ v ∈ vectors d false plain.imm, vecInShare (env k) d v = true)
      ∧ (stray { mod := 1, aa := true, xf := 3, imm := 0x01FFFFFFFFFFFFFF } win = false ∧ d.e3 = 1
          ∧ VecSrc.skipped ∈ vectors d true win.imm ∧ ∀ v ∈ vectors d true win.imm, vecInShare (env k) d v = true)
      ∧ Clean (descChecks 1 d) ∧ d.glob = false ∧ d.rax3 = false ∧ quantised d.fmt = true
      ∧ (∀ m, m < 2 → nbit 1 m = true → mmaBad d (engAt k m) = false ∧ notLoaded (engAt k m) = false) ∧ Unblocked (env k) (spansOf d false)
      ∧ mmaFaults (dev k) (env k) [] d (vectors d true win.imm) 0 engine0 = [] :=
  ⟨rfl, by decide +kernel, nofun, by decide +kernel⟩

/-- A device of which column 3 of engine 0 holds a cell whose stored residue is wrong: the network finds it. -/
theorem test_meets_MmaAccumulates_fault :
    let w : WBlock := { hdr := BitVec.ofNat 32 (sealHdr 3 0x3C), codes := 5, residues := 6 }
    let g : Engine := { engine0 with tile := [(24, w)] }
    let b := { fz with aa := 1, xf := 1 }
    let d := descOf (tens 0 6 65536 1024 64 1)
    let k : Core := { coreE {} g with carrel := memWrite 0 (memWrite 0 [] 65536 (leBytes 64 3)) 69632 (leBytes 4 (sealHdr 0 0x3C)) }
    mmaFaults (dev k) (env k) [] d (vectors d false b.imm) 0 g = [3]
      ∧ (∀ l ∈ [[({ op := 3, res := res7 3 } : Feed)]], ∀ x ∈ l, x.res = res7 x.op) ∧ engine0.h0.fmt < 7 ∧ sealHdr 3 0x3C < 2 ^ 32
      ∧ (leBytes 64 5).length = blockBytes 6 := by
  decide +kernel

theorem test_meets_MmatAccumulates :
    let r : Regs := { a := [(1, tens 0 0 65536 1024 512 1)] }
    let d := descOf (areg r 1)
    let g : Engine := { h0 := { loaded := true, fmt := 0, depth := 128, width := 512, tscale := 0x3F800000 },
                        h1 := { loaded := true, fmt := 0, depth := 128, width := 512, tscale := 0x3F800000 }, square := true }
    let k := coreE r g
    let f := { fz with aa := 1, xf := 1, imm := 511 * 2 ^ 48 }
    Issues (dev k) 0 (env k) ∧ Readable [] ∧ (∀ x ∈ ([] : List Upset), ∀ a b k, x ≠ .accumulator a b k ∧ x ≠ .residue a b k)
      ∧ stray { aa := true, xf := 3, imm := 0x01FF000000000000 } f = false
      ∧ f.imm.toNat / 2 ^ 48 % 512 + d.e1 * d.e2 * d.e3 ≤ 128 * prog0.accBanks ∧ Clean (descChecks 1 d) ∧ d.glob = false ∧ d.rax3 = false
      ∧ quantised d.fmt = true ∧ d.e0 = 512 ∧ g.split = false ∧ g.h0.loaded = true ∧ g.square = true ∧ g.h0.fmt ≤ 2
      ∧ (∀ v ∈ vectors d false 0, vecInShare (env k) d v = true) ∧ Unblocked (env k) (spansOf d false)
      ∧ mmatFaults (dev k) (env k) [] d (vectors d false 0) 0 g = [] :=
  ⟨rfl, by decide +kernel, nofun, by decide +kernel⟩

theorem test_meets_AdrnDrains :
    let r : Regs := { a := [(1, tens 0 8 65536 0 4 2 [(129, 116, 2)]), (2, tens 0 6 65536 0 64 1)] }
    let d := descOf (areg r 1)
    let bad : Engine := { engine0 with accState := [(1, 0x8)] }
    let k := coreE r engine0
    let kb := coreE r bad
    let f := { fz with mod := 8, ad := 1, aa := 2, xf := 1, imm := 2 }
    let g := { fz with mod := 4, rd := 30, xf := 1, imm := 511 * 2 ^ 48 + 1 }
    let state := fun (e : Engine) i j => colState (tget e.accState 0 i) j
    Issues (dev k) 0 (env k) ∧ Issues (dev kb) 0 (env kb) ∧ fetchLost [] = false ∧ (∀ x ∈ ([] : List Upset), ∀ a b k, x ≠ .accumulator a b k)
      ∧ (stray { mod := 0xF, ad := true, rd := false, aa := true, xf := 0xF, imm := 0x01FF0000000003FF } f = false ∧ Clean (descChecks 2 (descOf (areg r 2)))
          ∧ Clean (descChecks 1 d) ∧ d.glob = false ∧ d.fmt = 8
          ∧ (∀ p ∈ (positions d).take 2, ∀ j ∈ List.range 4, inShare (env k) false (rowAddr d p.1 p.2.1 p.2.2 + 4 * j) 4 = true)
          ∧ Unblocked (env k) (spansOf d true) ∧ memWf 0 k.carrel = true)
      ∧ stray { mod := 0xF, ad := false, rd := true, aa := false, xf := 0xF, imm := 0x01FF0000000003FF } g = false
      ∧ g.imm.toNat / 2 ^ 48 % 512 + 1 ≤ 128 * prog0.accBanks ∧ engine0.split = false ∧ engine0.h0.loaded = true
      ∧ (∀ i, i < 2 → ∀ j, j < 4 → state engine0 i j = 0)
      ∧ (state bad 1 1 ≠ 0 ∧ ∀ i, i < 2 → ∀ j, j < 4 → (i < 1 ∨ i = 1 ∧ j < 1) → state bad i j = 0) ∧ kb.halo = [] :=
  ⟨rfl, rfl, rfl, nofun, by decide +kernel⟩

theorem test_meets_Quantiser :
    let r : Regs := { s := [(1, 0x3C00), (2, 0xF0F), (3, 7)], v := [(2, 1)], a := [(1, tens 0 0 65536 1024 512 1)] }
    let d := descOf (areg r 1)
    Issues (devR r) 0 (envR r) ∧ Readable []
      ∧ (stray { mod := 1, ad := true, ra := true, rb := true, rc := true, pm := true } { fz with ad := 1, ra := 2, rb := 1, rc := 2, pm := 1 } = false
          ∧ (sreg r 2).toNat < 4096 ∧ (sreg r 2).toNat % 256 ≤ zeroTop d.fmt)
      ∧ (stray { mod := 1, ad := true, ra := true, rb := false, rc := false, pm := true } { fz with mod := 1, ad := 1, ra := 2 } = false
          ∧ d.fmt ≠ 2 ∧ d.fmt ≠ 4 ∧ d.fmt ≠ 5)
      ∧ Clean (descChecks 1 d) ∧ quantShapeBad d = false ∧ tensorInShare (envR r) d = true ∧ Unblocked (envR r) (spansOf d true)
      ∧ Unblocked (envR r) (spansOf d false) ∧ memWf 0 (core r).carrel = true
      ∧ stray { rd := true, aa := true } { fz with rd := 31, aa := 1 } = false
      ∧ (stray { mod := 1, rd := true, xf := 7 } { fz with mod := 1, rd := 1, xf := 4 } = false ∧ (4 : BitVec 13).toNat % 8 < 5)
      ∧ (∀ x ∈ ([some 0, none, some (2 ^ 31)] : List (Option Nat)).filterMap id, x % 2 ^ 31 = 0) ∧ 15 ≤ zeroTop 0
      ∧ 2 * (3 % 2) = 2 :=
  ⟨rfl, by decide +kernel⟩

/-! ### Semaphores, tallies and claims, calls and the end of a part -/

/-- The device with semaphores, a holding and tallies in cluster 0, and a claim that the part has WON. -/
def devS (k : Core) : State :=
  { dev k with
      clusters := [(0, { residencies := [(0, res0)], sems := [(3, 2)], holdings := [(3, 1, 1)], tallies := [(1, 0xFFFFFFFF)] })]
      claims := [{ ctx := 5, frame := 0, stream := 3, key := 7, state := .won 1 2 }, { ctx := 5, frame := 0, stream := 3, key := 8, state := .committed },
                 { ctx := 5, frame := 0, stream := 3, key := 10, state := .publishing 4 2 }] }

theorem test_meets_SemaphoresAndFences :
    let k := core {}
    let f := fun n wait => { fz with rd := 1, xf := 3, imm := BitVec.ofNat 64 (wait * 2 ^ 24 + n) }
    let g := { fz with xf := 3, imm := 65533 }
    let w : Core := { core {} with part := some { part0 with wait := .semw 3 5 1 } }
    Issues (devS k) 0 (env k) ∧ fetchLost [] = false
      ∧ (∀ wait ∈ [0, 100], ∀ n ∈ [2, 3], stray { rd := true, xf := 0xFF, imm := 0x0000FFFFFF00FFFF } (f n wait) = false ∧ (f n wait).imm.toNat % 2 ^ 16 = n
          ∧ (f n wait).imm.toNat / 2 ^ 24 % 2 ^ 24 = wait)
      ∧ (3 < prog0.nsem ∧ tget (cluAt (devS k) 0).sems 0 3 = 2)
      ∧ (stray { mod := 1, xf := 0xFF, imm := 0xFFFF } g = false ∧ k.halo = [] ∧ part0.dead = false ∧ 2 + 65533 ≤ 65535)
      ∧ (∀ i, i < 5 → ∀ p, (coreAt (devS k) (5 * (0 / 4) + i)).part = some p → ∀ a b d, p.wait ≠ .semw a b d)
      ∧ (waitingEnv (devS w) 0 = some (env w)
          ∧ (coreAt (devS w) 0).part = some { part0 with wait := .semw 3 5 1 })
      ∧ stray { mod := 3 } { fz with mod := 2 } = false
      ∧ (rising k.writes = true ∧ rising (cluAt (devS k) 0).stackLines = true ∧ memWf 0 (devS k).mem.dram = true)
      ∧ ∀ m, (tget (devS k).mem.channels {} m).poison = [] ∧ (tget (devS k).mem.channels {} m).failed = false := by
  refine ⟨rfl, rfl, by decide +kernel, by decide +kernel, by decide +kernel, ?_, by decide +kernel, by decide +kernel, by decide +kernel, ?_⟩
  · intro i hi p hp
    rcases i with _ | i
    · cases hp; nofun
    · simp [coreAt, devS, dev, tget] at hp
  · intro m
    by_cases h : 0 = m <;> simp [devS, dev, tget, h]

theorem test_meets_TalliesAndClaims :
    let r : Regs := { s := [(1, 0xFFFFFFFF)] }
    let k := core r
    let full : Core := { core r with part := some { part0 with claims := 2 } }
    let f := { fz with rd := 1, ra := 1, imm := 8 }
    Issues (devS k) 0 (env k)
      ∧ (let g := { fz with mod := 1, rd := 1, xf := 1, imm := 65535 }
         residencyOf (devS k) (g.xf.toNat / 256 % 8) 5 = some res0 ∧ g.imm.toNat % 2 ^ 16 ≠ 0 ∧ g.xf.toNat % 64 < prog0.ntally
           ∧ stray { mod := 1, rd := true, xf := 0x73F, imm := 0xFFFF } g = false)
      ∧ jobOf (devS k) 1 = some job0 ∧ stray { rd := true, ra := true, imm := 0xFFFFFFFF } f = false ∧ part0.dead = false
      ∧ (claimAt (devS k) 5 (frameNumber (devS k) job0) 9 = none ∧ part0.claims < prog0.claims)
      ∧ (Issues (devS full) 0 { env full with part := { part0 with claims := 2 } } ∧ full.halo = [] ∧ prog0.claims ≤ 2)
      ∧ (claimAt (devS k) 5 (frameNumber (devS k) job0) (sreg r f.ra + f.imm.extractLsb' 0 32)).map (·.state) = some (.won 1 2)
      ∧ (claimAt (devS k) 5 (frameNumber (devS k) job0) 8).map (·.state) = some .committed
      ∧ fetchLost [] = false ∧ (claimAt (devS k) 5 (frameNumber (devS k) job0) 10).map (·.state) = some (.publishing 4 2)
      ∧ jobOf { devS k with jobs := [] } 1 = none ∧ Issues { devS k with jobs := [] } 0 (env k) :=
  ⟨rfl, by decide +kernel, by decide +kernel, by decide +kernel⟩

/-- Byte 0 of the share of the small device lies at a place of its own. -/
theorem alone_devS (k : Core) : Alone (devS k) (env k) 0 := by
  have g : ∀ b, globalKey (devS k) (env k) b = if b < 65536 then keyOf (devS k) 1 (65536 + b) else none := by
    intro b
    show (if b < ctx0.globalLen then (placeIn ctx0.area b).bind (keyOf (devS k) 1) else none) = _
    have hl : ctx0.globalLen = 65536 := rfl
    have ha : ctx0.area = [(65536, 65536), (0, 16384)] := rfl
    rw [hl, ha]
    by_cases h : b < 65536
    · rw [if_pos h, if_pos h, placeIn, if_pos h, Option.bind_some]
    · rw [if_neg h, if_neg h]
  have e : keyOf (devS k) 1 = keyOf (devS {}) 1 := by
    funext x
    simp only [keyOf, dramAt, partChannels, usedChannels, capOf, partAt, devS, dev]
  have h0 : (keyOf (devS k) 1 (65536 + 0)).isSome = true := by rw [e]; decide +kernel
  intro a h
  rw [g, g] at h
  by_cases ha : a < 65536
  · rw [if_pos ha, if_pos (by decide)] at h
    obtain ⟨x, hx⟩ := Option.isSome_iff_exists.mp h0
    have := keyOf_inj (fun m => channelsFit_dev k m) (h.trans hx) hx
    omega
  · rw [if_neg ha, if_pos (by decide)] at h
    rw [← h] at h0
    cases h0

theorem test_meets_CommitPublishes :
    let r : Regs := { a := [(1, tens 1 9 0 0 4 1), (2, tens 0 9 65536 0 4 1)] }
    let d := descOf (areg r 1)
    let t := descOf (areg r 2)
    let k := core r
    let s := devS k
    let f := { fz with mod := 1, ad := 1, aa := 2, imm := 7 }
    Issues s 0 (env k) ∧ Readable []
      ∧ (jobOf s 1 = some job0 ∧ stray { mod := 1, ra := true, ad := true, aa := true, imm := 0xFFFFFFFF } f = false
      ∧ Clean (descChecks 1 d) ∧ Clean (descChecks 2 t) ∧ shapeOk false d t = true ∧ d.glob = true ∧ t.glob = false
      ∧ tensorInShare (env k) d = true ∧ tensorInShare (env k) t = true ∧ (∀ q ∈ tensorRanges d, importsMeeting s 5 q.1 q.2 = [])
      ∧ Unblocked (env k) (spansOf t false)
      ∧ ((claimAt s 5 (frameNumber s job0) (sreg r f.ra + f.imm.extractLsb' 0 32)).map (·.state) = some (.won 1 2) ∧ part0.dead = false)
      ∧ (claimAt s 5 (frameNumber s job0) 8).map (·.state) ≠ some (.won 1 2)
      ∧ rising k.writes = true ∧ rising (cluAt s 0).stackLines = true ∧ memWf 0 s.mem.dram = true ∧ (globalKey s (env k) 0).isSome = true
      ∧ jobOf { s with jobs := [] } 1 = none) ∧ Alone s (env k) 0
      ∧ (∀ m, (tget s.mem.channels {} m).poison = [] ∧ (tget s.mem.channels {} m).failed = false) ∧ ChannelsFit s := by
  refine ⟨rfl, by decide +kernel, by decide +kernel, alone_devS _, ?_, fun m => channelsFit_dev (core { a := [] }) m⟩
  intro m
  by_cases h : 0 = m <;> simp [devS, dev, tget, h]

theorem test_meets_ProofAndResidueCheck :
    Issues (dev (coreE {} engine0)) 0 (env (coreE {} engine0)) ∧ fetchLost [] = false ∧ fetchLost [.residue 0 0 511] = false
      ∧ (stray { rd := true, xf := 0xF } { fz with rd := 1, xf := 0xD } = false ∧ (0xD : BitVec 13).toNat % 4 ≠ 0
          ∧ (0xD : BitVec 13).toNat / 4 % 4 < prog0.accBanks ∧ ∀ n, n < 2 → nbit 1 n = true → hitsEngine [] n = false)
      ∧ (stray { rd := true, xf := 3 } { fz with rd := 1, xf := 3 } = false ∧ (3 : BitVec 13).toNat % 4 ≠ 0) :=
  ⟨rfl, by decide +kernel⟩

theorem test_meets_PostProcessing :
    let r : Regs := { a := [(1, tens 0 7 65536 0 16 4 [(129, 116, 1)]), (2, tens 0 7 131072 0 16 4)] }
    let d := descOf (areg r 1)
    let a := descOf (areg r 2)
    let k := core r
    let late : State := { dev k with clusters := [(0, { residencies := [(0, res0)], calls := [{ core := 1, part := 2, f := fz }], slot := 3 })],
                                     parts := [(1, { present := true, ppwin := 1, cores := 1 }), (2, { present := true, ppwin := 63, cores := 2 })] }
    Issues (dev k) 0 (env k) ∧ Readable []
      ∧ (let f := { fz with mod := 0, rd := 1, ad := 1, aa := 2 }
         stray { mod := 3, rd := true, aa := true, ad := true, imm := 0xFF } f = false ∧ f.mod.toNat % 4 ≠ 3 ∧ f.imm.toNat % 256 < ctx0.boxes.length)
      ∧ Clean (descChecks 1 d) ∧ inShare (env k) d.glob d.base (spanBytes d) = true ∧ d.glob = false
      ∧ Clean (descChecks 2 a) ∧ a.fmt = 7 ∧ headInShare (env k) a (boxTab (ctx0.boxes.getD 0 [])) = true ∧ a.glob = false
      ∧ Unblocked (env k) (spansOf d true ++ spansOf a false)
      ∧ ((cluAt (dev k) 0).calls = [] ∧ slotFor (ppShares (dev k)) 0 [1] = some 1 ∧ memWf 0 k.carrel = true)
      ∧ (Issues late 0 (env k) ∧ slotFor (ppShares late) (cluAt late 0).slot (1 :: (cluAt late 0).calls.map (·.part)) ≠ some 1) :=
  ⟨rfl, by decide +kernel⟩

theorem test_meets_EndOfAPart :
    let k := core {}
    let two : State := { dev k with ctxs := [(5, { ctx0 with progs := [{ prog0 with gang := 2 }] })] }
    let adapt : State := { dev k with jobs := [{ job0 with role := 4 }] }
    Issues (dev k) 0 (env k) ∧ stray {} fz = false ∧ k.halo = [] ∧ fetchLost [] = false ∧ k.testDue = false ∧ jobOf (dev k) 1 = some job0 ∧ part0.dead = false ∧ prog0.bands < 2 ∧ ctx0.part ≠ 0
      ∧ Issues two 0 { env k with ctx := { ctx0 with progs := [{ prog0 with gang := 2 }] }, prog := { prog0 with gang := 2 } }
      ∧ job0.ended.length + 1 ≠ 2
      ∧ (Issues adapt 0 (env k) ∧ job0.ended.length + 1 = prog0.gang ∧ hasHolding adapt 1 = false ∧ banded adapt job0 = false) :=
  ⟨rfl, by decide +kernel⟩

theorem test_meets_StrayBitsAreIllegal :
    Issues (devR {}) 0 (envR {}) ∧ ({ fz with imm := 2 ^ 63 } : Fields).imm.getLsbD 63 = true ∧ (core {}).halo = []
      ∧ (0x10 : BitVec 8) ∈ aethodTable.map (·.1) ∧ (0x10 : BitVec 8) ∉ [(0x02 : BitVec 8), 0x03, 0x04, 0x21] :=
  ⟨rfl, by decide +kernel⟩

/-! ### Jobs, residencies and stewards -/

/-- A frame of stream 3 whose jobs run. -/
def frame0 : Frame := { pts := 1000, order := 0, num := some 0, stage := .jobs, ctx := 5, winW := 1920, winH := 1080 }

/-- Stream 3 runs with that frame. -/
def stream0 : Stream := { state := .running, ctx := 5, part := 1, frames := [frame0], nextNum := 1, home := some 0 }

/-- The running device with stream 3, the given jobs, and core 0 as given. -/
def devJ (k : Core) (jobs : List Job) : State := { dev k with jobs := jobs, streams := [(3, stream0)] }

/-- A job that waits in the queue of core `c`. -/
def queued (id c : Nat) : Job := { job0 with id := id, state := .queued c, cores := [], admitted := id }

theorem test_meets_JobStartEntersParts :
    let s := devJ {} [queued 7 0]
    let j := queued 7 0
    ready s = true ∧ jobOf s 7 = some j ∧ ctxAt s 5 = some ctx0 ∧ jobProg s j = some prog0 ∧ banded s j = false ∧ eligible s j = true
      ∧ mayStart s j prog0 [0] = true ∧ (j.state = .queued 0 ∧ (firstEligible s 0).map (·.id) = some 7) ∧ residencyOf s (0 / 4) 5 = some res0
      ∧ ([0].filterMap (servedBy s)).Nodup := by decide +kernel

theorem test_meets_StealAndEviction :
    let s := devJ {} [queued 7 1, queued 8 1, queued 9 2]
    let waits : Job := { job0 with id := 4, ctx := 6, role := 1, state := .waiting }
    let few : Partition := { present := true, cores := 0xF, slots := [1], ways := [16] }
    let v : State := { devJ {} [waits] with ctxs := [(5, ctx0), (6, ctx0)], parts := [(1, few)] }
    let gone : State := { v with clusters := [(0, { evicting := some (0, 5, 6) })] }
    let far := fun (k : Nat) => if k / 4 = 0 then 0 else if k / 16 = 0 then 1 else 2
    (ready s = true ∧ queueLen s 0 = 0 ∧ coreFree s (partOfCore s 0) 0 = true ∧ (1 ∈ coresIn s (partOfCore s 0) ∧ 1 ≠ 0)
        ∧ (stealable s 0 1).map (·.id) = some 7 ∧ queueLen s 1 < 2 ^ 32
        ∧ (∀ q ∈ coresIn s (partOfCore s 0), q ≠ 0 → q ≠ 1 → (stealable s 0 q).isSome → far 1 < far q ∨ far 1 = far q ∧ queueLen s q < queueLen s 1))
      ∧ (ready v = true ∧ (cluAt v 0).evicting = none ∧ (0, res0) ∈ (cluAt v 0).residencies.filter (fun x => x.2.part == 1)
          ∧ (partAt v 1).slots.getD 0 0 ≤ ((cluAt v 0).residencies.filter fun x => x.2.part == 1).length
          ∧ residencyBlocked v 0 5 = true ∧ (waitingCtxs v 1 0).head? = some 6 ∧ rising (cluAt v 0).residencies = true
          ∧ (∀ x ∈ (cluAt v 0).residencies.filter (fun x => x.2.part == 1), (x ≠ (0, res0) → res0.blockedAt < x.2.blockedAt)
              ∧ x.2.carrelKib < 2 ^ 16 ∧ x.2.ctx < 2 ^ 16))
      ∧ (ready gone = true ∧ (cluAt gone 0).evicting = some (0, 5, 6) ∧ ctxAt gone 6 = some ctx0 ∧ progsOf ctx0 1 = []
          ∧ (fitResidency { gone with clusters := tset gone.clusters 0 { cluAt gone 0 with evicting := none } } 6 ctx0 0).isSome = true) := by
  decide +kernel

theorem test_meets_PreemptionKeepsParts :
    let urgent : Job := { queued 9 0 with prio := 3 }
    let one : Partition := { present := true, cores := 1, slots := [4], ways := [16] }
    let s : State := { devJ (core { pc := 32 }) [job0, urgent] with parts := [(1, one)] }
    let v : Saved := { part := part0, regs := { pc := 32 }, e0 := {}, e1 := {}, byJob := 99 }
    let saving := devJ { saved := [v] } [job0]
    let saved := devJ { saved := [{ v with done := true }] } [job0]
    let held := devJ { part := some { part0 with fenced := some 9 } } [job0]
    (ready s = true ∧ jobOf s 9 = some urgent ∧ ctxAt s 5 = some ctx0 ∧ jobProg s urgent = some prog0 ∧ prog0.gang = 1 ∧ eligible s urgent = true
        ∧ preempting s 9 = false
        ∧ (residentClusters s 5).filter (fun k => (cluAt s k).inService && (!banded s urgent || k == urgent.cluster)) = [0] ∧ (∀ k ∈ coresInClu s 1 0, coreFree s 1 k = false)
        ∧ (victims s 1 0 (prioKey urgent.role urgent.prio)).head? = some (0, part0)
        ∧ (coresInClu s 1 0).find? (fun k => servedBy s k == some 0) = some 0 ∧ hasHolding s 1 = false ∧ hasCredit s 1 = false
        ∧ atBoundary (coreAt s 0) = true)
      ∧ (let h : State := { s with clusters := [(0, { residencies := [(0, res0)], holdings := [(3, 1, 1)] })] }
         (victims h 1 0 (prioKey urgent.role urgent.prio)).head? = some (0, part0) ∧ hasHolding h 1 = true)
      ∧ (let k : Core := { core { pc := 32 } with halo := [{ pc := 16, partner := 1, port := 0, recv := false, desc := 0 }] }
         let q : State := { s with cores := [(0, k)] }
         (victims q 1 0 (prioKey urgent.role urgent.prio)).head? = some (0, part0) ∧ hasHolding q 1 = false ∧ hasCredit q 1 = false
           ∧ atBoundary (coreAt q 0) = false)
      ∧ (ready saving = true ∧ servedBy saving 0 = some 0 ∧ (coreAt saving 0).saved.find? (fun w => !w.done) = some v
          ∧ residencyOf saving 0 5 = some res0 ∧ jobOf saving 99 = none ∧ memWf 0 (coreAt saving 0).carrel = true
          ∧ 139264 ≤ res0.carrelBase + 1024 * res0.carrelKib)
      ∧ (ready saved = true ∧ servedBy saved 0 = some 0 ∧ (coreAt saved 0).saved = [{ v with done := true }] ∧ (coreAt saved 0).part = none
          ∧ (coreAt saved 0).inSlot = false ∧ saved.pwr.stopped.contains 0 = false ∧ firstEligible saved 0 = none ∧ (coreAt saved 0).wiped = false)
      ∧ (ready held = true ∧ servedBy held 0 = some 0 ∧ (coreAt held 0).part = some { part0 with fenced := some 9 }) := by decide +kernel

theorem test_meets_StewardRules :
    let s := devJ { health := .queued, carrel := [(3, 1)] } []
    let moves : State := { s with clusters := [(0, { moving := some (0, 0, 4) })] }
    let runs := devJ (core {}) [job0]
    let twice : State := { runs with clusters := [(0, { expiries := 1 })] }
    (ready s = true ∧ servedBy s 0 = some 0 ∧ (cluAt s 0).spare = some 4 ∧ (coreAt s 0).part = none ∧ (coreAt s 0).inSlot = false
        ∧ (cluAt s 0).moving = none ∧ (cluAt s 0).standin = none ∧ (cluAt s 0).testing = none ∧ (coreAt s 0).health = .queued
        ∧ (coreAt s 0).saved = [])
      ∧ (ready moves = true ∧ (cluAt moves (0 / 4)).moving = some (0 % 4, 0, 4) ∧ (0 : Nat) ≠ 4 ∧ 5 * (0 / 4) ≤ 4 ∧ 4 < 5 * (0 / 4) + 5
          ∧ (cluAt moves 0).inService = true)
      ∧ (let out : State := { s with clusters := [(0, { phys := [(0, 7)] })] }
         ready out = true ∧ servedBy out 0 = none ∧ (cluAt out 0).inService = true ∧ (cluAt out 0).spare = some 4 ∧ (cluAt out 0).moving = none
           ∧ (cluAt out 0).standin = none ∧ (cluAt out 0).testing = none)
      ∧ (ready runs = true ∧ servedBy runs 0 = some 0 ∧ (coreAt runs 0).part = some part0 ∧ part0.dead = false
          ∧ (∀ r ∈ runs.fab.remotes, r.core ≠ 0))
      ∧ (ready runs = true ∧ (cluAt runs 0).inService = true ∧ 1 ≤ (cluAt twice 0).expiries ∧ (cluAt runs 7).calls = []) := by decide +kernel

theorem test_meets_TestsInService :
    let moved : State := { devJ {} [] with clusters := [(0, { phys := [(0, 4)], standin := some 0, spare := none })] }
    let testing : State := { moved with clusters := [(0, { phys := [(0, 4)], standin := some 0, spare := none, testing := some 0 })] }
    let media : State := { dev {} with media := [(31, { testQueued := true })] }
    let mediaUnder : State := { dev {} with media := [(31, { state := 3 })] }
    let zero : State := { dev {} with parts := [(0, { present := true, cores := 1 })], jobs := [] }
    let slot : State := { zero with cores := [(0, { inSlot := true, slots := 24 })] }
    (ready moved = true ∧ outForTest moved 0 = some 0 ∧ (cluAt moved 0).inService = true ∧ (cluAt moved 0).testing = none ∧ moved.pwr.level = 0)
      ∧ (ready media = true ∧ (mediaAt media 31).state = 0 ∧ (mediaAt media 31).testQueued = true
          ∧ (List.range 4).find? (fun p => (partAt media p).present && nbit (partAt media p).media 31) = some 1
          ∧ (mediaIn media 1).filter (· != 31) ≠ [])
      ∧ (ready testing = true ∧ (cluAt testing (0 / 5)).testing = some (0 % 5)) ∧ (ready mediaUnder = true ∧ (mediaAt mediaUnder 31).state = 3)
      ∧ (ready zero = true ∧ zero.pwr.level < 4 ∧ servedBy zero 0 = some 0 ∧ partOfCore zero 0 = 0 ∧ (coreAt zero 0).part = none
          ∧ (coreAt zero 0).saved = [] ∧ (coreAt zero 0).inSlot = false ∧ zero.pwr.stopped.contains 0 = false ∧ (cluAt zero 0).moving = none
          ∧ (∀ j ∈ zero.jobs, j.state ≠ .queued 0) ∧ pictureNear zero 0 = false)
      ∧ (ready slot = true ∧ servedBy slot 0 = some 0 ∧ (coreAt slot 0).inSlot = true ∧ (coreAt slot 0).part = none ∧ (slot.jobs.map (·.id)).Nodup)
      ∧ (ready slot = true ∧ partOfCore slot 0 = 0 ∧ slot.saf.held = false ∧ (coreAt slot 0).testDue = false ∧ (coreAt slot 0).slots < 25)
      ∧ (let whole : State := { zero with cores := [(0, { slots := 25 })] }
         ready whole = true ∧ partOfCore whole 0 = 0 ∧ (coreAt whole 0).part = none ∧ (coreAt whole 0).slots = 25) := by decide +kernel

/-! ### Batches, the tracker, folios and the Cellar -/

/-- A BATCH program and its batcher. -/
def ctxB : Ctx :=
  { ctx0 with progs := [prog0, { prog0 with role := 1 }], tracker := [1],
              batchers := [{ target := 4, window := 10, rh := 1, rw := 1, layer := 0, entry := 0 }] }

theorem test_meets_BatchesFillAndIssue :
    let slot0 : BatchSlot := { stream := 3, frame := 0, cand := 0, corrupt := false }
    let x : Batch := { ctx := 5, prog := 1, slots := [slot0, slot0] }
    let s : State := { devJ {} [] with ctxs := [(5, ctxB)], clusters := [(0, { residencies := [(0, res0)], batches := [x] })] }
    (ready s = true ∧ (residencyOf s 0 5).isSome = true ∧ ctxAt s 5 = some ctxB ∧ (ctxB.progs[1]?).map (·.role) = some 1
        ∧ (ctxB.batchers[0]?).map (·.target) = some 4 ∧ (strm s 3).frames.find? (fun f => f.num == some 0) = some frame0 ∧ frame0.ctx = 5
        ∧ frame0.result = none ∧ frame0.stage = .jobs ∧ frame0.crops = [] ∧ (cluAt s 0).batches = [x] ∧ x.slots.length + 1 < 4)
      ∧ ((cluAt s 0).batches.find? (fun b => b.ctx == 5 && b.prog == 1) = some x ∧ x.slots.head? = some slot0 ∧ (∀ j ∈ s.jobs, j.id ≠ s.order)
          ∧ ((ctxB.progs[1]?).map (·.bands)).getD 1 < 2)
      ∧ (let b : Batcher := { target := 4, window := 10, rh := 1, rw := 1, layer := 0, entry := 0 }
         (gather s 0 5 ctxB b { x0 := 0, y0 := 0, x1 := 0, y1 := 0, lost := true }).2 = true) := by decide +kernel

theorem test_meets_TrackerSteps :
    let f : Frame := { frame0 with stage := .tracker }
    let s : State := { devJ {} [] with ctxs := [(5, ctxB)], streams := [(3, { stream0 with frames := [f] })] }
    ready s = true ∧ trackerFrame (strm s 3) = some f ∧ ctxAt s f.ctx = some ctxB ∧ ctxB.tracker ≠ []
      ∧ (∀ g ∈ (strm s 3).frames, ∀ h ∈ (strm s 3).frames, g.order = h.order → g = h) := by decide +kernel

/-- A finished frame with a verdict that the diverse checker shares. -/
def done0 : Frame := { frame0 with stage := .finished, result := some .folio, sentinel := some (some 0), admitted := 10 }

/-- A device whose stream 3 stands in partition `p` with the given frames, an enabled watch entry, and zone 2 bound to Spigot index 7. -/
def devW (p : Nat) (frames : List Frame) : State :=
  { devJ {} [] with
      streams := [(3, { stream0 with part := p, frames := frames })],
      saf := { arm := true, ok := true, bound := [(7, (3, 2))], watches := [(1, { en := true, stream := 3, budget := 1 })] } }

theorem test_meets_CommitsAndStalls :
    let gap : Frame := { done0 with result := some (.gap 1) }
    let word := fun (s : State) => nextCommit (strm s 3)
    let stalls := devW 1 [{ frame0 with stage := .tensors }, { done0 with order := 1, num := some 1 }]
    (∀ f ∈ [done0, gap], ∀ p ∈ [0, 1], let s := devW p [f]
        ready s = true ∧ s.pwr.level < 4 ∧ word s = some f ∧ sentinelHolds s 3 f = false ∧ sentinelJobs s 3 0 = [] ∧ (strm s 3).closing = none
        ∧ (strm s 3).state = .running ∧ s.host.linkLost = false ∧ s.saf.held = false ∧ watched s 3 = (p == 0) ∧ (s.saf.bound.map (·.1)).Nodup
        ∧ (∀ g ∈ (strm s 3).frames, ∀ h ∈ (strm s 3).frames, g.order = h.order → g = h))
      ∧ (let s := devW 0 [done0]
         watchOf s 3 = some 1 ∧ disagrees s 3 done0 = false ∧ done0.proofBad = false ∧ 210 - done0.admitted ≤ 200 * (tget s.saf.watches {} 1).budget
           ∧ rising s.saf.watches = true)
      ∧ (ready stalls = true ∧ stalls.jobs = [] ∧ (∀ g ∈ (strm stalls 3).frames, ∀ h ∈ (strm stalls 3).frames, g.order = h.order → g = h)
          ∧ (let runs := devW 1 [frame0, { done0 with order := 1, num := some 1 }]
             oldestFrame (strm runs 3) = some frame0 ∧ (strm runs 3).frames.any (fun g => g.order != 0 && !g.sealed && g.result.isSome) = true
               ∧ frame0.result = none)
          ∧ oldestFrame (strm stalls 3) = some { frame0 with stage := .tensors }
          ∧ (strm stalls 3).frames.any (fun g => g.order != 0 && !g.sealed && g.result.isSome) = true)
      ∧ (oldestFrame (strm (devW 1 [frame0]) 3) = some frame0
          ∧ (strm (devW 1 [frame0]) 3).frames.any (fun g => g.order != 0 && !g.sealed && g.result.isSome) = false) := by decide +kernel

theorem test_meets_CommitsAndStalls_only_watch (k : Nat) :
    (tget (devW 0 [done0]).saf.watches {} k).en = true → (tget (devW 0 [done0]).saf.watches {} k).stream = 3 → k = 1 := by
  by_cases h : 1 = k
  · exact fun _ _ => h.symm
  · simp [devW, tget, h]

theorem test_meets_FolioDeliveries :
    let f : Frame := { done0 with sealed := true, sealOrder := 5, ring := 9 }
    let r : Ring := { enable := true, kind := 2, base := 4096, area := 65536, areaSz := 1, tail := 63, head := 1 }
    let s : State := { devW 1 [f] with host := { linkUp := true, rings := [(9, r)] } }
    running s = true ∧ s.host.linkUp = true ∧ s.host.linkLost = false
      ∧ leastBy (fun g : Frame => g.sealOrder) ((strm s 3).frames.filter (·.sealed)) = some f ∧ (ringAt s 9).enable = true
      ∧ (ringAt s 9).kind = 2 ∧ (ringAt s 9).full = false
      ∧ (firstOnRing s 9).any (fun p => p.1 == 3 && p.2.order == 0) = true ∧ areaOffset r (folioOf 3 f).length = some 0
      ∧ memWf 0 s.host.mem = true ∧ f.folioPtr = none := by decide +kernel

/-- A pool of eight 4,096-byte buffers with one held, one quarantined and the rest free. -/
def pool0 : Pool :=
  { part := 1, kind := 1, m := 1, k := 12, chunks := [(1048576, 8)], cache := (List.range 6).map (fun i => (1048576 + 65536 * i, 0)), store := [],
    held := [(1048576 + 65536 * 6, .stream 3, 0)], quarantined := [(1048576 + 65536 * 7, 0)], reserves := [{ owner := .stream 3, min := 1, max := 4 }] }

theorem test_meets_CellarRules :
    let q : Pool := { pool0 with chunks := [(1048576, 8)], k := 16 }
    let s : State := { devJ {} [] with mem := { (dev {}).mem with pools := [(2, q)] } }
    let late : State := { s with parts := [(0, { present := true, celwin := 32 }), (1, { present := true, celwin := 32 })] }
    let full : Pool := { q with held := q.held ++ q.held ++ q.held ++ q.held }
    let lost : Pool := { q with rebuilding := true, cache := [] }
    upAt s nocIsland = true ∧ poolAt s 2 = some q ∧ slotFor (celShares s) s.mem.slot [1] = some 1
      ∧ (mayDraw q (.stream 3) = true ∧ pickPtr q (ownerFn s (.stream 3)) = some (1048576, 0) ∧ q.cache.Nodup) ∧ mayDraw full (.stream 3) = false
      ∧ (upAt late nocIsland = true ∧ poolAt late 2 = some q ∧ slotFor (celShares late) late.mem.slot [1] ≠ some 1)
      ∧ (let p := 1048576 + 65536 * 6
         poolSpanning s 1 p = some (2, q) ∧ q.starts p = true
           ∧ q.held.find? (fun h => h.1 == p && h.2.1 == .stream 3) = some (p, .stream 3, 0) ∧ q.reserves ≠ [])
      ∧ (poolSpanning s 1 1048577 = some (2, q) ∧ q.starts 1048577 = false)
      ∧ q.quarantined.find? (fun c => c.1 == 1048576 + 65536 * 7) = some (1048576 + 65536 * 7, 0)
      ∧ (lost.rebuilding = true ∧ (partAt s 1).c3 = false ∧ lostPtrs lost ≠ []) := by decide +kernel

theorem test_meets_DramChannels :
    let c : Channel := { used := true, rdimm := true, gib := 32, ranks := 2, zeroMap := [3], corrected := [(39, 15)] }
    let s : State := { dev {} with mem := { channels := [(0, c), (1, { used := true, gib := 1 })] } }
    channelRuns (dev {}) 1 = false ∧ channelRuns s 0 = true ∧ (1 < c.ranks) ∧ (64 * 536870911 < c.gib * 2 ^ 30)
      ∧ c.zeroMap.contains (536870911 / 1024) = false ∧ (19 < 20) ∧ c.zeroMap = 3 :: [] ∧ c.owner < 4 ∧ (partAt s 1).c3 = false
      ∧ dramAt s 1 511 = some (1, 255) ∧ partChannels s 1 ≠ []
      ∧ (∀ m ∈ partChannels s 1, 256 * (511 / 256 / (partChannels s 1).length) + 256 ≤ capOf s m)
      ∧ dramAt s 1 (2 ^ 40) = none := by decide +kernel

theorem test_meets_HaloTransfers :
    let r : Regs := { a := [(1, tens 0 9 65536 0 4 1)] }
    let f := { fz with mod := 1, ad := 1, xf := 5 }
    let h : Halo := { pc := 0, partner := 1, port := 1, recv := true, desc := tens 0 9 65536 0 4 1 }
    let g : Halo := { pc := 16, partner := 0, port := 1, recv := false, desc := tens 0 9 131072 0 4 1 }
    let two := fun (k0 : Core) (l : List Halo) => { dev k0 with cores := [(0, k0), (1, ({ part := some { part0 with idx := 1 }, halo := l } : Core))] }
    let d := descOf (posting (envR r) f).desc
    let met := two (core r) [g]
    let odd := two (core r) [{ g with desc := tens 0 9 131072 0 5 1 }]
    let posted := fun (s : State) => postedOn s 1 0 1 false false
    let sent : Core := { core r with halo := [{ h with recv := false, paired := true }] }
    let runs := two sent [{ g with recv := true, paired := true }]
    let waits : Core := { core r with halo := [h] }
    let late : Core := { core r with halo := [{ h with paired := true }] }
    let race := two late [{ g with paired := true }]
    (Issues (devR r) 0 (envR r) ∧ fetchLost [] = false ∧ stray { mod := 1, ad := true, xf := 7 } f = false ∧ Clean (descChecks 1 d) ∧ d.glob = false
        ∧ (posting (envR r) f).partner ≠ 0 % 4 ∧ tensorInShare (envR r) d = true ∧ Unblocked (envR r) (spansOf d true)
        ∧ servedBy (devR r) 1 ≠ some 0 ∧ posted (devR r) = [])
      ∧ (Issues met 0 (envR r) ∧ servedBy met 1 = some 1 ∧ posted met = [g] ∧ haloAgrees (posting (envR r) f).desc g.desc = true)
      ∧ (Issues odd 0 (envR r) ∧ (posted odd).map (fun x => haloAgrees (posting (envR r) f).desc x.desc) = [false] ∧ (core r).halo = [])
      ∧ (waitingEnv runs 0 = some (env sent)
          ∧ sent.halo.find? (fun h => h.port == 1 && !h.recv && h.paired && h.fault.isNone) = some { h with recv := false, paired := true }
          ∧ (postedOn runs 1 0 1 true true).head? = some { g with recv := true, paired := true } ∧ (waitingEnv runs 1).map (·.ph) = some 1
          ∧ (waitingEnv runs 1).map (fun p => (p.part.stopping, p.part.halted, memWf 0 p.core.carrel)) = some (false, none, true)
          ∧ (descOf g.desc).glob = false ∧ readLost [] = false ∧ readLost [.uncorrectable] = true ∧ (sent.part.map (·.wait)) = some .none)
      ∧ (waitingEnv (dev waits) 0 = some (env waits) ∧ waits.halo = [h] ∧ h.paired = false ∧ h.fault = none)
      ∧ (waitingEnv race 0 = some (env late) ∧ late.halo = [{ h with paired := true }] ∧ late.fault = none
          ∧ (postedOn race 1 0 1 (!true) true).getLast? = some { g with paired := true } ∧ jobOf race 1 = some job0 ∧ job0.haloRuns = 0
          ∧ banded race job0 = false
          ∧ (waitingEnv race 1).map (fun p => (p.part.stopping, p.part.dead, p.core.testDue, p.part.job, p.core.halo.length))
              = some (false, false, false, 1, 1)) :=
  ⟨⟨rfl, by decide +kernel⟩, ⟨rfl, by decide +kernel⟩, ⟨rfl, by decide +kernel⟩, by decide +kernel⟩

/-- A timeout that wins against a partner that has issued: both cores record it. -/
theorem test_halo_race :
    let h : Halo := { pc := 0, partner := 1, port := 1, recv := true, desc := tens 0 9 65536 0 4 1, paired := true }
    let g : Halo := { pc := 16, partner := 0, port := 1, recv := false, desc := tens 0 9 131072 0 4 1, paired := true }
    let s : State := { dev { core {} with halo := [h] } with
      cores := [(0, { core {} with halo := [h] }), (1, ({ part := some { part0 with idx := 1 }, halo := [g] } : Core))] }
    (match exec (.haloTimeout 0 1 ⟨true, true⟩) s with
      | .next t => ((coreAt t 0).fault.map (·.detail), (coreAt t 1).fault.map (fun x => (x.address, x.detail)), (coreAt t 0).part, (coreAt t 1).part)
      | _ => (none, none, none, none)) = (some 5, some (16, 5), none, none) := by decide +kernel

/-! ### Slips -/

/-- A block of `n` bytes that is zero but for little-endian fields at the offsets given. -/
def blk (n : Nat) (l : List (Nat × Nat)) : List Byte := leBytes n (l.foldl (fun a x => a + x.2 * 2 ^ (8 * x.1)) 0)

/-- A slip of ring 0 with its block. -/
def slip (block : List Byte) (len : Nat) (target : Nat := 0) (args : Nat := 0) (extra : List Byte := []) : SlipIn :=
  { ring := 0, tag := 77, target := BitVec.ofNat 32 target, addr := 0, len := BitVec.ofNat 32 len, args := BitVec.ofNat 192 args, rsv := false,
    block := .data block, extra := .data extra }

/-- Rings 0 and 1 as PF0's slip and receipt ring, one slip waiting, and ring 9 as its folio ring. -/
def rings0 : Tab Ring :=
  [(0, { enable := true, kind := 0, pair := 1, tail := 1, base := 4096 }), (1, { enable := true, kind := 1, base := 65536 }),
   (9, { enable := true, kind := 2, base := 131072, area := 262144, areaSz := 16, folioLast := 1023 })]

/-- A running device whose slip ring holds a slip, with the streams and jobs given. -/
def devQ (streams : Tab Stream) (jobs : List Job := []) : State :=
  { dev {} with jobs := jobs, streams := streams, host := { linkUp := true, rings := rings0 } }

/-- A stream block of one 16 by 16 output entry, with its flags, CHANGE and further fields. -/
def streamBlk (flags change : Nat) (more : List (Nat × Nat) := []) : List Byte :=
  blk 160 ([(0, 3), (2, 5), (4, 7), (5, flags), (6, 1), (8, change), (17, 8), (18, 16), (20, 16), (22, 1), (24, 100), (132, 16), (134, 16),
            (136, 16), (138, 16), (141, 3), (146, 8)] ++ more)

theorem test_meets_StreamStates_open :
    ∀ b ∈ [streamBlk 1 0, streamBlk 0 0 [(72, 1)]],
      let s := devQ []
      let x := slip b 160
      Accepts s x 0x03 (namesBlock s x fun _ => true) ∧ goodFields { align := 64 } x = true ∧ goodBlock false 160 b = true
        ∧ slice b 0 160 = b ∧ reuseFits s 5 1 = true ∧ ctxAt s 5 = some ctx0 ∧ ctx0.owner = sender s x ∧ (strm s 3).state = .closed
        ∧ ((List.range 1024).find? fun n => (tfind s.flows n).isNone) = some 0 ∧ (∀ f ∈ s.flows, matchPart f.2.1 = matchPart (keyOfBlock b) → f.2.2 = 3)
        ∧ goodEnv (envOfBlock b) = true ∧ folioRingOf s 0 3 = some 9 ∧ (reserveStream 3 (envOfBlock b) 5 1 0 s).isSome = true := by decide +kernel

theorem test_meets_StreamStates :
    (∀ st ∈ [SState.opened, .running, .paused, .draining, .faulted], ∀ frames ∈ [[], [frame0]], ∀ op ∈ [4, 5, 6, 7],
        let s := devQ [(3, { stream0 with state := st, frames := frames })]
        let x := slip [] 0 3
        Accepts s x op (namesStream s 3 none) ∧ (strm s 3).owner = sender s x ∧ (strm s 3).state = st)
      ∧ goodFields { target := true } (slip [] 0 3) = true ∧ goodFields { target := true } (slip [] 0 1023) = true
      ∧ ctxAt (devQ []) 5 = some ctx0 ∧ ctx0.owner = 0 ∧ ctx0.part = stream0.part
      ∧ (strm (devQ []) 1023).state = .closed ∧ (strm (devQ []) 1023).closing = none ∧ Accepts (devQ []) (slip [] 0 1023) 7 (namesStream (devQ []) 1023 none) := by
  decide +kernel

/-- A FRK1 record of a kind with its payload. -/
def record (kind : Nat) (payload : List Byte) : List Byte :=
  let head := leBytes 4 0x4B524946 ++ leBytes 2 1 ++ leBytes 2 kind ++ leBytes 4 payload.length
  head ++ leBytes 4 (crc32c (head ++ payload)) ++ payload

theorem test_meets_StreamChanges_reconf :
    let env : Envelope := { codec := 0, depth := 8, maxW := 16, maxH := 16, maxRefs := 1, maxRate := 100 }
    let s := devQ [(3, { stream0 with state := .opened, env0 := env })]
    let x := slip (streamBlk 1 0x3F) 160
    Accepts s x 0x08 (namesBlock s x fun b => nbit (leAt b 8 2) 5) ∧ goodFields { align := 64 } x = true
      ∧ goodBlock true 160 (streamBlk 1 0x3F) = true ∧ (strm s 3).owner = sender s x ∧ reuseFits s 5 1 = true ∧ ctxAt s 5 = some ctx0
      ∧ ctx0.owner = sender s x ∧ ctx0.part = (strm s 3).part ∧ keepsEnvelope env (envOfBlock (streamBlk 1 0x3F)) = true
      ∧ (let runs := devQ [(3, { stream0 with env0 := { env with maxW := 8 } })]
         let b := streamBlk 1 2
         Accepts runs (slip b 160) 0x08 (namesBlock runs (slip b 160) fun b => nbit (leAt b 8 2) 5) ∧ goodBlock true 160 b = true
           ∧ (strm runs 3).state = .running ∧ nbit 2 5 = false ∧ reuseFits runs (soonCtx (strm runs 3)) 1 = true
           ∧ keepsEnvelope (strm runs 3).env0 (envOfBlock b) = false) := by decide +kernel

set_option maxRecDepth 20000 in
theorem test_meets_StreamChanges_feed :
    let st : Stream := { stream0 with firkin := true, hostPath := true, outs := (outsOf (streamBlk 1 0)), frames := [], env := envOfBlock (streamBlk 1 0) }
    let au := record 1 (blk 32 [(0, 3), (8, 5000)])
    let tensor := record 4 (blk 608 [(0, 3), (8, 5000), (18, 1), (20, 0), (21, 1), (22, 16), (24, 16)])
    let dev1 : State := devQ [(3, { st with hostPath := false })]
    let first : State := devQ [(3, st)]
    let wait : Frame := { pts := 5000, order := 0, stage := .tensors, count := 2, bypass := true, outs := st.outs }
    let more : State := devQ [(3, { st with frames := [{ wait with outs := st.outs ++ st.outs }] })]
    let tensor1 := record 4 (blk 608 [(0, 3), (8, 5000), (16, 1), (18, 2), (21, 1), (22, 16), (24, 16)])
    (goodRecord au.length au = true ∧ feedRefusal 0 au true dev1 = none ∧ admits dev1 (strm dev1 3) = true ∧ (strm dev1 3).blocked = false
        ∧ Accepts dev1 (slip au au.length) 0x09 (namesStream dev1 3 none) ∧ goodFields { align := 8 } (slip au au.length) = true)
      ∧ (goodRecord tensor.length tensor = true ∧ feedRefusal 0 tensor false first = none ∧ tensorFrame (strm first 3) 5000 = none
          ∧ admits first (strm first 3) = true ∧ Accepts first (slip tensor tensor.length) 0x09 (namesStream first 3 none))
      ∧ (goodRecord tensor1.length tensor1 = true ∧ feedRefusal 0 tensor1 false more = none
          ∧ tensorFrame (strm more 3) 5000 = some { wait with outs := st.outs ++ st.outs } ∧ admits more (strm more 3) = true
          ∧ Accepts more (slip tensor1 tensor1.length) 0x09 (namesStream more 3 none) ∧ OwnOrders more 3) := by decide +kernel

theorem test_meets_StreamChanges_zones :
    let b := blk 96 [(0, 63), (1, 3), (2, 255), (3, 3), (20, 65535)]
    let s : State := { devQ [(3, stream0), (4, stream0)] with saf := { bound := [(6, (4, 1)), (7, (3, 2))] } }
    let x := slip b 96 3
    Accepts s x 0x0A (namesStream s 3 none) ∧ goodFields { target := true, align := 64 } x = true ∧ goodZones b 1 = true
      ∧ (strm s 3).owner = sender s x ∧ (strm s 3).state = .running ∧ takenIndex s 3 [zoneOf b 0] = false ∧ (zoneOf b 0).bound = true
      ∧ rising s.saf.bound = true ∧ tfind s.saf.bound 7 = some (3, 2) ∧ (zoneOf b 0).spigot ≠ 7 ∧ tfind s.saf.bound 6 = some (4, 1) := by decide +kernel

/-! ### Ethernet, pictures and clips -/

/-- A frame of 60 bytes with its FCS. -/
def frameOfBytes (x : List Byte) : List Byte := x ++ leBytes 4 (crc32e x)

/-- An RTP packet: marker and payload type, sequence number, and six bytes of payload, the first a NAL unit header. -/
def rtpBytes (m seq : Byte) : List Byte := [0x80, m, 0, seq, 0, 0, 0, 9, 0, 0, 0, 5, 0x65, 1, 2, 3, 4, 5]

/-- An IPv4 datagram from 10.0.0.1 port 1 to 10.0.0.2 port 2 that carries it. -/
def udpBytes : List Byte :=
  List.replicate 12 0 ++ [8, 0, 0x45, 0, 0, 46, 0, 0, 0, 0, 0x40, 17, 0x66, 0xBD, 10, 0, 0, 1, 10, 0, 0, 2, 0, 1, 0, 2, 0, 26, 0, 0] ++ rtpBytes 96 7

/-- The flow key that it matches: format H.264, payload type 96. -/
def key0 : List Byte := blk 48 [(0, 0x0100000A), (16, 0x0200000A), (32, 0x02000100), (39, 96), (40, 1)]

/-- A device whose two ports are up, with receive and transmit rings, and a flow for stream 3. -/
def devP (st : Stream) : State :=
  { devQ [(3, { st with flow := some 0 })] with
      flows := [(0, (key0, 3))],
      ports := [(0, { pstat := 3, rx := { base := 4096, size := 0x80000000, tail := 2, head := 63 }, tx := { base := 8192, size := 0x80000000, tail := 1 } }),
                (1, { pstat := 3 })] }

theorem test_meets_PortsAndPackets_frames :
    let s := devP stream0
    let host := frameOfBytes (List.replicate 12 0 ++ [0x88, 0xCC] ++ List.replicate 46 0)
    let entry := blk 16 [(0, 0x20000), (8, 60)]
    let udp := frameOfBytes udpBytes
    let tx := blk 16 [(0, 0x30000), (8, 60), (10, 1)]
    (upAt s 98 = true ∧ nbit (portAt s 0).pstat 0 = true ∧ nbit (portAt s 1).pstat 0 = true ∧ host.length = 64
      ∧ (host.drop 1).length < 64
      ∧ (seeFrame 0 (portMarred s 0) host = .host ∧ posted s 0 (portAt s 0).rx = true ∧ (host.take 60).length ≤ leAt entry 8 2
          ∧ memWf 0 s.host.mem = true))
      ∧ (∃ m u, seeFrame 0 (portMarred s 0) udp = .udp m u ∧ flowOf s m = some (0, 3) ∧ tfind s.flows 0 = some (key0, 3)
          ∧ pausedPart s (strm s 3).part = false ∧ (strm s 3).state = .running
          ∧ (strm s 3).hostPath = false ∧ (strm s 3).switching = false)
      ∧ (posted s 0 (portAt s 0).tx = true ∧ goodTx tx = true ∧ leAt tx 10 1 % 2 = 1)
      ∧ (running s = true ∧ blockUp s 98 = true ∧ s.host.linkUp = true) :=
  ⟨by decide +kernel, ⟨slice key0 0 36 ++ [0, 0, 0], rtpBytes 96 7, by decide +kernel⟩, by decide +kernel⟩

theorem test_meets_PortsAndPackets_packets :
    let dep : Depack := { ssrc := some 5, next := 7, opened := true, base := some (9, 90), fifo := [rtpBytes 96 7] }
    let p : Rtp := { seq := 7, ts := 9, marker := false, ssrc := 5, payload := [0x65, 1, 2, 3, 4, 5] }
    let s := devP { stream0 with dep := dep }
    let ahead := devP { stream0 with dep := { dep with next := 65480 } }
    let other := devP { stream0 with dep := { dep with fifo := [rtpBytes 97 7] } }
    let paused : State := { s with pwr := { s.pwr with level := 3 } }
    let idle := devP { stream0 with state := .opened, dep := dep }
    let held := devP { stream0 with dep := { dep with opened := false, held := [{ p with seq := 70 }] } }
    (upAt s 98 = true ∧ keyOfStream s 3 = some key0 ∧ (strm s 3).dep.fifo = [rtpBytes 96 7] ∧ pausedPart s 1 = false)
      ∧ pausedPart paused 1 = true ∧ upAt paused 98 = true ∧ (strm idle 3).state ≠ .running ∧ rtpOf 96 (rtpBytes 97 7) = none
      ∧ (strm other 3).dep.fifo = [rtpBytes 97 7]
      ∧ (rtpOf (leAt key0 39 1 % 128) (rtpBytes 96 7) = some p ∧ dep.ssrc = some p.ssrc ∧ dep.probe = none ∧ p.seq = dep.next ∧ dep.held = []
          ∧ bits (leAt key0 38 1) 2 1 = 0 ∧ 1 ≤ leAt p.payload 0 1 % 32 ∧ leAt p.payload 0 1 % 32 ≤ 23 ∧ dep.base = some (p.ts, 90)
          ∧ dep.lossBefore = false ∧ dep.inFragment = false ∧ p.payload ≠ [] ∧ p.seq < 65536 ∧ dep.opened = true ∧ p.marker = false)
      ∧ (1 ≤ seqAhead (strm ahead 3).dep 7 ∧ seqAhead (strm ahead 3).dep 7 = 63)
      ∧ ((strm held 3).dep.held = [{ p with seq := 70 }] ∧ seqAhead (strm held 3).dep 70 = 63 ∧ (strm held 3).dep.opened = false ∧ p.marker = false) := by decide +kernel

/-- A frame that waits for decode, and a device whose stream 3 holds it with a pool of frame buffers. -/
def coded0 : Frame := { pts := 1000, order := 0, stage := .access, ctx := 5, auSize := 64, auLen := 64 }

theorem test_meets_PicturesAndTensors :
    let s : State := { devQ [(3, { stream0 with frames := [coded0] })] with mem := { (dev {}).mem with pools := [(2, { pool0 with k := 16 })] } }
    let refused : State := { s with streams := [(3, { stream0 with frames := [coded0], refused := some 6 })] }
    let busy : State := { s with media := [(4, { state := 1, stream := 3, order := 0, buf := some 1048576 })],
                                 streams := [(3, { stream0 with frames := [coded0], started := true })] }
    let lateState : State := { s with media := [(4, { lateDue := 1 })] }
    let none' : Frame := { coded0 with hasPicture := false }
    let empty : State := { s with streams := [(3, { stream0 with frames := [none'] })] }
    let unit : CodeUnit := { x := 0, y := 0, w := 16, h := 16, data := some (0, 8), entry := true }
    let pre : Frame := { coded0 with stage := .preproc, num := some 0, admitted := 1, buf := some 1048576, winW := 16, winH := 16 }
    let waits : State := devQ [(3, { stream0 with frames := [pre] })]
    let works : State := { waits with ppus := [(2, { work := some (3, 0) })] }
    let again : State := { devQ [(3, { stream0 with frames := [{ pre with ppTries := 1 }] })] with ppus := [(2, { work := some (3, 0) })] }
    ((upAt s (48 + 31) = true ∧ (mediaIn s 1).contains 31 = true ∧ (mediaAt s 31).state = 0 ∧ pausedPart s 1 = false ∧ nextDecoded s 1 31 = some (3, coded0)
        ∧ (strm s 3).refused = none ∧ coded0.hasPicture = true ∧ shedsOdd s (strm s 3) = false
        ∧ (drawFor 1 (.stream 3) 0 s).1 = some 1048576)
      ∧ (nextDecoded refused 1 31 = some (3, coded0) ∧ (strm refused 3).refused = some 6 ∧ OwnOrders refused 3)
      ∧ (nextDecoded empty 1 31 = some (3, none') ∧ (strm empty 3).refused = none ∧ none'.hasPicture = false ∧ OwnOrders empty 3)
      ∧ ((mediaAt lateState 4).state ≠ 1 ∧ 0 < (mediaAt lateState 4).lateDue))
      ∧ (upAt busy (48 + 4) = true ∧ (mediaAt busy 4).state = 1 ∧ (mediaAt busy 4).buf = some 1048576 ∧ frameOf busy 3 0 = some coded0 ∧ coded0.result = none
          ∧ OwnOrders busy 3 ∧ (mediaAt busy 4).fails = 0 ∧ coded0.attempts = 0 ∧ (mediaAt busy 4).randomAccess = false
          ∧ (unitsDecoded busy (strm busy 3) coded0 { units := [unit] }).contains true = true
          ∧ (unitsDecoded busy (strm busy 3) coded0 { units := [{ unit with data := none }] }).contains true = false)
      ∧ (upAt waits nocIsland = true ∧ (ppUnits waits 1).contains 7 = true ∧ (ppuAt waits 7).work = none ∧ nextServed waits 1 = some (3, pre)
          ∧ pre.lastUnit ≠ some 7)
      ∧ (upAt works nocIsland = true ∧ (ppuAt works 2).work = some (3, 0) ∧ frameOf works 3 0 = some pre ∧ pre.stage = .preproc ∧ pre.ppTries = 0
          ∧ (framePic works 3 pre).map (fun a => picBad works a pre) = some false)
      ∧ (frameOf again 3 0 = some { pre with ppTries := 1 } ∧ (ppuAt again 2).work = some (3, 0)) :=
  ⟨by decide +kernel, by decide +kernel, by decide +kernel⟩

/-- A clip of stream 3 with one picture ready. -/
def clip0 : Clip :=
  { fn := 0, id := 21, stream := 3, part := 1, thumb := false, vbr := false, deriveQp := false, derivePriv := false, scale := 0, first := 0, last := 9000,
    maxPic := 2, waitMs := 100, refresh := 30, rate := 1000, maxRate := 0, cap := 4096, mosaic := 3, dqp := 0, dclass := 0, margin := 0, quality := 0,
    tside := 0, dcbase := 0, haddr := 0x100000, hlen := 8192, tick := 3000, regions := [], order := 4, core := some 3, buf := none,
    ready := [{ pts := 1000, num := 0, arrived := 5, src := .gap, winW := 16, winH := 16 }],
    w := 16, h := 16, coded := 0 }

theorem test_meets_ClipPictures :
    let s : State := { devQ [(3, stream0)] with clips := [clip0] }
    let shed : State := { s with pwr := { s.pwr with level := 1 } }
    let codes : State := { s with encs := [(3, { state := 1, clip := some (0, 21) })] }
    let lateState : State := { s with encs := [(3, { lateDue := 1 })] }
    let alone : State := { codes with parts := [(1, { present := true, enc := 8 })] }
    let late : Clip := { clip0 with attempts := 1 }
    let bare : Clip := { clip0 with ready := [] }
    (upAt s (80 + 3) = true ∧ (encAt s 3).state = 0 ∧ partOfEnc s 3 = some 1 ∧ (∀ x ∈ s.clips, x.part = 1 → x.core = none → x.ended = true)
        ∧ leastBy (fun k : Clip => ((headReady k).map (·.arrived)).getD 0) ((clipsOn s 3).filter fun k => (headReady k).isSome) = some clip0)
      ∧ shed.pwr.level ≠ 0 ∧ ((encAt lateState 3).state ≠ 1 ∧ 0 < (encAt lateState 3).lateDue)
      ∧ (upAt codes (80 + 3) = true ∧ (encAt codes 3).state = 1 ∧ (encAt codes 3).clip = some (0, 21) ∧ clipOf codes 0 21 = some clip0
          ∧ (clip0.closed = false ∧ clip0.coded + 1 < clip0.maxPic ∧ clip0.thumb = false)
          ∧ (∀ x ∈ (strm codes clip0.stream).bufs, bufNeeded { x with clips := x.clips - 1 } = true)
          ∧ memWf 0 codes.host.mem = true ∧ codes.host.linkUp = true)
      ∧ (∀ n, n < 4 → n ≠ 3 → (encsIn alone 1).contains n = false) ∧ clip0.attempts = 0
      ∧ clipOf { codes with clips := [late] } 0 21 = some late
      ∧ (clipOf s 0 21 = some clip0 ∧ s.pwr.level = 0 ∧ clip0.closed = false ∧ clip0.ready ≠ [] ∧ ∀ x ∈ s.clips, x.fn = 0 → x.id = 21 → x = clip0)
      ∧ (upAt { s with clips := [bare] } nocIsland = true ∧ clipOf { s with clips := [bare] } 0 21 = some bare ∧ bare.ready = []) := by decide +kernel

/-- One picture's coding keys. -/
def keys : Config.CodeKeys := ⟨3, 1, 4, 1, 5⟩

/-- The bytes of a P picture without source. -/
theorem codedBytes_skip (s : State) (k : Clip) (r : ClipPic) (key : Config.CodeKeys) (h : r.src = .gap) (hk : k.thumb = false) (hc : k.coded = 1) :
    (codedBytes s k r key).2 = headOf key k ++ (Config.skipSlice key.repl k.w k.h 1).take (leastCap (k.w, k.h)) := by
  have e : sourceBuf s k r = none := by simp [sourceBuf, h]
  simp [codedBytes, e, hk, codePicture, hc]

/-- A host buffer that just takes the picture, and one that does not. -/
theorem test_meets_ClipPictures_fit :
    let r : ClipPic := { pts := 1000, num := 0, arrived := 5, src := .gap, winW := 16, winH := 16 }
    let s := devQ [(3, stream0)]
    let second : Clip := { clip0 with coded := 1, maxPic := 3 }
    let k : Clip := { second with hlen := indexArea 3 + (codedBytes s second r keys).2.length }
    let t : State := { s with clips := [k] }
    let none' : Clip := { second with hlen := 0 }
    clipOf t 0 21 = some k ∧ k.ready.head? = some r ∧ indexArea k.maxPic + k.bytes + (codedBytes t k r keys).2.length ≤ k.hlen
      ∧ (k.closed = false ∧ k.coded + 1 < k.maxPic)
      ∧ none'.hlen < indexArea none'.maxPic + none'.bytes + (codedBytes { s with clips := [none'] } none' r keys).2.length := by
  intro r s second k t none'
  refine ⟨rfl, rfl, ?_, by decide, ?_⟩
  · have e : (codedBytes t k r keys).2 = (codedBytes s second r keys).2 :=
      (codedBytes_skip t k r keys rfl rfl rfl).trans (codedBytes_skip s second r keys rfl rfl rfl).symm
    rw [e]
    show indexArea 3 + 0 + (codedBytes s second r keys).2.length ≤ indexArea 3 + (codedBytes s second r keys).2.length
    omega
  · exact Nat.lt_of_lt_of_le (show 0 < indexArea 3 + 0 by decide) (Nat.le_add_right _ _)

/-- A CAPTURE block of 320 bytes with its command. -/
def clipBlk (cmd : Nat) (more : List (Nat × Nat)) : List Byte := blk 320 ([(0, 3), (2, cmd), (4, 21)] ++ more)

/-- The fields a clip block shares between CAPTURE and THUMB. -/
def takeFields : List (Nat × Nat) := [(8, 5000), (16, 9000), (24, 1), (26, 1), (46, 3), (72, 8192)]

theorem test_meets_ClipRequests :
    let pool : Pool := { pool0 with kind := 5, k := 16, held := [], reserves := [{ owner := .partition 1, min := 0, max := 64 }] }
    let st : Stream := { stream0 with env := { maxW := 16, maxH := 16 }, frames := [] }
    let s : State := { devQ [(3, st)] with mem := { (dev {}).mem with pools := [(2, pool)] } }
    let has : State := { s with clips := [clip0] }
    let past : State := { s with clips := [{ clip0 with ended := true }] }
    let cap := clipBlk 0 (takeFields ++ [(30, 2), (32, 100), (40, 4096), (76, 1)])
    let thumb := clipBlk 3 (takeFields ++ [(59, 1), (60, 16)])
    let hold := blk 320 [(0, 3), (2, 1), (28, 300)]
    let cancel := clipBlk 2 []
    let taken := fun (s : State) (b : List Byte) => Accepts s (slip b 320) 0x0B { namesStream s 3 none with cancel := leAt b 2 1 == 2 }
    (∀ b ∈ [cap, thumb, hold, cancel], goodFields { align := 64 } (slip b 320) = true ∧ slice b 0 320 = b ∧ leAt b 0 2 = 3)
      ∧ (strm s 3).state ≠ .closed ∧ (strm s 3).state ≠ .faulted ∧ (strm s 3).owner = sender s (slip cap 320)
      ∧ taken s cap ∧ taken s thumb ∧ taken s hold ∧ taken s cancel ∧ taken has cancel ∧ taken past cancel
      ∧ ((drawClip 1 0 s).1 = some 1048576 ∧ (s.clips.filter fun k => k.part == 1 && !k.ended).length < 64 ∧ rangeGone (strm s 3) (leAt cap 16 8) = false
          ∧ clipOf s 0 21 = none)
      ∧ goodCapture (leastCap (scaledNow (strm s 3) (bits (leAt cap 3 1) 4 3))) cap = true ∧ (scaledNow (strm s 3) 0).1 ≤ 3840
      ∧ (scaledNow (strm s 3) 0).2 ≤ 2160 ∧ goodThumb thumb = true ∧ goodHold hold = true ∧ goodCancel cancel = true
      ∧ (has.clips.find? (fun k => k.is 0 21 && k.stream == 3) = some clip0 ∧ clip0.ended = false)
      ∧ past.clips.find? (fun k => k.is 0 21 && k.stream == 3) = some { clip0 with ended := true }
      ∧ s.clips.find? (fun k => k.is 0 21 && k.stream == 3) = none := by decide +kernel

/-! ### Contexts, assignment, shutdown, life cycle

A statement that rests on an open value of Config (a digest, a signature, an image's check) is met where that value allows it: the theorem
takes what the open value must be as a premise, or builds the input from the open value. -/

/-- A number read back from its little-endian bytes. -/
theorem leNat_leBytes (n x : Nat) : leNat (leBytes n x) = x % 256 ^ n := by
  induction n generalizing x with
  | zero => simp [leBytes, leNat, Nat.mod_one]
  | succ n ih =>
    have h : leNat (leBytes (n + 1) x) = x % 256 + 256 * leNat (leBytes n (x / 256)) := by
      simp [leBytes, leNat, BitVec.toNat_ofNat]
    rw [h, ih, Nat.pow_succ, Nat.mul_comm (256 ^ n) 256, Nat.mod_mul]

/-- The sections of a context image with one one-instruction program. -/
def sections0 : List Byte :=
  blk 64 [(1, 1), (2, 0xFF), (8, 80)]
    ++ blk 128 [(0, 0x48544541), (4, 1), (6, 1), (8, 64), (12, 16), (20, 100), (22, 1), (25, 1), (28, 64)]

/-- A context image: header, digest, section table, sections. -/
def image0 : List Byte :=
  blk 64 [(0, 0x58434541), (4, 1), (6, 2), (8, 704), (16, 4096)] ++ (leBytes 64 (Config.shake256 sections0).toNat
    ++ (leBytes 128 0 ++ blk 256 [(0, 1), (2, 1), (4, 16), (8, 512), (16, 2), (20, 128), (24, 576)] ++ sections0))

/-- Its load block, for a context id, with REPLACE or not. -/
def loadBlk (id replace : Nat) : List Byte := blk 64 [(0, id), (2, 1), (3, 1), (4, 2), (5, replace), (16, 704)]

set_option maxRecDepth 20000 in
set_option exponentiation.threshold 600 in
theorem image0_digest : leAt image0 64 64 = (Config.shake256 (image0.drop 512)).toNat := by
  have h : leAt image0 64 64 = leNat (leBytes 64 (Config.shake256 sections0).toNat) := rfl
  have k : image0.drop 512 = sections0 := rfl
  rw [h, k, leNat_leBytes]
  exact Nat.mod_eq_of_lt (Nat.lt_of_lt_of_eq (Config.shake256 sections0).isLt (by rfl))

theorem image0_head : goodHead 704 image0 = true := by
  simp only [goodHead, image0_digest, beq_self_eq_true, Bool.and_true]
  decide +kernel

theorem loads0 : ∀ p ∈ [(6, 0, ([] : Tab Stream)), (5, 1, []), (5, 1, [(3, { stream0 with state := .paused })])],
    loadRefusal (devQ p.2.2) 0 (loadBlk p.1 p.2.1) image0 = none := by
  intro p hp
  have h : leAt (loadBlk p.1 p.2.1) 16 8 = 704 := by
    revert p; decide +kernel
  simp only [loadRefusal, h, image0_head, Bool.not_true, Bool.or_false]
  revert p; decide +kernel

set_option maxRecDepth 20000 in
theorem test_meets_ContextSlips :
    let busy : Tab Stream := [(3, { stream0 with state := .paused })]
    let leaving (j : List Job) : State := { devQ [] j with ctxs := [(5, { ctx0 with leaving := some (0, 9) })] }
    (∀ p ∈ [(6, 0, ([] : Tab Stream)), (5, 1, []), (5, 1, busy)],
      let s := devQ p.2.2
      let b := loadBlk p.1 p.2.1
      slice b 0 64 = b ∧ leAt b 0 2 = p.1 ∧ Accepts s (slip b 64 0 0 image0) 0x01 { keys := [ctxKey p.1], part := some (leAt b 2 1) }
        ∧ goodFields { align := 64 } (slip b 64 0 0 image0) = true ∧ rising s.ctxs = true ∧ tfind s.nextCtxs p.1 = none)
      ∧ ctxAt (devQ []) 6 = none ∧ ctxBusy (devQ []) 5 = false ∧ ctxBusy (devQ busy) 5 = true ∧ ctxAt (devQ busy) 5 = some ctx0
      ∧ loadRefusal (devQ []) 0 (leBytes 64 0) [] = some 0x10 ∧ Accepts (devQ []) (slip (leBytes 64 0) 64) 0x01 { keys := [ctxKey 0], part := some 0 }
      ∧ (∀ st ∈ [[], busy], Accepts (devQ st) (slip [] 0 5) 0x02 { keys := [ctxKey 5], part := some 1 } ∧ ctxInUse (devQ st) 5 = false)
      ∧ goodFields { target := true } (slip [] 0 5) = true ∧ ctx0.owner = sender (devQ []) (slip [] 0 5)
      ∧ (∀ j ∈ [[], [job0]], ready (leaving j) = true ∧ ctxAt (leaving j) 5 = some { ctx0 with leaving := some (0, 9) } ∧ rising (leaving j).ctxs = true)
      ∧ ctxBusy (leaving []) 5 = false ∧ ctxBusy (leaving [job0]) 5 = true := by decide +kernel

/-- A partition block: partition 1 has channel 0, pre-processing unit 0, media core 0 and the cores of cluster 0. -/
def partBlk : List Byte :=
  blk 256 [(64, 1), (65, 1), (66, 64), (67, 64), (68, 64), (70, 1), (71, 1), (72, 15), (76, 1), (88, 16), (96, 4), (128, 2), (192, 3)]

theorem test_meets_AssignmentSlips :
    let same : State := { devQ [] with parts := (List.range 4).map fun p => (p, partOf partBlk p) }
    let other : State := { devQ [(3, stream0)] with parts := [(0, {}), (1, partOf partBlk 1), (2, { present := true, noc := 8 }), (3, partOf partBlk 3)] }
    (∀ s ∈ [same, other], Accepts s (slip partBlk 256) 0x0C {} ∧ sender s (slip partBlk 256) = 0 ∧ goodParts s partBlk = true)
      ∧ slice partBlk 0 256 = partBlk ∧ goodFields { align := 64 } (slip partBlk 256) = true
      ∧ (∀ p, p < 4 → assignment (partAt same p) = partOf partBlk p)
      ∧ (∃ p, p < 4 ∧ assignment (partAt other p) ≠ partOf partBlk p)
      ∧ (∀ c ∈ other.ctxs, c.2.part < 4 → assignment (partAt other c.2.part) = partOf partBlk c.2.part)
      ∧ (∀ c ∈ other.streams, c.2.state = .closed ∨ (c.2.part < 4 → assignment (partAt other c.2.part) = partOf partBlk c.2.part))
      ∧ (∀ a ∈ [3 + 4095 * 2 ^ 16, 4095 + 4095 * 2 ^ 16],
          let s : State := { devQ [] with host := { linkUp := true, rings := rings0.filter fun r => r.1 < 2 ∨ r.1 = 4000 } }
          let t : State := { s with host := { s.host with rings := s.host.rings ++ [(4095, { owner := 4 })] } }
          goodFields { args := 5 } (slip [] 0 0 a) = true ∧ Accepts t (slip [] 0 0 a) 0x0D {} ∧ fnPresent t 0 = true
            ∧ (∀ n ∈ t.host.rings, 2 < n.1 → n.2.enable = false) ∧ (ringAt t 4095).owner ≠ 0)
      ∧ (goodFields {} (slip [] 0) = true ∧ Accepts (devQ []) (slip [] 0) 0x0E {} ∧ framesOf (devQ []) 0 = []
          ∧ Accepts (devQ [(3, stream0)]) (slip [] 0) 0x0E {} ∧ framesOf (devQ [(3, stream0)]) 0 = [(3, 0)] ∧ (ringAt (devQ [(3, stream0)]) 0).taken = [])
      ∧ (let x := slip [] 4096 0 1
         goodFields { align := 64, args := 4 } x = true ∧ Accepts (devQ []) x 0x0F {} ∧ (mailRecord (devQ []) 0 1).isSome = true
          ∧ ((mailRecord (devQ []) 0 1).map fun l => decide ((recordBytes l).length ≤ 4096)) = some true ∧ memWf 0 (devQ []).host.mem = true) := by
  decide +kernel

/-- A device in STAGE n whose slip ring holds a slip, at level 0. -/
def devSt (n : Nat) : State := { devQ [(3, stream0)] with pwr := { stage := n, resetting := false, coldBoot := false } }

theorem test_meets_ShutdownAndKiln :
    let entry : BitVec 128 := BitVec.ofNat 128 (2 * 2 ^ 40)
    let kiln : State := { devSt 9 with pwr := { stage := 9, resetting := false, coldBoot := false, kiln := { running := true, receipt := some (0, 9) } } }
    let waits : State := { kiln with pwr := { kiln.pwr with kiln := { kiln.pwr.kiln with paused := true } } }
    (∀ n ∈ [7, 8], ∀ a ∈ [0, 1], (n = 7 ∨ a = 0) → goodFields { args := 1 } (slip [] 0 0 a) = true ∧ (slip [] 0 0 a).args.toNat = a
        ∧ Accepts (devSt n) (slip [] 0 0 a) 0x10 {} ∧ (devSt n).saf.arm = false ∧ sealsWait (devSt n) = false ∧ (devSt n).pwr.stage = n)
      ∧ kiln.pwr.resetting = false ∧ kiln.pwr.kiln.running = true ∧ kiln.pwr.kiln.receipt = some (0, 9) ∧ kiln.pwr.kiln.paused = false
      ∧ kiln.pwr.kiln.groups.contains 1 = false ∧ waits.pwr.kiln.paused = true ∧ waits.pwr.kiln.running = true ∧ waits.pwr.kiln.receipt = some (0, 9)
      ∧ (let s : State := { devSt 8 with nv := { serial := 7, record := some { seq := 1, entries := [entry] } } }
         Accepts s (slip [] 29920) 0x11 {}
           ∧ goodFields { align := 64 } (slip [] 29920) = true ∧ entryPasses entry = 2 ∧ [0].length ≤ s.nv.rowsLeft) := by
  refine ⟨by decide +kernel, rfl, rfl, rfl, rfl, rfl, rfl, rfl, rfl, by decide +kernel⟩

/-- A group that fits: a cap of ten times what it and the idle device draw. -/
theorem test_meets_ShutdownAndKiln_group :
    let s : State := { devSt 9 with pwr := { stage := 9, resetting := false, cap := 10 * kilnPower [1], kiln := { running := true } } }
    10 * kilnPower [1] ≤ 9 * powerCap s := by
  show 10 * kilnPower [1] ≤ 9 * (10 * kilnPower [1])
  omega

/-- A list of one entry with PASSES 2, where the open layout of the block reads it so. -/
theorem test_meets_ShutdownAndKiln_repair (b : List Byte) (hm : leAt b 0 4 = 0x41495052) (h : Config.repairBlock b = some ([0], 7)) :
    let s : State := { devSt 8 with nv := { serial := 7, record := some { seq := 1, entries := [BitVec.ofNat 128 (2 * 2 ^ 40)] } } }
    repairList b s = some [0] := by
  simp only [repairList, h, hm]
  decide +kernel

/-- An authorisation is good where the open functions accept: the key is MAUTH's and its signature verifies. -/
theorem test_meets_authorisation (op : Nat) (block auth : List Byte) (c : BitVec 512)
    (hd : keyMatches (Config.shake256 (slice auth 0 64)) (Config.shake256 (slice auth 0 64)) = true)
    (hv : Config.slhVerify (slice auth 0 64) 1 (leBytes 8 7 ++ leBytes 64 c.toNat ++ leBytes 1 op ++ leBytes 64 (Config.shake256 block).toNat)
      (slice auth 64 29792) = true) :
    authGood op block auth true { devSt 8 with nv := { serial := 7, mauth := Config.shake256 (slice auth 0 64) }, sec := { challenge := some c } } = true := by
  simp only [authGood, hd, Bool.true_or, Bool.true_and]
  exact hv

/-- And it fails wherever no challenge is in force. -/
theorem test_meets_authorisation_none (op : Nat) (block auth : List Byte) (owner : Bool) : authGood op block auth owner (devSt 8) = false := rfl

/-- A LIFECYCLE block for serial number 7. -/
def lifeBlk (op : Nat) (more : List (Nat × Nat)) : List Byte := blk 128 ([(0, 0x4359434C), (4, op), (8, 7)] ++ more)

theorem test_meets_LifecycleSlips :
    let s (lcs : Nat) : State := { devSt 7 with nv := { serial := 7, lcs := lcs } }
    (∀ p ∈ [(2, lifeBlk 0 [(28, 4096), (36, 50368)]), (2, lifeBlk 1 [(28, 4096), (36, 256)]), (1, lifeBlk 2 [(5, 2), (40, 9)]), (0, lifeBlk 2 [(5, 4)])],
      Accepts (s p.1) (slip p.2 128) 0x12 {} ∧ goodFields { align := 64 } (slip p.2 128) = true ∧ slice p.2 0 128 = p.2
        ∧ goodLifecycle 128 p.2 (s p.1) = true)
      ∧ (∀ op ∈ [(3, lifeBlk 3 []), (2, lifeBlk 2 [(5, 3)])], goodLifecycle 29984 op.2 (s 2) = true ∧ Accepts (s 2) (slip op.2 29984) 0x12 {})
      ∧ ((s 2).sec.attq.length < 9 ∧ sealsWait (s 2) = false ∧ (s 2).saf.arm = false ∧ 2 ∈ targetsOf 1 ∧ 4 ∈ targetsOf 0 ∧ 3 ∈ targetsOf 2)
      ∧ (let t : State := { s 2 with sec := { attq := [(0, 9, 4096, 5)], update := some (0, 9, [1], []) } }
         running t = true ∧ t.sec.attq = [(0, 9, 4096, 5)] ∧ t.sec.update = some (0, 9, [1], []) ∧ t.host.linkUp = true ∧ memWf 0 t.host.mem = true)
      ∧ (let v : Word := BitVec.ofNat 32 (2 ^ 31 + 29936)
         let w : State := { devSt 2 with sec := { verifying := true, hbLen := 128 } }
         (devSt 2).pwr.resetting = false ∧ (devSt 2).host.linkUp = true ∧ blockUp (devSt 2) 100 = true ∧ nbit v.toNat 31 = true ∧ (devSt 2).sec.verifying = false
           ∧ 29936 ≤ bits v.toNat 21 0 ∧ bits v.toNat 21 0 ≤ 2097152 ∧ bits (BitVec.ofNat 32 (2 ^ 31 + 2097152)).toNat 21 0 ≤ 2097152
           ∧ w.sec.verifying = true ∧ imageCheck w.sec.hbLen (memBytes 0 w.sec.staging 0 w.sec.hbLen) w = 0x10) := by decide +kernel

/-- A board record of good values, where the open judgement finds them good. -/
theorem test_meets_LifecycleSlips_board (h : ∀ b, Config.boardValues b = true) :
    goodBoard (blk 252 [(0, 0x44524242)] ++ leBytes 4 (crc32c (blk 252 [(0, 0x44524242)]))) = true := by
  simp only [goodBoard, h]
  decide +kernel

/-- An image passes Table 18.4 where its key is the fused one and the open verification accepts. -/
theorem test_meets_LifecycleSlips_image (n : Nat) (b : List Byte) (hh : goodImageHead n b = true) (h0 : leAt b 7 1 = 0) (h6 : leAt b 6 1 = 0)
    (hb : nbit (leAt b 12 1) 3 = true) (hk : Config.shake256 (slice b 64 64) ≠ BitVec.allOnes 512)
    (hv : Config.slhVerify (slice b 64 64) 0 (b.take (128 + leAt b 8 4)) (slice b (128 + leAt b 8 4) 29792) = true) :
    imageCheck n b { devSt 2 with nv := { imgkey := [(0, Config.shake256 (slice b 64 64))], variantS := true } } = 0 := by
  have hr : (({} : NvSt).revoke).getLsbD 0 = false := by decide
  simpa [imageCheck, imageKeyIs, hh, h0, h6, hb, hv, tfind] using hk

/-! ### Rings and the host link -/

theorem test_meets_RingsAndReceipts :
    let bell : Word := BitVec.ofNat 32 (2 ^ 31)
    let rings (a : Ring) (rest : Tab Ring) : State := { devQ [] with host := { linkUp := true, rings := (5, a) :: rest } }
    let slipRing : Ring := { enable := true, kind := 0, pair := 1, tail := 1, base := 4096 }
    let receipts : Ring := { enable := true, kind := 1, base := 65536 }
    let full : Ring := { receipts with tail := 63, s := 0 }
    let done : Taken := { id := 9, seq := 0, opcode := 4, tag := 77, keys := [], done := some (0, 0, 0) }
    let ev : Ring := { enable := true, kind := 3, base := 4096, tail := 5, head := 2 }
    -- the doorbells: of a ring that is off, of a slip ring, of a ring the device writes
    (ownsRing (devQ []) 0 7 = true ∧ (ringAt (devQ []) 7).enable = false)
      ∧ (ownsRing (devQ []) 0 0 = true ∧ (ringAt (devQ []) 0).enable = true ∧ 63 < (ringAt (devQ []) 0).size ∧ (ringAt (devQ []) 0).size ≤ 64
          ∧ (∀ o ∈ [0, 0x13, 0xFF], mayTake (setRing 0 { ringAt (devQ []) 0 with tail := 63 } (devQ [])) 0 o {} = true ∧ refusal (devQ []) 0 o {} = none))
      ∧ (ownsRing (rings ev []) 0 5 = true ∧ ev.span ev.head ev.tail < ev.span 6 ev.tail ∧ ev.span 5 ev.tail ≤ ev.span ev.head ev.tail
          ∧ ev.span 2 ev.tail ≤ ev.span ev.head ev.tail)
      -- RING_CFG: an enable taken, an enable refused, a disable, a disable refused
      ∧ (let v : Word := BitVec.ofNat 32 (2 ^ 31 + 2 ^ 29)
         nbit v.toNat 31 = true ∧ ownsRing (rings { base := 4096 } []) 0 5 = true ∧ refusesEnable (rings { base := 4096 } []) (cfgFields 5 v { base := 4096 }) = false
           ∧ refusesEnable (rings {} []) (cfgFields 5 bell {}) = true)
      ∧ (let v : Word := BitVec.ofNat 32 ((ringAt (devQ []) 1).cfg - 2 ^ 31)
         nbit v.toNat 31 = false ∧ (v &&& 0x7EFFF7FF).toNat = (ringAt (devQ []) 1).cfg - 2 ^ 31 ∧ keepsRing (devQ []) 1 (ringAt (devQ []) 1) = true
           ∧ keepsRing (devQ []) 9 (ringAt (devQ []) 9) = false ∧ ownsRing (devQ []) 0 9 = true ∧ ownsRing (devQ []) 0 1 = true)
      -- a receipt with room and without
      ∧ (∀ r ∈ [receipts, full],
          let s := rings { slipRing with pair := 6, taken := [done] } [(6, r)]
          s.host.linkUp = true ∧ (ringAt s 5).taken = [done] ∧ (ringAt s 5).pair ≠ 5 ∧ (ringAt s 6).enable = true ∧ (ringAt s 6).kind = 1 ∧ memWf 0 s.host.mem = true)
      ∧ receipts.full = false ∧ full.full = true
      -- moderation, a vector unmasked
      ∧ (let s := rings { ev with modTime := 8, unannounced := 1, vector := 3 } []
         let m : State := { s with host := { s.host with fns := [(0, { msixEnable := true, unmasked := [3] })] } }
         (ringAt s 5).modTime ≠ 0 ∧ 0 < (ringAt s 5).unannounced ∧ (ringAt m 5).vector ∈ (fnAt m 0).unmasked ∧ (fnAt m 0).msixEnable = true
           ∧ (fnAt m 0).fnMask = false)
      ∧ (let s : State := { devQ [] with host := { linkUp := true, fns := [(0, { pendingVec := [3] })] } }
         fnPresent s 0 = true ∧ 3 < msixVectors 0 ∧ 3 ∈ (fnAt s 0).pendingVec)
      -- a read that times out
      ∧ mayTake (devQ []) 0 0 {} = true ∧ refusal (devQ []) 0 0 {} = none := by decide +kernel

theorem test_meets_HostLinkRules :
    let s : State := { devQ [(3, stream0)] with host := { linkUp := true, bar2Part := 1, bar2Size := 30, numVfs := 2,
                                                          rings := [(7, { owner := 1, enable := true, kind := 3 })] } }
    let w := devSt 2
    stagingMapped s = false ∧ bar2Mapped s = true ∧ memWf 0 s.mem.dram = true ∧ 4096 + [1, 2].length ≤ 2 ^ s.host.bar2Size
      ∧ (keyOf s 1 4096).isSome = true ∧ (∀ i, i < 2 → ((keyOf s 1 (4096 + i)).map (dramPoisoned s)) = some false)
      ∧ stagingMapped w = true ∧ memWf 0 w.sec.staging = true ∧ 2097150 + [1, 2].length ≤ 2097152
      ∧ (stagingMapped { s with err := { c4 := true } } = false ∧ bar2Mapped { s with err := { c4 := true } } = false)
      ∧ s.host.linkUp = true ∧ s.pwr.resetting = false ∧ 2 ≤ s.host.numVfs ∧ (ringAt s 7).owner = 1 ∧ s.err.c4 = false
      ∧ (let d : State := { s with host := { linkUp := false, linkLost := true } }
         d.host.linkUp = false ∧ d.host.linkLost = true ∧ d.pwr.resetting = false) := by decide +kernel

theorem test_meets_HostLinkRules_fit :
    ChannelsFit { devQ [(3, stream0)] with host := { linkUp := true, bar2Part := 1, bar2Size := 30, numVfs := 2,
                                                     rings := [(7, { owner := 1, enable := true, kind := 3 })] } } :=
  channelsFit_dev {}

/-! ### The fabric -/

/-- A read request for window 0 of this device, which is at (0, 0) beside a device at (1, 0). -/
def packet0 : Packet :=
  sealed { dst := 0, src := 0x100, ctrl := 1, type := 0x10, ttl := 8, rsv7 := 0, txid := 7, win := 0, rsv13 := 0, rlen := 64, offset := 0,
           pcrc := payloadCrc [], hcrc := 0, payload := [] }

/-- A device on the fabric with one EXPORT window on context 5 and the cores, jobs and packets given. -/
def devF (k : Core) (f : FabSt → FabSt := id) : State :=
  { dev k with
    fab := f { enable := true, sx := 4, walk := 2, root := true, call := 0, ports := [(0, { state := 2, width := 1, neighbour := 0x100 })],
               peers := [(256, { known := true, serial := 9, ports := 0x0022 }), (512, { known := true, serial := 10, ports := 0x0022 })],
               wins := [(0, { valid := true, exported := true, canRead := true, canWrite := true, ctx := 5, peer := 0xFFFF, sigEn := true, sigSem := 3, len := 4096 })] } }

/-- An outstanding packet of core 0. -/
def remote0 (kind : RemoteKind) : Remote :=
  { txid := 7, core := 0, job := 1, part := 0, kind := kind, peer := 0x100, win := 0, offset := 0, len := 64, land := 65536, sent := true }

theorem test_meets_FabricLinks :
    let s := devF {}
    let low : State := devF {} fun f => { f with walk := 1, call := 0xFFFE, wins := [], ports := [(0, { state := 2 }), (1, { state := 0 })] }
    fabricRuns s = true ∧ fabReaches s 0 = true ∧ 1 ∈ fabPorts s ∧ (fabPort s 1).state < 2 ∧ (fabPort s 0).state = 2 ∧ portUp s 0 = true ∧ ready s = true
      ∧ (s.fab.walk = 2 ∧ (1 : BitVec 16) ≠ 0xFFFE ∧ (5 : Dword) ≠ s.fab.lowest) ∧ s.fab.enable = true
      ∧ (∀ r ∈ [0, 6], (fabPort (devF {} fun f => { f with ports := [(0, { state := 4, replays := r })] }) 0).replays = r)
      ∧ (fabPort (devF {} fun f => { f with ports := [(0, { state := 2, replays := 7 })] }) 0).replays = 7
      ∧ (nbit (0x10 : Word).toNat 0 = false ∧ bits (0x10 : Word).toNat 7 4 ≠ 0 ∧ nbit (1 : Word).toNat 0 = true ∧ bits (1 : Word).toNat 7 4 = 0)
      ∧ (∀ w ∈ low.fab.wins, w.2.valid = false) ∧ (∃ w ∈ s.fab.wins, w.2.valid = true)
      ∧ (let d : State := { devF {} fun f => { f with linksDownDue := true } with pwr := { stage := 7, resetting := false, coldBoot := false, level := 4 } }
         d.fab.linksDownDue = true ∧ d.pwr.level = 4)
      ∧ fabricRuns low = true ∧ low.fab.walk = 1 ∧ low.fab.call = 0xFFFE ∧ low.fab.lowest = low.nv.serial ∧ portUp low 0 = true
      ∧ (devF {} fun f => { f with lowest := 3 }).fab.lowest ≠ s.nv.serial
      ∧ (3 < s.fab.sx ∧ 0 < s.fab.sy ∧ s.fab.call = callAt 0 0 ∧ s.fab.call ≠ callAt 3 0 ∧ s.fab.call ≠ 0xFFFE ∧ (1 : BitVec 16) ≠ s.fab.call)
      ∧ (let w := tget s.fab.wins {} 0
         let on : Word := BitVec.ofNat 32 (2 ^ 31)
         let keep : Word := BitVec.ofNat 32 (7 * 2 ^ 28 + 5 * 2 ^ 16 + 0xFFFF)
         w.valid = true ∧ (tget s.fab.wins {} 255).valid = false ∧ nbit on.toNat 31 = true ∧ nbit keep.toNat 31 = false ∧ winCtl keep.toNat w = w
           ∧ winCtl 0 w ≠ w ∧ s.fab.lock = false ∧ goodFabCfg (2 ^ 31 + 0x0300) = true ∧ goodFabCfg (2 ^ 31 + 2 ^ 30 + 0x0101) = true) := by decide +kernel

theorem test_meets_FabricAccesses_forward :
    let s := devF {}
    let p : Packet := sealed { packet0 with dst := 0x200 }
    let q := leaving s { input := 0, pkt := p, ways := [(0, false)] } 0 false
    flitsArrive s = s ∧ arrives s 0 p = true ∧ p.dst ≠ s.fab.call ∧ dropsPacket (sealed { p with ttl := 0 }) = true ∧ arrives s 0 { p with ttl := 0 } = true
      ∧ dropsPacket { p with hcrc := 0 } = true ∧ dropsPacket p = false ∧ s.fab.call ≠ 0xFFFE ∧ p.dst ≠ 0xFFFF ∧ egress s p.dst = some (0, false)
      ∧ s.fab.held = [] ∧ 2 ≤ (fabPort s 0).state ∧ hasCredits s 0 q = true
      ∧ (let b : Packet := sealed { packet0 with dst := 0xFFFF, type := 3, rlen := 0, ctrl := 0 }
         let two := devF {} fun f => { f with ports := [(0, { state := 2 }), (1, { state := 2 })] }
         arrives two 0 b = true ∧ dropsPacket b = false ∧ b.dst = 0xFFFF ∧ b.dst ≠ two.fab.call ∧ 1 ∈ fabPorts two ∧ portUp two 1 = true
           ∧ ClearPort two 1) := by decide +kernel

/-- A packet without credits waits, where the flits bring none back. -/
theorem test_meets_FabricAccesses_wait (h : ∀ a b c, Config.creditsBack a b c = 0) :
    let s := devF {} fun f => { f with ports := [(0, { state := 2, used := [(4, 16), (5, 16), (6, 16)] })] }
    let p : Packet := sealed { packet0 with dst := 0x200 }
    let s0 := flitsArrive s
    arrives s0 0 p = true ∧ egress s0 p.dst = some (0, false) ∧ s0.fab.held = [] ∧ 2 ≤ (fabPort s0 0).state
      ∧ hasCredits s0 0 (leaving s0 { input := 0, pkt := p, ways := [(0, false)] } 0 false) = false := by
  simp only [flitsArrive, creditsReturn, h]
  decide +kernel

theorem test_meets_FabricAccesses_serve :
    let s := devF {}
    let b := List.replicate 64 7
    let w : Packet := sealed { packet0 with type := 0x11, ctrl := 3, rlen := 0, pcrc := payloadCrc b, payload := b }
    let g : Packet := sealed { packet0 with type := 0x12, rlen := 0 }
    (∀ p ∈ [packet0, w, g, sealed { packet0 with win := 9 }, sealed { w with win := 9 }],
      arrives s 0 p = true ∧ p.dst = s.fab.call ∧ dropsPacket p = false ∧ pcrcOk p = true ∧ egress s p.src = some (0, false))
      ∧ (∀ p ∈ [{ packet0 with pcrc := 1 }, { w with pcrc := 0 }, { g with pcrc := 1 }, { w with type := 0x20, ctrl := 2, offset := 0, pcrc := 0 }].map sealed,
        arrives s 0 p = true ∧ p.dst = s.fab.call ∧ dropsPacket p = false ∧ pcrcOk p = false)
      ∧ flitsArrive s = s ∧ ClearPort s 0
      ∧ refusalOf s packet0 64 false = none ∧ (exportPlace s packet0).isSome = true ∧ exportPoisoned s ctx0 0 64 = false ∧ exportPlace s packet0 = some (5, ctx0, 0)
      ∧ (refusalOf s { packet0 with win := 9 } 64 false).isSome = true ∧ refusalOf s w 64 true = none ∧ exportPlace s w = some (5, ctx0, 0)
      ∧ (refusalOf s { w with win := 9 } 64 true).isSome = true
      ∧ writeLost s ctx0 0 64 = false ∧ memWf 0 s.mem.dram = true ∧ (∀ i ∈ List.range 64, ((shareKey s ctx0 i).map (dramPoisoned s)) = some false)
      ∧ ((List.range 64).filterMap (shareKey s ctx0)).Nodup
      ∧ refusalOf s g 0 true = none ∧ residencyOf s 0 5 = some res0 ∧ (tget s.fab.wins {} 0).sigEn = true ∧ (tget s.fab.wins {} 0).sigSem < res0.nsem
      ∧ tget (cluAt s 0).sems 0 3 < 65535 ∧ (∀ i, i < 5 → (coreAt s i).part = none) := by decide +kernel

theorem test_meets_FabricAccesses_ends :
    let s (k : RemoteKind) (op : RemoteOp) (resent : Bool) : State :=
      devF { core {} with part := some { part0 with wait := .remote op } } fun f => { f with remotes := [{ remote0 k with resent := resent }] }
    let r (t : Nat) (reason : Nat) : Packet := sealed { packet0 with type := BitVec.ofNat 8 t, rlen := 0, offset := BitVec.ofNat 64 reason }
    let data : Packet := sealed { packet0 with type := 0x20, rlen := 0, pcrc := payloadCrc (List.replicate 64 1), payload := List.replicate 64 1 }
    ((∀ a ∈ [(RemoteKind.load, RemoteOp.load (tens 0 6 65536 16384 64 1) (tens 1 6 0 1024 64 1) false), (.store, .store)], ∀ b ∈ [true, false],
      let t := s a.1 a.2 b
      fabricRuns t = true ∧ ready t = true ∧ awaited t (r 0x20 0) = some { remote0 a.1 with resent := b } ∧ (∀ x ∈ t.fab.remotes, x.sent = true)
        ∧ rising t.cores = true ∧ flitsArrive t = t ∧ ClearPort t 0 ∧ packetsOf t 0 = [{ remote0 a.1 with resent := b }] ∧ logicalOf t 0 = some 0 ∧ (waitingEnv t 0).isSome = true
        ∧ remoteOpOf t 0 = some a.2 ∧ memWf 0 (coreAt t 0).carrel = true ∧ (∀ x ∈ t.fab.remotes, x.txid = 7 → x = { remote0 a.1 with resent := b })
        ∧ egress t (remote0 a.1).peer = some (0, false)))
      ∧ (∀ q ∈ [data, r 0x21 0, r 0x22 3, r 0x22 1, r 0x22 5], q.dst = 0 ∧ dropsPacket q = false ∧ pcrcOk q = true)
      ∧ (let t := s .store (.commit 7) false
         remoteOpOf t 0 = some (.commit 7) ∧ wantsSignal t 5 (remote0 .store) = false ∧ jobOf t 1 = some job0
           ∧ (waitingEnv t 0).map (fun e => (e.part.stopping, e.part.halted, e.core.halo, e.part.ctx, e.part.job)) = some (false, none, [], 5, 1))
      ∧ (let two : State := devF { core {} with part := some { part0 with wait := .remote .store } } fun f =>
            { f with remotes := [remote0 .load, { remote0 .load with txid := 8 }] }
         awaited two packet0 = some (remote0 .load) ∧ fabricRuns two = true ∧ (∃ x ∈ packetsOf two 0, x.txid ≠ 7 ∧ x.answered = false)) :=
  ⟨by decide +kernel, by decide +kernel⟩

/-! ### Safety, power, registers -/

theorem test_meets_SpigotAndSafeOk :
    let st : Stream := { stream0 with part := 0 }
    let s : State := { devQ [(3, st), (4, stream0)] with
      saf := { ok := true, lineA := true, lock := true, driven := true, bound := [(6, (3, 1)), (7, (9, 1))],
               watches := [(0, { en := true, stream := 3, budget := 100, silence := 100, timer := true }), (1, { stream := 3 })] },
      parts := [(0, { present := true }), (1, { present := true })] }
    let opened : State := { s with saf := { s.saf with lock := false, ok := false } }
    let on : Word := BitVec.ofNat 32 (2 ^ 31 + 3)
    (∀ k w, s.saf.spigot ≠ .run k w)
      ∧ (s.pwr.resetting = false ∧ s.err.c4 = false ∧ s.saf.held = false ∧ watched s 3 = true ∧ timedWatch s 3 = true ∧ (strm s 3).state = .running
      ∧ rising s.saf.bound = true ∧ rising s.saf.watches = true ∧ s.saf.ok = true ∧ opened.saf.ok = false
      ∧ (∀ x ∈ [s, opened], safReaches x 0 = true) ∧ s.saf.arm = false ∧ nbit (1 : Word).toNat 0 = true ∧ nbit (0 : Word).toNat 0 = false
      ∧ s.saf.lock = true ∧ (partAt s 0).present = true ∧ (partAt s 0).c3 = false ∧ s.varMis = false ∧ keepsFtti s = true
      ∧ keepsFtti { s with saf := { s.saf with watches := [(0, { en := true, stream := 3, budget := 200000 })] } } = false
      ∧ (partAt { s with parts := [] } 0).present = false)
      ∧ nbit on.toNat 31 = true ∧ bits on.toNat 9 0 = 3 ∧ opened.saf.lock = false ∧ refusesWatch opened 0 3 = false ∧ refusesWatch opened 63 3 = true
      ∧ refusesWatch { opened with saf := { lock := false } } 63 3 = false ∧ (tget opened.saf.watches {} 0).en = true ∧ (tget opened.saf.watches {} 0).stream = 3
      ∧ spigotUp s = true ∧ ({ s with saf := { s.saf with spigot := .run 255 0 } }).saf.spigot = .run 255 0
      ∧ spigotUp { s with saf := { s.saf with held := true } } = false ∧ (0x77 : Byte) ∉ [(0x5A : Byte), 0x5B, 0x3C, 0x66] :=
  ⟨nofun, by decide +kernel, by decide +kernel⟩

theorem test_meets_PowerAndReset :
    let s : State := { devSt 7 with pwr := { stage := 7, resetting := false, coldBoot := false, samples := [(10, 2)], brakeSamples := 2, siSamples := 2 } }
    let fallen : State := { devSt 7 with pwr := { stage := 7, resetting := false, level := 3, demand := 1 } }
    let up : State := { State.reset with pwr := { railsUp := allRails } }
    let f : BootFacts := { variantHigh := true, bootSrc := 1, fuseError := false, flash := none, board := none, trained := [], rdimm := false, rate := 0, retired := [] }
    running s = true ∧ s.pwr.resetting = false ∧ shedRail .cd0 = some 0 ∧ shedBelow s 1 = 940 ∧ 939 < shedBelow s 1 ∧ 2 ≤ tget s.pwr.samples 0 (10 * 1 + 0)
      ∧ 2 ≤ s.pwr.brakeSamples ∧ 2 ≤ s.pwr.siSamples ∧ fallen.pwr.demand < fallen.pwr.level ∧ s.err.c4 = false ∧ s.pwr.crystalLost = false
      ∧ (0 ≤ 101 ∧ adaptive 0 = true ∧ 0 ∉ s.pwr.stopped) ∧ (tget s.dies {} 1).withdrawn = false
      ∧ (tget ({ s with dies := [(0, { lanes := 9 })] } : State).dies {} 0).lanes - 1 < 9
      ∧ SampleRail.sram ∉ s.pwr.railsUp ∧ (∃ q ∈ allRails, railStep q < railStep .sram ∧ q ∉ s.pwr.railsUp) ∧ (∀ q ∈ allRails, railStep q < railStep .sram → q ∈ up.pwr.railsUp)
      ∧ (s.host.linkUp = true ∧ blockUp s 85 = true ∧ nbit (0xD5000001 : Word).toNat 0 = true ∧ bits (0xD5000001 : Word).toNat 31 24 = 0xD5 ∧ bits (0xD4000001 : Word).toNat 31 24 ≠ 0xD5
          ∧ nbit (0x30 : Word).toNat 0 = false)
      ∧ up.pwr.resetting = true ∧ (∀ r ∈ allRails, r ∈ up.pwr.railsUp) ∧ up.nv.lcs < 4 ∧ tornTo up.nv = none ∧ f.fuseError = false ∧ f.bootSrc % 4 = 1
      ∧ goodBoard (f.board.getD up.nv.board) = false ∧ imageCheck 2097152 [] up ≠ 0
      ∧ ({ up with nv := { lcs := 4 } } : State).nv.lcs = 4 ∧ (∃ r ∈ allRails, r ∉ State.reset.pwr.railsUp)
      ∧ (∀ n ∈ [4, 5], (devSt n).pwr.stage = n ∧ (devSt n).pwr.resetting = false ∧ (devSt n).err.c4 = false) := by decide +kernel

theorem test_meets_RegistersAndMailbox :
    let s : State := { devSt 7 with host := { linkUp := true, fns := [(0, { mbxBusy := true, mbxSel := 0xC0002 }), (1, { mbxBusy := true, mbxSel := 0x70000 })], numVfs := 1 } }
    hostReaches s 0 = true ∧ hostReaches s 1 = true ∧ s.pwr.resetting = false ∧ (fnAt s 0).mbxBusy = true ∧ (mailRecord s 0 0xC0002).isSome = true
      ∧ (fnAt s 1).mbxBusy = true ∧ mailRecord s 1 0x70000 = none
      ∧ pf0Reaches s 0 = true ∧ pwrLocked s = false ∧ running s = true ∧ s.saf.held = false ∧ s.saf.lock = false ∧ blockUp s 84 = true ∧ s.fab.lock = false
      ∧ islandDown s s.pmuIsl = false ∧ s.err.parity.contains 0x050000 = false
      ∧ 120 ≤ bits (120 : Dword).toNat 8 0 ∧ bits (400 : Dword).toNat 8 0 ≤ 400 ∧ 400 < bits (401 : Dword).toNat 8 0
      ∧ bits (0xAAB0B6BC : Dword).toNat 7 0 = 188 ∧ s.err.parity = [] ∧ s.pwr.level < 1 ∧ s.err.c4 = false
      ∧ alreadyMarred 0x20 s = false ∧ alreadyMarred 0x20 { s with err := { parity := [0x20] } } = true ∧ alreadyMarred (0x400000 + 0x400 * 4095 + 0x1C) s = false
      ∧ smbusUp { s with pwr := { s.pwr with railsUp := [.aon] } } = true ∧ smbusUp s = false := by decide +kernel

/-! ### Well-formedness: each check refuses an ill-formed command and takes the largest number it allows -/

/-- A slip of ring n. -/
def slipOn (n : Nat) : SlipIn := { slip [] 0 with ring := n }

/-! ### Completion -/

theorem test_meets_CommandsComplete_program :
    let r : Regs := { vregs with a := [(1, tens 0 6 65536 1024 64 2 [(129, 116, 2)]), (2, tens 0 6 65536 0 64 1), (3, tens 1 9 0 0 4 1), (4, tens 0 9 65536 0 4 1)] }
    let k := coreE r engine0
    let e := env k
    let s := devS k
    let d := fun n => descOf (areg r n)
    let w := { fz with ad := 1, xf := 0x9 }
    let n := { fz with mod := 5, rd := 1, xf := 1, imm := 511 * 2 ^ 48 + 1 }
    let v := { fz with mod := 9, rd := 1, ra := 2, pm := 1 }
    let c := { fz with rd := 1, ra := 4, pm := 1 }
    let m := { fz with rd := 1, xf := 3, imm := 2 }
    let g := { fz with xf := 3, imm := 65533 }
    let q := { fz with mod := 1, ad := 3, aa := 4, imm := 7 }
    (Issues s 0 e ∧ Readable [] ∧ e.core.halo = [])
      ∧ (stray { ad := true, xf := 0xF } w = false ∧ w.xf.toNat % 4 = 1 ∧ w.xf.toNat / 4 % 4 = 2 ∧ Clean (descChecks 1 (d 1)) ∧ weightShapeBad (d 1) 2 = false
          ∧ inShare e false (d 1).base (spanBytes (d 1)) = true ∧ inShare e false (d 1).hbase (4 * weightHdrs (d 1)) = true)
      ∧ (stray { xf := 0x3F } { fz with xf := 0x3D } = false ∧ (0x3D : BitVec 13).toNat / 4 % 4 ≤ (0x3D : BitVec 13).toNat / 16 % 4
          ∧ (0x3D : BitVec 13).toNat / 16 % 4 < prog0.accBanks)
      ∧ (stray { mod := 0xF, rd := true, aa := n.mod.getLsbD 3, xf := 0xF, imm := 0x01FF0000000003FF } n = false ∧ n.mod.getLsbD 2 = true
          ∧ n.mod.toNat % 4 = 1 ∧ n.imm.toNat % 1024 = 1 ∧ n.imm.toNat / 2 ^ 48 % 512 < 128 * prog0.accBanks ∧ n.mod.getLsbD 3 = false
          ∧ (let h := { n with mod := 13, aa := 2 }
             stray { mod := 0xF, rd := true, aa := h.mod.getLsbD 3, xf := 0xF, imm := 0x01FF0000000003FF } h = false ∧ Clean (descChecks 2 (d 2)))
          ∧ ∀ j, j < 512 → colState (tget (engAt e.core 0).accState 0 (128 * res0.bankBase + n.imm.toNat / 2 ^ 48 % 512)) j = 0)
      ∧ (stray { mod := 0x1F, rd := true, ra := true, pm := true } v = false ∧ v.mod.toNat / 4 % 8 < 3 ∧ v.mod.toNat % 4 ≠ 3 ∧ EvenIf (v.mod.toNat % 4) [v.ra])
      ∧ (stray { rd := true, ra := true, pm := true, imm := 0xF } c = false ∧ (ctx0.curves[c.imm.toNat % 16]?).isSome)
      ∧ (stray { rd := true, xf := 0xFF, imm := 0x0000FFFFFF00FFFF } m = false ∧ m.imm.toNat % 2 ^ 16 ≠ 0 ∧ m.xf.toNat % 256 < prog0.nsem
          ∧ m.imm.toNat % 2 ^ 16 ≤ tget (cluAt s 0).sems 0 3)
      ∧ (stray { mod := 1, xf := 0xFF, imm := 0xFFFF } g = false ∧ g.mod.getLsbD 0 = false ∧ part0.dead = false
          ∧ tget (cluAt s 0).sems 0 3 + g.imm.toNat % 2 ^ 16 ≤ 65535)
      ∧ (stray { mod := 3 } { fz with mod := 2 } = false ∧ (2 : BitVec 8).toNat % 4 < 3)
      ∧ (stray { mod := 1, ra := true, ad := true, aa := true, imm := 0xFFFFFFFF } q = false ∧ Clean (descChecks 3 (d 3)) ∧ Clean (descChecks 4 (d 4))
          ∧ shapeOk false (d 3) (d 4) = true ∧ (d 3).glob = true ∧ (d 4).glob = false ∧ tensorInShare e (d 3) = true ∧ tensorInShare e (d 4) = true
          ∧ (∀ x ∈ tensorRanges (d 3), importsMeeting s 5 x.1 x.2 = []) ∧ jobOf s 1 = some job0
          ∧ (claimAt s 5 (frameNumber s job0) (sreg r q.ra + q.imm.extractLsb' 0 32)).map (·.state) = some (.won 1 2)) := by
  refine ⟨⟨rfl, by decide +kernel, rfl⟩, by decide +kernel, by decide +kernel, ?_, by decide +kernel⟩
  decide +kernel

/-- No part of the cluster waits in SEMW there, and one does here. -/
theorem test_meets_CommandsComplete_waits (r : Regs) :
    (∀ i, i < 5 → ∀ p, (coreAt (devS (coreE r engine0)) (5 * (0 / 4) + i)).part = some p → ∀ x y z, p.wait ≠ .semw x y z)
      ∧ (let w : Core := { core {} with part := some { part0 with wait := .semw 3 5 1 } }
         waitingEnv (devS w) 0 = some (env w) ∧ (coreAt (devS w) 0).part = some { part0 with wait := .semw 3 5 1 }) := by
  refine ⟨?_, by decide +kernel⟩
  intro i hi p hp
  rcases i with _ | i
  · cases hp; nofun
  · simp [coreAt, devS, dev, tget] at hp

theorem test_meets_CommandsComplete_work :
    let s := devJ {} [queued 7 1, queued 8 1, queued 9 2]
    let waits : Job := { job0 with id := 4, ctx := 6, role := 1, state := .waiting }
    let few : Partition := { present := true, cores := 0xF, slots := [1], ways := [16] }
    let v : State := { devJ {} [waits] with ctxs := [(5, ctx0), (6, ctx0)], parts := [(1, few)] }
    let gone : State := { v with clusters := [(0, { evicting := some (0, 5, 7) })] }
    (ready s = true ∧ queueLen s 0 = 0 ∧ coreFree s (partOfCore s 0) 0 = true ∧ 1 ∈ coresIn s (partOfCore s 0) ∧ (stealable s 0 1).isSome)
      ∧ (let mine := (cluAt v 0).residencies.filter fun x => x.2.part == 1
         ready v = true ∧ (cluAt v 0).evicting = none ∧ mine ≠ [] ∧ (partAt v 1).slots.getD 0 0 ≤ mine.length
           ∧ (∀ x ∈ mine, residencyBlocked v 0 x.2.ctx = true) ∧ waitingCtxs v 1 0 ≠ [])
      ∧ (ready gone = true ∧ (cluAt gone 0).evicting = some (0, 5, 7) ∧ ctxAt gone 7 = none) := by decide +kernel

/-- Queues of three jobs are short. -/
theorem test_meets_CommandsComplete_queues (k : Nat) : queueLen (devJ {} [queued 7 1, queued 8 1, queued 9 2]) k < 2 ^ 32 :=
  Nat.lt_of_le_of_lt (List.length_filter_le _ _) (by decide)

theorem test_meets_CommandsComplete_video :
    let s : State := { devQ [(3, { stream0 with frames := [coded0] })] with mem := { (dev {}).mem with pools := [(2, { pool0 with k := 16 })] } }
    let head : AuHead := { randomAccess := true }
    let busy : State := { s with media := [(4, { state := 1, stream := 3, order := 0, buf := some 1048576 })],
                                 streams := [(3, { stream0 with frames := [coded0], started := true })] }
    let unit : CodeUnit := { x := 0, y := 0, w := 16, h := 16, data := some (0, 8), entry := true }
    let pre : Frame := { coded0 with stage := .preproc, num := some 0, admitted := 1, buf := some 1048576, winW := 16, winH := 16 }
    let waits : State := devQ [(3, { stream0 with frames := [pre] })]
    let works : State := { waits with ppus := [(2, { work := some (3, pre.order) })] }
    (upAt s (48 + 31) = true ∧ (mediaIn s (strm s 3).part).contains 31 = true ∧ (mediaAt s 31).state = 0 ∧ pausedPart s (strm s 3).part = false
        ∧ nextDecoded s (strm s 3).part 31 = some (3, coded0) ∧ (strm s 3).refused = none ∧ coded0.hasPicture = true
        ∧ head.failure = none ∧ head.shows = none ∧ shedsOdd s (strm s 3) = false ∧ (drawFor 1 (.stream 3) (strm s 3).owner s).1 = some 1048576)
      ∧ (upAt busy (48 + 4) = true ∧ (mediaAt busy 4).state = 1 ∧ (mediaAt busy 4).buf = some 1048576 ∧ frameOf busy 3 0 = some coded0
          ∧ coded0.result = none ∧ true ∈ unitsDecoded busy (strm busy 3) coded0 { units := [unit] })
      ∧ (upAt waits nocIsland = true ∧ (ppUnits waits (strm waits 3).part).contains 7 = true ∧ (ppuAt waits 7).work = none
          ∧ nextServed waits (strm waits 3).part = some (3, pre) ∧ pre.lastUnit ≠ some 7)
      ∧ (upAt works nocIsland = true ∧ (ppuAt works 2).work = some (3, pre.order)) :=
  ⟨by decide +kernel, by decide +kernel, by decide +kernel⟩

theorem test_meets_CommandsComplete_clips :
    let s : State := { devQ [(3, stream0)] with clips := [clip0] }
    let codes : State := { s with encs := [(3, { state := 1, clip := some (0, 21) })] }
    let bare : Clip := { clip0 with ready := [] }
    let b : State := { s with clips := [bare] }
    (upAt s (80 + 3) = true ∧ (encAt s 3).state = 0 ∧ partOfEnc s 3 = some 1 ∧ s.pwr.level = 0 ∧ clip0 ∈ clipsOn s 3 ∧ (headReady clip0).isSome
        ∧ ∀ x ∈ s.clips, x.core = none → x.ended = true)
      ∧ (upAt codes (80 + 3) = true ∧ (encAt codes 3).state = 1 ∧ (encAt codes 3).clip = some (0, 21) ∧ clipOf codes 0 21 = some clip0)
      ∧ (upAt b nocIsland = true ∧ clipOf b 0 21 = some bare ∧ b.pwr.level = 0 ∧ bare.closed = false ∧ bare.ready = []) := by decide +kernel

/-- A picture that a core codes and that just fits. -/
theorem test_meets_CommandsComplete_fit :
    let r : ClipPic := { pts := 1000, num := 0, arrived := 5, src := .gap, winW := 16, winH := 16 }
    let s : State := { devQ [(3, stream0)] with encs := [(3, { state := 1, clip := some (0, 21) })] }
    let second : Clip := { clip0 with coded := 1, maxPic := 3 }
    let k : Clip := { second with hlen := indexArea 3 + (codedBytes s second r keys).2.length }
    let t : State := { s with clips := [k] }
    upAt t (80 + 3) = true ∧ (encAt t 3).state = 1 ∧ (encAt t 3).clip = some (k.fn, k.id) ∧ clipOf t k.fn k.id = some k ∧ k.ready.head? = some r
      ∧ indexArea k.maxPic + k.bytes + (codedBytes t k r keys).2.length ≤ k.hlen := by
  intro r s second k t
  have e : (codedBytes t k r keys).2 = (codedBytes s second r keys).2 :=
    (codedBytes_skip t k r keys rfl rfl rfl).trans (codedBytes_skip s second r keys rfl rfl rfl).symm
  refine ⟨rfl, rfl, rfl, rfl, rfl, ?_⟩
  rw [e]
  show indexArea 3 + 0 + (codedBytes s second r keys).2.length ≤ indexArea 3 + (codedBytes s second r keys).2.length
  omega

theorem test_wf_refuses :
    [Instr.add 32 ⟨fz, []⟩, .haloTransferDone 0 4 [], .jobStart (.adapt 1024 0) [0], .jobStart (.adapt 0 256) [0], .jobStart (.queued 1) [0, 32], .eviction 8 1,
     .eviction 0 4, .contextReplaceSwap 1024, .inServiceTestStart (.core 40), .inServiceTestStart (.media 32), .trackerStep 1024 0 [] false, .nop 0 ⟨0x10, fz, []⟩,
     .batchWindowExpiry 0 0 256, .slotEnd (.post 8), .ethFrameReceive 2 [] [], .rxtail 32 0 0, .decodeStart 0 32 none {}, .preprocessStart 8 0,
     .encodeStart 4, .query (slipOn 4096), .kilnGroupStart 0].all (fun i => !i.wf) = true := by decide +kernel

theorem test_wf_refuses_more :
    [Instr.receiptWrite 4096, .msixUnmask 0 2048 { msixEnable := true, fnMask := false, intxDisable := false, numVfs := 0, bar2Size := 27 },
     .cellarDraw 64 (.stream 0) false, .cellarDraw 0 (.stream 1024) false, .cellarDraw 0 (.residency 0 4 0) false, .cellarReturn 0 0 (.partition 4), .dramRefresh 8 0 false,
     .dramRetrain 0 2, .fabLinkUp 0 3 0 0, .cat 4 0 0 0 0, .assign 0 256 0, .read 0 { packet0 with payload := List.replicate 4097 0 },
     .remotePacketTimeout 65536, .fabWinValid 0 256 0, .watchEnable 0 64 0, .powerEstimate 0 0 64, .islandClockStop 102, .laneGroupFailure 2, .lock 0 0 1,
     .parityScan 0x42 true, .pmuEvt 0 8 0, .registerWrite { fn := 0, offset := 0x42, size := 4, value := 0, whole := true},
     .registerWrite { fn := 0, offset := 0x40, size := 2, value := 0, whole := true}, .registerWrite { fn := 0, offset := 0x40, size := 4, value := 0, whole := false},
     .registerWrite { fn := 0, offset := 0x40, size := 4, value := 0x100000000, whole := true}].all (fun i => !i.wf) = true := by decide +kernel

theorem test_wf_takes :
    [Instr.add 31 ⟨fz, []⟩, .nop 31 ⟨0xFF, fz, []⟩, .haloTransferDone 31 3 [], .jobStart (.adapt 1023 255) [0, 31], .eviction 7 3, .contextReplaceSwap 1023, .inServiceTestStart (.core 39),
     .inServiceTestStart (.media 31), .slotEnd (.post 7), .rxtail 31 1 0, .decodeStart 1023 31 none {}, .query (slipOn 4095), .kilnGroupStart 1,
     .fabLinkUp 3 2 0 0, .assign 0 255 255, .read 3 packet0, .remotePacketTimeout 65535, .watchEnable 31 63 0, .islandClockStop 101, .lock 0 0x060004 1,
     .registerWrite { fn := 31, offset := 0x42, size := 4, value := 0, whole := true }].map Instr.wf
      = List.replicate 20 true ++ [false] := by decide +kernel

/-! ### Words of the Aethod instructions, one of each family, written from Tables 5.1 and 5.6 to 5.17 -/

/-- The word of Table 5.1 with the fields in its order: OPC, MOD, RD, RA, RB, RC, AD, AA, AB, PM, XF, IMM. -/
theorem test_word_semw_of_the_spec : aethodDecode 4 0x900048000000000C0000013880000001#128
    = some (.semw 4 ⟨{ fz with rd := 9, xf := 12, imm := 0x0000013880000001 }, []⟩) := rfl

theorem test_word_control : aethodDecode 0 (0x03#8 ++ 0x04#8 ++ 0#5 ++ 1#5 ++ 2#5 ++ 0#5 ++ 0#4 ++ 0#4 ++ 0#4 ++ 0#3 ++ 0#13 ++ 32#64)
    = some (.brc 0 ⟨{ fz with mod := 4, ra := 1, rb := 2, imm := 32 }, []⟩) := rfl

theorem test_word_scalar : aethodDecode 0 (0x1E#8 ++ 0x80#8 ++ 7#5 ++ 0#5 ++ 0#5 ++ 0#5 ++ 0#4 ++ 0#4 ++ 0#4 ++ 0#3 ++ 0#13 ++ 0xFFFFFFFF#64)
    = some (.ldi 0 ⟨{ fz with mod := 0x80, rd := 7, imm := 0xFFFFFFFF }, []⟩) := rfl

theorem test_word_descriptor : aethodDecode 0 (0x23#8 ++ 0#8 ++ 0#5 ++ 3#5 ++ 4#5 ++ 0#5 ++ 9#4 ++ 0#4 ++ 0#4 ++ 0#3 ++ 2#13 ++ 0#64)
    = some (.dadv 0 ⟨{ fz with ra := 3, rb := 4, ad := 9, xf := 2 }, []⟩) := rfl

theorem test_word_tile : aethodDecode 0 (0x30#8 ++ 1#8 ++ 0#5 ++ 0#5 ++ 0#5 ++ 0#5 ++ 1#4 ++ 2#4 ++ 0#4 ++ 0#3 ++ 0#13 ++ 0#64)
    = some (.tld 0 { fz with mod := 1, ad := 1, aa := 2 } []) := rfl

theorem test_word_array : aethodDecode 0 (0x44#8 ++ 2#8 ++ 1#5 ++ 0#5 ++ 0#5 ++ 0#5 ++ 3#4 ++ 0#4 ++ 0#4 ++ 0#3 ++ 0x15#13 ++ 0x0001000200030004#64)
    = some (.adrn 0 { fz with mod := 2, rd := 1, ad := 3, xf := 0x15, imm := 0x0001000200030004 } []) := rfl

theorem test_word_vector : aethodDecode 0 (0x59#8 ++ 0x05#8 ++ 6#5 ++ 2#5 ++ 0#5 ++ 0#5 ++ 0#4 ++ 0#4 ++ 0#4 ++ 7#3 ++ 0#13 ++ 0#64)
    = some (.vred 0 { fz with mod := 5, rd := 6, ra := 2, pm := 7 } []) := rfl

theorem test_word_quantiser : aethodDecode 0 (0x70#8 ++ 0x01#8 ++ 0#5 ++ 2#5 ++ 4#5 ++ 0#5 ++ 5#4 ++ 0#4 ++ 0#4 ++ 0#3 ++ 0#13 ++ 0#64)
    = some (.qnt 0 { fz with mod := 1, ra := 2, rb := 4, ad := 5 } []) := rfl

theorem test_word_postprocessing : aethodDecode 0 (0x80#8 ++ 0x03#8 ++ 1#5 ++ 0#5 ++ 0#5 ++ 0#5 ++ 1#4 ++ 2#4 ++ 3#4 ++ 0#3 ++ 0#13 ++ 9#64)
    = some (.ppc 0 { fz with mod := 3, rd := 1, ad := 1, aa := 2, ab := 3, imm := 9 } []) := rfl

theorem test_word_work : aethodDecode 0 (0xA1#8 ++ 0#8 ++ 1#5 ++ 2#5 ++ 0#5 ++ 0#5 ++ 0#4 ++ 0#4 ++ 0#4 ++ 0#3 ++ 0#13 ++ 77#64)
    = some (.claim 0 ⟨{ fz with rd := 1, ra := 2, imm := 77 }, []⟩) := rfl

theorem test_word_checking : aethodDecode 0 (0xB0#8 ++ 0#8 ++ 1#5 ++ 0#5 ++ 0#5 ++ 0#5 ++ 0#4 ++ 0#4 ++ 0#4 ++ 0#3 ++ 0xD#13 ++ 0#64)
    = some (.proof 0 { fz with rd := 1, xf := 0xD } []) := rfl

/-- Opcodes that Table 5.6 does not list decode to the word that raises cause 0x01. -/
theorem test_word_unlisted : ([0x06, 0x0F, 0x24, 0x34, 0x45, 0x63, 0x73, 0x81, 0x93, 0xA3, 0xB2, 0xC0, 0xFF] : List (BitVec 8)).all
    (fun o => aethodDecode 0 (aethodWord o fz) == some (.nop 0 ⟨o, fz, []⟩)) = true := by decide +kernel

/-- The table of commands gives no row any bits, so no word spells a command (log entry 1). -/
theorem test_no_table_words : decodeTableWord 128 0x900048000000000C0000013880000001 = none ∧ State.reset.withFetchWord 128 0x90 = State.reset :=
  ⟨rfl, rfl⟩

/-! ### Worked examples of the spec -/

/-- Chapter 2, "an A4 header": SCALE 0x62, zero point 7, tag 44 give 0x972C_0762. -/
theorem test_a4_header : sealHdr 44 0x0762 = 0x972C0762 ∧ crcGood 0x972C0762 = true ∧ zeroPoint 0 0x972C0762 = 7
    ∧ [crc8Byte 0xFF 0x62, crc8Byte 0xDA 0x07, crc8Byte 0x1D 0x2C] = [0xDA, 0x1D, 0x97] := by decide +kernel

/-- Table 2.6: the levels of FP4 E2M1 as codebook 3. -/
theorem test_fp4_codebook :
    let cb : List Byte := List.replicate 48 0 ++ [0x00, 0x01, 0x02, 0x03, 0x04, 0x06, 0x08, 0x0C, 0x00, 0xFF, 0xFE, 0xFD, 0xFC, 0xFA, 0xF8, 0xF4]
    goodCodebooks cb = true ∧ level cb 3 0b0111 = 12 ∧ level cb 3 0b1101 = -6 ∧ level cb 3 0b1111 = -12 := by decide +kernel

/-- Table 2.7: block sum 100 with scales 2^-3 * 1.25 and 2^-4 gives 0.9765625. -/
theorem test_block_pair : scaledProduct 0x62 0x58 100 = 0x3F7A0000 := by decide +kernel

/-- Chapter 1: the word 0xFFFF_FFFF of a Spigot that nobody drives does not carry its check code. -/
theorem test_spigot_undriven : spigotWord 0xFFFFFF ≠ 0xFFFFFFFF := by decide +kernel

/-- Chapter 17: at level 4 the level-4 demand of VDD_BD is judged against 86 %, level 3 against 89 %, level 1 against 95 %; from level 0 the
level-4 threshold is 85 %. -/
theorem test_shed_thresholds :
    let s : State := { State.reset with pwr := { level := 4 } }
    [shedBelow s 4, shedBelow s 3, shedBelow s 1, shedBelow State.reset 4] = [860, 890, 950, 850] := by decide +kernel

/-! ### Single steps -/

/-- The scalar result in s3 after one instruction, with s1 and s2 given. -/
def after (i : Instr) (a b : Word) : Option Word :=
  match exec i (devR { s := [(1, a), (2, b)] }) with
  | .next t => some (sreg (regsAt t 0) 3)
  | _ => none

/-- Operands s1 and s2, destination s3. -/
def f3 : Fields := { fz with rd := 3, ra := 1, rb := 2 }

theorem test_add_wraps : after (.add 0 ⟨f3, []⟩) 0xFFFFFFFF 2 = some 1 := by decide +kernel
theorem test_sub_wraps : after (.sub 0 ⟨f3, []⟩) 1 2 = some 0xFFFFFFFF := by decide +kernel
theorem test_mul_high_signed : after (.mul 0 ⟨{ f3 with mod := 1 }, []⟩) 0xFFFFFFFF 2 = some 0xFFFFFFFF := by decide +kernel
theorem test_mul_high_unsigned : after (.mul 0 ⟨{ f3 with mod := 2 }, []⟩) 0xFFFFFFFF 2 = some 1 := by decide +kernel
theorem test_div_by_zero : after (.div 0 ⟨f3, []⟩) 7 0 = some 0xFFFFFFFF := by decide +kernel
theorem test_div_most_negative : after (.div 0 ⟨{ f3 with mod := 1 }, []⟩) 0x80000000 0xFFFFFFFF = some 0x80000000 := by decide +kernel
theorem test_slt_signed : after (.slt 0 ⟨{ f3 with mod := 1 }, []⟩) 0x80000000 1 = some 1 := by decide +kernel

/-- s0 discards a write. -/
theorem test_write_s0 : (match exec (.add 0 ⟨{ f3 with rd := 0 }, []⟩) (devR { s := [(1, 5), (2, 6)] }) with
    | .next t => some (sreg (regsAt t 0) 0, (regsAt t 0).pc) | _ => none) = some (0, 16) := by decide +kernel

/-- A stray bit raises ILLEGAL with cause 0x02: the part ends. -/
theorem test_stray_bit : (match exec (.add 0 ⟨{ f3 with rc := 1 }, []⟩) (devR {}) with
    | .next t => some ((coreAt t 0).part.isNone, (coreAt t 0).fault.map (·.detail)) | _ => none) = some (true, some 0x0201) := by decide +kernel

/-- A branch to CODE_LEN raises ILLEGAL with cause 0x0C, taken or not. -/
theorem test_branch_out : (match exec (.brc 0 ⟨{ fz with mod := 1, imm := 4096 }, []⟩) (devR {}) with
    | .next t => (coreAt t 0).fault.map (·.detail) | _ => none) = some 0x0C01 := by decide +kernel

theorem test_nop_idle : step State.reset = .next State.reset := rfl

theorem test_step_takes_front : (match step { State.reset with pending := [.smbusDevId, .coldReset] } with
    | .next t => some t.pending | _ => none) = some [.coldReset] := by decide +kernel

/-- A doorbell past the ring's size is counted and moves nothing (R339). -/
theorem test_bad_doorbell : (match exec (.doorbell 0 0 64 []) (devQ []) with
    | .next t => some ((ringAt t 0).tail, (ringAt t 0).baddb) | _ => none) = some (1, 1) := by decide +kernel

/-- A slip of an unknown opcode completes with BAD_SLIP (R343). -/
theorem test_unknown_opcode : (match exec (.doorbell 0 0 1 [{ opcode := 0x13, tag := 5 }]) (devQ []) with
    | .next t => (ringAt t 0).taken.map (fun k => k.done.map (·.1)) | _ => []) = [some 0x10] := by decide +kernel

/-- SAFE_OK toggles with its two lines opposite (R417). -/
theorem test_safe_ok : (match exec .safeOkToggle { devQ [] with saf := { ok := true, lineA := true } } with
    | .next t => some (t.saf.lineA, t.saf.lineB) | _ => none) = some (false, true) := by decide +kernel

end Sys2Proof.Machine.Tests
end

section
/-! SUPPORT. A core that runs no part: what stops a job, a context or a stream gives no core a part, and changes no carrel and no fault
record (R103, R124, R125, R294, R389). -/

namespace Sys2Proof.Machine

/-- No core gains a part, and every core keeps its carrel and its fault record. -/
structure NoPartGained (s t : State) : Prop where
  idle : ∀ k, (coreAt s k).part = none → (coreAt t k).part = none
  carrel : ∀ k, (coreAt t k).carrel = (coreAt s k).carrel
  fault : ∀ k, (coreAt t k).fault = (coreAt s k).fault

/-- Steps that each leave the core table leave it together. -/
theorem foldl_cores {β : Type} {f : State → β → State} (h : ∀ s b, (f s b).cores = s.cores) (l : List β) (s : State) :
    (l.foldl f s).cores = s.cores := by
  induction l generalizing s with
  | nil => rfl
  | cons b r ih => exact (ih _).trans (h s b)

namespace NoPartGained

theorem refl (s : State) : NoPartGained s s := ⟨fun _ h => h, fun _ => rfl, fun _ => rfl⟩

theorem trans {s t v : State} (h : NoPartGained s t) (g : NoPartGained t v) : NoPartGained s v :=
  ⟨fun k hk => g.idle k (h.idle k hk), fun k => (g.carrel k).trans (h.carrel k), fun k => (g.fault k).trans (h.fault k)⟩

/-- What leaves the core table alone gives no core a part. -/
theorem of_cores {s t : State} (h : t.cores = s.cores) : NoPartGained s t := by
  have hc : ∀ k, coreAt t k = coreAt s k := fun k => by unfold coreAt; rw [h]
  exact ⟨fun k hk => by rw [hc]; exact hk, fun k => by rw [hc], fun k => by rw [hc]⟩

theorem foldl {β : Type} {f : State → β → State} (h : ∀ s b, NoPartGained s (f s b)) (l : List β) (s : State) :
    NoPartGained s (l.foldl f s) := by
  induction l generalizing s with
  | nil => exact refl s
  | cons b r ih => exact (h s b).trans (ih _)

/-- A change of one core that gives it no part and keeps its carrel and its fault record. -/
theorem modCore {ph : Nat} {f : Core → Core} {s : State} (hp : (coreAt s ph).part = none → (f (coreAt s ph)).part = none)
    (hc : (f (coreAt s ph)).carrel = (coreAt s ph).carrel) (hf : (f (coreAt s ph)).fault = (coreAt s ph).fault) :
    NoPartGained s (modCore ph f s) := by
  refine ⟨fun k hk => ?_, fun k => ?_, fun k => ?_⟩ <;> rw [coreAt_modCore] <;> split
  · next h => exact hp (h ▸ hk)
  · exact hk
  · next h => rw [hc, h]
  · rfl
  · next h => rw [hf, h]
  · rfl

end NoPartGained

/-! ### Pre-emption and granted waits (R118, R119, R293) -/

theorem preemptNow_noPartGained (ph j : Nat) (s : State) : NoPartGained s (preemptNow ph j s) := by
  unfold preemptNow
  refine (NoPartGained.modCore (fun h => ?_) ?_ ?_).trans (.of_cores (countEv_cores _ _ _ _))
  · rw [h]; exact h
  · split <;> rfl
  · split <;> rfl

theorem endFence_noPartGained (ph j : Nat) (s : State) : NoPartGained s (endFence ph j s) := by
  unfold endFence
  split
  · exact preemptNow_noPartGained ph j s
  · exact .modCore (fun h => by simp [h]) rfl rfl

theorem settleFences_noPartGained (job : Nat) (s : State) : NoPartGained s (settleFences job s) := by
  unfold settleFences
  split
  · exact .refl s
  · refine .foldl (fun s c => ?_) _ s
    split
    · split
      · exact endFence_noPartGained _ _ s
      · exact .refl s
    · exact .refl s

theorem retire_noPartGained (ph pc : Nat) (s : State) : NoPartGained s (retire ph pc s) := by
  unfold retire
  have h : NoPartGained s (countEv ph 0x10 1 (modCore ph (fun k => { k with regs := { k.regs with pc := pc } }) s)) :=
    NoPartGained.trans (.modCore id rfl rfl) (.of_cores (countEv_cores _ _ _ _))
  simp only
  split
  · exact h.trans (settleFences_noPartGained _ _)
  · exact h

/-- A granted SEMW is one of a part that its core has. -/
theorem grantOne_noPartGained (cl ph : Nat) (s : State) : NoPartGained s (grantOne cl ph s) := by
  unfold grantOne
  split
  · next p hp =>
    split
    · dsimp only
      split
      · exact .refl s
      · refine NoPartGained.trans ?_ (retire_noPartGained _ _ _)
        refine NoPartGained.trans (t := modClu cl _ s) (.of_cores rfl) (.modCore (fun h => ?_) rfl rfl)
        exact absurd (hp.symm.trans h) (by simp)
    · exact .refl s
  · exact .refl s

theorem grantSems_noPartGained (cl : Nat) (s : State) : NoPartGained s (grantSems cl s) := by
  unfold grantSems
  exact (NoPartGained.foldl (fun s ph => grantOne_noPartGained cl ph s) _ s).trans (.of_cores rfl)

theorem returnHoldings_noPartGained (job : Nat) (s : State) : NoPartGained s (returnHoldings job s) := by
  unfold returnHoldings
  refine .foldl (fun s cl => ?_) _ s
  unfold returnIn
  simp only
  split
  · exact NoPartGained.trans (t := modClu cl _ s) (.of_cores rfl) (grantSems_noPartGained _ _)
  · exact .refl s

/-! ### Stopped parts (R103, R294) -/

/-- What clearing a job's parts makes of one core. -/
def clearedCore (all : Bool) (job : Nat) (c : Core) : Core :=
  let c := if c.part.any fun p => p.job == job && !p.dead then stopOn all c else c
  { c with saved := c.saved.filter fun v => v.part.job != job }

@[simp] theorem coreAt_clearParts (all : Bool) (job : Nat) (s : State) (k : Nat) :
    coreAt (clearParts all job s) k = clearedCore all job (coreAt s k) :=
  tget_tmap s.cores {} (fun _ c => clearedCore all job c) k rfl

theorem stopOn_store (all : Bool) (c : Core) :
    (stopOn all c).carrel = c.carrel ∧ (stopOn all c).fault = c.fault ∧ (c.part = none → (stopOn all c).part = none) := by
  unfold stopOn
  split
  · exact ⟨rfl, rfl, id⟩
  · next p hp =>
    have hn : c.part ≠ none := by simp [hp]
    dsimp only
    split_ifs <;> exact ⟨rfl, rfl, fun h => absurd h hn⟩

theorem clearedCore_store (all : Bool) (job : Nat) (c : Core) :
    (clearedCore all job c).carrel = c.carrel ∧ (clearedCore all job c).fault = c.fault
      ∧ (c.part = none → (clearedCore all job c).part = none) := by
  unfold clearedCore
  dsimp only
  split
  · exact stopOn_store all c
  · exact ⟨rfl, rfl, id⟩

theorem clearParts_noPartGained (all : Bool) (job : Nat) (s : State) : NoPartGained s (clearParts all job s) where
  idle k hk := by rw [coreAt_clearParts]; exact (clearedCore_store all job _).2.2 hk
  carrel k := by rw [coreAt_clearParts]; exact (clearedCore_store all job _).1
  fault k := by rw [coreAt_clearParts]; exact (clearedCore_store all job _).2.1

/-- A running part that waits for nothing and has no transfer queued is gone once its job is stopped. -/
theorem clearedCore_part_none {all : Bool} {k : Core} {p : Part} (hp : k.part = some p) (hs : p.stopping = false) (hw : p.wait = .none)
    (hd : p.dead = false) (hh : k.halo = []) : (clearedCore all p.job k).part = none := by
  simp [clearedCore, stopOn, hp, hs, hw, hd, hh]

theorem dropPackets_noPartGained (p : Remote → Bool) (s : State) : NoPartGained s (dropPackets p s) := by
  refine .of_cores ((foldl_cores (fun s r => ?_) _ _).trans rfl)
  split <;> rfl

theorem releaseClaims_noPartGained (job : Nat) (start : Option Nat) (s : State) : NoPartGained s (releaseClaims job start s) := .of_cores rfl

theorem stopParts_noPartGained (job : Nat) (s : State) : NoPartGained s (stopParts job s) :=
  (((clearParts_noPartGained false job s).trans (returnHoldings_noPartGained job _)).trans (dropPackets_noPartGained _ _)).trans
    (releaseClaims_noPartGained job none _)

/-- After the parts of a faulted job are cleared, ending them gives no core a part. -/
theorem endParts_noPartGained (job : Nat) (s : State) : NoPartGained (clearParts true job s) (endParts job s) :=
  (returnHoldings_noPartGained job _).trans (releaseClaims_noPartGained job none _)

/-! ### Returned buffers (R319 to R324, R331) -/

theorem emit_cores (e : Event) (s : State) : (emit e s).cores = s.cores := (emit_touches e s).cores

theorem extendPool_cores {n : Nat} {s t : State} (h : extendPool n s = some t) : t.cores = s.cores := by
  unfold extendPool at h
  split at h
  · cases h
  · split at h
    · cases h
    · cases h; rfl

theorem coverPool_cores {n fuel : Nat} {s t : State} (h : coverPool n fuel s = some t) : t.cores = s.cores := by
  induction fuel generalizing s with
  | zero => simp [coverPool] at h
  | succ k ih =>
    unfold coverPool at h
    split at h
    · cases h
    · cases h
    · next hk _ =>
      cases hk
      split at h
      · cases h; rfl
      · obtain ⟨v, hv, hc⟩ := Option.bind_eq_some_iff.mp h
        exact (ih hc).trans (extendPool_cores hv)

theorem buildPool_cores {n : Nat} {q : Pool} {s t : State} (h : buildPool n q s = some t) : t.cores = s.cores := by
  obtain ⟨v, hv, hc⟩ := Option.bind_eq_some_iff.mp h
  exact ((coverPool_cores hc).trans (extendPool_cores hv)).trans (setPool_fields n q s).2.2.2.1

theorem freeExtent_cores (p x n f : Nat) (s : State) : (freeExtent p x n f s).cores = s.cores := by
  unfold freeExtent; split <;> rfl

theorem releasePool_cores (n : Nat) (q : Pool) (s : State) : (releasePool n q s).cores = s.cores := by
  unfold releasePool
  exact foldl_cores (fun s c => foldl_cores (fun s i => freeExtent_cores _ _ _ _ s) _ s) _ s

theorem settlePool_cores (n : Nat) (s : State) : (settlePool n s).cores = s.cores := by
  unfold settlePool
  split
  · next q _ =>
    split
    · split
      · exact releasePool_cores n q s
      · split
        · dsimp only
          cases hb : buildPool n { part := q.part, kind := q.kind, m := q.m, k := q.k, reserves := q.reserves } (releasePool n q s) with
          | none => exact releasePool_cores n q s
          | some t => exact (buildPool_cores hb).trans (releasePool_cores n q s)
        · rfl
    · rfl
  · rfl

theorem rejectReturn_cores (p ptr : Nat) (o : Owner) (pool : Option (Nat × Pool)) (s : State) :
    (rejectReturn p ptr o pool s).cores = s.cores := by
  unfold rejectReturn
  cases pool <;> exact emit_cores _ _

theorem returnBuf_cores (p ptr : Nat) (o : Owner) (s : State) : (returnBuf p ptr o s).cores = s.cores := by
  unfold returnBuf
  split
  · exact rejectReturn_cores _ _ _ _ _
  · split
    · exact settlePool_cores _ _
    · exact rejectReturn_cores _ _ _ _ _

theorem giveBack_cores (p ptr : Nat) (o : Owner) (s : State) : (giveBack p ptr o s).cores = s.cores := by
  unfold giveBack
  split
  · split
    · exact returnBuf_cores _ _ _ _
    · rfl
  · rfl

/-! ### Jobs dropped, streams and contexts faulted (R294, R389) -/

theorem noteBlocked_cores (ctx cl : Nat) (s : State) : (noteBlocked ctx cl s).cores = s.cores := by
  unfold noteBlocked; split <;> rfl

theorem dropJob_noPartGained (id : Nat) (s : State) : NoPartGained s (dropJob id s) := by
  unfold dropJob
  split
  · exact .refl s
  · refine (stopParts_noPartGained id s).trans (.of_cores ((noteBlocked_cores _ _ _).trans ?_))
    simp only
    split
    · exact giveBack_cores _ _ _ _
    · rfl

theorem goNotOk_cores (s : State) : (goNotOk s).cores = s.cores := by
  unfold goNotOk; split <;> rfl

theorem watchRunning_cores (id : Nat) (running : Bool) (s : State) : (watchRunning id running s).cores = s.cores := by
  unfold watchRunning
  split
  · cases running
    · exact goNotOk_cores _
    · rfl
  · rfl

theorem faultStream_noPartGained (id : Nat) (faulted : Option Nat) (s : State) : NoPartGained s (faultStream id faulted s) := by
  have go : NoPartGained s (dropStreamJobs id s) := .foldl (fun s (j : Job) => dropJob_noPartGained j.id s) _ s
  unfold faultStream
  split
  · exact .refl s
  · exact .refl s
  · exact go.trans (.of_cores ((emit_cores _ _).trans (watchRunning_cores _ _ _)))

theorem faultContext_noPartGained (ctx : Nat) (e : Event) (sid : Nat) (faulted : Option Nat) (s : State) :
    NoPartGained s (faultContext ctx e sid faulted s) := by
  unfold faultContext
  refine NoPartGained.trans ?_ (.foldl (fun s p => faultStream_noPartGained _ _ s) _ _)
  refine NoPartGained.trans ?_ (.foldl (fun s (j : Job) => dropJob_noPartGained j.id s) _ _)
  exact .of_cores (emit_cores { e with cls := 2, ctx := some ctx } s)

/-! ### A core that is queued for test (R88, R287) -/

theorem enqueue_cores (j : Job) (s : State) : (enqueue j s).cores = s.cores := by
  unfold enqueue
  split
  · rfl
  · dsimp only
    split
    · split <;> rfl
    · rfl

theorem moveQueue_cores (c : Nat) (s : State) : (moveQueue c s).cores = s.cores := by
  unfold moveQueue
  refine foldl_cores (fun s j => ?_) _ s
  dsimp only
  split
  · rfl
  · exact enqueue_cores _ s

theorem takeTestDue_noPartGained (c ph : Nat) (s : State) : NoPartGained s (takeTestDue c ph s) := by
  have queued : NoPartGained s (modCore ph (fun k =>
      { k with testDue := false, health := if k.health == .inService then .queued else k.health }) s) := .modCore id rfl rfl
  unfold takeTestDue
  dsimp only
  split
  · exact .refl s
  · split
    · exact queued.trans (.of_cores (moveQueue_cores _ _))
    · exact queued

end Sys2Proof.Machine
end

section
/-! SUPPORT. How an instruction ends that waits, faults, or changes registers beside the tallies or the claims (R112, R125). -/

namespace Sys2Proof.Machine

/-- A part that issues runs on its core, waits for nothing and has not been stopped. -/
theorem Issues.running {s : State} {c : Nat} {e : Env} (h : Issues s c e) :
    (coreAt s e.ph).part = some e.part ∧ e.part.stopping = false ∧ e.part.wait = .none := by
  unfold Issues envOf at h
  split at h
  · cases h
  · split at h
    · cases h
    · dsimp only at h
      split at h
      · cases h
      · split at h
        · cases h
        · next p hp =>
          split at h
          · cases h
          · next hn =>
            split at h
            · next hw _ =>
              split at h
              · cases h
                simp only [Bool.or_eq_true, not_or, Bool.not_eq_true] at hn
                exact ⟨hp, hn.1.1, hw⟩
              · cases h
            · cases h

/-! ### How an issued instruction ends -/

theorem issue_hold {s t : State} {c : Nat} {e : Env} {u : List Upset} {f : Env → State → Verdict} (h : Issues s c e) (hu : fetchLost u = false)
    (hf : f e (noteCorrected c e.ph u s) = .hold t) : issue c u s f = .next t := by
  unfold issue
  rw [show envOf s c = some e from h]
  simp [hu, hf]

theorem issue_fault {s t : State} {c : Nat} {e : Env} {u : List Upset} {f : Env → State → Verdict} {x : FaultAt} (h : Issues s c e)
    (hu : fetchLost u = false) (hh : e.core.halo = []) (hf : f e (noteCorrected c e.ph u s) = .fault x t) :
    issue c u s f = .next (coreFault e x t) := by
  unfold issue
  rw [show envOf s c = some e from h]
  simp [hu, hf, hh]

/-- An instruction that changes its core's registers after effects `t` that keep every core's stores and this core's registers. -/
theorem regsDone_keeps {s t : State} {c : Nat} {e : Env} {u : List Upset} {f : Env → State → Verdict} {g : Regs → Regs} (h : Issues s c e)
    (hu : fetchLost u = false) (hr : regsAt t e.ph = e.core.regs) (hs : ∀ k, KeepsStore (coreAt s k) (coreAt t k))
    (hf : f e (noteCorrected c e.ph u s) = regsDone e t g) :
    ∃ v, issue c u s f = .next v ∧ regsAt v e.ph = { g e.core.regs with pc := e.core.regs.pc + 16 }
      ∧ (∀ k, KeepsStore (coreAt s k) (coreAt v k)) ∧ OnlyCoresQuiet t v := by
  refine ⟨_, issue_done h hu hf, ?_⟩
  obtain ⟨own, -, stores, only⟩ := retire_keeps e.ph (e.core.regs.pc + 16) (modCore e.ph (fun k => { k with regs := g k.regs }) t)
  refine ⟨?_, fun k => ?_, (modCore_only _ _ t).trans only⟩
  · rw [own, ← hr]; simp [regsAt]
  · refine ((hs k).trans ?_).trans (stores k)
    rw [coreAt_modCore]
    split
    · next hk => subst hk; exact ⟨rfl, rfl, rfl, rfl, rfl, rfl⟩
    · exact .refl _

/-! ### What corrected errors leave -/

@[simp] theorem jobOf_noteCorrected (c ph : Nat) (u : List Upset) (s : State) (id : Nat) : jobOf (noteCorrected c ph u s) id = jobOf s id := by
  obtain ⟨_, _, _, h⟩ := noteCorrected_reports c ph u s
  rw [h]; rfl

@[simp] theorem frameNumber_noteCorrected (c ph : Nat) (u : List Upset) (s : State) (j : Job) :
    frameNumber (noteCorrected c ph u s) j = frameNumber s j := by
  obtain ⟨_, _, _, h⟩ := noteCorrected_reports c ph u s
  rw [h]; rfl

@[simp] theorem claimAt_noteCorrected (c ph : Nat) (u : List Upset) (s : State) (x n : Nat) (key : Word) :
    claimAt (noteCorrected c ph u s) x n key = claimAt s x n key := by
  obtain ⟨_, _, _, h⟩ := noteCorrected_reports c ph u s
  rw [h]; rfl

@[simp] theorem cluAt_noteCorrected (c ph : Nat) (u : List Upset) (s : State) (k : Nat) : cluAt (noteCorrected c ph u s) k = cluAt s k := by
  obtain ⟨_, _, _, h⟩ := noteCorrected_reports c ph u s
  rw [h]; rfl

@[simp] theorem residencyOf_noteCorrected (c ph : Nat) (u : List Upset) (s : State) (cl x : Nat) :
    residencyOf (noteCorrected c ph u s) cl x = residencyOf s cl x := by
  unfold residencyOf; rw [cluAt_noteCorrected]

/-- Without an upset to report, nothing is reported. -/
theorem noteCorrected_quiet (c ph : Nat) (u : List Upset) (s : State) : Reports u s (noteCorrected c ph u s) := fun h => by
  rw [noteCorrected_none c ph u s h]; exact ⟨rfl, rfl⟩

theorem OnlyCoresQuiet.cluAt {s t : State} (h : OnlyCoresQuiet s t) (k : Nat) : cluAt t k = Machine.cluAt s k := by
  unfold OnlyCoresQuiet at h; rw [h]; rfl

theorem OnlyCoresQuiet.claimAt {s t : State} (h : OnlyCoresQuiet s t) (x n : Nat) (key : Word) :
    claimAt t x n key = Machine.claimAt s x n key := by
  unfold OnlyCoresQuiet at h; rw [h]; rfl

/-! ### A fault that no re-run mends (R125, Table 4.6) -/

/-- Firmware answers every fault but POISON, MEMORY and a failed halo transfer by faulting the job's context. -/
theorem faultedJob_context {c ph addr : Nat} {j : Job} {x : FaultAt} {s : State} (h3 : x.code ≠ 3) (h4 : x.code ≠ 4) (h5 : x.code ≠ 5) :
    faultedJob c ph addr j x s = faultContext j.ctx (faultEvent s c addr j x) j.stream (some j.frame) (sentinelFails j s) := by
  unfold faultedJob
  dsimp only
  split
  · next h => exact absurd h h3
  · next h => exact absurd h h4
  · next h => exact absurd h h5
  · rfl

theorem sentinelFails_cores (j : Job) (s : State) : (sentinelFails j s).cores = s.cores := by
  unfold sentinelFails; split <;> rfl

/-- Such a fault of a part with nothing queued ends the part, records its address and detail, and leaves the carrel. -/
theorem coreFault_ends {s : State} {e : Env} {x : FaultAt} {j : Job} (hp : (coreAt s e.ph).part = some e.part) (hs : e.part.stopping = false)
    (hw : e.part.wait = .none) (hd : e.part.dead = false) (hh : (coreAt s e.ph).halo = []) (hj : jobOf s e.part.job = some j)
    (h3 : x.code ≠ 3) (h4 : x.code ≠ 4) (h5 : x.code ≠ 5) :
    (coreAt (coreFault e x s) e.ph).part = none
      ∧ (coreAt (coreFault e x s) e.ph).fault
        = some { address := x.addr.getD (coreAt s e.ph).regs.pc, detail := BitVec.ofNat 32 (detailWord x) }
      ∧ (coreAt (coreFault e x s) e.ph).carrel = (coreAt s e.ph).carrel := by
  have hid : j.id = e.part.job := by simpa using List.find?_some hj
  have unfolded : ∃ s2, NoPartGained (clearParts true j.id s2) (coreFault e x s)
      ∧ coreAt s2 e.ph = { coreAt s e.ph with
          fault := some { address := x.addr.getD (coreAt s e.ph).regs.pc, detail := BitVec.ofNat 32 (detailWord x) }, halo := [] } := by
    refine ⟨modCore e.ph (fun k => { k with halo := k.halo.filter fun h => h.paired && h.fault.isNone }) (modCore e.ph (fun k => { k with
      fault := some { address := x.addr.getD (coreAt s e.ph).regs.pc, detail := BitVec.ofNat 32 (detailWord x) } }) s), ?_, by simp [hh]⟩
    unfold coreFault
    dsimp only
    rw [hd, hs, show jobOf (modCore e.ph _ s) e.part.job = some j from hj]
    refine (endParts_noPartGained j.id _).trans ?_
    refine NoPartGained.trans ?_ (takeTestDue_noPartGained e.c e.ph _)
    rw [faultedJob_context h3 h4 h5]
    exact (NoPartGained.of_cores (sentinelFails_cores j _)).trans (faultContext_noPartGained _ _ _ _ _)
  obtain ⟨s2, gone, own⟩ := unfolded
  obtain ⟨carrel, fault, -⟩ := clearedCore_store true j.id (coreAt s2 e.ph)
  refine ⟨gone.idle e.ph ?_, ?_, ?_⟩
  · rw [coreAt_clearParts, own, hid]
    exact clearedCore_part_none hp hs hw hd rfl
  · rw [gone.fault, coreAt_clearParts, fault, own]
  · rw [gone.carrel, coreAt_clearParts, carrel, own]

end Sys2Proof.Machine
end

section
/-! The claims table, TAKE and CLAIM (R120 to R124, R152, R174, R175). -/

namespace Sys2Proof.Machine

/-! ### The claims table -/

/-- The element that p picks once one is set by p. -/
theorem find?_upsert_self {α : Type} {p : α → Bool} {v : α} (hv : p v = true) (l : List α) : (upsert p v l).find? p = some v := by
  induction l with
  | nil => simp [upsert, hv]
  | cons a r ih =>
    unfold upsert
    split
    · simp [hv]
    · next ha => simpa [ha] using ih

/-- Setting an element leaves what a test finds that holds neither of it nor of what it replaces. -/
theorem find?_upsert_other {α : Type} {p q : α → Bool} {v : α} (hv : q v = false) (hpq : ∀ a, p a = true → q a = false) (l : List α) :
    (upsert p v l).find? q = l.find? q := by
  induction l with
  | nil => simp [upsert, hv]
  | cons a r ih =>
    unfold upsert
    split
    · next ha => simp [hv, hpq a ha]
    · simp only [List.find?_cons, ih]

theorem claimAt_setClaim_self (x n sid : Nat) (key : Word) (st : ClaimState) (s : State) :
    claimAt (setClaim x n sid key st s) x n key = some { ctx := x, frame := n, stream := sid, key := key, state := st } :=
  find?_upsert_self (by simp) s.claims

theorem claimAt_setClaim_ne {x n x' n' : Nat} {key key' : Word} (h : (x', n', key') ≠ (x, n, key)) (sid : Nat) (st : ClaimState) (s : State) :
    claimAt (setClaim x n sid key st s) x' n' key' = claimAt s x' n' key' := by
  refine find?_upsert_other (Bool.eq_false_iff.mpr fun hv => h ?_) (fun a ha => Bool.eq_false_iff.mpr fun hq => h ?_) s.claims
  · simp only [Bool.and_eq_true, beq_iff_eq] at hv
    obtain ⟨⟨rfl, rfl⟩, rfl⟩ := hv
    rfl
  · simp only [Bool.and_eq_true, beq_iff_eq] at ha hq
    obtain ⟨⟨rfl, rfl⟩, rfl⟩ := ha
    obtain ⟨⟨rfl, rfl⟩, rfl⟩ := hq
    rfl

theorem claimKey_eq (e : Env) (f : Fields) : claimKey e f = sreg e.core.regs f.ra + f.imm.extractLsb' 0 32 := by
  unfold claimKey
  rw [BitVec.setWidth_eq_extractLsb' (by decide)]

/-! ### TAKE -/

theorem satInc_toNat (w : Word) (n : Nat) : (satInc w n).toNat = min (w.toNat + n) 0xFFFFFFFF := by
  unfold satInc
  rw [BitVec.toNat_ofNat]
  omega

/-- TAKE returns the tally's value and adds its step to that tally alone (R120, R152). -/
theorem take_returns_and_adds {s : State} {c : Nat} {e : Env} {f : Fields} {u : List Upset} (h : Issues s c e) (hu : fetchLost u = false)
    {d k cl : Nat} (hd : f.imm.toNat % 2 ^ 16 = d) (hk : f.xf.toNat % 64 = k)
    (hcl : (if f.mod.getLsbD 0 then f.xf.toNat / 256 % 8 else c / 4) = cl) {res : Residency} (hres : residencyOf s cl e.part.ctx = some res)
    (hd0 : d ≠ 0) (hkn : k < e.prog.ntally)
    (hs : stray { mod := 1, rd := true, xf := if f.mod.getLsbD 0 then 0x73F else 0x3F, imm := 0xFFFF } f = false) :
    let v := tget (cluAt s cl).tallies 0 (res.tallyBase + k)
    ∃ t, execTake c ⟨f, u⟩ s = .next t ∧ regsAt t e.ph = { setS f.rd v e.core.regs with pc := e.core.regs.pc + 16 }
      ∧ (∀ i, KeepsStore (coreAt s i) (coreAt t i))
      ∧ OnlyCoresQuiet (modClu cl (fun x => { x with tallies := tset x.tallies (res.tallyBase + k) (satInc v d) })
          (noteCorrected c e.ph u s)) t := by
  have named : namedCluster c f = cl := hcl
  have step : bits f.imm.toNat 15 0 = d := by rw [← hd]; simp [bits]
  have fields : remoteXf f 0x3F = if f.mod.getLsbD 0 then 0x73F else 0x3F := rfl
  intro v
  unfold execTake
  refine regsDone_keeps h hu ?_ (fun i => ?_) ?_
  · exact (congrArg Core.regs (coreAt_noteCorrected c e.ph u s e.ph)).trans (congrArg Core.regs h.core.1).symm
  · rw [show coreAt (modClu cl _ (noteCorrected c e.ph u s)) i = coreAt s i from coreAt_noteCorrected c e.ph u s i]
    exact .refl _
  · dsimp only
    rw [named, step, hk, fields, residencyOf_noteCorrected, hres]
    rw [checked_clean _ _ (.cons hs (.cons (by simpa using hd0) (.cons (by simp [hkn]) .nil))) .nil]
    simp only [cluAt_noteCorrected, Option.map_some, Option.getD_some, v]

/-! ### CLAIM -/

/-- What a CLAIM does once its fields are checked. -/
def claimTry (e : Env) (f : Fields) (s : State) : Verdict :=
  match jobOf s e.part.job with
  | none => regsDone e s (setS f.rd 0)
  | some j =>
    let n := frameNumber s j
    let key := claimKey e f
    let st := (claimAt s j.ctx n key).map (·.state)
    if !e.part.dead && (match st with | some (ClaimState.publishing _ _) => true | _ => false) then .hold s
    else if !(st == none || st == some .released) || e.part.dead then regsDone e s (setS f.rd 0)
    else if e.prog.claims ≤ e.part.claims then .fault { code := 0x07, cause := 0 } s
    else
      let s := setClaim j.ctx n j.stream key (.won e.part.job e.part.started) s
      let s := modCore e.ph (fun k => { k with part := k.part.map fun p => { p with claims := p.claims + 1 } }) s
      regsDone e s (setS f.rd 1)

/-- The claim is won by this part, whose count of won claims rises. -/
def winClaim (e : Env) (f : Fields) (j : Job) (s : State) : State :=
  modCore e.ph (fun k => { k with part := k.part.map fun p => { p with claims := p.claims + 1 } })
    (setClaim j.ctx (frameNumber s j) j.stream (claimKey e f) (.won e.part.job e.part.started) s)

theorem winClaim_keeps (e : Env) (f : Fields) (j : Job) (s : State) (k : Nat) :
    regsAt (winClaim e f j s) k = regsAt s k ∧ KeepsStore (coreAt s k) (coreAt (winClaim e f j s) k) := by
  have core : coreAt (winClaim e f j s) k
      = if k = e.ph then { coreAt s e.ph with part := (coreAt s e.ph).part.map fun p => { p with claims := p.claims + 1 } } else coreAt s k :=
    coreAt_modCore _ e.ph k _
  unfold regsAt
  rw [core]
  split
  · next hk => subst hk; exact ⟨rfl, rfl, rfl, rfl, rfl, rfl, rfl⟩
  · exact ⟨rfl, .refl _⟩

/-- What a CLAIM does once it issues. -/
def claimIssued (f : Fields) (e : Env) (s : State) : Verdict :=
  checked [{ cause := 0x02, bad := stray { rd := true, ra := true, imm := 0xFFFFFFFF } f }] [] s fun _ => claimTry e f s

theorem execClaim_eq (c : Nat) (f : Fields) (u : List Upset) (s : State) : execClaim c ⟨f, u⟩ s = issue c u s (claimIssued f) := rfl

theorem claimIssued_eq {f : Fields} (hs : stray { rd := true, ra := true, imm := 0xFFFFFFFF } f = false) (e : Env) (s : State) :
    claimIssued f e s = claimTry e f s := checked_clean s _ (.cons hs .nil) .nil

section
variable {s : State} {e : Env} {f : Fields} {j : Job}

/-- Nothing is won by a part whose job is gone, or that is presumed dead. -/
theorem claimTry_loses_of_dead (h : e.part.dead = true ∨ jobOf s e.part.job = none) : claimTry e f s = regsDone e s (setS f.rd 0) := by
  unfold claimTry
  split
  · rfl
  · next hj =>
    have hd : e.part.dead = true := h.resolve_right (by rw [hj]; simp)
    simp [hd]

variable (hj : jobOf s e.part.job = some j) (hd : e.part.dead = false) {st : Option ClaimState}
  (hst : (claimAt s j.ctx (frameNumber s j) (claimKey e f)).map (·.state) = st)

include hj hd hst

theorem claimTry_waits {a b : Nat} (h : st = some (.publishing a b)) : claimTry e f s = .hold s := by
  subst h
  simp [claimTry, hj, hd, hst]

theorem claimTry_loses (h : (∃ a b, st = some (.won a b)) ∨ st = some .committed) : claimTry e f s = regsDone e s (setS f.rd 0) := by
  rcases h with ⟨a, b, rfl⟩ | rfl <;> simp [claimTry, hj, hd, hst]

theorem claimTry_beyond_limit (h : st = none ∨ st = some .released) (hl : e.prog.claims ≤ e.part.claims) :
    claimTry e f s = .fault { code := 0x07, cause := 0 } s := by
  rcases h with rfl | rfl <;> simp [claimTry, hj, hd, hst, hl]

theorem claimTry_wins (h : st = none ∨ st = some .released) (hl : e.part.claims < e.prog.claims) :
    claimTry e f s = regsDone e (winClaim e f j s) (setS f.rd 1) := by
  rcases h with rfl | rfl <;> simp [claimTry, winClaim, hj, hd, hst, Nat.not_le.mpr hl]

end

section
variable {s : State} {c : Nat} {e : Env} {f : Fields} {u : List Upset} (h : Issues s c e) (hu : fetchLost u = false)
  (hs : stray { rd := true, ra := true, imm := 0xFFFFFFFF } f = false)

include h hu hs

/-- A CLAIM that loses writes 0 and changes nothing else (R122). -/
theorem claim_loses (hv : claimTry e f (noteCorrected c e.ph u s) = regsDone e (noteCorrected c e.ph u s) (setS f.rd 0)) :
    ∃ t, execClaim c ⟨f, u⟩ s = .next t ∧ OnlyRegs e u (setS f.rd 0 e.core.regs) s t := by
  rw [execClaim_eq]
  exact regsDone_only h hu (fun k => coreAt_noteCorrected c e.ph u s k) (noteCorrected_only c e.ph u s) ((claimIssued_eq hs e _).trans hv)

theorem claim_of_dead_loses (hd : e.part.dead = true ∨ jobOf s e.part.job = none) :
    ∃ t, execClaim c ⟨f, u⟩ s = .next t ∧ OnlyRegs e u (setS f.rd 0 e.core.regs) s t :=
  claim_loses h hu hs (claimTry_loses_of_dead (by rwa [jobOf_noteCorrected]))

variable {j : Job} (hj : jobOf s e.part.job = some j) (hd : e.part.dead = false) {st : Option ClaimState}
  (hst : (claimAt s j.ctx (frameNumber s j) (claimKey e f)).map (·.state) = st)

include hj hd hst

theorem claim_of_taken_loses (hw : (∃ a b, st = some (.won a b)) ∨ st = some .committed) :
    ∃ t, execClaim c ⟨f, u⟩ s = .next t ∧ OnlyRegs e u (setS f.rd 0 e.core.regs) s t :=
  claim_loses h hu hs (claimTry_loses (by simpa using hj) hd (by simpa using hst) hw)

/-- A CLAIM of a key whose COMMIT still copies does nothing yet (R174). -/
theorem claim_of_publishing_waits {a b : Nat} (hw : st = some (.publishing a b)) :
    execClaim c ⟨f, u⟩ s = .next (noteCorrected c e.ph u s) := by
  rw [execClaim_eq]
  exact issue_hold h hu ((claimIssued_eq hs e _).trans (claimTry_waits (by simpa using hj) hd (by simpa using hst) hw))

/-- A CLAIM beyond CLAIMS ends the part with CLAIM_LIMIT (R122). -/
theorem claim_beyond_limit_faults (hw : st = none ∨ st = some .released) (hl : e.prog.claims ≤ e.part.claims) (hh : e.core.halo = []) :
    ∃ t, execClaim c ⟨f, u⟩ s = .next t ∧ (coreAt t e.ph).part = none
      ∧ (coreAt t e.ph).fault = some { address := e.core.regs.pc, detail := 0x0007 } ∧ (coreAt t e.ph).carrel = e.core.carrel := by
  rw [execClaim_eq]
  refine ⟨_, issue_fault h hu hh
    ((claimIssued_eq hs e _).trans (claimTry_beyond_limit (by simpa using hj) hd (by simpa using hst) hw hl)), ?_⟩
  obtain ⟨hp, hstop, hwait⟩ := h.running
  have core : coreAt (noteCorrected c e.ph u s) e.ph = e.core := by rw [coreAt_noteCorrected, h.core.1]
  have ends := coreFault_ends (s := noteCorrected c e.ph u s) (x := { code := 0x07, cause := 0 }) (j := j)
    (by rwa [coreAt_noteCorrected]) hstop hwait hd (by rw [core, hh]) (by simpa using hj) (by decide) (by decide) (by decide)
  rw [core] at ends
  exact ends

/-- A CLAIM of a free key wins it for this part and leaves every other claim (R122). -/
theorem claim_of_free_wins (hw : st = none ∨ st = some .released) (hl : e.part.claims < e.prog.claims) :
    ∃ t, execClaim c ⟨f, u⟩ s = .next t ∧ regsAt t e.ph = { setS f.rd 1 e.core.regs with pc := e.core.regs.pc + 16 }
      ∧ (∀ k, KeepsStore (coreAt s k) (coreAt t k))
      ∧ OnlyCoresQuiet (setClaim j.ctx (frameNumber s j) j.stream (claimKey e f) (.won e.part.job e.part.started)
          (noteCorrected c e.ph u s)) t := by
  have wins := claimTry_wins (s := noteCorrected c e.ph u s) (f := f) (by simpa using hj) hd (by simpa using hst) hw hl
  have kept := winClaim_keeps e f j (noteCorrected c e.ph u s)
  have regs0 : regsAt (noteCorrected c e.ph u s) e.ph = e.core.regs := by simp [regsAt, h.core.1]
  rw [execClaim_eq]
  obtain ⟨t, next, regs, stores, only⟩ := regsDone_keeps h hu ((kept e.ph).1.trans regs0)
    (fun k => by simpa using (kept k).2) ((claimIssued_eq hs e _).trans wins)
  rw [← frameNumber_noteCorrected c e.ph u s j]
  exact ⟨t, next, regs, stores, (modCore_only _ _ _).trans only⟩

end

/-- Settles O23: the TAKE clause by take_returns_and_adds, each CLAIM clause by the lemma of its case. -/
theorem talliesAndClaims : Obligations.TalliesAndClaims := by
  intro s c e f u h hu
  refine ⟨?_, ?_, fun hs hd => claim_of_dead_loses h hu hs hd⟩
  · intro d k other cl res hres hd0 hkn hs v
    obtain ⟨t, next, regs, stores, only⟩ := take_returns_and_adds h hu rfl rfl rfl hres hd0 hkn hs
    have clu : ∀ x, cluAt t x = if x = cl then { cluAt s cl with tallies := tset (cluAt s cl).tallies (res.tallyBase + k) (satInc v d) }
        else cluAt s x := fun x => by rw [only.cluAt, cluAt_modClu, cluAt_noteCorrected, cluAt_noteCorrected]
    refine ⟨t, next, regs, ?_, fun x hx => ?_, fun x hx => ?_, ?_, stores, ?_, fun quiet => ?_⟩
    · rw [clu, if_pos rfl, tget_tset_self, satInc_toNat]
    · rw [clu, if_pos rfl, tget_tset_ne _ _ _ hx]
    · rw [clu, if_neg hx]
    · rw [clu, if_pos rfl]
    · obtain ⟨i, hst, er, note⟩ := noteCorrected_reports c e.ph u s
      rw [only, note]; rfl
    · rw [only]; exact noteCorrected_quiet c e.ph u s quiet
  · intro j hj hs hd key n was
    have hst : (claimAt s j.ctx n (claimKey e f)).map (·.state) = was := by rw [claimKey_eq]
    refine ⟨fun hw hl => ?_, fun hw hl hh => claim_beyond_limit_faults h hu hs hj hd hst hw hl hh,
      fun hw => claim_of_taken_loses h hu hs hj hd hst hw, fun ⟨a, b, hw⟩ => ?_⟩
    · obtain ⟨t, next, regs, stores, only⟩ := claim_of_free_wins h hu hs hj hd hst hw hl
      rw [claimKey_eq] at only
      refine ⟨t, next, regs, ?_, fun x y q hq => ?_, stores, ?_, fun quiet => ?_⟩
      · rw [only.claimAt, claimAt_setClaim_self]; rfl
      · rw [only.claimAt, claimAt_setClaim_ne hq, claimAt_noteCorrected]
      · obtain ⟨i, hst, er, note⟩ := noteCorrected_reports c e.ph u s
        rw [only, note]; rfl
      · rw [only]; exact noteCorrected_quiet c e.ph u s quiet
    · exact ⟨_, claim_of_publishing_waits h hu hs hj hd hst hw, noteCorrected_only c e.ph u s,
        fun i => congrArg Core.regs (coreAt_noteCorrected c e.ph u s i)⟩

end Sys2Proof.Machine
end

section
/-! SUPPORT. SAFE_OK stays not-OK and partition 0 stays in C3 through the fault of its streams: what drops a job, returns a buffer or faults
a stream keeps both (R389, R418, R426). -/

namespace Sys2Proof.Machine

/-- Partition 0 stays in C3 or out of it, and SAFE_OK that is not-OK stays so. -/
structure KeepsSafety (s t : State) : Prop where
  c3 : (partAt t 0).c3 = (partAt s 0).c3
  ok : s.saf.ok = false → t.saf.ok = false

namespace KeepsSafety

theorem refl (s : State) : KeepsSafety s s := ⟨rfl, id⟩

theorem trans {s t u : State} (h : KeepsSafety s t) (g : KeepsSafety t u) : KeepsSafety s u :=
  ⟨g.c3.trans h.c3, fun hs => g.ok (h.ok hs)⟩

/-- What leaves the partition records and the safety island alone. -/
theorem of_fields {s t : State} (hp : t.parts = s.parts) (hs : t.saf = s.saf) : KeepsSafety s t :=
  ⟨by simp [partAt, hp], fun h => hs ▸ h⟩

theorem of_hostErr {s t : State} (h : HostErr s t) : KeepsSafety s t := .of_fields (by rw [h]) (by rw [h])

theorem of_cores {s t : State} (h : OnlyCoresQuiet s t) : KeepsSafety s t := .of_fields (by rw [h]) (by rw [h])

/-- Steps that each keep it keep it together. -/
theorem foldl {β : Type} {f : State → β → State} (h : ∀ s b, KeepsSafety s (f s b)) (l : List β) (s : State) :
    KeepsSafety s (l.foldl f s) :=
  List.foldlRecOn l f (refl s) fun t k b _ => k.trans (h t b)

/-- A change of a partition record that leaves its C3. -/
theorem modPart {p : Nat} {f : Partition → Partition} (h : ∀ q, (f q).c3 = q.c3) (s : State) : KeepsSafety s (modPart p f s) := by
  refine ⟨?_, id⟩
  unfold Machine.modPart
  show (tget (tset s.parts p (f (partAt s p))) {} 0).c3 = _
  rw [tget_tset]
  split
  · next h0 => rw [h, h0]
  · rfl

theorem withJobs {s t : State} (h : KeepsSafety s t) (l : List Job) : KeepsSafety s { t with jobs := l } := ⟨h.c3, h.ok⟩

end KeepsSafety

theorem retire_keepsSafety (ph pc : Nat) (s : State) : KeepsSafety s (retire ph pc s) := by
  obtain ⟨-, -, -, only⟩ := retire_keeps ph pc s
  exact .of_cores only

theorem grantOne_keepsSafety (cl ph : Nat) (s : State) : KeepsSafety s (grantOne cl ph s) := by
  unfold grantOne
  split
  · split
    · dsimp only
      split
      · exact .refl s
      · refine KeepsSafety.trans ?_ (retire_keepsSafety _ _ _)
        exact .of_fields rfl rfl
    · exact .refl s
  · exact .refl s

theorem grantSems_keepsSafety (cl : Nat) (s : State) : KeepsSafety s (grantSems cl s) := by
  unfold grantSems
  exact (KeepsSafety.foldl (fun s ph => grantOne_keepsSafety cl ph s) _ s).trans (.of_fields rfl rfl)

theorem returnHoldings_keepsSafety (job : Nat) (s : State) : KeepsSafety s (returnHoldings job s) := by
  refine .foldl (fun s cl => ?_) _ s
  unfold returnIn
  dsimp only
  split
  · refine KeepsSafety.trans ?_ (grantSems_keepsSafety cl _)
    exact .of_fields rfl rfl
  · exact .refl s

theorem dropPackets_keepsSafety (p : Remote → Bool) (s : State) : KeepsSafety s (dropPackets p s) := by
  unfold dropPackets
  refine KeepsSafety.trans ?_ (.foldl (fun s r => ?_) _ _)
  · exact .of_fields rfl rfl
  · split
    · refine .modPart (fun _ => ?_) s
      rfl
    · exact .refl s

theorem releaseClaims_keepsSafety (job : Nat) (start : Option Nat) (s : State) : KeepsSafety s (releaseClaims job start s) :=
  .of_fields rfl rfl

theorem stopParts_keepsSafety (job : Nat) (s : State) : KeepsSafety s (stopParts job s) := by
  have cleared : KeepsSafety s (clearParts false job s) := .of_fields rfl rfl
  exact ((cleared.trans (returnHoldings_keepsSafety job _)).trans (dropPackets_keepsSafety _ _)).trans
    (releaseClaims_keepsSafety job none _)

/-! ### Pools touch the memory alone (R319 to R323, R331) -/

/-- Only the memory differs. -/
def MemOnly (s t : State) : Prop := t = { s with mem := t.mem }

theorem MemOnly.trans {s t u : State} (h : MemOnly s t) (g : MemOnly t u) : MemOnly s u := by
  unfold MemOnly at *; rw [g, h]

theorem extendPool_mem {n : Nat} {s t : State} (h : extendPool n s = some t) : MemOnly s t := by
  unfold extendPool at h
  split at h
  · cases h
  · split at h <;> cases h
    rfl

theorem coverPool_mem {n fuel : Nat} {s t : State} (h : coverPool n fuel s = some t) : MemOnly s t := by
  induction fuel generalizing s with
  | zero => simp [coverPool] at h
  | succ k ih =>
    unfold coverPool at h
    split at h
    · cases h
    · cases h
    · next hk _ =>
      cases hk
      split at h
      · cases h; rfl
      · obtain ⟨v, hv, hc⟩ := Option.bind_eq_some_iff.mp h
        exact (extendPool_mem hv).trans (ih hc)

theorem buildPool_mem {n : Nat} {q : Pool} {s t : State} (h : buildPool n q s = some t) : MemOnly s t := by
  obtain ⟨v, hv, hc⟩ := Option.bind_eq_some_iff.mp h
  exact MemOnly.trans (t := setPool n q s) rfl ((extendPool_mem hv).trans (coverPool_mem hc))

theorem releasePool_mem (n : Nat) (q : Pool) (s : State) : MemOnly s (releasePool n q s) := by
  unfold releasePool
  refine MemOnly.trans (List.foldlRecOn (motive := MemOnly s) q.chunks _ (Eq.refl s) fun t ht c _ => ?_) rfl
  refine List.foldlRecOn (motive := MemOnly s) _ _ ht fun u hu i _ => hu.trans ?_
  unfold freeExtent
  split <;> rfl

theorem settlePool_mem (n : Nat) (s : State) : MemOnly s (settlePool n s) := by
  unfold settlePool
  split
  · next q _ =>
    split
    · split
      · exact releasePool_mem n q s
      · split
        · dsimp only
          cases hb : buildPool n { part := q.part, kind := q.kind, m := q.m, k := q.k, reserves := q.reserves } (releasePool n q s) with
          | none => exact releasePool_mem n q s
          | some t => exact (releasePool_mem n q s).trans (buildPool_mem hb)
        · rfl
    · rfl
  · rfl

theorem KeepsSafety.of_mem {s t : State} (h : MemOnly s t) : KeepsSafety s t := .of_fields (by rw [h]) (by rw [h])

theorem rejectReturn_keepsSafety (p ptr : Nat) (o : Owner) (pool : Option (Nat × Pool)) (s : State) :
    KeepsSafety s (rejectReturn p ptr o pool s) := by
  unfold rejectReturn
  refine KeepsSafety.trans ?_ (.of_hostErr (emit_touches _ _))
  split <;> exact .of_fields rfl rfl

theorem giveBack_keepsSafety (p ptr : Nat) (o : Owner) (s : State) : KeepsSafety s (giveBack p ptr o s) := by
  unfold giveBack
  split
  · split
    · unfold returnBuf
      split
      · exact rejectReturn_keepsSafety _ _ _ _ _
      · split
        · exact KeepsSafety.trans (t := setPool _ _ s) (.of_fields rfl rfl) (.of_mem (settlePool_mem _ _))
        · exact rejectReturn_keepsSafety _ _ _ _ _
    · exact .refl s
  · exact .refl s

/-! ### SAFE_OK goes not-OK (R417, R418) -/

theorem goNotOk_keepsSafety (s : State) : KeepsSafety s (goNotOk s) := by
  unfold goNotOk
  split
  · exact ⟨rfl, fun _ => rfl⟩
  · exact .refl s

@[simp] theorem goNotOk_ok (s : State) : (goNotOk s).saf.ok = false := by
  unfold goNotOk
  split
  · rfl
  · next h => simpa using h

/-- What SAFE_OK's going not-OK leaves of the safety island (R418). -/
@[simp] theorem goNotOk_fields (s : State) :
    (goNotOk s).saf.watches = s.saf.watches ∧ (goNotOk s).saf.zones = s.saf.zones ∧ (goNotOk s).saf.silenceCount = s.saf.silenceCount
      ∧ (goNotOk s).saf.arm = s.saf.arm ∧ (goNotOk s).saf.cause = s.saf.cause := by
  unfold goNotOk
  split <;> and_intros <;> rfl

/-- Only the safety island's state differs. -/
theorem goNotOk_only (s : State) : goNotOk s = { s with saf := (goNotOk s).saf } := by
  unfold goNotOk
  split <;> rfl

/-- From OK both lines go low, and the change is counted (R417, R418). -/
theorem goNotOk_of_ok {s : State} (h : s.saf.ok = true) :
    (goNotOk s).saf.lineA = false ∧ (goNotOk s).saf.lineB = false ∧ (goNotOk s).saf.notok = satInc s.saf.notok
      ∧ (goNotOk s).saf.statusSeq = s.saf.statusSeq + 1 := by
  unfold goNotOk
  rw [if_pos h]
  exact ⟨rfl, rfl, rfl, rfl⟩

/-! ### Streams and partitions faulted (R389) -/

theorem noteBlocked_keepsSafety (ctx cl : Nat) (s : State) : KeepsSafety s (noteBlocked ctx cl s) := by
  unfold noteBlocked
  split
  · exact .refl s
  · exact .of_fields rfl rfl

theorem dropJob_keepsSafety (id : Nat) (s : State) : KeepsSafety s (dropJob id s) := by
  unfold dropJob
  split
  · exact .refl s
  · refine KeepsSafety.trans ?_ (noteBlocked_keepsSafety _ _ _)
    refine (KeepsSafety.trans (stopParts_keepsSafety id s) ?_).withJobs _
    split
    · exact giveBack_keepsSafety _ _ _ _
    · exact .refl _

theorem watchRunning_keepsSafety (id : Nat) (running : Bool) (s : State) : KeepsSafety s (watchRunning id running s) := by
  unfold watchRunning
  split
  · cases running
    · refine KeepsSafety.trans ?_ (goNotOk_keepsSafety _)
      exact ⟨rfl, fun h => h⟩
    · exact ⟨rfl, fun h => h⟩
  · exact .refl s

theorem faultStream_keepsSafety (id : Nat) (faulted : Option Nat) (s : State) : KeepsSafety s (faultStream id faulted s) := by
  have jobs : KeepsSafety s (dropStreamJobs id s) := .foldl (fun s (j : Job) => dropJob_keepsSafety j.id s) _ s
  unfold faultStream
  split
  · exact .refl s
  · exact .refl s
  · refine KeepsSafety.trans ?_ (.of_hostErr (emit_touches _ _))
    refine KeepsSafety.trans ?_ (watchRunning_keepsSafety id false _)
    exact jobs.trans (.of_fields rfl rfl)

/-- A C3 fault of partition 0 leaves it in C3, and SAFE_OK not-OK where it was (R389, R426). -/
theorem partFault_zero_c3 (e : Event) (s : State) :
    (partAt (partFault 0 e s) 0).c3 = true ∧ (s.saf.ok = false → (partFault 0 e s).saf.ok = false) := by
  have told := fun t => KeepsSafety.of_hostErr (emit_touches { e with cls := 3, part := some 0 } t)
  unfold partFault
  split
  · next h => exact ⟨(told s).c3.trans h, (told s).ok⟩
  · next h =>
    have marked : (partAt (modPart 0 (fun q => { q with c3 := true }) s) 0).c3 = true := by simp [partAt, modPart]
    have streams := KeepsSafety.foldl (fun s (q : Nat × Stream) => faultStream_keepsSafety q.1 none s)
    simp only [faultPartition, h, show ¬ (4 ≤ 0) by omega]
    exact ⟨(streams _ _).c3.trans ((goNotOk_keepsSafety _).c3.trans ((told _).c3.trans marked)), fun _ => (streams _ _).ok (goNotOk_ok _)⟩

/-- Holding the island disarms it, drives both lines low, silences the Spigot and puts partition 0 in C3 (R426). -/
theorem holdSafety_holds {s : State} (h : s.saf.held = false) :
    (holdSafety s).saf.held = true ∧ (holdSafety s).saf.arm = false ∧ (holdSafety s).saf.ok = false ∧ (holdSafety s).saf.lineA = false
      ∧ (holdSafety s).saf.lineB = false ∧ (holdSafety s).saf.spigot = .released ∧ (partAt (holdSafety s) 0).c3 = true := by
  obtain ⟨c3, ok⟩ := partFault_zero_c3 { source := 0x0D } (goNotOk s)
  unfold holdSafety
  simp only [h]
  exact ⟨rfl, rfl, ok (goNotOk_ok s), rfl, rfl, rfl, c3⟩

end Sys2Proof.Machine
end

section
/-! SUPPORT. The safety island's own commands, each by what it makes of the island: silence, SAFE_OK, arming, watch entries, lockstep, the
Spigot (R405, R407, R417 to R428). -/

namespace Sys2Proof.Machine

/-! ### SAFE_OK's causes and its lines (R417, R418) -/

/-- Arming takes SAFE_OK low until every watched stream has its clean commits again (R418, R419). -/
theorem dirtyAll_dirties (s : State) :
    (dirtyAll s).saf.ok = false ∧ (dirtyAll s).saf.arm = s.saf.arm ∧ (dirtyAll s).saf.cause = s.saf.cause
      ∧ (∀ n, tget (dirtyAll s).saf.watches {} n = { tget s.saf.watches {} n with clean := 0 })
      ∧ dirtyAll s = { s with saf := (dirtyAll s).saf } := by
  unfold dirtyAll
  obtain ⟨watches, -, -, arm, cause⟩ :=
    goNotOk_fields { s with saf := { s.saf with watches := tmap s.saf.watches fun _ w => { w with clean := 0 } } }
  refine ⟨goNotOk_ok _, arm, cause, fun n => ?_, goNotOk_only _⟩
  rw [watches]
  exact tget_tmap s.saf.watches {} (fun _ w => { w with clean := 0 }) n rfl

theorem safeOkToggle_toggles {s : State} (hh : s.saf.held = false) (hr : s.pwr.resetting = false) :
    exec .safeOkToggle s = .next (if s.saf.ok = true then { s with saf := { s.saf with lineA := !s.saf.lineA, lineB := s.saf.lineA } } else s) := by
  change execSafeOkToggle s = _
  unfold execSafeOkToggle
  cases hok : s.saf.ok <;> simp [hh, hr]

/-! ### A silence timer that ends (R407) -/

theorem tfind_risingAbove {α : Type} {b : Nat} {t : Tab α} (ht : risingAbove b t = true) {k : Nat} (h : k ≤ b) : tfind t k = none := by
  induction t generalizing b with
  | nil => rfl
  | cons x r ih =>
    obtain ⟨hb, hr⟩ : b < x.1 ∧ risingAbove x.1 r = true := by simpa [risingAbove] using ht
    simp only [tfind, if_neg (show x.1 ≠ k by omega)]
    exact ih hr (by omega)

/-- Two changes of every entry, one after the other. -/
theorem tmap_tmap {α : Type} (t : Tab α) (f g : Nat → α → α) : tmap (tmap t f) g = tmap t fun k v => g k (f k v) :=
  List.map_map

/-- The zone words after one binding is looked at: its word is stale if p picks it. -/
def markBinding (p : Nat × Nat → Bool) (dis : Bool) (z : Tab (BitVec 24)) (b : Nat × Nat × Nat) : Tab (BitVec 24) :=
  if p b.2 then tset z b.1 (staleWord dis (tget z 0x001400 b.1)) else z

theorem tget_markBinding (p : Nat × Nat → Bool) (dis : Bool) (z : Tab (BitVec 24)) (b : Nat × Nat × Nat) (i : Nat) :
    tget (markBinding p dis z b) 0x001400 i
      = if i = b.1 ∧ p b.2 = true then staleWord dis (tget z 0x001400 i) else tget z 0x001400 i := by
  unfold markBinding
  by_cases hp : p b.2 = true <;> by_cases hi : i = b.1 <;> simp [hp, hi, tget_tset]

theorem tget_foldl_markBinding (p : Nat × Nat → Bool) (dis : Bool) (i : Nat) (bs : Tab (Nat × Nat)) (z : Tab (BitVec 24))
    (h : rising bs = true) :
    tget (bs.foldl (markBinding p dis) z) 0x001400 i
      = if (tfind bs i).any p then staleWord dis (tget z 0x001400 i) else tget z 0x001400 i := by
  induction bs generalizing z with
  | nil => rfl
  | cons b r ih =>
    have above : risingAbove b.1 r = true := h
    rw [List.foldl_cons, ih _ (rising_of_risingAbove above), tget_markBinding]
    by_cases hi : i = b.1
    · subst hi
      simp [tfind, tfind_risingAbove above (Nat.le_refl _)]
    · simp [tfind, hi, Ne.symm hi]

/-- Marking stales the word of each binding that p picks and no other (R407, R423). -/
theorem zoneWord_staleZones (p : Nat × Nat → Bool) (dis : Bool) {s : State} (h : rising s.saf.bound = true) (i : Nat) :
    zoneWord (staleZones p dis s) i = if (tfind s.saf.bound i).any p then staleWord dis (zoneWord s i) else zoneWord s i :=
  tget_foldl_markBinding p dis i s.saf.bound s.saf.zones h

/-- What the end of a stream's silence timer makes of a watch entry. -/
def silencedWatch (id : Nat) (w : Watch) : Watch :=
  if w.en = true ∧ w.stream = id then { w with silenced := true, timer := false, clean := 0 }
  else if w.stream = id then { w with clean := 0 } else w

/-- The silence of an entry and its dirtying, one after the other. -/
theorem silencedWatch_eq (id : Nat) (w : Watch) :
    (let x := if w.en && w.stream == id then { w with silenced := true, timer := false } else w
     if x.stream == id then { x with clean := 0 } else x) = silencedWatch id w := by
  unfold silencedWatch
  by_cases he : w.en = true <;> by_cases hi : w.stream = id <;> simp [he, hi]

/-- The state when a stream's silence timer ends, before SAFE_OK is judged. -/
def silencedState (id : Nat) (s : State) : State :=
  { s with saf := { s.saf with zones := (staleZones (fun b => b.1 == id) false s).saf.zones,
                               watches := tmap s.saf.watches fun _ => silencedWatch id, silenceCount := satInc s.saf.silenceCount } }

theorem execSilenceExpiry_eq {s : State} {id : Nat} (hr : s.pwr.resetting = false) (hc : s.err.c4 = false) (hh : s.saf.held = false)
    (hw : watched s id = true) (ht : timedWatch s id = true) (hs : (strm s id).state = .running) :
    execSilenceExpiry id s = .next (goNotOk (silencedState id s)) := by
  have entries : tmap (tmap s.saf.watches fun _ w => if w.en && w.stream == id then { w with silenced := true, timer := false } else w)
      (fun _ w => if w.stream == id then { w with clean := 0 } else w) = tmap s.saf.watches fun _ => silencedWatch id := by
    rw [tmap_tmap]
    exact congrArg (tmap s.saf.watches) (funext fun _ => funext (silencedWatch_eq id))
  unfold execSilenceExpiry
  simp only [hr, hc, hh, hw, ht, hs]
  unfold silencedState
  rw [← entries]
  rfl

theorem silenceExpiry_stales {s : State} {id : Nat} (hr : s.pwr.resetting = false) (hc : s.err.c4 = false) (hh : s.saf.held = false)
    (hw : watched s id = true) (ht : timedWatch s id = true) (hs : (strm s id).state = .running) (hb : rising s.saf.bound = true) :
    ∃ t, exec (.silenceExpiry id) s = .next t ∧ t.saf.silenceCount = satInc s.saf.silenceCount ∧ t.saf.ok = false
      ∧ (s.saf.ok = true → t.saf.lineA = false ∧ t.saf.lineB = false ∧ t.saf.notok = satInc s.saf.notok
        ∧ t.saf.statusSeq = s.saf.statusSeq + 1)
      ∧ (∀ i z, tfind s.saf.bound i = some (id, z) → zoneWord t i = staleWord false (zoneWord s i))
      ∧ (∀ i, (∀ z, tfind s.saf.bound i ≠ some (id, z)) → zoneWord t i = zoneWord s i)
      ∧ (∀ n, tget t.saf.watches {} n = silencedWatch id (tget s.saf.watches {} n))
      ∧ t = { s with saf := t.saf } := by
  obtain ⟨watches, zones, count, -, -⟩ := goNotOk_fields (silencedState id s)
  have words : ∀ i, zoneWord (goNotOk (silencedState id s)) i
      = if (tfind s.saf.bound i).any (fun b => b.1 == id) then staleWord false (zoneWord s i) else zoneWord s i := fun i => by
    rw [← zoneWord_staleZones _ _ hb]
    simp only [zoneWord, zones]
    rfl
  refine ⟨_, execSilenceExpiry_eq hr hc hh hw ht hs, count, goNotOk_ok _, fun ok => goNotOk_of_ok (s := silencedState id s) ok, fun i z h => ?_,
    fun i h => ?_, fun n => ?_, goNotOk_only _⟩
  · simp [words, h]
  · have other : (tfind s.saf.bound i).any (fun b => b.1 == id) = false := by
      cases hf : tfind s.saf.bound i with
      | none => rfl
      | some b =>
        have : b.1 ≠ id := fun e => h b.2 (by rw [hf, ← e])
        simpa using this
    simp [words, other]
  · rw [watches]
    refine tget_tmap s.saf.watches {} (fun _ => silencedWatch id) n ?_
    simp [silencedWatch]

/-! ### Arming (R419, R427) -/

theorem keepsFtti_iff (s : State) : keepsFtti s = true ↔ ∀ w ∈ s.saf.watches, w.2.en = true →
    200 * w.2.budget + 2 * s.saf.half ≤ 200000 * s.saf.ftti ∧ 200 * w.2.silence + 2 * s.saf.half ≤ 200000 * s.saf.ftti := by
  unfold keepsFtti
  rw [List.all_eq_true]
  refine forall₂_congr fun w _ => ?_
  cases w.2.en <;> simp

theorem armCause_unlocked {s : State} (h : s.saf.lock = false) : armCause s = 1 := by simp [armCause, h]

theorem armCause_faulted {s : State} (hl : s.saf.lock = true) (h : (partAt s 0).present = false ∨ (partAt s 0).c3 = true) : armCause s = 2 := by
  rcases h with h | h <;> simp [armCause, hl, h]

theorem armCause_of_ftti {s : State} (hl : s.saf.lock = true) (hp : (partAt s 0).present = true) (hc : (partAt s 0).c3 = false)
    (hv : s.varMis = false) (hh : s.saf.held = false) : armCause s = if keepsFtti s = true then 0 else 3 := by
  cases hk : keepsFtti s <;> simp [armCause, hl, hp, hc, hv, hh, hk]

theorem execArm_eq {s : State} {v : Word} (hr : safReaches s 0 = true) (hb : nbit v.toNat 0 = true) :
    execArm 0 v s = .next (writeArm v s) := by simp [execArm, hr, hb]

theorem execDisarm_eq {s : State} {v : Word} (hr : safReaches s 0 = true) (hb : nbit v.toNat 0 = false) :
    execDisarm 0 v s = .next (writeArm v s) := by simp [execDisarm, hr, hb]

theorem writeArm_of_disarmed {s : State} {v : Word} (hb : nbit v.toNat 0 = true) (ha : s.saf.arm = false) :
    writeArm v s = if armCause s = 0 then dirtyAll { rewrite 0x030000 s with saf := { s.saf with arm := true, cause := 0 } }
      else { rewrite 0x030000 s with saf := { s.saf with cause := armCause s } } := by
  unfold writeArm
  rw [if_pos hb, if_neg (by simp [ha])]
  rfl

/-- The state with ARM 0, before SAFE_OK is judged. -/
def disarmedState (s : State) : State := { rewrite 0x030000 s with saf := { s.saf with arm := false } }

theorem writeArm_disarms {s : State} {v : Word} (hb : nbit v.toNat 0 = false) : writeArm v s = goNotOk (disarmedState s) := by
  simp only [writeArm, hb]
  rfl

/-- A refused ARM leaves its cause and nothing else in the safety island (R419). -/
theorem arm_refused {s : State} {v : Word} (hr : safReaches s 0 = true) (hb : nbit v.toNat 0 = true) (ha : s.saf.arm = false) {n : Nat}
    (hc : armCause s = n) (hn : n ≠ 0) : exec (.arm 0 v) s = .next { rewrite 0x030000 s with saf := { s.saf with cause := n } } :=
  (execArm_eq hr hb).trans (by rw [writeArm_of_disarmed hb ha, hc, if_neg hn])

theorem arm_arms {s : State} {v : Word} (hr : safReaches s 0 = true) (hb : nbit v.toNat 0 = true) (ha : s.saf.arm = false)
    (hc : armCause s = 0) :
    ∃ t, exec (.arm 0 v) s = .next t ∧ t.saf.arm = true ∧ t.saf.cause = 0 ∧ t.saf.ok = false
      ∧ (∀ n, tget t.saf.watches {} n = { tget s.saf.watches {} n with clean := 0 }) ∧ t = { s with saf := t.saf, err := t.err } := by
  obtain ⟨ok, arm, cause, watches, only⟩ := dirtyAll_dirties { rewrite 0x030000 s with saf := { s.saf with arm := true, cause := 0 } }
  refine ⟨_, (execArm_eq hr hb).trans (by rw [writeArm_of_disarmed hb ha, if_pos hc]), arm, cause, ok, watches, ?_⟩
  rw [only]
  rfl

/-- DISARM is not-OK at once (R418, R419). -/
theorem disarm_disarms {s : State} {v : Word} (hr : safReaches s 0 = true) (hb : nbit v.toNat 0 = false) :
    ∃ t, exec (.disarm 0 v) s = .next t ∧ t.saf.arm = false ∧ t.saf.ok = false
      ∧ (s.saf.ok = true → t.saf.lineA = false ∧ t.saf.lineB = false) ∧ t.saf.watches = s.saf.watches
      ∧ t = { s with saf := t.saf, err := t.err } := by
  obtain ⟨watches, -, -, arm, -⟩ := goNotOk_fields (disarmedState s)
  refine ⟨_, (execDisarm_eq hr hb).trans (by rw [writeArm_disarms hb]), arm, goNotOk_ok _, fun ok => ?_, watches, ?_⟩
  · obtain ⟨lineA, lineB, -, -⟩ := goNotOk_of_ok (s := disarmedState s) ok
    exact ⟨lineA, lineB⟩
  · rw [goNotOk_only]
    rfl

/-! ### Watch entries (R405, R428) -/

/-- Watch entry n enabled afresh for a stream: its bounds stand, and its silence timer starts where the stream is RUNNING (R407). -/
def enabledWatch (s : State) (n id : Nat) : Watch :=
  let w := tget s.saf.watches {} n
  { budget := w.budget, silence := w.silence, en := true, stream := id, timer := (strm s id).state == .running }

theorem execWatchEnable_eq {s : State} {n : Nat} {v : Word} (hr : safReaches s 0 = true) (hn : n < 64) (hb : nbit v.toNat 31 = true) :
    execWatchEnable 0 n v s = .next (writeWatch n v s) := by simp [execWatchEnable, hr, hn, hb]

theorem writeWatch_ignored {s : State} {n : Nat} {v : Word} (hb : nbit v.toNat 31 = true)
    (h : s.saf.lock = true ∨ refusesWatch s n (bits v.toNat 9 0) = true) : writeWatch n v s = s := by
  rcases h with h | h <;> simp [writeWatch, hb, h]

section
variable {s : State} {n : Nat} {v : Word} (hb : nbit v.toNat 31 = true) (hl : s.saf.lock = false) (hh : s.saf.held = false)
  (hf : refusesWatch s n (bits v.toNat 9 0) = false)
include hb hl hh hf

theorem writeWatch_same (he : (tget s.saf.watches {} n).en = true) (hs : (tget s.saf.watches {} n).stream = bits v.toNat 9 0) :
    writeWatch n v s = rewrite (watchReg n 0) s := by
  simp [writeWatch, hb, hl, hh, hf, he, hs]

theorem writeWatch_enables (hw : (tget s.saf.watches {} n).en = false ∨ (tget s.saf.watches {} n).stream ≠ bits v.toNat 9 0) :
    writeWatch n v s = { rewrite (watchReg n 0) s with
      saf := { s.saf with watches := tset s.saf.watches n (enabledWatch s n (bits v.toNat 9 0)) } } := by
  have differs : ((tget s.saf.watches {} n).en && (tget s.saf.watches {} n).stream == bits v.toNat 9 0) = false := by
    rcases hw with h | h <;> simp [h]
  have taken : (s.saf.lock || s.saf.held || true && refusesWatch s n (bits v.toNat 9 0)) = false := by simp [hl, hh, hf]
  unfold writeWatch
  simp only [hb, taken, differs]
  rfl

end

/-- An entry enabled afresh is the only one that changes (R405, R407). -/
theorem watchEnable_enables {s : State} {n : Nat} {v : Word} (hr : safReaches s 0 = true) (hn : n < 64) (hb : nbit v.toNat 31 = true)
    (hl : s.saf.lock = false) (hh : s.saf.held = false) (hf : refusesWatch s n (bits v.toNat 9 0) = false)
    (hw : (tget s.saf.watches {} n).en = false ∨ (tget s.saf.watches {} n).stream ≠ bits v.toNat 9 0) :
    ∃ t, exec (.watchEnable 0 n v) s = .next t ∧ tget t.saf.watches {} n = enabledWatch s n (bits v.toNat 9 0)
      ∧ (∀ k, k ≠ n → tget t.saf.watches {} k = tget s.saf.watches {} k)
      ∧ t = { s with saf := { s.saf with watches := t.saf.watches }, err := t.err } := by
  refine ⟨_, execWatchEnable_eq hr hn hb, ?_⟩
  rw [writeWatch_enables hb hl hh hf hw]
  exact ⟨tget_tset_self _ _ _ _, fun k hk => tget_tset_ne _ _ _ hk, rfl⟩

/-! ### Lockstep (R426) -/

theorem lockstepMismatch_eq {s : State} (hr : s.pwr.resetting = false) (hc : s.err.c4 = false) :
    exec .lockstepMismatch s = .next (holdSafety s) := by
  change execLockstepMismatch s = _
  simp [execLockstepMismatch, hr, hc]

/-! ### The Spigot (R420 to R423) -/

theorem drive_up {s : State} (h : spigotUp s = true) (o : SpigotOut) : drive o s = { s with saf := { s.saf with spigot := o } } := by
  simp [drive, h]

theorem drive_down {s : State} (h : spigotUp s = false) (o : SpigotOut) : (drive o s).saf.spigot = .released := by
  simp [drive, h]

theorem crc8Byte_lt {c b : Nat} (hc : c < 256) (hb : b < 256) : crc8Byte c b < 256 := by
  refine List.foldlRecOn (motive := (· < 256)) _ _ (Nat.xor_lt_two_pow (n := 8) hc hb) fun x hx _ _ => ?_
  split
  · exact Nat.xor_lt_two_pow (n := 8) (Nat.mod_lt _ (by decide)) (by decide)
  · omega

/-- A Spigot word carries its bits and their check code side by side (R421). -/
theorem spigotWord_splits (w : BitVec 24) : (spigotWord w).toNat / 256 = w.toNat
    ∧ (spigotWord w).toNat % 256 = crc8Byte (crc8Byte (crc8Byte 0xFF (w.toNat / 65536)) (w.toNat / 256 % 256)) (w.toNat % 256) := by
  have hw := w.isLt
  have check : crc8Byte (crc8Byte (crc8Byte 0xFF (w.toNat / 65536)) (w.toNat / 256 % 256)) (w.toNat % 256) < 256 :=
    crc8Byte_lt (crc8Byte_lt (crc8Byte_lt (by decide) (by omega)) (by omega)) (by omega)
  simp only [spigotWord, BitVec.toNat_ofNat]
  constructor <;> omega

/-- Where the Spigot answers, each command drives its word or nothing (R420 to R423, log entry 56). -/
theorem spigot_answers {s : State} (i : Byte) (up : spigotUp s = true) :
    let answers := fun (c : Instr) (o : SpigotOut) => ∃ t, exec c s = .next t ∧ t = { s with saf := { s.saf with spigot := o } }
    answers (.readZone i) (.word (spigotWord (zoneWord s i.toNat)))
    ∧ ((∀ k w, s.saf.spigot ≠ .run k w) → answers (.readRun i) (.run ((i.toNat + 1) % 256) (spigotWord (zoneWord s i.toNat))))
    ∧ (∀ k w, s.saf.spigot = .run k w → answers (.readRun i) (.run ((k + 1) % 256) (spigotWord (zoneWord s k))))
    ∧ (i = 0 → answers (.readStatus i) (.word (spigotWord (statusBits s)))) ∧ (i ≠ 0 → answers (.readStatus i) .released)
    ∧ answers (.echo i) (.word (spigotWord (echoBits i))) ∧ answers .spigotCsDeassert .released
    ∧ (i ∉ [(0x5A : Byte), 0x5B, 0x3C, 0x66] → answers (.spigotUnlistedCommand i) .released) := by
  intro answers
  have drives : ∀ (c : Instr) (o : SpigotOut), exec c s = .next (drive o s) → answers c o := fun c o h => ⟨_, h, drive_up up o⟩
  refine ⟨drives _ _ rfl, fun h => drives _ _ ?_, fun k w h => drives _ _ ?_, fun h => drives _ _ ?_, fun h => drives _ _ ?_, drives _ _ rfl,
    drives _ _ rfl, fun h => drives _ _ ?_⟩
  · change execReadRun i s = _
    unfold execReadRun
    split
    · next k w e => exact absurd e (h k w)
    · rfl
  · change execReadRun i s = _
    simp only [execReadRun, h]
  · change execReadStatus i s = _
    rw [execReadStatus, if_pos h]
  · change execReadStatus i s = _
    rw [execReadStatus, if_neg h]
  · change execSpigotUnlistedCommand i s = _
    rw [execSpigotUnlistedCommand, if_neg (by simpa using h)]

/-- Settles O55: each clause is the lemma of its command. -/
theorem spigotAndSafeOk : Obligations.SpigotAndSafeOk := by
  refine ⟨fun s id hr hc hh hw ht hs hb _ => silenceExpiry_stales hr hc hh hw ht hs hb, fun s hh hr => ⟨fun ok => ?_, fun ok => ?_⟩,
    fun s v reach => ⟨fun hb ha => ⟨fun hl => ?_, fun hl hp => ?_, fun hl hp hc hv hh => ?_⟩,
      disarm_disarms reach, fun n hn hb => ⟨fun hl hh hf => ⟨watchEnable_enables reach hn hb hl hh hf, fun he hs => ?_⟩, fun h => ?_⟩⟩,
    fun s hr hc => ⟨fun hh => ⟨_, lockstepMismatch_eq hr hc, holdSafety_holds hh⟩, fun hh => ?_⟩, fun s i => spigot_answers i,
    fun s i down => ⟨_, rfl, drive_down down _⟩, spigotWord_splits⟩
  · exact ⟨_, safeOkToggle_toggles hh hr, if_pos ok⟩
  · rw [safeOkToggle_toggles hh hr, if_neg (by simp [ok])]
  · exact ⟨_, arm_refused reach hb ha (armCause_unlocked hl) (by decide), rfl, rfl⟩
  · exact ⟨_, arm_refused reach hb ha (armCause_faulted hl hp) (by decide), rfl⟩
  · have cause := armCause_of_ftti hl hp hc hv hh
    exact ⟨fun hk => ⟨_, arm_refused reach hb ha (cause.trans (if_neg (by simp [hk]))) (by decide), rfl⟩, keepsFtti_iff s,
      fun hk => arm_arms reach hb ha (cause.trans (if_pos hk))⟩
  · refine ⟨_, execWatchEnable_eq reach hn hb, ?_⟩
    rw [writeWatch_same hb hl hh hf he hs]
    rfl
  · exact (execWatchEnable_eq reach hn hb).trans (by rw [writeWatch_ignored hb h])
  · rw [lockstepMismatch_eq hr hc, holdSafety, if_pos hh]

end Sys2Proof.Machine
end

section
/-! SUPPORT. What a fault of streams keeps of the configuration: the parity marks, SAF_LOCK and every ring's ENABLE stand through an event, a
dropped job, a returned buffer and a faulted stream or partition (R389, R391, R392). -/

namespace Sys2Proof.Machine

/-- The parity marks, SAF_LOCK and every ring's ENABLE stay. -/
structure KeepsConfig (s t : State) : Prop where
  parity : t.err.parity = s.err.parity
  lock : t.saf.lock = s.saf.lock
  enable : ∀ n, (ringAt t n).enable = (ringAt s n).enable

namespace KeepsConfig

theorem refl (s : State) : KeepsConfig s s := ⟨rfl, rfl, fun _ => rfl⟩

theorem trans {s t u : State} (h : KeepsConfig s t) (g : KeepsConfig t u) : KeepsConfig s u :=
  ⟨g.parity.trans h.parity, g.lock.trans h.lock, fun n => (g.enable n).trans (h.enable n)⟩

theorem of_fields {s t : State} (hp : t.err.parity = s.err.parity) (hl : t.saf.lock = s.saf.lock) (hr : t.host.rings = s.host.rings) :
    KeepsConfig s t :=
  ⟨hp, hl, fun n => by unfold ringAt; rw [hr]⟩

theorem of_cores {s t : State} (h : OnlyCoresQuiet s t) : KeepsConfig s t := .of_fields (by rw [h]) (by rw [h]) (by rw [h])

theorem of_mem {s t : State} (h : MemOnly s t) : KeepsConfig s t := .of_fields (by rw [h]) (by rw [h]) (by rw [h])

theorem withJobs {s t : State} (h : KeepsConfig s t) (l : List Job) : KeepsConfig s { t with jobs := l } := ⟨h.parity, h.lock, h.enable⟩

theorem setRing {n : Nat} {r : Ring} {s : State} (h : r.enable = (ringAt s n).enable) : KeepsConfig s (setRing n r s) := by
  refine ⟨rfl, rfl, fun k => ?_⟩
  by_cases hk : k = n
  · subst hk
    rw [ringAt_setRing_self, h]
  · rw [ringAt_setRing_ne hk]

/-- What keeps it from a state that agrees with s in the three keeps it from s. -/
theorem after {s t u : State} (h : KeepsConfig t u) (hp : t.err.parity = s.err.parity) (hl : t.saf.lock = s.saf.lock)
    (hr : t.host.rings = s.host.rings) : KeepsConfig s u :=
  (of_fields hp hl hr).trans h

/-- Steps that each keep it keep it together. -/
theorem foldl {β : Type} {f : State → β → State} (h : ∀ s b, KeepsConfig s (f s b)) (l : List β) (s : State) :
    KeepsConfig s (l.foldl f s) :=
  List.foldlRecOn l f (refl s) fun t k b _ => k.trans (h t b)

end KeepsConfig

/-! ### Events (R353, R391, R392) -/

theorem sendMsix_keepsConfig (f v : Nat) (s : State) : KeepsConfig s (sendMsix f v s) := by
  unfold sendMsix
  dsimp only
  split_ifs <;> exact .of_fields rfl rfl rfl

theorem announce_keepsConfig (n : Nat) (s : State) : KeepsConfig s (announce n s) := by
  unfold announce
  refine KeepsConfig.trans ?_ (sendMsix_keepsConfig _ _ _)
  exact .setRing rfl

theorem ringPut_keepsConfig (n : Nat) (l : List Byte) (s : State) : KeepsConfig s (ringPut n l s) := by
  unfold ringPut
  dsimp only
  have put : ∀ a bs (r : Ring), r.enable = (ringAt s n).enable → KeepsConfig s (setRing n r (hostWrite a bs s)) := fun a bs r h =>
    (KeepsConfig.setRing (s := hostWrite a bs s) h).after rfl rfl rfl
  have driven : ∀ t, KeepsConfig t (driveInta t) := fun t => .of_fields rfl rfl rfl
  refine KeepsConfig.trans ?_ (driven _)
  split
  · refine KeepsConfig.trans ?_ (announce_keepsConfig _ _)
    exact put _ _ _ rfl
  · exact put _ _ _ rfl

theorem newEntry_keepsConfig (n : Nat) (e : Event) (q : Word) (s : State) : KeepsConfig s (newEntry n e q s) := by
  unfold newEntry
  dsimp only
  split
  · exact .setRing rfl
  · refine KeepsConfig.trans ?_ (ringPut_keepsConfig _ _ _)
    split
    · exact .setRing rfl
    · exact .refl s

theorem placeEvent_keepsConfig (n : Nat) (e : Event) (q : Word) (s : State) : KeepsConfig s (placeEvent n e q s) := by
  have merged : ∀ m, KeepsConfig s (mergeEvent n m s) := fun m => by
    unfold mergeEvent
    refine KeepsConfig.after (KeepsConfig.setRing ?_) rfl rfl rfl
    rfl
  unfold placeEvent
  dsimp only
  split
  · split
    · exact merged _
    · exact newEntry_keepsConfig _ _ _ s
  · exact newEntry_keepsConfig _ _ _ s

theorem emit_keepsConfig (e : Event) (s : State) : KeepsConfig s (emit e s) := by
  have counted : KeepsConfig s (countClass e s) := by
    unfold countClass
    split <;> exact .of_fields rfl rfl rfl
  have delivered : ∀ q t, KeepsConfig t (deliverEvent e q t) := fun q t => by
    unfold deliverEvent
    split
    · exact .of_fields rfl rfl rfl
    · split
      · exact .of_fields rfl rfl rfl
      · exact placeEvent_keepsConfig _ _ _ t
  unfold emit
  exact counted.trans ((delivered _ _).after rfl rfl rfl)

/-! ### Dropped jobs and returned buffers (R118, R294, R324) -/

theorem returnHoldings_keepsConfig (job : Nat) (s : State) : KeepsConfig s (returnHoldings job s) := by
  have retired : ∀ ph pc t, KeepsConfig t (retire ph pc t) := fun ph pc t => by
    obtain ⟨-, -, -, only⟩ := retire_keeps ph pc t
    exact .of_cores only
  have grantedOne : ∀ cl ph t, KeepsConfig t (grantOne cl ph t) := fun cl ph t => by
    unfold grantOne
    split
    · split
      · dsimp only
        split
        · exact .refl t
        · exact (retired _ _ _).after rfl rfl rfl
      · exact .refl t
    · exact .refl t
  have granted : ∀ cl t, KeepsConfig t (grantSems cl t) := fun cl t => by
    unfold grantSems
    exact (KeepsConfig.foldl (fun u ph => grantedOne cl ph u) _ t).trans (.of_fields rfl rfl rfl)
  refine .foldl (fun t cl => ?_) _ s
  unfold returnIn
  dsimp only
  split
  · refine KeepsConfig.trans ?_ (granted cl _)
    exact .of_fields rfl rfl rfl
  · exact .refl t

theorem dropPackets_keepsConfig (p : Remote → Bool) (s : State) : KeepsConfig s (dropPackets p s) := by
  unfold dropPackets
  refine KeepsConfig.trans ?_ (.foldl (fun t r => ?_) _ _)
  · exact .of_fields rfl rfl rfl
  · split <;> exact .of_fields rfl rfl rfl

theorem stopParts_keepsConfig (job : Nat) (s : State) : KeepsConfig s (stopParts job s) := by
  have cleared : KeepsConfig s (clearParts false job s) := .of_fields rfl rfl rfl
  have released : ∀ t, KeepsConfig t (releaseClaims job none t) := fun t => .of_fields rfl rfl rfl
  exact ((cleared.trans (returnHoldings_keepsConfig job _)).trans (dropPackets_keepsConfig _ _)).trans (released _)

theorem giveBack_keepsConfig (p ptr : Nat) (o : Owner) (s : State) : KeepsConfig s (giveBack p ptr o s) := by
  have rejected : ∀ q, KeepsConfig s (rejectReturn p ptr o q s) := fun q => by
    unfold rejectReturn
    refine KeepsConfig.trans ?_ (emit_keepsConfig _ _)
    split <;> exact .of_fields rfl rfl rfl
  unfold giveBack
  split
  · split
    · unfold returnBuf
      split
      · exact rejected _
      · split
        · exact KeepsConfig.trans (t := setPool _ _ s) (.of_fields rfl rfl rfl) (.of_mem (settlePool_mem _ _))
        · exact rejected _
    · exact .refl s
  · exact .refl s

theorem dropJob_keepsConfig (id : Nat) (s : State) : KeepsConfig s (dropJob id s) := by
  have noted : ∀ ctx cl t, KeepsConfig t (noteBlocked ctx cl t) := fun ctx cl t => by
    unfold noteBlocked
    split
    · exact .refl t
    · exact .of_fields rfl rfl rfl
  unfold dropJob
  split
  · exact .refl s
  · refine KeepsConfig.trans ?_ (noted _ _ _)
    refine (KeepsConfig.trans (stopParts_keepsConfig id s) ?_).withJobs _
    split
    · exact giveBack_keepsConfig _ _ _ _
    · exact .refl _

/-! ### Streams and partitions faulted (R389) -/

theorem goNotOk_keepsConfig (s : State) : KeepsConfig s (goNotOk s) := by
  unfold goNotOk
  split
  · exact .of_fields rfl rfl rfl
  · exact .refl s

theorem faultStream_keepsConfig (id : Nat) (faulted : Option Nat) (s : State) : KeepsConfig s (faultStream id faulted s) := by
  have jobs : KeepsConfig s (dropStreamJobs id s) := .foldl (fun t (j : Job) => dropJob_keepsConfig j.id t) _ s
  have watch : ∀ t, KeepsConfig t (watchRunning id false t) := fun t => by
    unfold watchRunning
    split
    · exact (goNotOk_keepsConfig _).after rfl rfl rfl
    · exact .refl t
  unfold faultStream
  split
  · exact .refl s
  · exact .refl s
  · refine KeepsConfig.trans ?_ (emit_keepsConfig _ _)
    refine KeepsConfig.trans ?_ (watch _)
    exact jobs.trans (.of_fields rfl rfl rfl)

theorem partFault_keepsConfig (p : Nat) (e : Event) (s : State) : KeepsConfig s (partFault p e s) := by
  unfold partFault
  split
  · exact emit_keepsConfig _ s
  · unfold faultPartition
    split
    · exact .refl s
    · refine KeepsConfig.trans ?_ (.foldl (fun t q => faultStream_keepsConfig _ _ t) _ _)
      have told : KeepsConfig s (emit { e with cls := 3, part := some p } (modPart p (fun q => { q with c3 := true }) s)) :=
        (emit_keepsConfig _ _).after rfl rfl rfl
      dsimp only
      split
      · exact (told.trans (goNotOk_keepsConfig _)).trans (.of_fields rfl rfl rfl)
      · exact told

end Sys2Proof.Machine
end

section
/-! SUPPORT. Registers, one lemma per block that a write reaches and per register it changes, the mailbox and SMBus reads (R333, R437,
R469 to R484, R492). -/

namespace Sys2Proof.Machine

/-! ### Fields of a 32-bit word -/

theorem bits_mod_word (v : Nat) {hi lo : Nat} (h : hi < 32) : bits (v % 2 ^ 32) hi lo = bits v hi lo := by
  unfold bits
  by_cases hl : lo ≤ 32
  · rw [show (2 : Nat) ^ 32 = 2 ^ lo * 2 ^ (32 - lo) by rw [← Nat.pow_add]; congr 1; omega, Nat.mod_mul_right_div_self,
      Nat.mod_mod_of_dvd _ (Nat.pow_dvd_pow 2 (by omega))]
  · rw [show hi + 1 - lo = 0 by omega, Nat.pow_zero, Nat.mod_one, Nat.mod_one]

/-! ### What a write reaches (R333, R334, R469, R477) -/

/-- A whole aligned 32-bit write reaches its one location. -/
theorem registerWrite_word {w : RegWrite} {s : State} (hw : w.whole = true) (hs : w.size = 4) (ha : w.offset % 4 = 0) (ho : w.offset < 0x2000000) :
    exec (.registerWrite w) s = .next (writeWord w.fn w.offset (w.value.toNat % 2 ^ 32) s) := by
  change execRegisterWrite w s = _
  simp [execRegisterWrite, writeBar0, hw, hs, ha, ho]

theorem registerWrite_part {w : RegWrite} {s : State} (hw : w.whole = false) : exec (.registerWrite w) s = .next s := by
  change execRegisterWrite w s = _
  simp [execRegisterWrite, writeBar0, hw]

theorem registerWrite_unaligned {w : RegWrite} {s : State} (hs : w.size = 4) (ha : w.offset % 4 ≠ 0) : exec (.registerWrite w) s = .next s := by
  change execRegisterWrite w s = _
  simp [execRegisterWrite, writeBar0, hs, ha]

/-- What a write of PF0 in the PWR, SAF, PMU and FAB blocks reaches: PWR at every stage, the others while the device runs, PMU and FAB
while their island's clock does. -/
theorem writeWord_blocks {s : State} {o : Nat} (v : Nat) (h : pf0Reaches s 0 = true) (ho : o < 0x10000) :
    writeWord 0 (0x020000 + o) v s = writePwr o v s
    ∧ (running s = true → writeWord 0 (0x030000 + o) v s = writeSaf o v s)
    ∧ (running s = true → blockUp s 84 = true →
        writeWord 0 (0x050000 + o) v s = writePmu o v s ∧ writeWord 0 (0x060000 + o) v s = writeFab o v s) := by
  refine ⟨?_, fun hr => ?_, fun hr hu => ⟨?_, ?_⟩⟩
  all_goals
    unfold writeWord
    rw [if_neg (by omega), if_neg (by omega), if_neg (by omega), if_neg (by omega), h]
  · rw [show (0x020000 + o) / 0x10000 = 2 by omega, show (0x020000 + o) % 0x10000 = o by omega]
    rfl
  · rw [show (0x030000 + o) / 0x10000 = 3 by omega, show (0x030000 + o) % 0x10000 = o by omega]
    simp [hr]
  · rw [show (0x050000 + o) / 0x10000 = 5 by omega, show (0x050000 + o) % 0x10000 = o by omega]
    simp [hr, hu]
  · rw [show (0x060000 + o) / 0x10000 = 6 by omega, show (0x060000 + o) % 0x10000 = o by omega]
    simp [hr, hu]

/-! ### Locks (R474) -/

theorem lock_eq {s : State} {off : Nat} {v : Word} (ho : off ∈ lockRegs) (hb : nbit v.toNat 0 = true) :
    exec (.lock 0 off v) s = .next (writeWord 0 off v.toNat s) := by
  change execLock 0 off v s = _
  simp [execLock, ho, hb]

/-- A lock register's bit 0 locks its block. -/
theorem lock_locks {s : State} {v : Word} (h : pf0Reaches s 0 = true) (hb : nbit v.toNat 0 = true) :
    (pwrLocked s = false → ∃ t, exec (.lock 0 0x020004 v) s = .next t ∧ t = { s with pwr := { s.pwr with lock := true }, err := t.err })
    ∧ (running s = true → s.saf.held = false → s.saf.lock = false →
        ∃ t, exec (.lock 0 0x030004 v) s = .next t ∧ t = { s with saf := { s.saf with lock := true }, err := t.err })
    ∧ (running s = true → blockUp s 84 = true → s.fab.lock = false →
        ∃ t, exec (.lock 0 0x060004 v) s = .next t ∧ t = { s with fab := { s.fab with lock := true }, err := t.err }) := by
  obtain ⟨pwr, saf, fab⟩ := writeWord_blocks v.toNat h (show 4 < 0x10000 by decide)
  refine ⟨fun hl => ?_, fun hr hh hl => ?_, fun hr hu hl => ?_⟩
  · refine ⟨_, (lock_eq (by decide) hb).trans (congrArg Host.Outcome.next pwr), ?_⟩
    simp [writePwr, hl, hb, rewrite]
  · refine ⟨_, (lock_eq (by decide) hb).trans (congrArg Host.Outcome.next (saf hr)), ?_⟩
    simp [writeSaf, hh, hl, hb, safField, rewrite]
  · refine ⟨_, (lock_eq (by decide) hb).trans (congrArg Host.Outcome.next (fab hr hu).2), ?_⟩
    simp [writeFab, hl, hb, rewrite]

/-! ### Counter selections (R483, R484) -/

/-- A selection as a write leaves it, by its fields: enable, CHAIN but on PMC7, and the code if the island lists it. -/
theorem evtField_fields (isl n v : Nat) (old : Word) :
    nbit (evtField isl n v old).toNat 31 = nbit v 31 ∧ nbit (evtField isl n v old).toNat 30 = (nbit v 30 && n != 7)
      ∧ (evtField isl n v old).toNat % 256 = if v % 256 ∈ islandEvents isl then v % 256 else old.toNat % 256 := by
  have packed : ∀ (a b : Bool) (c : Nat), c < 256 →
      nbit (BitVec.ofNat 32 (2 ^ 31 * b2n a + 2 ^ 30 * b2n b + c)).toNat 31 = a
        ∧ nbit (BitVec.ofNat 32 (2 ^ 31 * b2n a + 2 ^ 30 * b2n b + c)).toNat 30 = b
        ∧ (BitVec.ofNat 32 (2 ^ 31 * b2n a + 2 ^ 30 * b2n b + c)).toNat % 256 = c := fun a b c hc => by
    rw [BitVec.toNat_ofNat]
    cases a <;> cases b <;> simp [nbit, b2n] <;> omega
  obtain ⟨enable, chain, code⟩ := packed (nbit v 31) (nbit v 30 && n != 7)
    (if (islandEvents isl).contains (v % 256) then v % 256 else old.toNat % 256) (by split <;> omega)
  exact ⟨enable, chain, code.trans (by simp)⟩

theorem pmuEvt_eq {s : State} {n : Nat} {v : Word} (h : pf0Reaches s 0 = true) (hn : n < 8) (hr : running s = true)
    (hu : blockUp s 84 = true) : exec (.pmuEvt 0 n v) s = .next (writeEvt n v.toNat s) := by
  obtain ⟨-, -, pmu⟩ := writeWord_blocks v.toNat h (show 0x10 + 4 * n < 0x10000 by omega)
  have selected : writePmu (0x10 + 4 * n) v.toNat s = writeEvt n v.toNat s := by
    unfold writePmu
    rw [if_neg (by omega), if_pos (by omega), show (0x10 + 4 * n - 0x10) / 4 = n by omega]
  change execPmuEvt 0 n v s = _
  rw [execPmuEvt, if_pos hn, show 0x050010 + 4 * n = 0x050000 + (0x10 + 4 * n) by omega, (pmu hr hu).1, selected]

theorem pmuEvt_selects {s : State} {n : Nat} {v : Word} (h : pf0Reaches s 0 = true) (hn : n < 8) (hr : running s = true)
    (hu : blockUp s 84 = true) (hd : islandDown s s.pmuIsl = false) (hp : s.err.parity.contains 0x050000 = false) :
    ∃ t, exec (.pmuEvt 0 n v) s = .next t
      ∧ tget (tget t.islands {} s.pmuIsl).evt 0 n = evtField s.pmuIsl n v.toNat (tget (tget s.islands {} s.pmuIsl).evt 0 n)
      ∧ (∀ k, k ≠ s.pmuIsl → tget t.islands {} k = tget s.islands {} k) ∧ t = { s with islands := t.islands } := by
  refine ⟨_, pmuEvt_eq h hn hr hu, ?_⟩
  unfold writeEvt
  dsimp only
  rw [hd, hp, if_neg (by decide)]
  exact ⟨by simp [tmod], fun k hk => tget_tset_ne _ _ _ hk, rfl⟩

/-! ### DEV_SCRATCH and PWR (R431, R437, R479) -/

theorem writeWord_scratch {s : State} {fn v : Nat} (h : hostReaches s fn = true) : writeWord fn 0x40 v s = writeScratch fn v s := by
  simp [writeWord, h]

/-- A function's DEV_SCRATCH takes the value; PF0's copy is checked again. -/
theorem writeScratch_writes (fn v : Nat) (s : State) :
    fnAt (writeScratch fn v s) fn = { fnAt s fn with scratch := BitVec.ofNat 32 v } ∧ (∀ k, k ≠ fn → fnAt (writeScratch fn v s) k = fnAt s k)
      ∧ writeScratch fn v s = { s with host := { s.host with fns := (writeScratch fn v s).host.fns }, err := (writeScratch fn v s).err } := by
  have read : ∀ k, fnAt (writeScratch fn v s) k = fnAt (modFn fn (fun g => { g with scratch := BitVec.ofNat 32 v }) s) k := fun k => by
    unfold writeScratch
    dsimp only
    split <;> rfl
  refine ⟨by simp [read], fun k hk => by simp [read, hk], ?_⟩
  unfold writeScratch
  dsimp only
  split <;> rfl

theorem writePwr_locked {s : State} {off v : Nat} (h : pwrLocked s = true) : writePwr off v s = s := by simp [writePwr, h]

theorem writePwr_cap {s : State} {v : Nat} (h : pwrLocked s = false) :
    writePwr 0 v s = if 120 ≤ bits v 8 0 ∧ bits v 8 0 ≤ 400 then rewrite 0x020000 { s with pwr := { s.pwr with cap := bits v 8 0 } }
      else s := by
  simp [writePwr, h]

theorem writePwr_shedth {s : State} {v : Nat} (h : pwrLocked s = false) :
    writePwr 8 v s = if goodShedTh v = true then rewrite 0x020008 { s with pwr := { s.pwr with shedth := BitVec.ofNat 32 v } } else s := by
  simp [writePwr, h]

/-- PWR_SHEDTH's ranges and their 1 % steps (R437, Table 17.3). -/
theorem goodShedTh_iff (v : Nat) : goodShedTh v = true ↔
    180 ≤ bits v 7 0 ∧ bits v 7 0 ≤ 194 ∧ 174 ≤ bits v 15 8 ∧ bits v 15 8 ≤ 190 ∧ 168 ≤ bits v 23 16 ∧ bits v 23 16 ≤ 186
      ∧ 160 ≤ bits v 31 24 ∧ bits v 31 24 ≤ 180 ∧ bits v 15 8 + 2 ≤ bits v 7 0 ∧ bits v 23 16 + 2 ≤ bits v 15 8
      ∧ bits v 31 24 + 2 ≤ bits v 23 16 := by
  simp [goodShedTh, and_assoc]

theorem goodShedTh_mod_word (v : Nat) : goodShedTh (v % 2 ^ 32) = goodShedTh v := by
  rw [Bool.eq_iff_iff, goodShedTh_iff, goodShedTh_iff]
  simp only [bits_mod_word v (show 7 < 32 by decide), bits_mod_word v (show 15 < 32 by decide), bits_mod_word v (show 23 < 32 by decide),
    bits_mod_word v (show 31 < 32 by decide)]

/-- While no register is marked, a level above the present one has its own threshold (R436, R437). -/
theorem shedBelow_above {s : State} {l : Nat} (hl : s.pwr.level < l) (hp : s.err.parity = []) :
    shedBelow s l = 5 * bits s.pwr.shedth.toNat (8 * l - 1) (8 * l - 8) := by
  simp [shedBelow, shedThOf, pwrReg, hp, hl]

section
variable {w : RegWrite} {s : State} (hw : w.whole = true) (hs : w.size = 4)
include hw hs

theorem registerWrite_scratch (ho : w.offset = 0x40) (h : hostReaches s w.fn = true) :
    exec (.registerWrite w) s = .next (writeScratch w.fn (w.value.toNat % 2 ^ 32) s) := by
  rw [registerWrite_word hw hs (by simp [ho]) (by simp [ho]), ho, writeWord_scratch h]

theorem registerWrite_pwr {o : Nat} (ho : w.offset = 0x020000 + o) (ha : o % 4 = 0) (hb : o < 0x10000) (hf : w.fn = 0)
    (h : pf0Reaches s 0 = true) : exec (.registerWrite w) s = .next (writePwr o (w.value.toNat % 2 ^ 32) s) := by
  obtain ⟨pwr, -⟩ := writeWord_blocks (w.value.toNat % 2 ^ 32) h hb
  rw [registerWrite_word hw hs (by omega) (by omega), ho, hf, pwr]

/-- PWR_CAP takes 120 to 400 W while PWR_LOCK is open. -/
theorem registerWrite_cap (ho : w.offset = 0x020000) (hf : w.fn = 0) (h : pf0Reaches s 0 = true) :
    (pwrLocked s = false → 120 ≤ bits w.value.toNat 8 0 → bits w.value.toNat 8 0 ≤ 400 →
      ∃ t, exec (.registerWrite w) s = .next t ∧ t = { s with pwr := { s.pwr with cap := bits w.value.toNat 8 0 }, err := t.err })
    ∧ (pwrLocked s = true ∨ bits w.value.toNat 8 0 < 120 ∨ 400 < bits w.value.toNat 8 0 → exec (.registerWrite w) s = .next s) := by
  have reached := registerWrite_pwr hw hs (o := 0) ho (by decide) (by decide) hf h
  have field : bits (w.value.toNat % 2 ^ 32) 8 0 = bits w.value.toNat 8 0 := bits_mod_word _ (by decide)
  refine ⟨fun hl lo hi => ⟨_, reached, ?_⟩, fun hc => reached.trans (congrArg Host.Outcome.next ?_)⟩
  · rw [writePwr_cap hl, field, if_pos ⟨lo, hi⟩]
    rfl
  · cases hl : pwrLocked s with
    | true => exact writePwr_locked hl
    | false => rw [writePwr_cap hl, field, if_neg (by simp only [hl, Bool.false_eq_true, false_or] at hc; omega)]

/-- PWR_SHEDTH takes a good value whole and no other (R437). -/
theorem registerWrite_shedth (ho : w.offset = 0x020008) (hf : w.fn = 0) (h : pf0Reaches s 0 = true) (hl : pwrLocked s = false) :
    exec (.registerWrite w) s = .next (if goodShedTh w.value.toNat = true then
      rewrite 0x020008 { s with pwr := { s.pwr with shedth := BitVec.ofNat 32 (w.value.toNat % 2 ^ 32) } } else s) := by
  rw [registerWrite_pwr hw hs (o := 8) ho (by decide) (by decide) hf h, writePwr_shedth hl, goodShedTh_mod_word]

end

/-! ### The mailbox (R480, R481) -/

theorem mbxSel_eq {s : State} {fn : Nat} {v : Word} (h : hostReaches s fn = true) : exec (.mbxSel fn v) s = .next (writeMbxSel fn v s) := by
  change execMbxSel fn v s = _
  rw [execMbxSel, if_pos h]

/-- Reading a record draws free values, and a challenge's read by PF0 makes a fresh one (R465). -/
theorem readRecord_eq (fn sel : Nat) (s : State) : ∃ t, readRecord fn sel s = (mailRecord s fn sel, t) ∧ t.host = s.host
    ∧ (sel = 0xC0002 ∧ fn = 0 → t.sec.challenge.isSome ∧ t.sec = { s.sec with challenge := t.sec.challenge })
    ∧ (¬ (sel = 0xC0002 ∧ fn = 0) → t.sec = s.sec) := by
  refine ⟨_, rfl, ?_⟩
  dsimp only
  split
  · next h => exact ⟨rfl, fun _ => ⟨rfl, rfl⟩, fun n => absurd h n⟩
  · next h => exact ⟨rfl, fun c => absurd c h, fun _ => rfl⟩

/-- A fill ends with its record, or UNKNOWN, in the function's mailbox. -/
theorem mailboxFillDone_fills {s : State} {fn : Nat} (hr : s.pwr.resetting = false) (hb : (fnAt s fn).mbxBusy = true) :
    ∃ t, exec (.mailboxFillDone fn) s = .next t
      ∧ fnAt t fn = fillMailbox (mailRecord s fn (fnAt s fn).mbxSel.toNat) (fnAt s fn) ∧ (∀ k, k ≠ fn → fnAt t k = fnAt s k)
      ∧ ((fnAt s fn).mbxSel = 0xC0002 → fn = 0 → t.sec.challenge.isSome ∧ t.sec = { s.sec with challenge := t.sec.challenge })
      ∧ ((fnAt s fn).mbxSel ≠ 0xC0002 ∨ fn ≠ 0 → t.sec = s.sec) := by
  obtain ⟨t, read, host, fresh, kept⟩ := readRecord_eq fn (fnAt s fn).mbxSel.toNat s
  have same : ∀ k, fnAt t k = fnAt s k := fun k => by unfold fnAt; rw [host]
  have sel : (fnAt s fn).mbxSel.toNat = 0xC0002 ↔ (fnAt s fn).mbxSel = 0xC0002 :=
    ⟨fun h => BitVec.eq_of_toNat_eq h, fun h => by rw [h]; rfl⟩
  rw [sel] at fresh kept
  refine ⟨modFn fn (fillMailbox (mailRecord s fn (fnAt s fn).mbxSel.toNat)) t, ?_, by simp [same], fun k hk => by simp [hk, same],
    fun h0 hf => fresh ⟨h0, hf⟩, fun h => kept (not_and_or.mpr h)⟩
  change execMailboxFillDone fn s = _
  simp [execMailboxFillDone, hr, hb, read]

/-! ### SMBus (R492) -/

/-- A Block Read gives its register while the interface answers, and nothing else. -/
theorem smbusRead_reads (w : Word) (s : State) :
    (smbusUp s = true → smbusRead w s = { s with smbus := some w }) ∧ (smbusUp s = false → smbusRead w s = { s with smbus := none }) :=
  ⟨fun h => by simp [smbusRead, h], fun h => by simp [smbusRead, h]⟩

end Sys2Proof.Machine
end

section
/-! SUPPORT. Configuration parity (R476, Table 19.1): what an event leaves of the counts, a register's mark and its effect; and the statement
about registers and the mailbox. -/

namespace Sys2Proof.Machine

/-! ### Counts (R401) -/

/-- Delivering an event counts at most a dropped one. -/
theorem deliverEvent_err (e : Event) (q : Word) (s : State) :
    (deliverEvent e q s).err = { s.err with evdrop := (deliverEvent e q s).err.evdrop } := by
  unfold deliverEvent
  split
  · rfl
  · split
    · rfl
    · rw [placeEvent_host]

/-- An error event of class C0 to C4 is counted in its class alone. -/
theorem emit_counts {e : Event} (ht : e.type = 1) (hc : e.cls < 5) (s : State) :
    (emit e s).err = { s.err with cnt := tmod s.err.cnt 0 e.cls satInc, evdrop := (emit e s).err.evdrop } := by
  have counted : countClass e s = { s with err := { s.err with cnt := tmod s.err.cnt 0 e.cls satInc } } := by
    simp [countClass, ht, hc]
  unfold emit
  dsimp only
  rw [deliverEvent_err, counted]
  rfl

/-! ### The mark and its effect -/

/-- The state with a register marked. -/
def markParity (off : Nat) (s : State) : State := { s with err := { s.err with parity := off :: s.err.parity } }

theorem parityScan_quiet (off : Nat) (s : State) : exec (.parityScan off false) s = .next s := rfl

theorem parityScan_marked {off : Nat} {s : State} (h : alreadyMarred off s = true) : exec (.parityScan off true) s = .next s := by
  change execParityScan off true s = _
  simp [execParityScan, h]

/-- A first mismatch of a checked register has its effect. -/
theorem parityScan_first {off : Nat} {s t : State} (hr : s.pwr.resetting = false) (hc : s.err.c4 = false) (ha : alreadyMarred off s = false)
    (he : parityEffect off s = some t) : exec (.parityScan off true) s = .next t := by
  change execParityScan off true s = _
  simp [execParityScan, hr, hc, ha, he]

theorem parityEffect_dev {off : Nat} (h : off = 0x20 ∨ off = 0x40) (s : State) :
    parityEffect off s = some (parityEvent 0x09 off none none (markParity off s)) := if_pos h

theorem parityEffect_pwr {off : Nat} (h : off ∈ [0x020000, 0x020004, 0x020008, 0x02000C]) (s : State) :
    parityEffect off s = some (partFault 0 { source := 0x0E, code := 0xF0, detail := [off] } (markParity off s)) := by
  simp only [List.mem_cons, List.not_mem_nil, or_false] at h
  rcases h with rfl | rfl | rfl | rfl <;> rfl

theorem parityEffect_ring {n o : Nat} (hn : n < 4096) (ho : o ≤ 0x1C) (ha : o % 4 = 0) (s : State) :
    parityEffect (0x400000 + 0x400 * n + o) s
      = some (parityRing n (0x400000 + 0x400 * n + o) (markParity (0x400000 + 0x400 * n + o) s)) := by
  have slot : (0x400000 + 0x400 * n + o) % 0x400 ≤ 0x1C ∧ (0x400000 + 0x400 * n + o) % 4 = 0 := by omega
  unfold parityEffect
  dsimp only
  rw [if_neg (by omega), if_pos (by omega), if_pos (by simpa using slot), show (0x400000 + 0x400 * n + o - 0x400000) / 0x400 = n by omega]
  rfl

/-- A ring as its parity mismatch leaves it. -/
def stoppedRing (r : Ring) : Ring := { r with enable := false, unannounced := 0, merges := [] }

/-- A ring's mismatch disables it; the faults that follow keep that and the mark. -/
theorem parityRing_keepsConfig (n off : Nat) (s : State) : KeepsConfig (modRing n stoppedRing s) (parityRing n off s) := by
  have streams : ∀ (l : Tab Stream) t, KeepsConfig t (l.foldl (fun s t => faultStream t.1 none s) t) := fun l t =>
    .foldl (fun t q => faultStream_keepsConfig q.1 none t) l t
  unfold parityRing
  dsimp only
  refine KeepsConfig.after (t := driveInta (modRing n stoppedRing s)) ?_ rfl rfl rfl
  split <;> refine KeepsConfig.trans ?_ (streams _ _)
  · exact partFault_keepsConfig _ _ _
  · exact emit_keepsConfig _ _

/-- A DEV register: its mark and a C2 event, and nothing of streams or memory. -/
theorem parity_dev {off : Nat} {s : State} (hr : s.pwr.resetting = false) (hc : s.err.c4 = false) (ha : alreadyMarred off s = false)
    (h : off = 0x20 ∨ off = 0x40) : ∃ t, exec (.parityScan off true) s = .next t ∧ t.err.parity = off :: s.err.parity
      ∧ tget t.err.cnt 0 2 = satInc (tget s.err.cnt 0 2) ∧ t.streams = s.streams ∧ t.mem = s.mem := by
  let e : Event := { cls := 2, source := 0x09, code := 0xF0, detail := [off] }
  have counts := emit_counts (e := e) rfl (show 2 < 5 by decide) (markParity off s)
  have only := emit_touches e (markParity off s)
  refine ⟨emit e (markParity off s), parityScan_first hr hc ha (parityEffect_dev h s), ?_, ?_, ?_, ?_⟩
  · rw [counts]; rfl
  · rw [counts]; exact tget_tset_self _ _ _ _
  · rw [only]; rfl
  · rw [only]; rfl

/-- A PWR register: its mark and C3 in partition 0. -/
theorem parity_pwr {off : Nat} {s : State} (hr : s.pwr.resetting = false) (hc : s.err.c4 = false) (ha : alreadyMarred off s = false)
    (h : off ∈ [0x020000, 0x020004, 0x020008, 0x02000C]) : ∃ t, exec (.parityScan off true) s = .next t ∧ off ∈ t.err.parity
      ∧ (partAt t 0).c3 = true ∧ t.saf.lock = s.saf.lock := by
  let e : Event := { source := 0x0E, code := 0xF0, detail := [off] }
  obtain ⟨parity, lock, -⟩ := partFault_keepsConfig 0 e (markParity off s)
  obtain ⟨c3, -⟩ := partFault_zero_c3 e (markParity off s)
  exact ⟨_, parityScan_first hr hc ha (parityEffect_pwr h s), by rw [parity]; exact List.mem_cons_self, c3, lock⟩

/-- A ring's register: its mark and the ring disabled. -/
theorem parity_ring {n o : Nat} {s : State} (hr : s.pwr.resetting = false) (hc : s.err.c4 = false)
    (ha : alreadyMarred (0x400000 + 0x400 * n + o) s = false) (hn : n < 4096) (ho : o ≤ 0x1C) (h4 : o % 4 = 0) :
    ∃ t, exec (.parityScan (0x400000 + 0x400 * n + o) true) s = .next t ∧ 0x400000 + 0x400 * n + o ∈ t.err.parity
      ∧ (ringAt t n).enable = false := by
  obtain ⟨parity, -, enable⟩ := parityRing_keepsConfig n (0x400000 + 0x400 * n + o) (markParity (0x400000 + 0x400 * n + o) s)
  refine ⟨_, parityScan_first hr hc ha (parityEffect_ring hn ho h4 s), by rw [parity]; exact List.mem_cons_self, ?_⟩
  rw [enable, ringAt_modRing_self]
  rfl

/-- Settles O57: each clause is the lemma of its command or register. -/
theorem registersAndMailbox : Obligations.RegistersAndMailbox := by
  refine ⟨by decide, fun s fn v h => ⟨_, mbxSel_eq h, ?_, fun k hk => ?_, rfl⟩, fun s fn hr hb => ⟨fun l hl => ?_, fun hn => ?_⟩,
    fun s v h => ⟨lock_locks h, fun n hn hr hu hd hp => ?_⟩,
    fun s w => ⟨registerWrite_part, registerWrite_unaligned, fun hw hs ho h => ?_, fun hw hs ho hf h => registerWrite_cap hw hs ho hf h,
      fun hw hs ho hf h hl => ⟨fun good => ?_, fun bad => ?_⟩⟩,
    by decide, fun s l _ _ hl hp => shedBelow_above hl hp,
    fun s off => ⟨parityScan_quiet off s, fun _ _ => parityScan_marked, fun hr hc ha => ⟨parity_dev hr hc ha, parity_pwr hr hc ha, ?_⟩⟩,
    fun s => ?_⟩
  · simp [writeMbxSel]
  · simp [writeMbxSel, hk]
  · obtain ⟨t, ends, mailbox, others, fresh, kept⟩ := mailboxFillDone_fills hr hb
    exact ⟨t, ends, by rw [mailbox, hl]; rfl, fresh, kept, others⟩
  · obtain ⟨t, ends, mailbox, -⟩ := mailboxFillDone_fills hr hb
    exact ⟨t, ends, by rw [mailbox, hn]; rfl⟩
  · obtain ⟨t, ends, selection, others, only⟩ := pmuEvt_selects h hn hr hu hd hp
    exact ⟨t, ends, by dsimp only; rw [selection]; exact evtField_fields _ _ _ _, others, only⟩
  · exact ⟨_, registerWrite_scratch hw hs ho h, writeScratch_writes _ _ _⟩
  · exact ⟨_, (registerWrite_shedth hw hs ho hf h hl).trans (by rw [if_pos ((goodShedTh_iff _).mpr good)]), rfl⟩
  · exact (registerWrite_shedth hw hs ho hf h hl).trans (by rw [if_neg (fun g => bad ((goodShedTh_iff _).mp g))])
  · rintro n o hn ho h4 rfl
    exact parity_ring hr hc ha hn ho h4
  · have reads : ∀ (c : Instr) (w : Word), exec c s = .next (smbusRead w s) →
        (smbusUp s = true → ∃ t, exec c s = .next t ∧ t = { s with smbus := some w })
          ∧ (smbusUp s = false → ∃ t, exec c s = .next t ∧ t = { s with smbus := none }) := fun c w h =>
      ⟨fun up => ⟨_, h, (smbusRead_reads w s).1 up⟩, fun down => ⟨_, h, (smbusRead_reads w s).2 down⟩⟩
    exact ⟨reads _ _ rfl, reads _ _ rfl, reads _ _ rfl, reads _ _ rfl, reads _ _ rfl⟩

end Sys2Proof.Machine
end
